-- ==== Sys2Proof/Word.lean ====
section
/-! DEFINITION. The words the manual treats as bits: one abbreviation per width it names (00_scope.md, "The part in numbers"). -/

namespace Sys2Proof

/-- A byte of a record, a block or a frame. -/
abbrev Byte := BitVec 8

/-- A 64-bit word of a host link or memory link channel (R175); one beat of data. -/
abbrev Word := BitVec 64

/-- A 36-bit host byte address (R114). -/
abbrev Address := BitVec 36

/-- A line address: the byte address divided by 64 (R114). -/
abbrev Line := BitVec 30

/-- A record sequence number, compared modulo 2^32 (R4, R5). -/
abbrev Seq := BitVec 32

/-- The logical number q of a journal segment, compared as sequence numbers are (R5, R9). -/
abbrev SegNo := BitVec 32

/-- A physical segment number, 0 to 255 (R6). -/
abbrev Phys := BitVec 8

/-- A value of the 1 µs timebase (R164). -/
abbrev Tick := BitVec 32

/-- An epoch number, 1 to 65535 (R24). -/
abbrev EpochNo := BitVec 16

end Sys2Proof
end

