-- ==== Sys2Proof/Syntax.lean ====
section
/-! DEFINITION. The commands of the part: one constructor per row of spec/opcode_table.json, with the words, tags and bytes its partner sends. -/

namespace Sys2Proof

/-- The status a completion carries, on the memory link (R145) and on the journal port (R19). -/
inductive Status where
  | ok
  | fault
  deriving DecidableEq, Repr

/-- The data a journal port read brings back (R19). The journal memory answers with what it holds, or with other bytes: a
record may be corrupt (R3), and the board may have put bytes there (R6). See log 8. -/
inductive PortData where
  | asStored
  | returned (bytes : List Byte)
  deriving DecidableEq, Repr

/-- A complete request frame of the service link after its command byte (R176): the payload length is the payload's, and
`crc` is the pair of CRC bytes as received, low byte first. -/
structure Frame where
  exchange : Byte
  payload  : List Byte
  crc      : BitVec 16
  deriving DecidableEq, Repr

/-- A master and a host tag: together they name an entry of the transaction table (R118, R121). -/
structure HostId where
  master : Fin 4
  tag    : Fin 32
  deriving DecidableEq, Repr

/-- The steps of the part, one constructor per row of the table. Each docstring names the row's rule. -/
inductive Instr where
  /-- R117, R175: the header word of a READ request. -/
  | read (header : Word)
  /-- R117, R175: the header, byte-enables and data words of a WRITE request. -/
  | write (header enables : Word) (data : List Word)
  /-- R127. -/
  | messageSent
  /-- R145, R149, R151. -/
  | done (tag : Fin 64) (status : Status) (data : List Word)
  /-- R150. -/
  | memoryTimeoutExpiry (tag : Fin 64)
  /-- R20, R21. -/
  | arbiterGrant
  /-- R15, R50, R57. -/
  | recordWriteCompletion (port : Fin 8) (status : Status)
  /-- R67. -/
  | recordRead
  /-- R67, R68. -/
  | recordReadCompletion (port : Fin 8) (status : Status) (data : PortData)
  /-- R69. -/
  | restoreHandover
  /-- R74. -/
  | refillRequest
  /-- R76. -/
  | refillTimerExpiry
  /-- R77. -/
  | rollbackDone
  /-- R79. -/
  | rollbackFailed
  /-- R32. -/
  | checkpointDrainComplete
  /-- R34, R35. -/
  | commitDrainComplete
  /-- R64. -/
  | rollbackDrainComplete
  /-- R111: the entry whose full-wait timer expires. -/
  | fullWaitExpiry (entry : HostId)
  /-- R108. -/
  | refreshTimerExpiry
  /-- R156. -/
  | ssnAsserted
  /-- R157. -/
  | ssnDeasserted
  /-- R158: a frame whose command byte names no command. -/
  | unknown (code : Byte) (frame : Frame)
  /-- R161. -/
  | paramRead (frame : Frame)
  /-- R141, R162. -/
  | paramWriteDefaultAction (frame : Frame)
  /-- R8, R162. -/
  | paramWriteNseg (frame : Frame)
  /-- R148, R162. -/
  | paramWriteMemTimeout (frame : Frame)
  /-- R110, R162. -/
  | paramWriteFullWait (frame : Frame)
  /-- R108, R162. -/
  | paramWriteHoldTime (frame : Frame)
  /-- R104, R162. -/
  | paramWriteHoldOnFree (frame : Frame)
  /-- R104, R162. -/
  | paramWriteHoldOffFree (frame : Frame)
  /-- R84, R162. -/
  | paramWriteRefillWait (frame : Frame)
  /-- R84, R162. -/
  | paramWriteRestoreAhead (frame : Frame)
  /-- R163. -/
  | statusRead (frame : Frame)
  /-- R166. -/
  | eventPop (frame : Frame)
  /-- R168. -/
  | enable (frame : Frame)
  /-- R169. -/
  | disable (frame : Frame)
  /-- R170. -/
  | coreReset (frame : Frame)
  /-- R171. -/
  | journalStep
  /-- R172. -/
  | coreResetEnd
  /-- R152. -/
  | mtagRelease (frame : Frame)
  /-- R138. -/
  | windowWrite (frame : Frame)
  /-- R140. -/
  | windowRead (frame : Frame)
  /-- R31. -/
  | checkpoint (frame : Frame)
  /-- R33. -/
  | commit (frame : Frame)
  /-- R38. -/
  | abandon (frame : Frame)
  /-- R63, R81. -/
  | rollback (frame : Frame)
  /-- R55. -/
  | markQuery (frame : Frame)
  /-- R105. -/
  | holdSet (frame : Frame)
  /-- R105. -/
  | holdClear (frame : Frame)
  /-- R86, R87. -/
  | lend (frame : Frame)
  /-- R92. -/
  | lendCancel (frame : Frame)
  /-- R91. -/
  | spillDone (frame : Frame)
  /-- R94, R75. -/
  | refillDone (frame : Frame)
  /-- R98. -/
  | segQuery (frame : Frame)
  /-- R88. -/
  | blockRead (frame : Frame)
  /-- R88. -/
  | blockWrite (frame : Frame)
  /-- R89. -/
  | blockReadCompletion (port : Fin 8) (status : Status) (data : PortData)
  /-- R89. -/
  | blockWriteCompletion (port : Fin 8) (status : Status)
  /-- R173. -/
  | pinReset
  /-- R173. -/
  | resetnRelease
  /-- R156. -/
  | lastResponseByteSent
  /-- R157. -/
  | requestFrameHeld (code : Byte) (frame : Frame)
  /-- R22. -/
  | unmatchedJournalCompletion (port : Fin 8) (status : Status)
  deriving DecidableEq, Repr

end Sys2Proof
end

