-- ==== Sys2Proof/Decode.lean ====
section
/-! DEFINITION. The command a table word spells. No row of spec/opcode_table.json has bits, so no word spells one. -/

namespace Sys2Proof

/-- The table gives bits to none of its 63 rows: a command is a message, a completion, a frame or an event, not a word. -/
def decodeTableWord (_nbits _w : Nat) : Option Instr := none

end Sys2Proof
end

