-- ==== Sys2Proof/Config.lean ====
section
/-! DEFINITION. The numbers the manual fixes for the part (00_scope.md, "The part in numbers"; R132, R61), and the free values: constants with no body, for what the manual leaves unstated. -/

namespace Sys2Proof

/-- Entries of the transaction table (R121). -/
def Config.tableSize : Nat := 32

/-- Intake answers that may wait in the send queue (R116). -/
def Config.intakeAnswers : Nat := 4

/-- Records per physical segment (R6). -/
def Config.recordsPerSegment : Nat := 819

/-- Bytes of a physical segment (00_scope.md; section 1.3). -/
def Config.segmentBytes : Nat := 65536

/-- Bytes of an undo record (R174). -/
def Config.recordBytes : Nat := 80

/-- Bytes of a block transfer (R6). -/
def Config.blockBytes : Nat := 256

/-- Bytes of a line. -/
def Config.lineBytes : Nat := 64

/-- The largest number of journal map entries (section 1.4). -/
def Config.mapSize : Nat := 1024

/-- The deepest epoch stack (R23). -/
def Config.maxDepth : Nat := 8

/-- Operations that may be outstanding on the journal port (R19). -/
def Config.portOutstanding : Nat := 8

/-- Records the event queue holds (R165). -/
def Config.eventQueueSize : Nat := 32

/-- Ways of a mark table set (R51). -/
def Config.markWays : Nat := 4

/-- FREE VALUE (DESIGN CHOICE, log 9): byte number `i` of data that a completion should have carried and did not, for the
free value numbered `n`. The manual matches a completion by its tag alone (R145), so a completion of another kind can arrive. -/
opaque Config.missingByte (n i : Nat) : Byte

/-- FREE VALUE (DESIGN CHOICE, log 9): data word number `i` that a completion should have carried and did not. -/
opaque Config.missingWord (n i : Nat) : Word

/-- FREE VALUE (DESIGN CHOICE, log 10): byte number `i` of a slot or block whose write completed FAULT: its "contents are
unknown" (R15, R89). -/
opaque Config.faultedByte (n i : Nat) : Byte

/-- FREE VALUE (DESIGN CHOICE, log 11): the byte by which an event argument codes the reason UNRECOVERABLE. R176 numbers an
enumeration in the order its owning rule lists it, and R78's table does not list UNRECOVERABLE (R64 gives it alone). -/
opaque Config.unrecoverableCode : Byte

/-- FREE VALUE (DESIGN CHOICE, log 27): what replayed holds after one more restore is counted at 2^32 − 1, the end of the
range R65 gives it. -/
opaque Config.replayedPastRange : BitVec 32

end Sys2Proof
end

