-- ==== Sys2Proof/Machine/State.lean ====
section
/-! DEFINITION. The state of the part as plain data: one sub-record per block of the block diagram (00_scope.md), the
reset state, and the reasons a step can stop. -/

namespace Sys2Proof.Machine

/-- Why a step stops with a fault. -/
inductive Fault where
  /-- Raised by RECORD_READ alone, when the record it would read lies in a slot above 818: R6 gives a physical segment the
  slots 0 to 818, so the place does not exist. Safe: the machine stops where the part has no such place (log 30). -/
  | noRecordSlot
  deriving DecidableEq, Repr

/-- Why a step is refused. -/
inductive Refusal where
  /-- Raised by `exec` for a command that has no meaning yet; no arm raises it now. Safe. -/
  | notModelled (mnemonic : String)
  deriving DecidableEq, Repr

/-! ### Host interface (R114 to R132) -/

/-- The status of a response (R115). -/
inductive HostStatus where
  | ok
  | memFault
  | refused
  | retry
  | malformed
  | capFault
  deriving DecidableEq, Repr

/-- The window classification of a request (R135). -/
inductive Action where
  | pass
  | journal
  | guard
  | deny
  deriving DecidableEq, Repr

/-- The state of a transaction table entry (R122). -/
inductive EntryState where
  | lineWait
  | parked
  | slotWait
  | captureRead
  | spaceWait
  | captureAppend
  | issueWait
  | issued
  deriving DecidableEq, Repr

/-- The byte enables (byte k holds those of beat k) and data words of a WRITE (R114, R175). -/
structure WriteBody where
  enables : Word
  data    : List Word
  deriving DecidableEq, Repr

/-- A response made ready (R126): its status, and the data words of a READ_DATA with status OK. -/
structure Response where
  status : HostStatus
  data   : List Word
  deriving DecidableEq, Repr

/-- An entry of the transaction table (R121). `write` is absent for a READ, so it tells the kind. -/
structure Entry where
  id       : HostId
  address  : Address
  beats    : Nat
  write    : Option WriteBody
  action   : Action
  state    : EntryState
  response : Option Response
  deriving DecidableEq, Repr

/-- A message of the send queue (R127). -/
inductive HostMessage where
  /-- The response of an entry. -/
  | response (id : HostId) (isWrite : Bool) (status : HostStatus) (data : List Word)
  /-- An answer made at intake, which has no entry. -/
  | intake (id : HostId) (isWrite : Bool) (status : HostStatus)
  /-- A hold notice for all masters. -/
  | hold (time : Nat)
  deriving DecidableEq, Repr

/-- The state of the host interface. -/
structure HostIf where
  table     : List Entry
  sendQueue : List HostMessage
  /-- The hold as the space monitor last told it (R106, log 26). -/
  holdTold  : Bool
  /-- The message last put on the response channel: the model's own output field (log 25). -/
  lastSent  : Option HostMessage
  deriving DecidableEq, Repr

/-! ### Window unit (R133) -/

/-- An entry of the window table; bit k of `masters` is master k. -/
structure Window where
  valid   : Bool
  base    : Line
  limit   : Line
  masters : BitVec 4
  action  : Action
  hits    : BitVec 32
  deriving DecidableEq, Repr

/-! ### Epoch controller (R23 to R42) -/

/-- Why an epoch is BROKEN (section 2.6). -/
inductive BrokenReason where
  | full
  | journalFault
  | abandoned
  | inherited
  deriving DecidableEq, Repr

/-- An epoch record (R23): OPEN while `broken` is absent, BROKEN with its reason otherwise. -/
structure Epoch where
  number  : EpochNo
  start   : Seq
  broken  : Option BrokenReason
  records : Nat
  deriving DecidableEq, Repr

/-- The controller state (R26). -/
inductive Controller where
  | idle
  | draining
  | replay
  | refillWait
  | stopped
  deriving DecidableEq, Repr

/-- The command a drain is for (R26). -/
inductive PendingCommand where
  | checkpoint
  | commit
  | rollback
  deriving DecidableEq, Repr

/-- The state of the epoch controller. The stack stands with the TOP EPOCH FIRST. -/
structure EpochCtl where
  stack      : List Epoch
  nextEpoch  : EpochNo
  controller : Controller
  command    : Option PendingCommand
  deriving DecidableEq, Repr

/-! ### Capture unit (R45, R46, R51, R53) -/

/-- The stage of a held capture slot (R45). -/
inductive SlotStage where
  | read
  | space
  | append
  | discard
  deriving DecidableEq, Repr

/-- A held capture slot (R45). The master of the write is the entry's. -/
structure Slot where
  entry : HostId
  line  : Line
  stage : SlotStage
  data  : Option (List Byte)
  deriving DecidableEq, Repr

/-- The state of the capture unit. -/
structure CaptureUnit where
  slots      : Vector (Option Slot) 8
  slotQueue  : List HostId
  marks      : List Line
  markSpills : BitVec 32
  deriving DecidableEq, Repr

/-! ### Journal unit (R4 to R21) -/

/-- The state of a journal map entry (R10). -/
inductive SegState where
  | filling
  | filled
  | lent
  | spilled
  | refilling
  deriving DecidableEq, Repr

/-- A journal map entry (R9). Its owner follows from its state. -/
structure Segment where
  q        : SegNo
  state    : SegState
  physical : Option Phys
  first    : Seq
  count    : Nat
  deriving DecidableEq, Repr

/-- An append request waiting for space (R14): the slot that made it, its entry, the line and the line's old bytes. -/
structure AppendRequest where
  slot  : Fin 8
  entry : HostId
  line  : Line
  data  : List Byte
  deriving DecidableEq, Repr

/-- An operation of the journal port (R19). -/
inductive PortOp where
  | recordWrite (slot : Fin 8) (physical : Phys) (place : Nat) (seq : Seq) (q : SegNo) (record : List Byte)
  | recordRead (physical : Phys) (place : Nat) (seq : Seq)
  | blockRead (physical block : Byte)
  | blockWrite (physical block : Byte) (data : List Byte)
  deriving DecidableEq, Repr

/-- The two sides of the journal port arbiter (R20). -/
inductive Side where
  | engine
  | service
  deriving DecidableEq, Repr

/-- The state of the journal unit. -/
structure JournalUnit where
  nextSeq     : Seq
  nextQ       : SegNo
  map         : List Segment
  free        : List Phys
  waiting     : List AppendRequest
  engineQueue : List PortOp
  serviceSide : Option PortOp
  outstanding : List (Fin 8 × PortOp)
  lastGranted : Side
  /-- The journal memory's bytes (R6), in the canonical form of Machine/Memory.lean. -/
  memory      : List Host.Cell
  deriving DecidableEq, Repr

/-! ### Replay unit (R65, R74) -/

/-- Why a rollback fails (R64, R78). -/
inductive FailReason where
  | journalReadFault
  | checksum
  | sequence
  | restoreFault
  | refillTimeout
  | unrecoverable
  deriving DecidableEq, Repr

/-- A record read and checked whose restore has not been handed over (R65). -/
structure HeldRecord where
  seq  : Seq
  line : Line
  data : List Byte
  deriving DecidableEq, Repr

/-- The refill field of the replay context (R65). -/
structure Refill where
  q        : SegNo
  physical : Option Phys
  refilled : Bool
  deriving DecidableEq, Repr

/-- The failure field of the replay context (R78), with the segment the failure freed, which R79 waits on. -/
structure Failure where
  reason : FailReason
  kept   : Seq
  freed  : Option Phys
  deriving DecidableEq, Repr

/-- The replay context (R65). -/
structure ReplayContext where
  epoch    : EpochNo
  start    : Seq
  next     : Option Seq
  current  : Option SegNo
  read     : Option Seq
  held     : Option HeldRecord
  restores : List (Seq × Line)
  refill   : Option Refill
  replayed : BitVec 32
  failure  : Option Failure
  deriving DecidableEq, Repr

/-- The state of the replay unit; the refill timer holds its expiry while it runs. -/
structure ReplayUnit where
  context     : Option ReplayContext
  refillTimer : Option Tick
  deriving DecidableEq, Repr

/-! ### Space monitor (section 6) -/

/-- The state of the space monitor; a running timer holds its expiry. -/
structure SpaceMonitor where
  auto         : Bool
  manual       : Bool
  refreshTimer : Option Tick
  fullWaits    : List (HostId × Tick)
  deriving DecidableEq, Repr

/-! ### Memory interface (section 9) -/

/-- A request of the memory link with the fields of its kind (R144) and its requester. -/
inductive MemRequest where
  | read (entry : HostId) (address : Address) (beats : Nat)
  | write (entry : HostId) (address : Address) (beats : Nat) (body : WriteBody)
  | readLine (slot : Fin 8) (line : Line)
  | restore (seq : Seq) (line : Line) (data : List Byte)
  deriving DecidableEq, Repr

/-- The state of an M-tag (R146); an OUTSTANDING tag holds its request and the expiry of its timer (R148). -/
inductive TagState where
  | free
  | outstanding (request : MemRequest) (expiry : Tick)
  | quarantined
  deriving DecidableEq, Repr

/-- The state of the memory interface. -/
structure MemoryIf where
  tags     : Vector TagState 64
  tagQueue : List MemRequest
  deriving DecidableEq, Repr

/-! ### Service interface (section 10) -/

/-- The device mode (R168). -/
inductive Mode where
  | bypass
  | active
  deriving DecidableEq, Repr

/-- The parameter set (R161). -/
structure Params where
  defaultAction : Action
  nseg          : Nat
  memTimeout    : Nat
  fullWait      : Nat
  holdTime      : Nat
  holdOnFree    : Nat
  holdOffFree   : Nat
  refillWait    : Nat
  restoreAhead  : Nat
  deriving DecidableEq, Repr

/-- The two ways a memory request ends badly (R153). -/
inductive MemFaultKind where
  | fault
  | timeout
  deriving DecidableEq, Repr

/-- Whose memory request it was (R153). -/
inductive Origin where
  | host
  | capture
  | restore
  deriving DecidableEq, Repr

/-- The kind of an event record with its arguments (section 10.5, "Event kinds"). -/
inductive EventKind where
  | epochOpened (depth : Nat) (start : Seq)
  | epochCommitted (records depth : Nat)
  | epochBroken (reason : BrokenReason) (depth : Nat)
  | rollbackDone (replayed : BitVec 32) (depth : Nat)
  | rollbackFailed (reason : FailReason) (kept : Option Seq)
  | refillRequest (q : SegNo) (first : Seq) (physical : Phys) (count : Nat)
  | segmentRecalled (q : SegNo) (physical : Phys)
  | segmentsDiscarded (firstQ lastQ : SegNo)
  | holdChanged (inForce : Bool) (free : Nat)
  | memFault (kind : MemFaultKind) (origin : Origin) (line : Line) (tag : Fin 64)
  | lateCompletion (tag : Fin 64) (quarantined : Bool)
  | journalFault (seq : Seq) (physical : Phys)
  | hostProtocol (id : HostId)
  | coreResetDone (controller : Controller) (command : Option PendingCommand) (depth : Nat)
  | eventsLost (dropped : BitVec 32)
  deriving DecidableEq, Repr

/-- An event record (R164). -/
structure Event where
  kind  : EventKind
  time  : Tick
  epoch : Option EpochNo
  deriving DecidableEq, Repr

/-- The state of the current exchange (R156); ANSWERING holds the response frame being sent. -/
inductive Exchange where
  | closed
  | receiving
  | working
  | answering (frame : List Byte)
  | trailing
  deriving DecidableEq, Repr

/-- The command taken and not yet answered (R157): its exchange number, and whether its exchange is still open. -/
structure Work where
  exchange : Byte
  attached : Bool
  deriving DecidableEq, Repr

/-- The request frame held while an earlier command works (R157), and whether its exchange is still open. -/
structure HeldFrame where
  code     : Byte
  frame    : Frame
  attached : Bool
  deriving DecidableEq, Repr

/-- A core reset in progress (R170 to R172): what it found, whether its journal step is done, and the q range discarded. -/
structure CoreReset where
  controller  : Controller
  command     : Option PendingCommand
  top         : Option EpochNo
  depth       : Nat
  journalDone : Bool
  discarded   : Option (SegNo × SegNo)
  deriving DecidableEq, Repr

/-- The state of the service interface. -/
structure ServiceIf where
  exchange  : Exchange
  /-- The current exchange began while a frame was held, so it is not received (R157, log 20). -/
  unread    : Bool
  work      : Option Work
  held      : Option HeldFrame
  params    : Params
  mode      : Mode
  events    : List Event
  dropped   : BitVec 32
  coreReset : Option CoreReset
  deriving DecidableEq, Repr

/-! ### The whole part -/

/-- The state of the TJ408. -/
structure State where
  host     : HostIf
  windows  : Vector Window 16
  epochs   : EpochCtl
  capture  : CaptureUnit
  journal  : JournalUnit
  replay   : ReplayUnit
  space    : SpaceMonitor
  memIf    : MemoryIf
  service  : ServiceIf
  timebase : Tick
  /-- RESETN is asserted (R173). -/
  inReset  : Bool
  /-- The number of the next free value: the model's own field (log 12). -/
  fresh    : Nat
  /-- The commands waiting, the first to be taken at the front. -/
  pending  : List Instr
  deriving DecidableEq, Repr

/-- What a step of this part can answer. -/
abbrev Result := Host.Outcome State Fault Refusal

/-! ### Block by block replacement -/

def State.setHost (s : State) (h : HostIf) : State := { s with host := h }
def State.setWindows (s : State) (w : Vector Window 16) : State := { s with windows := w }
def State.setEpochs (s : State) (e : EpochCtl) : State := { s with epochs := e }
def State.setCapture (s : State) (c : CaptureUnit) : State := { s with capture := c }
def State.setJournal (s : State) (j : JournalUnit) : State := { s with journal := j }
def State.setReplay (s : State) (r : ReplayUnit) : State := { s with replay := r }
def State.setSpace (s : State) (m : SpaceMonitor) : State := { s with space := m }
def State.setMemIf (s : State) (m : MemoryIf) : State := { s with memIf := m }
def State.setService (s : State) (v : ServiceIf) : State := { s with service := v }
def State.setTimebase (s : State) (t : Tick) : State := { s with timebase := t }
def State.setInReset (s : State) (b : Bool) : State := { s with inReset := b }
def State.setFresh (s : State) (n : Nat) : State := { s with fresh := n }
def State.setPending (s : State) (p : List Instr) : State := { s with pending := p }

/-! ### Reset values (R22, R42, R62, R84, R112, R130, R143, R155, R161, R173) -/

/-- R143: the value of every window table entry after pin reset. -/
def Window.reset : Window :=
  { valid := false, base := 0, limit := 0, masters := 0b1111, action := .pass, hits := 0 }

/-- R161: the parameters after pin reset. -/
def Params.reset : Params :=
  { defaultAction := .pass, nseg := 256, memTimeout := 1000, fullWait := 500, holdTime := 200,
    holdOnFree := 4, holdOffFree := 8, refillWait := 1000, restoreAhead := 4 }

/-- R130, R112. `lastSent` is the model's own (log 25). -/
def HostIf.reset : HostIf := { table := [], sendQueue := [], holdTold := false, lastSent := none }

/-- R42. -/
def EpochCtl.reset : EpochCtl := { stack := [], nextEpoch := 1, controller := .idle, command := none }

/-- R62. -/
def CaptureUnit.reset : CaptureUnit :=
  { slots := Vector.replicate 8 none, slotQueue := [], marks := [], markSpills := 0 }

/-- R22: the free list holds segments 0 to 255 in ascending order; the journal memory lists nothing (log 1). -/
def JournalUnit.reset : JournalUnit :=
  { nextSeq := 0, nextQ := 0, map := [], free := (List.range 256).map (BitVec.ofNat 8), waiting := [],
    engineQueue := [], serviceSide := none, outstanding := [], lastGranted := .service, memory := [] }

/-- R84. -/
def ReplayUnit.reset : ReplayUnit := { context := none, refillTimer := none }

/-- R112. -/
def SpaceMonitor.reset : SpaceMonitor :=
  { auto := false, manual := false, refreshTimer := none, fullWaits := [] }

/-- R155. -/
def MemoryIf.reset : MemoryIf := { tags := Vector.replicate 64 .free, tagQueue := [] }

/-- R173. -/
def ServiceIf.reset : ServiceIf :=
  { exchange := .closed, unread := false, work := none, held := none, params := Params.reset, mode := .bypass,
    events := [], dropped := 0, coreReset := none }

/-- The part right after reset: RESETN released, every block at its pin-reset values, the timebase at 0 (R173). -/
def State.reset : State :=
  { host := HostIf.reset, windows := Vector.replicate 16 Window.reset, epochs := EpochCtl.reset,
    capture := CaptureUnit.reset, journal := JournalUnit.reset, replay := ReplayUnit.reset,
    space := SpaceMonitor.reset, memIf := MemoryIf.reset, service := ServiceIf.reset, timebase := 0,
    inReset := false, fresh := 0, pending := [] }

end Sys2Proof.Machine
end

