-- ==== Sys2Proof/Machine/Memory.lean ====
section
/-! DEFINITION. The journal memory as a canonical list of (address, byte): its read and write, and its addresses (R6). -/

namespace Sys2Proof.Machine

/-- The journal memory: addresses strictly rising, and no byte equal to what an unlisted address reads as. -/
abbrev Memory := List Host.Cell

/-- What an unlisted address reads as. DESIGN CHOICE, unsafe (log 1): the manual gives the journal memory no contents. -/
def Memory.unlisted : Byte := 0

/-- The byte at address `a`. -/
def Memory.read : Memory → Nat → Byte
  | [], _ => Memory.unlisted
  | c :: m, a => if c.1 = a then c.2 else Memory.read m a

/-- `m` with byte `x` at address `a`, in canonical form. -/
def Memory.write (a : Nat) (x : Byte) : Memory → Memory
  | [] => if x = Memory.unlisted then [] else [(a, x)]
  | c :: m =>
    if a < c.1 then (if x = Memory.unlisted then c :: m else (a, x) :: c :: m)
    else if a = c.1 then (if x = Memory.unlisted then m else (a, x) :: m)
    else c :: Memory.write a x m

/-- `m` with the bytes of the list written from address `a` upward. -/
def Memory.writeBytes (m : Memory) (a : Nat) : List Byte → Memory
  | [] => m
  | b :: bs => Memory.writeBytes (Memory.write a b m) (a + 1) bs

/-- The `n` bytes from address `a` upward. -/
def Memory.readBytes (m : Memory) (a : Nat) : Nat → List Byte
  | 0 => []
  | n + 1 => Memory.read m a :: Memory.readBytes m (a + 1) n

/-- The canonical form: addresses strictly rising, no listed byte equal to the unlisted value. -/
def Memory.wf : Memory → Bool
  | [] => true
  | c :: m => decide (c.2 ≠ Memory.unlisted) && m.all (fun d => decide (c.1 < d.1)) && Memory.wf m

/-- R6: where slot `place` of physical segment `p` begins. -/
def recordAddress (p : Phys) (place : Nat) : Nat :=
  p.toNat * Config.segmentBytes + Config.recordBytes * place

/-- R6: where block `b` of physical segment `p` begins. -/
def blockAddress (p b : Byte) : Nat :=
  p.toNat * Config.segmentBytes + Config.blockBytes * b.toNat

end Sys2Proof.Machine
end

