-- ==== Sys2Proof/Machine/Operands.lean ====
section
/-! DEFINITION. The operand forms: sequence comparison (R5), byte order, the undo record and its checksum (R2, R3, R174), the
mark table hash (R51), the CRC (R159), host link words (R175), and the payload forms of the service frame (R176). -/

namespace Sys2Proof.Machine

/-! ### Sequence numbers (R5) -/

/-- R5: `a ≥ b`: the same, or newer. -/
def seqGe (a b : Seq) : Bool := decide ((a - b).toNat < 2 ^ 31)

/-- R5: `a` is newer than `b`. -/
def seqNewer (a b : Seq) : Bool := decide (a ≠ b) && seqGe a b

/-- R5: `a` is older than `b`. -/
def seqOlder (a b : Seq) : Bool := !seqGe a b

/-- The newer of two sequence numbers, the first if they are the same. -/
def seqMax (a b : Seq) : Seq := if seqNewer b a then b else a

/-! ### Byte order (00_scope.md, "Fields": little-endian) -/

/-- The `n` low bytes of a number, low byte first. -/
def leBytes : Nat → Nat → List Byte
  | 0, _ => []
  | n + 1, v => BitVec.ofNat 8 v :: leBytes n (v / 256)

/-- The number whose bytes are given, low byte first. -/
def leValue : List Byte → Nat
  | [] => 0
  | b :: bs => b.toNat + 256 * leValue bs

/-- The eight bytes of a word, low byte first. -/
def wordBytes (w : Word) : List Byte := leBytes 8 w.toNat

/-- The bytes of data words in order, each word low byte first. The manual does not give the byte layout of the memory link's
messages (09_memory_link.md, section 9.1), so this is the model's choice of how the 64 bytes of a READ_LINE completion lie in
its data words (DESIGN CHOICE, log 35). -/
def wordsBytes (ws : List Word) : List Byte := ws.flatMap wordBytes

/-! ### The undo record (R2, R3, R174) -/

/-- R2, step 1: the sum of the little-endian 16-bit words of the bytes. -/
def halfWordSum : List Byte → Nat
  | a :: b :: rest => a.toNat + 256 * b.toNat + halfWordSum rest
  | _ => 0

/-- R2, step 4: what lies above bit 15 is added back until the sum fits; `n` bounds the repetitions. -/
def foldSum : Nat → Nat → Nat
  | 0, v => v
  | n + 1, v => if v < 65536 then v else foldSum n (v % 65536 + v / 65536)

/-- The record with its checksum field counted as zero (R2, step 2). -/
def clearChecksum (r : List Byte) : List Byte := r.take 12 ++ [0, 0] ++ r.drop 14

/-- R2: the checksum of a record, over its bytes with the checksum field counted as zero. -/
def checksum (r : List Byte) : Nat :=
  let folded := foldSum 40 (halfWordSum (clearChecksum r))
  if 65535 - folded = 0 then 65535 else 65535 - folded

/-- R174: the 80 bytes of a record with `sum` in its checksum field. -/
def recordLayout (line : Line) (seq : Seq) (epoch : EpochNo) (master : Fin 4) (depth sum : Nat) (data : List Byte) :
    List Byte :=
  leBytes 4 line.toNat ++ leBytes 4 seq.toNat ++ leBytes 2 epoch.toNat ++ leBytes 1 master.val ++ leBytes 1 depth ++
    leBytes 2 sum ++ [0, 0] ++ data

/-- R1, R2, R174: the record as the journal unit builds it. -/
def buildRecord (line : Line) (seq : Seq) (epoch : EpochNo) (master : Fin 4) (depth : Nat) (data : List Byte) : List Byte :=
  recordLayout line seq epoch master depth (checksum (recordLayout line seq epoch master depth 0 data)) data

/-- R174: the sequence number of a record read back, bytes 4 to 7. -/
def recordSeq (r : List Byte) : Seq := BitVec.ofNat 32 (leValue ((r.drop 4).take 4))

/-- R174: the line address of a record read back, bits 0 to 29 of bytes 0 to 3. -/
def recordLine (r : List Byte) : Line := BitVec.ofNat 30 (leValue (r.take 4))

/-- R174: the old data of a record, bytes 16 to 79. -/
def recordData (r : List Byte) : List Byte := (r.drop 16).take 64

/-- R3: a record read back passes when recomputing gives the stored value. -/
def checksumPasses (r : List Byte) : Bool := decide (leValue ((r.drop 12).take 2) = checksum r)

/-! ### The mark table hash (R51) -/

/-- R51: the set index of a line, the exclusive-or of its three 10-bit pieces. -/
def setIndex (l : Line) : BitVec 10 := l.extractLsb' 0 10 ^^^ l.extractLsb' 10 10 ^^^ l.extractLsb' 20 10

/-! ### The CRC of the service frame (R159) -/

/-- R159, step 3, once. -/
def crcShift (v : BitVec 16) : BitVec 16 := if v.getLsbD 15 then (v <<< 1) ^^^ 0x1021#16 else v <<< 1

/-- R159, steps 2 and 3, for one byte. -/
def crcByte (v : BitVec 16) (b : Byte) : BitVec 16 :=
  crcShift (crcShift (crcShift (crcShift (crcShift (crcShift (crcShift (crcShift (v ^^^ (b.setWidth 16 <<< 8)))))))))

/-- R159: the CRC of the bytes, in order. -/
def crc (bytes : List Byte) : BitVec 16 := bytes.foldl crcByte 0xFFFF#16

/-- R176: the bytes of a frame before its CRC. -/
def frameBody (code exchange : Byte) (payload : List Byte) : List Byte :=
  code :: exchange :: (leBytes 2 payload.length ++ payload)

/-- R176: a whole frame, its CRC low byte first. -/
def frameBytes (code exchange : Byte) (payload : List Byte) : List Byte :=
  frameBody code exchange payload ++ leBytes 2 (crc (frameBody code exchange payload)).toNat

/-! ### Host link words (R114, R175) -/

/-- A request taken from the request channel. `kindOk` says its kind is READ or WRITE as its row says (R119). -/
structure Request where
  id      : HostId
  kindOk  : Bool
  address : Address
  beats   : Nat
  write   : Option WriteBody
  deriving DecidableEq, Repr

/-- R175: master and tag of a request header. -/
def headerId (h : Word) : HostId :=
  { master := ⟨(h.extractLsb' 4 2).toNat, (h.extractLsb' 4 2).isLt⟩,
    tag := ⟨(h.extractLsb' 8 5).toNat, (h.extractLsb' 8 5).isLt⟩ }

/-- R175: a one-word request. A kind that is neither 1 nor 2 is taken as a READ, to be answered MALFORMED. -/
def readRequest (h : Word) : Request :=
  { id := headerId h, kindOk := h.extractLsb' 0 4 == 1#4, address := h.extractLsb' 16 36,
    beats := (h.extractLsb' 56 4).toNat, write := none }

/-- R175: a WRITE request with its enables word and data words. -/
def writeRequest (h enables : Word) (data : List Word) : Request :=
  { id := headerId h, kindOk := h.extractLsb' 0 4 == 2#4, address := h.extractLsb' 16 36,
    beats := (h.extractLsb' 56 4).toNat, write := some { enables := enables, data := data } }

/-- R114: the line of a byte address. -/
def lineOf (a : Address) : Line := a.extractLsb' 6 30

/-- R119: a request is malformed. -/
def Request.malformed (r : Request) : Bool :=
  !r.kindOk || decide (r.beats = 0) || decide (8 < r.beats) || decide (r.address.toNat % 8 ≠ 0) ||
    decide (8 < r.address.toNat % 64 / 8 + r.beats)

/-- The line of an entry (R121). -/
def Entry.line (e : Entry) : Line := lineOf e.address

/-- R175: the status codes. -/
def HostStatus.code : HostStatus → Nat
  | .ok => 0
  | .memFault => 1
  | .refused => 2
  | .retry => 3
  | .malformed => 4
  | .capFault => 5

/-- R175: the header of a response: its eight bytes, low byte first. -/
def responseHeader (kind master tag status words time : Nat) : Word :=
  BitVec.ofNat 64 (leValue
    (leBytes 1 (kind + 16 * master) ++ leBytes 1 tag ++ leBytes 1 status ++ leBytes 1 words ++ leBytes 2 time))

/-- R175: the words of a message on the response channel. -/
def HostMessage.words : HostMessage → List Word
  | .response id isWrite status data =>
    responseHeader (if isWrite then 9 else 8) id.master.val id.tag.val status.code data.length 0 :: data
  | .intake id isWrite status =>
    [responseHeader (if isWrite then 9 else 8) id.master.val id.tag.val status.code 0 0]
  | .hold time => [responseHeader 10 0 0 0 0 time]

/-! ### Enumerations of the service frame (R176: numbered from 1 in the order their rule lists them, 0 for absent) -/

/-- R135: PASS, JOURNAL, GUARD, DENY. -/
def Action.code : Action → Nat
  | .pass => 1
  | .journal => 2
  | .guard => 3
  | .deny => 4

/-- The action a byte codes. -/
def actionOfCode : Nat → Option Action
  | 1 => some .pass
  | 2 => some .journal
  | 3 => some .guard
  | 4 => some .deny
  | _ => none

/-- R161: DEFAULT_ACTION is PASS or DENY, in that order. -/
def defaultActionCode : Action → Nat
  | .pass => 1
  | .deny => 2
  | _ => 0

/-- The default action a value codes. -/
def defaultActionOfCode : Nat → Option Action
  | 1 => some .pass
  | 2 => some .deny
  | _ => none

/-- R163: BYPASS, ACTIVE. -/
def Mode.code : Mode → Nat
  | .bypass => 1
  | .active => 2

/-- R163: IDLE, DRAINING, REPLAY, REFILL_WAIT, STOPPED. -/
def Controller.code : Controller → Nat
  | .idle => 1
  | .draining => 2
  | .replay => 3
  | .refillWait => 4
  | .stopped => 5

/-- R163: CHECKPOINT, COMMIT, ROLLBACK, or absent. -/
def commandCode : Option PendingCommand → Nat
  | none => 0
  | some .checkpoint => 1
  | some .commit => 2
  | some .rollback => 3

/-- R23: FULL, JOURNAL_FAULT, ABANDONED, INHERITED. -/
def BrokenReason.code : BrokenReason → Nat
  | .full => 1
  | .journalFault => 2
  | .abandoned => 3
  | .inherited => 4

/-- R23: the broken reason, absent while OPEN. -/
def brokenCode : Option BrokenReason → Nat
  | none => 0
  | some r => r.code

/-- R78's table; UNRECOVERABLE stands in no list, so its code is a free value (log 11). -/
def FailReason.code : FailReason → Nat
  | .journalReadFault => 1
  | .checksum => 2
  | .sequence => 3
  | .restoreFault => 4
  | .refillTimeout => 5
  | .unrecoverable => Config.unrecoverableCode.toNat

/-- R9: FILLING, FILLED, LENT, SPILLED, REFILLING. -/
def SegState.code : SegState → Nat
  | .filling => 1
  | .filled => 2
  | .lent => 3
  | .spilled => 4
  | .refilling => 5

/-- R9: the owner of an entry: ENGINE in FILLING and FILLED, SERVICE in LENT and REFILLING, absent in SPILLED. -/
def SegState.owner : SegState → Option Side
  | .filling => some .engine
  | .filled => some .engine
  | .lent => some .service
  | .spilled => none
  | .refilling => some .service

/-- R98: ENGINE, SERVICE, or absent. -/
def ownerCode : Option Side → Nat
  | none => 0
  | some .engine => 1
  | some .service => 2

/-- R153: FAULT, TIMEOUT. -/
def MemFaultKind.code : MemFaultKind → Nat
  | .fault => 1
  | .timeout => 2

/-- R153: HOST, CAPTURE, RESTORE. -/
def Origin.code : Origin → Nat
  | .host => 1
  | .capture => 2
  | .restore => 3

/-- R176: the transfer status, 1 for OK and 2 for FAULT. -/
def transferCode : Status → Nat
  | .ok => 1
  | .fault => 2

/-- R176: flags are 1 when set or on. -/
def flagCode (b : Bool) : Nat := if b then 1 else 0

/-- The flag a byte codes. -/
def flagOfCode : Nat → Option Bool
  | 0 => some false
  | 1 => some true
  | _ => none

/-- The nine parameters, in the order of R161. -/
inductive Param where
  | defaultAction
  | nseg
  | memTimeout
  | fullWait
  | holdTime
  | holdOnFree
  | holdOffFree
  | refillWait
  | restoreAhead
  deriving DecidableEq, Repr

/-- R176: the parameters run from DEFAULT_ACTION 1 to RESTORE_AHEAD 9. -/
def paramOfCode : Nat → Option Param
  | 1 => some .defaultAction
  | 2 => some .nseg
  | 3 => some .memTimeout
  | 4 => some .fullWait
  | 5 => some .holdTime
  | 6 => some .holdOnFree
  | 7 => some .holdOffFree
  | 8 => some .refillWait
  | 9 => some .restoreAhead
  | _ => none

/-- R161, R176: the value of a parameter as its four bytes carry it. -/
def paramValue (p : Params) : Param → Nat
  | .defaultAction => defaultActionCode p.defaultAction
  | .nseg => p.nseg
  | .memTimeout => p.memTimeout
  | .fullWait => p.fullWait
  | .holdTime => p.holdTime
  | .holdOnFree => p.holdOnFree
  | .holdOffFree => p.holdOffFree
  | .refillWait => p.refillWait
  | .restoreAhead => p.restoreAhead

/-! ### Event records in the EVENT_POP answer (R166, R176) -/

/-- R176: the event kinds run from EPOCH_OPENED 1 to EVENTS_LOST 15. -/
def EventKind.code : EventKind → Nat
  | .epochOpened .. => 1
  | .epochCommitted .. => 2
  | .epochBroken .. => 3
  | .rollbackDone .. => 4
  | .rollbackFailed .. => 5
  | .refillRequest .. => 6
  | .segmentRecalled .. => 7
  | .segmentsDiscarded .. => 8
  | .holdChanged .. => 9
  | .memFault .. => 10
  | .lateCompletion .. => 11
  | .journalFault .. => 12
  | .hostProtocol .. => 13
  | .coreResetDone .. => 14
  | .eventsLost .. => 15

/-- The first argument of an event, the values it names in order (section 10.5, R176). -/
def EventKind.first : EventKind → Option (List Byte)
  | .epochOpened depth _ => some (leBytes 1 depth)
  | .epochCommitted records _ => some (leBytes 4 records)
  | .epochBroken reason _ => some (leBytes 1 reason.code)
  | .rollbackDone replayed _ => some (leBytes 4 replayed.toNat)
  | .rollbackFailed reason _ => some (leBytes 1 reason.code)
  | .refillRequest q first _ _ => some (leBytes 4 q.toNat ++ leBytes 4 first.toNat)
  | .segmentRecalled q _ => some (leBytes 4 q.toNat)
  | .segmentsDiscarded firstQ _ => some (leBytes 4 firstQ.toNat)
  | .holdChanged inForce _ => some (leBytes 1 (if inForce then 1 else 2))
  | .memFault kind origin _ _ => some (leBytes 1 kind.code ++ leBytes 1 origin.code)
  | .lateCompletion tag _ => some (leBytes 1 tag.val)
  | .journalFault seq _ => some (leBytes 4 seq.toNat)
  | .hostProtocol id => some (leBytes 1 id.master.val ++ leBytes 1 id.tag.val)
  | .coreResetDone controller command _ => some (leBytes 1 controller.code ++ leBytes 1 (commandCode command))
  | .eventsLost dropped => some (leBytes 4 dropped.toNat)

/-- The second argument of an event. -/
def EventKind.second : EventKind → Option (List Byte)
  | .epochOpened _ start => some (leBytes 4 start.toNat)
  | .epochCommitted _ depth => some (leBytes 1 depth)
  | .epochBroken _ depth => some (leBytes 1 depth)
  | .rollbackDone _ depth => some (leBytes 1 depth)
  | .rollbackFailed _ kept => kept.map fun k => leBytes 4 k.toNat
  | .refillRequest _ _ physical count => some (leBytes 1 physical.toNat ++ leBytes 2 count)
  | .segmentRecalled _ physical => some (leBytes 1 physical.toNat)
  | .segmentsDiscarded _ lastQ => some (leBytes 4 lastQ.toNat)
  | .holdChanged _ free => some (leBytes 2 free)
  | .memFault _ _ line tag => some (leBytes 4 line.toNat ++ leBytes 1 tag.val)
  | .lateCompletion _ quarantined => some (leBytes 1 (if quarantined then 1 else 2))
  | .journalFault _ physical => some (leBytes 1 physical.toNat)
  | .hostProtocol _ => some (leBytes 1 1)
  | .coreResetDone _ _ depth => some (leBytes 1 depth)
  | .eventsLost _ => none

/-- R176: an argument slot, a presence byte and 8 bytes. -/
def argumentSlot : Option (List Byte) → List Byte
  | none => leBytes 9 0
  | some bs => 1 :: (bs ++ leBytes 8 0).take 8

/-- R176: an epoch number in 2 bytes, 0 meaning absent. -/
def epochBytes : Option EpochNo → List Byte
  | none => leBytes 2 0
  | some n => leBytes 2 n.toNat

/-- R166, R176: the EVENT_POP answer for a record and the number of records left. -/
def Event.payload (e : Event) (left : Nat) : List Byte :=
  leBytes 1 e.kind.code ++ leBytes 4 e.time.toNat ++ epochBytes e.epoch ++ argumentSlot e.kind.first ++
    argumentSlot e.kind.second ++ leBytes 1 left

/-! ### Answers (R160) -/

/-- The refusal reasons, in the order of R160's table. -/
inductive RefusalReason where
  | depth
  | mode
  | noEpoch
  | unrecoverable
  | locked
  | badValue
  | badWindow
  | notOwner
  | notLent
  | notRefilling
  | empty
  deriving DecidableEq, Repr

/-- R176: DEPTH is 1 and EMPTY is 11. -/
def RefusalReason.code : RefusalReason → Nat
  | .depth => 1
  | .mode => 2
  | .noEpoch => 3
  | .unrecoverable => 4
  | .locked => 5
  | .badValue => 6
  | .badWindow => 7
  | .notOwner => 8
  | .notLent => 9
  | .notRefilling => 10
  | .empty => 11

/-- The answer to a request frame (R160). -/
inductive Answer where
  | done (payload : List Byte)
  | started
  | busy
  | refused (reason : RefusalReason)
  | badFrame
  | unknown
  deriving DecidableEq, Repr

/-- R176: the response codes. -/
def Answer.code : Answer → Byte
  | .done _ => 1
  | .started => 2
  | .busy => 3
  | .refused _ => 4
  | .badFrame => 5
  | .unknown => 6

/-- R160, R176: the payload of an answer. -/
def Answer.payload : Answer → List Byte
  | .done p => p
  | .refused r => leBytes 1 r.code
  | _ => []

/-- R176: the response frame of an answer to an exchange. -/
def Answer.frame (a : Answer) (exchange : Byte) : List Byte := frameBytes a.code exchange a.payload

/-- R176: the payload length each command byte requires; none for a byte that names no command. -/
def requestLength (code : Byte) : Option Nat :=
  match code.toNat with
  | 0x10 => some 1
  | 0x11 => some 5
  | 0x12 => some 0
  | 0x13 => some 0
  | 0x14 => some 0
  | 0x15 => some 0
  | 0x16 => some 0
  | 0x17 => some 0
  | 0x20 => some 12
  | 0x21 => some 1
  | 0x30 => some 0
  | 0x31 => some 0
  | 0x32 => some 0
  | 0x33 => some 0
  | 0x34 => some 4
  | 0x40 => some 0
  | 0x41 => some 0
  | 0x50 => some 1
  | 0x51 => some 4
  | 0x52 => some 4
  | 0x53 => some 4
  | 0x54 => some 2
  | 0x55 => some 2
  | 0x56 => some 258
  | _ => none

/-- R158: the frame's CRC is the one R159 computes over the bytes before it. -/
def crcPasses (code : Byte) (f : Frame) : Bool := f.crc == crc (frameBody code f.exchange f.payload)

/-- R158: the answer that the frame checks decide, or none for a frame that is taken. -/
def frameCheck (code : Byte) (f : Frame) : Option Answer :=
  if crcPasses code f then
    match requestLength code with
    | none => some .unknown
    | some n => if f.payload.length = n then none else some .badFrame
  else some .badFrame

end Sys2Proof.Machine
end

