-- ==== Sys2Proof/Machine/Flags.lean ====
section
/-! DEFINITION. The conditions and counts the manual derives from the state: the lines the chip drives, the drain count, the
park gate, and what the blocks tell each other (log 17). -/

namespace Sys2Proof.Machine

/-- The depth (R23). -/
def State.depth (s : State) : Nat := s.epochs.stack.length

/-- The top epoch (R23). -/
def State.top (s : State) : Option Epoch := s.epochs.stack.head?

/-- The number of the top epoch, absent at depth 0 (R164). -/
def State.topNumber (s : State) : Option EpochNo := s.top.map (·.number)

/-- The free count (R7). -/
def State.freeCount (s : State) : Nat := s.journal.free.length

/-- R106: the hold is in force while the automatic hold is on or the manual hold is set. -/
def State.holdInForce (s : State) : Bool := s.space.auto || s.space.manual

/-- An entry holds a write. -/
def Entry.isWrite (e : Entry) : Bool := e.write.isSome

/-- An entry has passed the park gate (R27, R122). -/
def Entry.pastGate (e : Entry) : Bool :=
  match e.state with
  | .lineWait => false
  | .parked => false
  | _ => true

/-- An intake answer of the send queue (R117). -/
def HostMessage.isIntake : HostMessage → Bool
  | .intake .. => true
  | _ => false

/-- R116: the accept line. -/
def State.acceptLine (s : State) : Bool :=
  decide (s.host.table.length < Config.tableSize) &&
    decide ((s.host.sendQueue.filter HostMessage.isIntake).length < Config.intakeAnswers) &&
    s.service.coreReset.isNone && !s.inReset

/-- R167: ALERTN is driven low. -/
def State.alertLow (s : State) : Bool := !s.service.events.isEmpty && !s.inReset

/-- R29: an entry the drain of command `c` waits for. -/
def Entry.counts (c : PendingCommand) (e : Entry) : Bool :=
  match c with
  | .rollback => e.pastGate
  | _ => e.pastGate && e.isWrite

/-- R29: the count of the drain of `c`: the entries it waits for still in the table. -/
def State.drainCount (c : PendingCommand) (s : State) : Nat := (s.host.table.filter (Entry.counts c)).length

/-- R27, R170: the park gate lets an entry of this kind pass. -/
def State.gateOpen (isWrite : Bool) (s : State) : Bool :=
  s.service.coreReset.isNone &&
    match s.epochs.controller, s.epochs.command with
    | .idle, _ => true
    | .draining, some .checkpoint => !isWrite
    | .draining, some .commit => !isWrite
    | _, _ => false

/-- The physical segment a block transfer names. -/
def PortOp.blockSegment : PortOp → Option Phys
  | .blockRead p _ => some p
  | .blockWrite p _ _ => some p
  | _ => none

/-- A block transfer granted to physical segment `p` is outstanding (R29, R72, R79). -/
def State.blockOutstanding (p : Phys) (s : State) : Bool :=
  s.journal.outstanding.any fun o => o.2.blockSegment == some p

/-- R21, R85: the service processor owns physical segment `p`. -/
def State.serviceOwns (p : Phys) (s : State) : Bool :=
  s.journal.map.any fun e => e.physical == some p && e.state.owner == some .service

/-- R10: an entry is resident. -/
def Segment.resident (e : Segment) : Bool :=
  match e.state with
  | .filling => true
  | .filled => true
  | _ => false

/-- R11: sequence number `n` lies in the entry. -/
def Segment.holds (e : Segment) (n : Seq) : Bool := decide ((n - e.first).toNat < e.count)

/-- The entry's last record, its first plus count less 1 (R76). -/
def Segment.last (e : Segment) : Seq := e.first + BitVec.ofNat 32 e.count - 1

/-- An append of the entry numbered `q` (R10). -/
def PortOp.appendsTo (q : SegNo) : PortOp → Bool
  | .recordWrite _ _ _ _ q' _ => q' == q
  | _ => false

/-- R10, R15: every append given a position in the entry has completed. -/
def State.settled (e : Segment) (s : State) : Bool :=
  !(s.journal.engineQueue.any (PortOp.appendsTo e.q)) && !(s.journal.outstanding.any fun o => o.2.appendsTo e.q)

/-- R13: space exists for a new logical segment. -/
def State.spaceExists (s : State) : Bool :=
  !s.journal.free.isEmpty && decide (s.journal.map.length < Config.mapSize)

/-- The FILLING entry, which is the newest when there is one (R10). -/
def State.filling (s : State) : Option Segment := s.journal.map.find? fun e => e.state == .filling

/-- R12: the FILLING entry has room for one more record. -/
def State.fillingHasRoom (s : State) : Bool :=
  match s.filling with
  | some e => decide (e.count < Config.recordsPerSegment)
  | none => false

/-- R12, R13: an append request can be given a position now. -/
def State.positionExists (s : State) : Bool := s.fillingHasRoom || s.spaceExists

/-- R52: the line is marked. -/
def State.marked (l : Line) (s : State) : Bool := s.capture.marks.contains l

/-- R51: the number of lines held in the set of line `l`. -/
def State.setCount (l : Line) (s : State) : Nat := (s.capture.marks.filter fun m => setIndex m == setIndex l).length

/-- R43, test 2: an open, non-BROKEN top epoch exists. -/
def State.topOpen (s : State) : Bool :=
  match s.top with
  | some e => e.broken.isNone
  | none => false

/-- The lowest-numbered free capture slot (R46). -/
def State.freeSlot (s : State) : Option (Fin 8) := (List.finRange 8).find? fun i => s.capture.slots[i].isNone

/-- A tag is FREE. -/
def TagState.isFree : TagState → Bool
  | .free => true
  | _ => false

/-- A tag is QUARANTINED. -/
def TagState.isQuarantined : TagState → Bool
  | .quarantined => true
  | _ => false

/-- The lowest-numbered FREE M-tag (R146). -/
def State.freeTag (s : State) : Option (Fin 64) := (List.finRange 64).find? fun t => s.memIf.tags[t].isFree

/-- R146: the size of the quarantine set. -/
def State.quarantineCount (s : State) : Nat := (s.memIf.tags.toList.filter TagState.isQuarantined).length

/-- A memory request is the capture read of slot `i`. -/
def MemRequest.isReadOf (i : Fin 8) : MemRequest → Bool
  | .readLine j _ => j == i
  | _ => false

/-- A tag is held by the capture read of slot `i`. -/
def TagState.readsFor (i : Fin 8) : TagState → Bool
  | .outstanding r _ => r.isReadOf i
  | _ => false

/-- The capture read of slot `i` waits for a tag or is in flight (R45). -/
def State.readPending (i : Fin 8) (s : State) : Bool :=
  s.memIf.tagQueue.any (MemRequest.isReadOf i) || s.memIf.tags.toList.any (TagState.readsFor i)

/-- The entry of the map numbered `q`. -/
def State.segment (q : SegNo) (s : State) : Option Segment := s.journal.map.find? fun e => e.q == q

/-- The map entry that holds sequence number `n` (R11). -/
def State.segmentOf (n : Seq) (s : State) : Option Segment := s.journal.map.find? fun e => e.holds n

/-- The entry of the transaction table with this master and tag. -/
def State.entry (id : HostId) (s : State) : Option Entry := s.host.table.find? fun e => e.id == id

/-- The port grants operations: it stops from CORE_RESET until the journal step (R170, R171). -/
def State.portStopped (s : State) : Bool :=
  match s.service.coreReset with
  | some r => !r.journalDone
  | none => false

/-- R29: the drain of the pending command is complete. -/
def State.drainComplete (s : State) : Bool :=
  decide (s.epochs.controller = .draining) && s.service.coreReset.isNone &&
    match s.epochs.command with
    | none => false
    | some c =>
      decide (s.drainCount c = 0) &&
        !(decide (c = .commit) && decide (s.depth = 1) &&
          s.journal.map.any fun e => decide (e.state = .lent) && match e.physical with
            | some p => s.blockOutstanding p
            | none => false)

/-- A rollback is under way with no failure, in controller state `c` (R67, R74, R77). -/
def State.walking (c : Controller) (s : State) : Option ReplayContext :=
  if s.epochs.controller = c ∧ s.service.coreReset = none then s.replay.context.filter (·.failure.isNone) else none

/-- R71: an entry is consumed: its first is at or after start and every one of its records has had its restore completed OK.
DEDUCED (log 16): the walk has read the records newer than next; of those, only the held one, the listed ones and, after a
failure, ones at or below the kept point have not been restored. -/
def ReplayContext.consumed (c : ReplayContext) (e : Segment) : Bool :=
  seqGe e.first c.start &&
    (match c.next with
      | none => true
      | some n => seqNewer e.first n) &&
    (match c.held with
      | none => true
      | some h => !e.holds h.seq) &&
    c.restores.all (fun r => !e.holds r.1) &&
    (match c.failure with
      | none => true
      | some f => seqNewer e.first f.kept)

/-- R77: the rollback succeeds. -/
def State.rollbackSucceeds (s : State) : Bool :=
  match s.walking .replay with
  | some c => c.next.isNone && c.held.isNone && c.read.isNone && c.restores.isEmpty
  | none => false

/-- R79: a failure completes. -/
def State.failureCompletes (s : State) : Bool :=
  (decide (s.epochs.controller = .replay) || decide (s.epochs.controller = .refillWait)) &&
    s.service.coreReset.isNone &&
    match s.replay.context with
    | none => false
    | some c =>
      match c.failure with
      | none => false
      | some f =>
        c.read.isNone && c.restores.isEmpty &&
          match f.freed with
          | some p => !s.blockOutstanding p
          | none => true

/-- R171: the journal step takes place. -/
def State.journalStepDue (s : State) : Bool :=
  match s.service.coreReset with
  | some r => !r.journalDone && s.journal.outstanding.isEmpty
  | none => false

/-- R172: the core reset ends. -/
def State.coreResetEndDue (s : State) : Bool :=
  match s.service.coreReset with
  | some r => r.journalDone && match s.replay.context with
    | some c => c.restores.isEmpty
    | none => true
  | none => false

/-- R134: a window table entry matches a line and a master. -/
def Window.matches (w : Window) (l : Line) (m : Fin 4) : Bool :=
  w.valid && decide (w.base.toNat ≤ l.toNat) && decide (l.toNat ≤ w.limit.toNat) && w.masters.getLsbD m.val

/-- R134: the deciding entry, the lowest-numbered one that matches. -/
def State.decidingWindow (l : Line) (m : Fin 4) (s : State) : Option (Fin 16) :=
  (List.finRange 16).find? fun i => s.windows[i].matches l m

end Sys2Proof.Machine
end

