-- ==== Sys2Proof/Machine/Ops.lean ====
section
/-! DEFINITION. Shared operations on the state: posting an event, the timebase, entries and the send queue, the memory link's
tags, capture, breaking the top epoch, and the journal. Each is total and changes nothing it does not name. -/

namespace Sys2Proof.Machine

/-! ### Events, timebase, free values -/

/-- R53, R136, R165: one more, unless it already stands at 2^32 − 1. -/
def saturate (v : BitVec 32) : BitVec 32 := if v = BitVec.allOnes 32 then v else v + 1

/-- R164, R165: posts a record with the timebase as its timestamp; with 32 records in the queue it is dropped and counted. -/
def post (epoch : Option EpochNo) (kind : EventKind) (s : State) : State :=
  if s.service.events.length < Config.eventQueueSize then
    s.setService { s.service with events := s.service.events ++ [{ kind := kind, time := s.timebase, epoch := epoch }] }
  else s.setService { s.service with dropped := saturate s.service.dropped }

/-- A timer set to `expiry` expires: the timebase has reached it (log 3). -/
def advanceTo (expiry : Tick) (s : State) : State := if seqNewer expiry s.timebase then s.setTimebase expiry else s

/-- The next free value is another one. -/
def nextFresh (s : State) : State := s.setFresh (s.fresh + 1)

/-- The first `n` bytes; bytes that are not there are free values (log 9). -/
def fitBytes (n : Nat) (bs : List Byte) (s : State) : List Byte :=
  bs.take n ++ (List.range (n - bs.length)).map (Config.missingByte s.fresh)

/-- The first `n` words; words that are not there are free values (log 9). -/
def fitWords (n : Nat) (ws : List Word) (s : State) : List Word :=
  ws.take n ++ (List.range (n - ws.length)).map (Config.missingWord s.fresh)

/-! ### Entries and the send queue (R121 to R127) -/

/-- One entry of the table changed. -/
def updateEntry (id : HostId) (f : Entry → Entry) (s : State) : State :=
  s.setHost { s.host with table := s.host.table.map fun e => if e.id = id then f e else e }

/-- The entry enters a state (R122). -/
def setEntryState (st : EntryState) (id : HostId) (s : State) : State := updateEntry id (fun e => { e with state := st }) s

/-- R127: a message joins the tail of the send queue. -/
def send (m : HostMessage) (s : State) : State := s.setHost { s.host with sendQueue := s.host.sendQueue ++ [m] }

/-- R126: the entry is answered: its response is stored in it and joins the send queue. -/
def answer (id : HostId) (isWrite : Bool) (status : HostStatus) (data : List Word) (s : State) : State :=
  send (.response id isWrite status data)
    (updateEntry id (fun e => { e with response := some { status := status, data := data } }) s)

/-! ### The memory link (R144 to R148) -/

/-- R125, R144: the request of an entry, its address, beats, byte enables and data unchanged. -/
def Entry.request (e : Entry) : MemRequest :=
  match e.write with
  | none => .read e.id e.address e.beats
  | some b => .write e.id e.address e.beats b

/-- The host entry of a request enters ISSUED (R122). -/
def markIssued (r : MemRequest) (s : State) : State :=
  match r with
  | .read id _ _ => setEntryState .issued id s
  | .write id _ _ _ => setEntryState .issued id s
  | _ => s

/-- R144, R148: the request is issued with tag `t`, its timer set to MEM_TIMEOUT as it stands. -/
def issue (t : Fin 64) (r : MemRequest) (s : State) : State :=
  markIssued r (s.setMemIf { s.memIf with
    tags := s.memIf.tags.set t (.outstanding r (s.timebase + BitVec.ofNat 32 s.service.params.memTimeout)) })

/-- R147: the request joins the tail of the tag queue. -/
def queueForTag (r : MemRequest) (s : State) : State :=
  s.setMemIf { s.memIf with tagQueue := s.memIf.tagQueue ++ [r] }

/-- R147: a requester hands a request over: it is issued with the lowest FREE tag if one is FREE and the queue is empty. -/
def handOver (r : MemRequest) (s : State) : State :=
  if s.memIf.tagQueue.isEmpty then
    match s.freeTag with
    | some t => issue t r s
    | none => queueForTag r s
  else queueForTag r s

/-- R147: serves the given requests, one per FREE tag; those that find none are the tag queue. -/
def serveRequests : List MemRequest → State → State
  | [], s => s.setMemIf { s.memIf with tagQueue := [] }
  | r :: rest, s =>
    match s.freeTag with
    | some t => serveRequests rest (issue t r s)
    | none => s.setMemIf { s.memIf with tagQueue := r :: rest }

/-- R147: the tag queue is served from its head. -/
def serveTagQueue (s : State) : State := serveRequests s.memIf.tagQueue s

/-- A tag takes a state. -/
def setTag (t : Fin 64) (st : TagState) (s : State) : State :=
  s.setMemIf { s.memIf with tags := s.memIf.tags.set t st }

/-! ### Capture (R43 to R47) -/

/-- R44: the entry goes to issue: ISSUE_WAIT, and its request is handed over. A read that passes the park gate does the same
(R124). -/
def goToIssue (id : HostId) (s : State) : State :=
  match s.entry id with
  | none => s
  | some e => handOver e.request (setEntryState .issueWait id s)

/-- Several entries go to issue, in the order given. -/
def issueAll : List HostId → State → State
  | [], s => s
  | id :: rest, s => issueAll rest (goToIssue id s)

/-- A capture slot takes a content. -/
def setSlot (i : Fin 8) (sl : Option Slot) (s : State) : State :=
  s.setCapture { s.capture with slots := s.capture.slots.set i sl }

/-- R46, R47: the write takes slot `i` in stage READ, enters CAPTURE_READ, and its READ_LINE is handed over. -/
def takeSlot (i : Fin 8) (id : HostId) (s : State) : State :=
  match s.entry id with
  | none => s
  | some e =>
    handOver (.readLine i e.line)
      (setEntryState .captureRead id
        (setSlot i (some { entry := id, line := e.line, stage := .read, data := none }) s))

/-- R46: the entry enters SLOT_WAIT at the tail of the slot queue. -/
def waitForSlot (id : HostId) (s : State) : State :=
  setEntryState .slotWait id (s.setCapture { s.capture with slotQueue := s.capture.slotQueue ++ [id] })

/-- R46: a write that needs a capture asks for a slot. -/
def askSlot (id : HostId) (s : State) : State :=
  if s.capture.slotQueue.isEmpty then
    match s.freeSlot with
    | some i => takeSlot i id s
    | none => waitForSlot id s
  else waitForSlot id s

/-- R46: slot `i` becomes free, and the head of the slot queue takes it in the same step. -/
def freeSlot (i : Fin 8) (s : State) : State :=
  match s.capture.slotQueue with
  | [] => setSlot i none s
  | id :: rest => takeSlot i id ((setSlot i none s).setCapture { (setSlot i none s).capture with slotQueue := rest })

/-- R43: the capture check of a write that passes the park gate. -/
def captureCheck (e : Entry) (s : State) : State :=
  if e.action = .journal ∧ s.topOpen = true ∧ s.marked e.line = false then askSlot e.id s else goToIssue e.id s

/-- R124: an entry that passes the park gate goes on: a read to its M-tag wait, a write to the capture check. -/
def passGate (id : HostId) (s : State) : State :=
  match s.entry id with
  | none => s
  | some e => if e.isWrite then captureCheck e s else goToIssue id s

/-- R27, R124: an entry reaches the park gate, which lets it pass or holds it. -/
def reachGate (id : HostId) (s : State) : State :=
  match s.entry id with
  | none => s
  | some e => if s.gateOpen e.isWrite then passGate id s else setEntryState .parked id s

/-- Several entries pass the gate, in the order given. -/
def passAll : List HostId → State → State
  | [], s => s
  | id :: rest, s => passAll rest (passGate id s)

/-- The PARKED entries, in arrival order. -/
def State.parked (s : State) : List HostId :=
  (s.host.table.filter fun e => decide (e.state = .parked)).map (·.id)

/-- R28: the gate releases every PARKED entry, in arrival order. -/
def releaseParked (s : State) : State := passAll s.parked s

/-- R58: what the notice does to one slot. -/
def noticeSlot : Option Slot → Option Slot
  | none => none
  | some sl =>
    match sl.stage with
    | .read => some { sl with stage := .discard }
    | .space => none
    | .append => some sl
    | .discard => some sl

/-- The entries in SLOT_WAIT or SPACE_WAIT, in arrival order. -/
def State.captureWaiters (s : State) : List HostId :=
  (s.host.table.filter fun e => decide (e.state = .slotWait) || decide (e.state = .spaceWait)).map (·.id)

/-- R58: the capture unit is told that the top epoch has become BROKEN. The slot queue empties, waiting requests are
withdrawn with their full-wait timers (R110), slots settle by their stage, and the freed entries go to issue in arrival order. -/
def brokenNotice (s : State) : State :=
  issueAll s.captureWaiters
    (((s.setCapture { s.capture with slots := s.capture.slots.map noticeSlot, slotQueue := [] }).setJournal
      { s.journal with waiting := [] }).setSpace { s.space with fullWaits := [] })

/-- The epoch stack is replaced. -/
def setStack (st : List Epoch) (s : State) : State := s.setEpochs { s.epochs with stack := st }

/-- R36, R38: a break of the top epoch: an OPEN one becomes BROKEN with the reason, EPOCH_BROKEN is posted and the capture
unit is told; a BROKEN one keeps its first reason; at depth 0 nothing happens. -/
def breakTop (reason : BrokenReason) (s : State) : State :=
  match s.epochs.stack with
  | [] => s
  | e :: rest =>
    if e.broken = none then
      brokenNotice (post (some e.number) (.epochBroken reason s.depth)
        (setStack ({ e with broken := some reason } :: rest) s))
    else s

/-! ### The mark table (R53, R54) -/

/-- R53: an insert of a line; into a set of 4 other lines it is a mark spill. -/
def insertMark (l : Line) (s : State) : State :=
  if s.marked l then s
  else if s.setCount l < Config.markWays then s.setCapture { s.capture with marks := s.capture.marks ++ [l] }
  else s.setCapture { s.capture with markSpills := saturate s.capture.markSpills }

/-- R54: the mark table is emptied; MARK_SPILLS is kept. -/
def clearMarks (s : State) : State := s.setCapture { s.capture with marks := [] }

/-! ### The journal: positions and space (R1, R4, R12 to R14, R25) -/

/-- The journal map is replaced. -/
def setMap (m : List Segment) (s : State) : State := s.setJournal { s.journal with map := m }

/-- One entry of the map changed. -/
def updateSegment (q : SegNo) (f : Segment → Segment) (s : State) : State :=
  setMap (s.journal.map.map fun e => if e.q = q then f e else e) s

/-- R25: one more position is counted in the top epoch. -/
def countPosition (s : State) : State :=
  match s.epochs.stack with
  | [] => s
  | e :: rest => setStack ({ e with records := e.records + 1 } :: rest) s

/-- The slot of a request takes a stage. -/
def setStage (i : Fin 8) (st : SlotStage) (s : State) : State :=
  setSlot i (s.capture.slots[i].map fun sl => { sl with stage := st }) s

/-- R110: the full-wait timer of an entry stops. -/
def stopFullWait (id : HostId) (s : State) : State :=
  s.setSpace { s.space with fullWaits := s.space.fullWaits.filter fun w => decide (w.1 ≠ id) }

/-- R1, R12: the request takes the next place of the FILLING entry `e`: its record is built and its RECORD_WRITE joins the
engine queue; the count and NEXT_SEQ rise by 1, and the top epoch counts the position (R25). -/
def takePlace (r : AppendRequest) (e : Segment) (s : State) : State :=
  countPosition
    (stopFullWait r.entry
      (setEntryState .captureAppend r.entry
        (setStage r.slot .append
          (s.setJournal { s.journal with
            map := s.journal.map.map fun x => if x.q = e.q then { x with count := x.count + 1 } else x
            nextSeq := s.journal.nextSeq + 1
            engineQueue := s.journal.engineQueue ++
              [.recordWrite r.slot (e.physical.getD 0) e.count s.journal.nextSeq e.q
                (buildRecord r.line s.journal.nextSeq (s.topNumber.getD 0) r.entry.master s.depth r.data)] }))))

/-- R13, step 1: a FILLING entry becomes FILLED. -/
def closeSegment (e : Segment) : Segment := if e.state = .filling then { e with state := .filled } else e

/-- R13: allocation of a new logical segment from the head of the free list. -/
def allocate (s : State) : State :=
  match s.journal.free with
  | [] => s
  | p :: rest =>
    s.setJournal { s.journal with
      map := s.journal.map.map closeSegment ++
        [{ q := s.journal.nextQ, state := .filling, physical := some p, first := s.journal.nextSeq, count := 0 }]
      nextQ := s.journal.nextQ + 1
      free := rest }

/-- R12, R13: the request is given a position, in a new segment if the FILLING entry has no room. -/
def givePosition (r : AppendRequest) (s : State) : State :=
  let s := if s.fillingHasRoom then s else allocate s
  match s.filling with
  | none => s
  | some e => takePlace r e s

/-- R14: serves the given requests while positions exist; those that remain are the waiting queue. -/
def serveAppends : List AppendRequest → State → State
  | [], s => s.setJournal { s.journal with waiting := [] }
  | r :: rest, s =>
    if s.positionExists then serveAppends rest (givePosition r s)
    else s.setJournal { s.journal with waiting := r :: rest }

/-- R14: the waiting queue is served from its oldest request. -/
def serveWaiting (s : State) : State := serveAppends s.journal.waiting s

/-- R7, R14: segments join the free list tail in the order given, and the space goes to waiting requests. -/
def freeSegments (ps : List Phys) (s : State) : State :=
  serveWaiting (s.setJournal { s.journal with free := s.journal.free ++ ps })

/-- R14, R110: the request waits for space: SPACE_WAIT, and the entry's full-wait timer starts with FULL_WAIT as it stands.
With FULL_WAIT at 0 it expires in this step (R111). -/
def waitForSpace (r : AppendRequest) (s : State) : State :=
  let waiting := setEntryState .spaceWait r.entry (setStage r.slot .space
    ((s.setJournal { s.journal with waiting := s.journal.waiting ++ [r] }).setSpace
      { s.space with fullWaits := s.space.fullWaits ++
          [(r.entry, s.timebase + BitVec.ofNat 32 s.service.params.fullWait)] }))
  if s.service.params.fullWait = 0 then breakTop .full waiting else waiting

/-- R12, R48: the journal unit takes an append request. -/
def appendRequest (r : AppendRequest) (s : State) : State :=
  if s.journal.waiting.isEmpty && s.positionExists then givePosition r s else waitForSpace r s

/-! ### Cutting the journal back (R16 to R18) -/

/-- R16, step 2: what truncation at `c` does to an entry that is kept. -/
def cutSegment (c : Seq) (e : Segment) : Segment :=
  if e.holds (c - 1) then
    { e with count := (c - e.first).toNat, state := if e.resident then .filling else e.state }
  else e

/-- R16: truncation at cut `c`. -/
def truncate (c : Seq) (s : State) : State :=
  freeSegments ((s.journal.map.filter fun e => seqGe e.first c).filterMap (·.physical))
    (s.setJournal { s.journal with
      map := (s.journal.map.filter fun e => !seqGe e.first c).map (cutSegment c)
      nextSeq := c })

/-- R18: the q of the oldest and of the newest entry, when the map holds one. -/
def State.segmentRange (s : State) : Option (SegNo × SegNo) :=
  match s.journal.map.head?, s.journal.map.getLast? with
  | some a, some b => some (a.q, b.q)
  | _, _ => none

/-- R18: a journal discard, without its event. -/
def discardJournal (s : State) : State :=
  freeSegments (s.journal.map.filterMap (·.physical)) (setMap [] s)

/-! ### The journal memory (R6, R15, R89) -/

/-- What a write of `bytes` at `a` leaves: the bytes on OK; on FAULT the contents are unknown, so free (log 10). -/
def landWrite (a : Nat) (bytes : List Byte) (status : Status) (s : State) : State :=
  match status with
  | .ok => s.setJournal { s.journal with memory := Memory.writeBytes s.journal.memory a bytes }
  | .fault =>
    nextFresh (s.setJournal { s.journal with
      memory := Memory.writeBytes s.journal.memory a
        ((List.range bytes.length).map (Config.faultedByte s.fresh)) })

/-- The `n` bytes a read of the port at `a` brings back (log 8). -/
def portBytes (a n : Nat) (data : PortData) (s : State) : List Byte :=
  match data with
  | .asStored => Memory.readBytes s.journal.memory a n
  | .returned bs => fitBytes n bs s

/-- The outstanding operation with port tag `p` (R19). -/
def State.portOp (p : Fin 8) (s : State) : Option PortOp := (s.journal.outstanding.find? fun o => o.1 == p).map (·.2)

/-- The operation with port tag `p` is outstanding no more. -/
def dropPort (p : Fin 8) (s : State) : State :=
  s.setJournal { s.journal with outstanding := s.journal.outstanding.filter fun o => decide (o.1 ≠ p) }

/-! ### The exchange (R156 to R160) -/

/-- R156: the command's answer is ready: its frame is sent if its exchange is still open (R157). -/
def respond (a : Answer) (s : State) : State :=
  match s.service.work with
  | none => s
  | some w =>
    s.setService { s.service with
      work := none
      exchange := if w.attached then .answering (a.frame w.exchange) else s.service.exchange }

/-- A parameter set is stored. -/
def setParams (p : Params) (s : State) : State := s.setService { s.service with params := p }

/-- The controller takes a state and a pending command (R26). -/
def setController (c : Controller) (cmd : Option PendingCommand) (s : State) : State :=
  s.setEpochs { s.epochs with controller := c, command := cmd }

/-- The replay context is replaced. -/
def setContext (c : Option ReplayContext) (s : State) : State := s.setReplay { s.replay with context := c }

/-- The refill timer is set or stopped. -/
def setRefillTimer (t : Option Tick) (s : State) : State := s.setReplay { s.replay with refillTimer := t }

/-! ### What every meaning does with RESETN -/

/-- R173: while RESETN is asserted the chip takes nothing on any link; otherwise the step `f` is taken. -/
def whenRunning (f : State → State) (s : State) : Result := if s.inReset then .next s else .next (f s)

end Sys2Proof.Machine
end

