-- ==== Sys2Proof/Machine/Replay.lean ====
section
/-! DEFINITION. The replay unit and the outcome of a rollback: the walk (R64 to R69), recall and refill (R72 to R75), restores
(R70, R71), success (R77) and failure (R78, R79). -/

namespace Sys2Proof.Machine

/-- R72: the walk reaches a LENT entry: it is recalled to FILLED and SEGMENT_RECALLED is posted. -/
def recallSegment (c : ReplayContext) (e : Segment) (s : State) : State :=
  match e.physical with
  | none => s
  | some p =>
    post (some c.epoch) (.segmentRecalled e.q p) (updateSegment e.q (fun x => { x with state := .filled }) s)

/-- R74: the walk reaches a SPILLED entry: REFILL_WAIT, the refill field with no segment yet, and the refill timer. -/
def awaitRefill (c : ReplayContext) (e : Segment) (s : State) : State :=
  setController .refillWait none
    (setRefillTimer (some (s.timebase + BitVec.ofNat 32 (1000 * s.service.params.refillWait)))
      (setContext (some { c with refill := some { q := e.q, physical := none, refilled := false } }) s))

/-- R74: the refill of a SPILLED entry takes the head of the free list: the entry becomes REFILLING and REFILL_REQUEST is posted.
Nothing happens while no refill waits for a segment or none is free. -/
def takeRefillSegment (s : State) : State :=
  match s.walking .refillWait with
  | none => s
  | some c =>
    match c.refill, s.journal.free with
    | some r, p :: rest =>
      if r.physical = none then
        match s.segment r.q with
        | none => s
        | some e =>
          if e.state = .spilled then
            post (some c.epoch) (.refillRequest e.q e.first p e.count)
              (setContext (some { c with refill := some { r with physical := some p } })
                (updateSegment r.q (fun x => { x with state := .refilling, physical := some p })
                  (s.setJournal { s.journal with free := rest })))
          else s
      else s
    | _, _ => s

/-- R66: the walk reaches an entry, which becomes current, and acts by its state. -/
def reach (c : ReplayContext) (e : Segment) (s : State) : State :=
  let c := { c with current := some e.q, refill := none }
  let s := setContext (some c) s
  match e.state with
  | .lent => recallSegment c e s
  | .spilled => takeRefillSegment (awaitRefill c e s)
  | _ => s

/-- R64, R81: REPLAY is entered: the mark table is cleared, the context is set up with next at NEXT_SEQ − 1 (absent for an
epoch without records), and the walk starts at the newest map entry. -/
def startWalk (e : Epoch) (replayed : BitVec 32) (s : State) : State :=
  let empty := decide (s.journal.nextSeq = e.start)
  let c : ReplayContext :=
    { epoch := e.number, start := e.start, next := if empty then none else some (s.journal.nextSeq - 1), current := none,
      read := none, held := none, restores := [], refill := none, replayed := replayed, failure := none }
  let s := setContext (some c) (clearMarks (setController .replay none s))
  if empty then s
  else
    match s.journal.map.getLast? with
    | none => s
    | some seg => reach c seg s

/-- R77: success: truncation at start, pop, ROLLBACK_DONE, release. Nothing happens while R77's conditions do not hold. -/
def completeSuccess (s : State) : State :=
  if s.rollbackSucceeds then
    match s.replay.context with
    | none => s
    | some c =>
      let cut := truncate c.start s
      let popped := setStack cut.epochs.stack.tail cut
      releaseParked (setController .idle none (setContext none
        (post (some c.epoch) (.rollbackDone c.replayed popped.depth) popped)))
  else s

/-- R79, step 3: what the context keeps in STOPPED: the epoch and replayed. -/
def ReplayContext.stopped (c : ReplayContext) : ReplayContext :=
  { c with next := none, current := none, read := none, held := none, restores := [], refill := none, failure := none }

/-- R79, step 2: the top epoch's records become NEXT_SEQ less its start. -/
def recountTop (s : State) : State :=
  match s.epochs.stack with
  | [] => s
  | e :: rest => setStack ({ e with records := (s.journal.nextSeq - e.start).toNat } :: rest) s

/-- R79: a failure completes: truncation at the kept point plus 1, STOPPED, ROLLBACK_FAILED. Nothing happens while R79's
conditions do not hold. -/
def completeFailure (s : State) : State :=
  if s.failureCompletes then
    match s.replay.context with
    | none => s
    | some c =>
      match c.failure with
      | none => s
      | some f =>
        post (some c.epoch) (.rollbackFailed f.reason (some f.kept))
          (setContext (some c.stopped) (setController .stopped none (recountTop (truncate (f.kept + 1) s))))
  else s

/-- What a rollback does by itself once a step has moved it: a refill finds its segment (R74), a failure completes (R79),
success (R77). See log 4. -/
def settleRollback (s : State) : State := completeSuccess (completeFailure (takeRefillSegment s))

/-- R78: the entry whose refill ends returns to SPILLED and loses its segment. -/
def spillRefill (q : SegNo) (s : State) : State :=
  updateSegment q (fun x => { x with state := .spilled, physical := none }) s

/-- R78: a read or check failure in the entry that has been refilled. -/
def ReplayContext.badRefill (c : ReplayContext) (reason : FailReason) : Bool :=
  (match reason with
    | .journalReadFault => true
    | .checksum => true
    | .sequence => true
    | _ => false) &&
    match c.refill with
    | some r => r.refilled && c.current == some r.q
    | none => false

/-- R78: the entry whose segment the failure takes back: a refill in REFILLING, or a refilled entry with a bad record. -/
def State.refillToSpill (c : ReplayContext) (reason : FailReason) (s : State) : Option Segment :=
  match c.refill with
  | none => none
  | some r => (s.segment r.q).filter fun e => decide (e.state = .refilling) || c.badRefill reason

/-- R78: the kept point: the record named, or a bad refilled entry's last record, raised to the held record if that is newer. -/
def State.keptPoint (c : ReplayContext) (reason : FailReason) (n : Seq) (s : State) : Seq :=
  let k := if c.badRefill reason then ((s.refillToSpill c reason).map Segment.last).getD n else n
  match c.held with
  | some h => seqMax k h.seq
  | none => k

/-- R78: the rollback fails at sequence `n`: the failure field is set, the held record is dropped, the refill timer stops and
a refill ends, its segment joining the free list tail. The refill field stays for an entry that has been refilled (R65), until the
failure completes (R79); an entry still being refilled is refilled no longer. DEDUCED (log 34). -/
def failRollback (c : ReplayContext) (reason : FailReason) (n : Seq) (s : State) : State :=
  let seg := s.refillToSpill c reason
  let freed := seg.bind (·.physical)
  let failure : Failure := { reason := reason, kept := s.keptPoint c reason n, freed := freed }
  let s := setContext (some { c with held := none, refill := c.refill.filter (·.refilled), failure := some failure }) (setRefillTimer none s)
  match seg with
  | none => s
  | some e => freeSegments freed.toList (spillRefill e.q s)

/-- R71: removes the consumed entries from the newest end: what stays, oldest last, and the segments freed in order. -/
def removeConsumed (c : ReplayContext) : List Segment → List Segment × List Phys
  | [] => ([], [])
  | e :: older =>
    if c.consumed e then
      let r := removeConsumed c older
      (r.1, e.physical.toList ++ r.2)
    else (e :: older, [])

/-- R71, R17: whenever the newest map entry is consumed it leaves the map, and its segment joins the free list tail. -/
def dropConsumed (c : ReplayContext) (s : State) : State :=
  let r := removeConsumed c s.journal.map.reverse
  freeSegments r.2 (setMap r.1.reverse s)

/-- R65: one more restore counted; past the end of the range the value is free (log 27). -/
def countReplayed (v : BitVec 32) : BitVec 32 := if v = BitVec.allOnes 32 then Config.replayedPastRange else v + 1

/-- R70, R78: the restore of record `n`, which the context lists, has its completion OK, or its completion FAULT or timeout.
During a core reset its pair leaves the list and nothing else happens (R170). -/
def restoreEnds (n : Seq) (ok : Bool) (s : State) : State :=
  match s.replay.context with
  | none => s
  | some c0 =>
    let c := { c0 with restores := c0.restores.filter fun r => decide (r.1 ≠ n) }
    if c0.restores.all (fun r => decide (r.1 ≠ n)) then s
    else if s.service.coreReset.isSome then setContext (some c) s
    else
      match ok, c.failure with
      | true, none => dropConsumed c (setContext (some { c with replayed := countReplayed c.replayed }) s)
      | true, some _ => dropConsumed c (setContext (some c) s)
      | false, none => failRollback c .restoreFault n (setContext (some c) s)
      | false, some f => setContext (some { c with failure := some { f with kept := seqMax f.kept n } }) s

/-- R65: no map entry holds next: there is no current entry, and so none whose refill the field could keep. -/
def ReplayContext.noCurrent (c : ReplayContext) : ReplayContext := { c with current := none, refill := none }

/-- R68: a record that passes both checks becomes the held record, next decreases by 1, and the walk may reach an older entry
(R66). After the epoch's first record next is absent, and the current entry with it (R65). -/
def holdRecord (c : ReplayContext) (n : Seq) (record : List Byte) (s : State) : State :=
  let c := { c with held := some { seq := n, line := recordLine record, data := recordData record } }
  if n = c.start then setContext (some { c with next := none : ReplayContext }.noCurrent) s
  else
    let c := { c with next := some (n - 1) }
    match s.segmentOf (n - 1) with
    | none => setContext (some c.noCurrent) s
    | some e => if c.current = some e.q then setContext (some c) s else reach c e s

/-- R67, R68: the record read for `n` is checked. -/
def checkRecord (c : ReplayContext) (n : Seq) (record : List Byte) (s : State) : State :=
  if checksumPasses record then
    if recordSeq record = n then holdRecord c n record s else failRollback c .sequence n s
  else failRollback c .checksum n s

/-- R67: the entry the next RECORD_READ reads from and the record it reads, when R67's conditions hold. -/
def State.nextRead (s : State) : Option (ReplayContext × Segment × Seq) :=
  match s.walking .replay with
  | none => none
  | some c =>
    match c.next, c.current.bind (fun q => s.segment q) with
    | some n, some e =>
      if c.read.isNone && c.held.isNone && e.resident &&
          (match e.physical with
            | some p => !s.blockOutstanding p
            | none => false) then some (c, e, n)
      else none
    | _, _ => none

/-- R67: the RECORD_READ for `n` joins the engine queue, and the read field takes `n`. -/
def issueRecordRead (c : ReplayContext) (e : Segment) (n : Seq) (s : State) : State :=
  setContext (some { c with read := some n })
    (s.setJournal { s.journal with
      engineQueue := s.journal.engineQueue ++ [.recordRead (e.physical.getD 0) (n - e.first).toNat n] })

/-- R69: the held record whose restore may be handed over now. -/
def State.nextRestore (s : State) : Option (ReplayContext × HeldRecord) :=
  if s.epochs.controller = .replay ∨ s.epochs.controller = .refillWait then
    match s.walking s.epochs.controller with
    | none => none
    | some c =>
      match c.held with
      | none => none
      | some h =>
        if c.restores.length < s.service.params.restoreAhead ∧ c.restores.all (fun r => decide (r.2 ≠ h.line)) = true then
          some (c, h)
        else none
  else none

/-- R69: the held record's restore is handed to the memory interface. -/
def handOverRestore (c : ReplayContext) (h : HeldRecord) (s : State) : State :=
  handOver (.restore h.seq h.line h.data)
    (setContext (some { c with held := none, restores := c.restores ++ [(h.seq, h.line)] }) s)

end Sys2Proof.Machine
end

