-- ==== Sys2Proof/Machine/Epochs.lean ====
section
/-! DEFINITION. The epoch controller: epoch numbers (R24), the effects of CHECKPOINT (R32), COMMIT (R34, R35) and ROLLBACK (R64)
when their drains complete, and the drain itself (R29). -/

namespace Sys2Proof.Machine

/-- R24: the following value of an epoch number: plus 1, except that 65535 is followed by 1. -/
def followingEpoch (n : EpochNo) : EpochNo := if n = 65535#16 then 1 else n + 1

/-- R24: from `n` on, the first number no epoch on the stack holds, found within the given number of steps. -/
def unheldEpoch (stack : List Epoch) : Nat → EpochNo → EpochNo
  | 0, n => n
  | k + 1, n => if stack.any (fun e => e.number == n) then unheldEpoch stack k (followingEpoch n) else n

/-- R24: the number the next epoch takes. At most 8 numbers are held, so 8 steps suffice. -/
def State.newEpochNumber (s : State) : EpochNo := unheldEpoch s.epochs.stack 8 s.epochs.nextEpoch

/-- R32: a CHECKPOINT takes effect: push, clear the mark table, EPOCH_OPENED, IDLE, release. -/
def checkpointEffect (s : State) : State :=
  let n := s.newEpochNumber
  let pushed := s.setEpochs {
    stack := { number := n, start := s.journal.nextSeq, broken := none, records := 0 } :: s.epochs.stack
    nextEpoch := followingEpoch n
    controller := .idle
    command := none }
  releaseParked (post (some n) (.epochOpened pushed.depth s.journal.nextSeq) (clearMarks pushed))

/-- R34, steps 2 and 3: the parent after its child is merged into it. -/
def mergeChild (child parent : Epoch) : Epoch :=
  { parent with
    records := parent.records + child.records
    broken := if child.broken.isSome && parent.broken.isNone then some .inherited else parent.broken }

/-- R34: a COMMIT takes effect at depth 2 or more. -/
def commitNested (child parent : Epoch) (rest : List Epoch) (s : State) : State :=
  let popped := setStack (mergeChild child parent :: rest) s
  let told := post (some child.number) (.epochCommitted child.records popped.depth) popped
  let broken := if child.broken.isSome && parent.broken.isNone then
      post (some parent.number) (.epochBroken .inherited popped.depth) told
    else told
  releaseParked (setController .idle none broken)

/-- R18: SEGMENTS_DISCARDED is posted when the map held an entry. -/
def postDiscard (epoch : Option EpochNo) (range : Option (SegNo × SegNo)) (s : State) : State :=
  match range with
  | none => s
  | some r => post epoch (.segmentsDiscarded r.1 r.2) s

/-- R35: a COMMIT takes effect at depth 1: pop, journal discard, mark table cleared, EPOCH_COMMITTED, IDLE, release. -/
def commitOutermost (e : Epoch) (s : State) : State :=
  let discarded := postDiscard (some e.number) s.segmentRange (discardJournal (setStack [] s))
  releaseParked (setController .idle none
    (post (some e.number) (.epochCommitted e.records 0) (clearMarks discarded)))

/-- R34, R35: a COMMIT takes effect. -/
def commitEffect (s : State) : State :=
  match s.epochs.stack with
  | child :: parent :: rest => commitNested child parent rest s
  | [e] => commitOutermost e s
  | [] => releaseParked (setController .idle none s)

/-- R64: the ROLLBACK drain completes: with an OPEN top epoch the walk starts, with a BROKEN one the rollback is cancelled. -/
def rollbackEffect (s : State) : State :=
  match s.top with
  | none => releaseParked (setController .idle none s)
  | some e =>
    if e.broken = none then settleRollback (startWalk e 0 s)
    else post (some e.number) (.rollbackFailed .unrecoverable none) (releaseParked (setController .idle none s))

/-- R29: the pending command `c` takes effect. -/
def drainEffect (c : PendingCommand) (s : State) : State :=
  match c with
  | .checkpoint => checkpointEffect s
  | .commit => commitEffect s
  | .rollback => rollbackEffect s

/-- R29: the drain of `c`, if it is the pending command and its drain is complete, takes effect. -/
def completeDrain (c : PendingCommand) (s : State) : State :=
  if s.epochs.command = some c ∧ s.drainComplete = true then drainEffect c s else s

/-- R29: in the step that completes the drain, the pending command takes effect (log 4). -/
def settleDrain (s : State) : State :=
  match s.epochs.command with
  | none => s
  | some c => completeDrain c s

end Sys2Proof.Machine
end

