-- ==== Sys2Proof/Machine/Space.lean ====
section
/-! DEFINITION. The space monitor: the automatic hold (R103), the hold in force (R106 to R108), and what a step that may change
the free count or a hold ends with (R102). -/

namespace Sys2Proof.Machine

/-- R103: the automatic hold follows the free count, with hysteresis between the thresholds. -/
def evaluateAuto (s : State) : State :=
  if s.freeCount ≤ s.service.params.holdOnFree then s.setSpace { s.space with auto := true }
  else if s.service.params.holdOffFree ≤ s.freeCount then s.setSpace { s.space with auto := false }
  else s

/-- R108: the expiry of a refresh timer started now: HOLD_TIME divided by 2, rounded down, from now. -/
def State.refreshExpiry (s : State) : Tick := s.timebase + BitVec.ofNat 32 (s.service.params.holdTime / 2)

/-- R106, step 1: the host interface is told whether the hold is in force (log 26). -/
def tellHold (b : Bool) (s : State) : State := s.setHost { s.host with holdTold := b }

/-- R106 to R108: the hold comes into force: HOLD(HOLD_TIME) is asked for, the refresh timer starts, HOLD_CHANGED is posted. -/
def holdComes (s : State) : State :=
  post s.topNumber (.holdChanged true s.freeCount)
    ((send (.hold s.service.params.holdTime) (tellHold true s)).setSpace
      { s.space with refreshTimer := some s.refreshExpiry })

/-- R106 to R108: the hold leaves force: HOLD(0) is asked for, the refresh timer stops, HOLD_CHANGED is posted. -/
def holdLeaves (s : State) : State :=
  post s.topNumber (.holdChanged false s.freeCount)
    ((send (.hold 0) (tellHold false s)).setSpace { s.space with refreshTimer := none })

/-- R106: when the hold in force is not what the host interface was last told, the change is announced. -/
def announceHold (s : State) : State :=
  if s.holdInForce = s.host.holdTold then s
  else if s.holdInForce then holdComes s
  else holdLeaves s

/-- R102, R106: the end of a step that began at `before` and reached `after`: a changed free count re-applies R103, and a
change of the hold in force is announced after the step's other records. -/
def settleHold (before after : State) : State :=
  announceHold (if after.freeCount = before.freeCount then after else evaluateAuto after)

/-- A step of a running chip that may change the free count or a hold. -/
def whenRunningSpaced (f : State → State) (s : State) : Result := whenRunning (fun s => settleHold s (f s)) s

end Sys2Proof.Machine
end

