-- ==== Sys2Proof/Machine/EpochRows.lean ====
section
/-! DEFINITION. The meanings of the drain completions. -/

namespace Sys2Proof.Machine

/-- CHECKPOINT_DRAIN_COMPLETE (R32). -/
def execCheckpointDrainComplete (s : State) : Result := whenRunning (completeDrain .checkpoint) s

/-- COMMIT_DRAIN_COMPLETE (R34, R35). -/
def execCommitDrainComplete (s : State) : Result := whenRunningSpaced (completeDrain .commit) s

/-- ROLLBACK_DRAIN_COMPLETE (R64). -/
def execRollbackDrainComplete (s : State) : Result := whenRunningSpaced (completeDrain .rollback) s

end Sys2Proof.Machine
end

