-- ==== Sys2Proof/Machine/HostLink.lean ====
section
/-! DEFINITION. The host interface: intake (R117 to R120, R134 to R136), sending and freeing (R123, R126, R127). -/

namespace Sys2Proof.Machine

/-- R117: an intake answer joins the send queue. -/
def answerIntake (r : Request) (status : HostStatus) (s : State) : State :=
  send (.intake r.id r.write.isSome status) s

/-- R118: a request with a held master and tag is discarded, and HOST_PROTOCOL is posted with its epoch absent. -/
def discardDuplicate (r : Request) (s : State) : State := post none (.hostProtocol r.id) s

/-- R136: the hit of the deciding entry is counted. -/
def countHit (i : Fin 16) (s : State) : State :=
  s.setWindows (s.windows.set i { s.windows[i] with hits := saturate s.windows[i].hits })

/-- R120, R134: the action of a request of this line and master: PASS in BYPASS; in ACTIVE the deciding entry's, or
DEFAULT_ACTION. -/
def State.classify (l : Line) (m : Fin 4) (s : State) : Action :=
  match s.service.mode with
  | .bypass => .pass
  | .active =>
    match s.decidingWindow l m with
    | some i => s.windows[i].action
    | none => s.service.params.defaultAction

/-- R120, R136: classification counts the deciding entry's hit; in BYPASS the window unit is not asked. -/
def countClassified (l : Line) (m : Fin 4) (s : State) : State :=
  match s.service.mode with
  | .bypass => s
  | .active =>
    match s.decidingWindow l m with
    | some i => countHit i s
    | none => s

/-- R135: the action answers the request REFUSED at intake. -/
def Action.refuses (a : Action) (isWrite : Bool) : Bool :=
  match a with
  | .deny => true
  | .guard => isWrite
  | _ => false

/-- R121: the entry of a request with its stored action, in LINE_WAIT until it passes the line gate. -/
def Request.entry (r : Request) (a : Action) : Entry :=
  { id := r.id, address := r.address, beats := r.beats, write := r.write, action := a, state := .lineWait, response := none }

/-- R121, R123, R124: an entry is created; with no older entry of its line in the table it reaches the park gate at once. -/
def createEntry (e : Entry) (s : State) : State :=
  let blocked := s.host.table.any fun x => x.line == e.line
  let s := s.setHost { s.host with table := s.host.table ++ [e] }
  if blocked then s else reachGate e.id s

/-- R117, step 4: the request is classified, and answered REFUSED or given an entry. -/
def classifyRequest (r : Request) (s : State) : State :=
  let a := s.classify (lineOf r.address) r.id.master
  let counted := countClassified (lineOf r.address) r.id.master s
  if a.refuses r.write.isSome then answerIntake r .refused counted else createEntry (r.entry a) counted

/-- R116, R117: a request is taken while the accept line is asserted, and the first check that applies decides it. -/
def takeRequest (r : Request) (s : State) : State :=
  if s.acceptLine then
    if (s.entry r.id).isSome then discardDuplicate r s
    else if r.malformed then answerIntake r .malformed s
    else if r.write.isSome && s.host.holdTold then answerIntake r .retry s
    else classifyRequest r s
  else s

/-- R123: the oldest entry of a line, when it waits in LINE_WAIT, passes the line gate and reaches the park gate. -/
def lineGate (l : Line) (s : State) : State :=
  match s.host.table.find? fun e => e.line == l with
  | none => s
  | some e => if e.state = .lineWait then reachGate e.id s else s

/-- R126: the entry is freed: it leaves the table, and the line gate lets the next entry of its line through. -/
def freeEntry (id : HostId) (s : State) : State :=
  match s.entry id with
  | none => s
  | some e => lineGate e.line (s.setHost { s.host with table := s.host.table.filter fun x => decide (x.id ≠ id) })

/-- R127: the message at the head of the send queue is sent; the entry of a response is freed in that step. -/
def sendHead (s : State) : State :=
  match s.host.sendQueue with
  | [] => s
  | m :: rest =>
    let s := s.setHost { s.host with sendQueue := rest, lastSent := some m }
    match m with
    | .response id _ _ _ => freeEntry id s
    | _ => s

end Sys2Proof.Machine
end

