-- ==== Sys2Proof/Machine/HostRows.lean ====
section
/-! DEFINITION. The meanings of the host link rows: READ, WRITE, MESSAGE_SENT. -/

namespace Sys2Proof.Machine

/-- READ (R117): a one-word request is taken from the request channel. -/
def execRead (header : Word) (s : State) : Result := whenRunning (takeRequest (readRequest header)) s

/-- WRITE (R117): a request with its enables and data words is taken from the request channel. -/
def execWrite (header enables : Word) (data : List Word) (s : State) : Result :=
  whenRunning (takeRequest (writeRequest header enables data)) s

/-- MESSAGE_SENT (R127): the head of the send queue is sent. A response frees its entry, and a drain that counted the entry may
complete in this step (R29). -/
def execMessageSent (s : State) : Result := whenRunningSpaced (fun s => settleDrain (sendHead s)) s

end Sys2Proof.Machine
end

