-- ==== Sys2Proof/Machine/MemoryLink.lean ====
section
/-! DEFINITION. The memory interface's completions and timeouts (R145 to R153), and what each requester does with an outcome
(R125, R48, R56, R59, R70). -/

namespace Sys2Proof.Machine

/-- R153: the origin of a request. -/
def MemRequest.origin : MemRequest → Origin
  | .read .. => .host
  | .write .. => .host
  | .readLine .. => .capture
  | .restore .. => .restore

/-- R153: the line of a request. -/
def MemRequest.line : MemRequest → Line
  | .read _ a _ => lineOf a
  | .write _ a _ _ => lineOf a
  | .readLine _ l => l
  | .restore _ l _ => l

/-- A value was missing from a completion, so a free value was used (log 9). -/
def useFresh (n have' : Nat) (s : State) : State := if have' < n then nextFresh s else s

/-- R48: the capture read of slot `i` completed OK in stage READ: its bytes are stored and the append request is handed over. -/
def captureAppend (i : Fin 8) (sl : Slot) (bytes : List Byte) (s : State) : State :=
  appendRequest { slot := i, entry := sl.entry, line := sl.line, data := bytes }
    (setSlot i (some { sl with data := some bytes }) s)

/-- R56: the capture fails: the write is answered CAPFAULT, and the slot is freed. -/
def captureFails (i : Fin 8) (sl : Slot) (s : State) : State := freeSlot i (answer sl.entry true .capFault [] s)

/-- R59: a read ends in stage DISCARD: the slot is freed and the entry goes to issue. From CORE_RESET until the journal step
the slot keeps its entry (R170). -/
def discardEnds (i : Fin 8) (sl : Slot) (s : State) : State :=
  if s.portStopped then s else goToIssue sl.entry (freeSlot i s)

/-- R48, R56, R59: the capture read of slot `i` ends, with its data words on OK and none on FAULT or timeout. -/
def captureReadEnds (i : Fin 8) (data : Option (List Word)) (s : State) : State :=
  match s.capture.slots[i] with
  | none => s
  | some sl =>
    match sl.stage, data with
    | .read, some ws =>
      captureAppend i sl (fitBytes Config.lineBytes (wordsBytes ws) s)
        (useFresh Config.lineBytes (wordsBytes ws).length s)
    | .read, none => captureFails i sl s
    | .discard, _ => discardEnds i sl s
    | _, _ => s

/-- R125: the entry of a READ is answered, with its data beats on OK and MEMFAULT otherwise. -/
def readEnds (id : HostId) (beats : Nat) (data : Option (List Word)) (s : State) : State :=
  match data with
  | some ws => answer id false .ok (fitWords beats ws s) (useFresh beats ws.length s)
  | none => answer id false .memFault [] s

/-- R125: the entry of a WRITE is answered OK or MEMFAULT. -/
def writeEnds (id : HostId) (ok : Bool) (s : State) : State :=
  answer id true (if ok then .ok else .memFault) [] s

/-- R149, R150: the outcome of a request reaches its requester: the data words on OK, none on FAULT or timeout. -/
def handOutcome (r : MemRequest) (data : Option (List Word)) (s : State) : State :=
  match r with
  | .read id _ beats => readEnds id beats data s
  | .write id _ _ _ => writeEnds id data.isSome s
  | .readLine i _ => captureReadEnds i data s
  | .restore n _ _ => restoreEnds n data.isSome s

/-- R153: MEM_FAULT for a request. -/
def postMemFault (kind : MemFaultKind) (r : MemRequest) (t : Fin 64) (s : State) : State :=
  post s.topNumber (.memFault kind r.origin r.line t) s

/-- R149: the completion of an OUTSTANDING tag: the tag becomes FREE, the tag queue is served, the outcome is handed over, and
on FAULT MEM_FAULT is posted. -/
def completeRequest (t : Fin 64) (r : MemRequest) (status : Status) (data : List Word) (s : State) : State :=
  let s := serveTagQueue (setTag t .free s)
  match status with
  | .ok => handOutcome r (some data) s
  | .fault => postMemFault .fault r t (handOutcome r none s)

/-- R151: a late completion frees its QUARANTINED tag, serves the tag queue and posts LATE_COMPLETION. -/
def lateCompletion (t : Fin 64) (s : State) : State :=
  post none (.lateCompletion t true) (serveTagQueue (setTag t .free s))

/-- R145: a completion is taken, by the state of its tag. -/
def takeCompletion (t : Fin 64) (status : Status) (data : List Word) (s : State) : State :=
  match s.memIf.tags[t] with
  | .outstanding r _ => completeRequest t r status data s
  | .quarantined => lateCompletion t s
  | .free => post none (.lateCompletion t false) s

/-- R150: the timer of an OUTSTANDING tag expires: the tag is QUARANTINED, the requester receives a timeout, MEM_FAULT is
posted. A tag that is not OUTSTANDING has no timer (log 6). -/
def takeTimeout (t : Fin 64) (s : State) : State :=
  match s.memIf.tags[t] with
  | .outstanding r expiry =>
    postMemFault .timeout r t (handOutcome r none (setTag t .quarantined (advanceTo expiry s)))
  | _ => s

/-- R152: every QUARANTINED tag becomes FREE. -/
def releaseTag : TagState → TagState
  | .quarantined => .free
  | st => st

/-- R152: the quarantine set is released and the tag queue served. -/
def releaseQuarantine (s : State) : State :=
  serveTagQueue (s.setMemIf { s.memIf with tags := s.memIf.tags.map releaseTag })

end Sys2Proof.Machine
end

