-- ==== Sys2Proof/Machine/Port.lean ====
section
/-! DEFINITION. The journal port: the arbiter's grants (R20, R21) and the completions of the four operations (R15, R50, R57,
R67, R89). -/

namespace Sys2Proof.Machine

/-- The lowest port tag not in use (log 7). -/
def State.freePort (s : State) : Option (Fin 8) :=
  (List.finRange 8).find? fun p => s.journal.outstanding.all fun o => decide (o.1 ≠ p)

/-- R20: an operation is issued with port tag `p`, and its side is the one granted last. -/
def grant (p : Fin 8) (op : PortOp) (side : Side) (s : State) : State :=
  s.setJournal { s.journal with outstanding := s.journal.outstanding ++ [(p, op)], lastGranted := side }

/-- R20: a grant to the engine side issues the operation at the head of the engine queue. -/
def grantEngine (p : Fin 8) (s : State) : State :=
  match s.journal.engineQueue with
  | [] => s
  | op :: rest => grant p op .engine (s.setJournal { s.journal with engineQueue := rest })

/-- R21: a block transfer is granted if the service processor owns its segment, and refused NOT_OWNER otherwise, which counts
as a grant to neither side. -/
def grantService (p : Fin 8) (s : State) : State :=
  match s.journal.serviceSide with
  | none => s
  | some op =>
    let taken := s.setJournal { s.journal with serviceSide := none }
    if (op.blockSegment.any fun seg => s.serviceOwns seg) then grant p op .service taken
    else respond (.refused .notOwner) taken

/-- R20: the arbiter grants one waiting operation, if fewer than 8 are outstanding and the port has not stopped (R170). -/
def arbitrate (s : State) : State :=
  if s.portStopped then s
  else
    match s.freePort with
    | none => s
    | some p =>
      match s.journal.engineQueue.isEmpty, s.journal.serviceSide.isNone with
      | true, _ => grantService p s
      | false, true => grantEngine p s
      | false, false => if s.journal.lastGranted = .service then grantEngine p s else grantService p s

/-- R50: a record append completed OK: the line is marked, the slot freed, and the write goes to issue. -/
def appendOk (i : Fin 8) (s : State) : State :=
  match s.capture.slots[i] with
  | none => s
  | some sl => goToIssue sl.entry (freeSlot i (insertMark sl.line s))

/-- R57, R15: a record append completed FAULT: JOURNAL_FAULT, a break of the top epoch, the slot freed, no mark, and the write
goes to issue. -/
def appendFault (i : Fin 8) (n : Seq) (p : Phys) (s : State) : State :=
  match s.capture.slots[i] with
  | none => s
  | some sl =>
    goToIssue sl.entry (freeSlot i (breakTop .journalFault (post s.topNumber (.journalFault n p) s)))

/-- R15: the completion of the operation with port tag `p`, when it is a RECORD_WRITE. During a core reset its result is
discarded (R22). -/
def recordWriteEnds (p : Fin 8) (status : Status) (s : State) : State :=
  match s.portOp p with
  | some (.recordWrite i seg place n _ record) =>
    let landed := landWrite (recordAddress seg place) record status (dropPort p s)
    if s.portStopped then landed
    else
      match status with
      | .ok => appendOk i landed
      | .fault => appendFault i n seg landed
  | _ => s

/-- A value was missing from a port completion, so a free value was used (log 9). -/
def usePortFresh (n : Nat) (data : PortData) (s : State) : State :=
  match data with
  | .asStored => s
  | .returned bs => if bs.length < n then nextFresh s else s

/-- R67: a read completion reaches the replay unit: the read field becomes absent, a failure discards the result, FAULT fails
the rollback, and on OK the record is checked (R68). -/
def replayRead (n : Seq) (status : Status) (record : List Byte) (s : State) : State :=
  match s.replay.context with
  | none => s
  | some c0 =>
    let c := { c0 with read := none }
    let s := setContext (some c) s
    if c.failure.isSome then s
    else
      match status with
      | .fault => failRollback c .journalReadFault n s
      | .ok => checkRecord c n record s

/-- R67: the completion of the operation with port tag `p`, when it is a RECORD_READ. -/
def recordReadEnds (p : Fin 8) (status : Status) (data : PortData) (s : State) : State :=
  match s.portOp p with
  | some (.recordRead seg place n) =>
    let dropped := usePortFresh Config.recordBytes data (dropPort p s)
    if s.portStopped then dropped
    else replayRead n status (portBytes (recordAddress seg place) Config.recordBytes data s) dropped
  | _ => s

/-- R89, R176: the payload of a BLOCK_READ answer: the transfer status, then the 256 bytes when OK. -/
def blockReadPayload (status : Status) (bytes : List Byte) : List Byte :=
  match status with
  | .ok => leBytes 1 (transferCode status) ++ bytes
  | .fault => leBytes 1 (transferCode status)

/-- R89: the completion of the operation with port tag `p`, when it is a BLOCK_READ: its exchange is answered. -/
def blockReadEnds (p : Fin 8) (status : Status) (data : PortData) (s : State) : State :=
  match s.portOp p with
  | some (.blockRead seg block) =>
    let dropped := usePortFresh Config.blockBytes data (dropPort p s)
    if s.portStopped then dropped
    else respond (.done (blockReadPayload status (portBytes (blockAddress seg block) Config.blockBytes data s))) dropped
  | _ => s

/-- R89: the completion of the operation with port tag `p`, when it is a BLOCK_WRITE: the block holds the bytes written on OK,
and its exchange is answered with the transfer status. -/
def blockWriteEnds (p : Fin 8) (status : Status) (s : State) : State :=
  match s.portOp p with
  | some (.blockWrite seg block data) =>
    let landed := landWrite (blockAddress seg block) data status (dropPort p s)
    if s.portStopped then landed else respond (.done (leBytes 1 (transferCode status))) landed
  | _ => s

end Sys2Proof.Machine
end

