-- ==== Sys2Proof/Machine/Reset.lean ====
section
/-! DEFINITION. Core reset, in its three parts (R170 to R172), and pin reset (R173). -/

namespace Sys2Proof.Machine

/-- R170: slots in stage READ take stage DISCARD. -/
def coreResetSlot : Option Slot → Option Slot
  | none => none
  | some sl => if sl.stage = .read then some { sl with stage := .discard } else some sl

/-- R170, R83: what is left of the replay context: no read, held record, refill or failure; its restores run on. -/
def ReplayContext.dropped (c : ReplayContext) : ReplayContext :=
  { c with next := none, current := none, read := none, held := none, refill := none, failure := none }

/-- R172, R39: what the core reset found. -/
def State.coreResetRecord (s : State) : CoreReset :=
  { controller := s.epochs.controller, command := s.epochs.command, top := s.topNumber, depth := s.depth,
    journalDone := false, discarded := none }

/-- R170: the step that takes CORE_RESET: pending work is dropped, the port stops and loses its ungranted engine operations,
waiting requests are withdrawn with their timers, and slots in READ take DISCARD. -/
def beginCoreReset (s : State) : State :=
  let recorded := s.setService { s.service with coreReset := some s.coreResetRecord }
  let dropped := setRefillTimer none (setContext (s.replay.context.map ReplayContext.dropped)
    (setController s.epochs.controller none recorded))
  ((dropped.setJournal { dropped.journal with engineQueue := [], waiting := [] }).setSpace
    { dropped.space with fullWaits := [] }).setCapture
      { dropped.capture with slots := dropped.capture.slots.map coreResetSlot }

/-- R60, R171: what the journal step does to slot `i`: only a DISCARD slot whose read is still outstanding is kept. -/
def State.slotAfterJournalStep (s : State) (i : Fin 8) : Option Slot :=
  match s.capture.slots[i] with
  | none => none
  | some sl => if sl.stage = .discard ∧ s.readPending i = true then some sl else none

/-- R60: the entries the journal step sends to issue, in arrival order: those in SLOT_WAIT, and those whose slots it frees. -/
def State.journalStepIssues (s : State) : List HostId :=
  (s.host.table.filter fun e => decide (e.state = .slotWait) ||
    (List.finRange 8).any fun i => (s.capture.slots[i].any fun sl => sl.entry == e.id) &&
      (s.slotAfterJournalStep i).isNone).map (·.id)

/-- R60: the capture unit settles its captures: the slot queue empties before any slot is freed, the mark table is cleared and
MARK_SPILLS set to 0. -/
def settleCaptures (s : State) : State :=
  issueAll s.journalStepIssues
    (s.setCapture { slots := Vector.ofFn s.slotAfterJournalStep, slotQueue := [], marks := [], markSpills := 0 })

/-- R112: the manual hold is cleared, the automatic hold follows the free count, and a hold that leaves force is announced. -/
def clearHolds (s : State) : State :=
  announceHold (evaluateAuto (s.setSpace { s.space with manual := false }))

/-- R171: the journal step. -/
def journalStep (s : State) : State :=
  let range := s.segmentRange
  let discarded := discardJournal s
  let granted := discarded.setJournal { discarded.journal with lastGranted := .service }
  let emptied := setStack [] (setController .idle none granted)
  let holds := clearHolds (settleCaptures emptied)
  holds.setService { holds.service with
    mode := .bypass
    coreReset := holds.service.coreReset.map fun r => { r with journalDone := true, discarded := range } }

/-- R172: the end of the core reset that found `r`: release, the event queue emptied, SEGMENTS_DISCARDED and CORE_RESET_DONE
posted, CORE_RESET answered DONE. -/
def endCoreReset (r : CoreReset) (s : State) : State :=
  let freed := setContext none (s.setService { s.service with coreReset := none })
  let released := releaseParked freed
  let emptied := released.setService { released.service with events := [], dropped := 0 }
  respond (.done [])
    (post r.top (.coreResetDone r.controller r.command r.depth) (postDiscard none r.discarded emptied))

/-- R171: the journal step takes place if it is due. -/
def settleJournalStep (s : State) : State := if s.journalStepDue then journalStep s else s

/-- R172: the core reset ends if it is due. -/
def settleCoreResetEnd (s : State) : State :=
  if s.coreResetEndDue then
    match s.service.coreReset with
    | none => s
    | some r => endCoreReset r s
  else s

/-- R171, R172: what a core reset does by itself once a step has moved it (log 4). -/
def settleCoreReset (s : State) : State := settleCoreResetEnd (settleJournalStep s)

/-- R173: every block at its pin-reset values. The journal memory is left as it was (R22); the queue of commands and the number
of the next free value are the model's own. -/
def pinValues (s : State) : State :=
  { State.reset with
    journal := { JournalUnit.reset with memory := s.journal.memory }
    fresh := s.fresh
    pending := s.pending }

end Sys2Proof.Machine
end

