-- ==== Sys2Proof/Machine/Commands.lean ====
section
/-! DEFINITION. What each service command does once its frame is taken (R158): its block's own checks, its effect and its
answer. A command is a function of its payload and the state. -/

namespace Sys2Proof.Machine

/-! ### Parameters and status (R161 to R163) -/

/-- R161: PARAM_READ. -/
def cmdParamRead (payload : List Byte) (s : State) : State :=
  match paramOfCode (leValue payload) with
  | none => respond (.refused .badValue) s
  | some p => respond (.done (leBytes 4 (paramValue s.service.params p))) s

/-- R141, R162: a write of DEFAULT_ACTION: LOCKED at depth 1 or more, then its range. -/
def writeDefaultAction (v : Nat) (s : State) : State :=
  if s.depth ≠ 0 then respond (.refused .locked) s
  else
    match defaultActionOfCode v with
    | none => respond (.refused .badValue) s
    | some a => respond (.done []) (setParams { s.service.params with defaultAction := a } s)

/-- R8: the free list rebuilt: segments 0 to n − 1 in ascending order. -/
def rebuildFree (n : Nat) (s : State) : State :=
  s.setJournal { s.journal with free := (List.range n).map (BitVec.ofNat 8) }

/-- R8, R104, R162: a write of NSEG: LOCKED in ACTIVE, then its range and the threshold order; the free list is rebuilt, and
the automatic hold follows the free count. -/
def writeNseg (v : Nat) (s : State) : State :=
  if s.service.mode = .active then respond (.refused .locked) s
  else if v < 16 ∨ 256 < v ∨ v < s.service.params.holdOffFree then respond (.refused .badValue) s
  else respond (.done []) (evaluateAuto (rebuildFree v (setParams { s.service.params with nseg := v } s)))

/-- R148, R162: a write of MEM_TIMEOUT. -/
def writeMemTimeout (v : Nat) (s : State) : State :=
  if v < 1 ∨ 65535 < v then respond (.refused .badValue) s
  else respond (.done []) (setParams { s.service.params with memTimeout := v } s)

/-- R110, R162: a write of FULL_WAIT. -/
def writeFullWait (v : Nat) (s : State) : State :=
  if 65535 < v then respond (.refused .badValue) s
  else respond (.done []) (setParams { s.service.params with fullWait := v } s)

/-- R108, R162: a write of HOLD_TIME. -/
def writeHoldTime (v : Nat) (s : State) : State :=
  if v < 2 ∨ 65535 < v then respond (.refused .badValue) s
  else respond (.done []) (setParams { s.service.params with holdTime := v } s)

/-- R104, R162: a write of HOLD_ON_FREE: its range, the threshold order, then R103 again. -/
def writeHoldOnFree (v : Nat) (s : State) : State :=
  if 255 < v ∨ s.service.params.holdOffFree ≤ v then respond (.refused .badValue) s
  else respond (.done []) (evaluateAuto (setParams { s.service.params with holdOnFree := v } s))

/-- R104, R162: a write of HOLD_OFF_FREE: its range, the threshold order, then R103 again. -/
def writeHoldOffFree (v : Nat) (s : State) : State :=
  if v < 1 ∨ 256 < v ∨ v ≤ s.service.params.holdOnFree ∨ s.service.params.nseg < v then respond (.refused .badValue) s
  else respond (.done []) (evaluateAuto (setParams { s.service.params with holdOffFree := v } s))

/-- R84, R162: a write of REFILL_WAIT. -/
def writeRefillWait (v : Nat) (s : State) : State :=
  if v < 1 ∨ 65535 < v then respond (.refused .badValue) s
  else respond (.done []) (setParams { s.service.params with refillWait := v } s)

/-- R84, R162: a write of RESTORE_AHEAD. -/
def writeRestoreAhead (v : Nat) (s : State) : State :=
  if v < 1 ∨ 4 < v then respond (.refused .badValue) s
  else respond (.done []) (setParams { s.service.params with restoreAhead := v } s)

/-- The write of a parameter. -/
def writeParam (p : Param) (v : Nat) (s : State) : State :=
  match p with
  | .defaultAction => writeDefaultAction v s
  | .nseg => writeNseg v s
  | .memTimeout => writeMemTimeout v s
  | .fullWait => writeFullWait v s
  | .holdTime => writeHoldTime v s
  | .holdOnFree => writeHoldOnFree v s
  | .holdOffFree => writeHoldOffFree v s
  | .refillWait => writeRefillWait v s
  | .restoreAhead => writeRestoreAhead v s

/-- R162: PARAM_WRITE: the identifier byte, then the value in 4 bytes. An identifier that names no parameter is BAD_VALUE. -/
def cmdParamWrite (payload : List Byte) (s : State) : State :=
  match paramOfCode (leValue (payload.take 1)) with
  | none => respond (.refused .badValue) s
  | some p => writeParam p (leValue (payload.drop 1)) s

/-- R162 for the row of one parameter: its frame's identifier names `p`, and the write is `own`; a frame that names another
parameter, or none, is the PARAM_WRITE its bytes spell (log 23). -/
def cmdParamWriteOf (p : Param) (own : Nat → State → State) (payload : List Byte) (s : State) : State :=
  if paramOfCode (leValue (payload.take 1)) = some p then own (leValue (payload.drop 1)) s else cmdParamWrite payload s

/-- R163: the top epoch in the snapshot: number, state and broken reason, all 0 at depth 0. -/
def topBytes : Option Epoch → List Byte
  | none => leBytes 4 0
  | some e => leBytes 2 e.number.toNat ++ leBytes 1 (if e.broken.isNone then 1 else 2) ++ leBytes 1 (brokenCode e.broken)

/-- R163, R176: the 25 bytes of the snapshot. -/
def State.snapshot (s : State) : List Byte :=
  leBytes 1 s.service.mode.code ++ leBytes 1 s.epochs.controller.code ++ leBytes 1 (commandCode s.epochs.command) ++
    leBytes 1 s.depth ++ topBytes s.top ++ leBytes 4 s.journal.nextSeq.toNat ++ leBytes 2 s.freeCount ++
    leBytes 2 s.journal.map.length ++ leBytes 1 (flagCode s.space.auto) ++ leBytes 1 (flagCode s.space.manual) ++
    leBytes 1 s.service.events.length ++ leBytes 1 s.host.table.length ++ leBytes 1 s.quarantineCount ++
    leBytes 4 s.capture.markSpills.toNat

/-- R163: STATUS_READ. -/
def cmdStatusRead (_ : List Byte) (s : State) : State := respond (.done s.snapshot) s

/-! ### Events and modes (R166, R168, R169) -/

/-- R166: the queue after a pop left `rest`: EVENTS_LOST takes the place when records were dropped. -/
def State.afterPop (rest : List Event) (s : State) : List Event :=
  if s.service.dropped = 0 then rest
  else rest ++ [{ kind := .eventsLost s.service.dropped, time := s.timebase, epoch := none }]

/-- R166: EVENT_POP. -/
def cmdEventPop (_ : List Byte) (s : State) : State :=
  match s.service.events with
  | [] => respond (.refused .empty) s
  | e :: rest =>
    respond (.done (e.payload (s.afterPop rest).length))
      (s.setService { s.service with events := s.afterPop rest, dropped := 0 })

/-- R168: ENABLE. -/
def cmdEnable (_ : List Byte) (s : State) : State :=
  respond (.done []) (s.setService { s.service with mode := .active })

/-- R169: DISABLE, accepted at depth 0 with the controller IDLE. -/
def cmdDisable (_ : List Byte) (s : State) : State :=
  if s.depth = 0 ∧ s.epochs.controller = .idle then
    respond (.done []) (s.setService { s.service with mode := .bypass })
  else respond (.refused .mode) s

/-- R170: CORE_RESET; its answer comes at the end (R172). -/
def cmdCoreReset (_ : List Byte) (s : State) : State := settleCoreReset (beginCoreReset s)

/-! ### Memory link and windows (R152, R138, R140) -/

/-- R152: MTAG_RELEASE answers the number of tags released. -/
def cmdMtagRelease (_ : List Byte) (s : State) : State :=
  respond (.done (leBytes 1 s.quarantineCount)) (releaseQuarantine s)

/-- R138, step 2, R176: the fields a WINDOW_WRITE payload carries, when every value is in its form and range. -/
def windowFields (payload : List Byte) : Option (Fin 16 × Window) :=
  let index := leValue (payload.take 1)
  let base := leValue ((payload.drop 2).take 4)
  let limit := leValue ((payload.drop 6).take 4)
  let masters := leValue ((payload.drop 10).take 1)
  match flagOfCode (leValue ((payload.drop 1).take 1)), actionOfCode (leValue ((payload.drop 11).take 1)) with
  | some valid, some action =>
    if h : index < 16 then
      if base < 2 ^ 30 ∧ limit < 2 ^ 30 ∧ masters < 16 then
        some (⟨index, h⟩,
          { valid := valid, base := BitVec.ofNat 30 base, limit := BitVec.ofNat 30 limit,
            masters := BitVec.ofNat 4 masters, action := action, hits := 0 })
      else none
    else none
  | _, _ => none

/-- R138, step 3: limit below base, or an empty master set. -/
def Window.bad (w : Window) : Bool := decide (w.limit.toNat < w.base.toNat) || w.masters == 0

/-- R138: WINDOW_WRITE: lock, values, window; an accepted write clears the hit count. -/
def cmdWindowWrite (payload : List Byte) (s : State) : State :=
  if s.depth ≠ 0 then respond (.refused .locked) s
  else
    match windowFields payload with
    | none => respond (.refused .badValue) s
    | some (i, w) =>
      if w.bad then respond (.refused .badWindow) s else respond (.done []) (s.setWindows (s.windows.set i w))

/-- R140, R176: the 15 bytes of a WINDOW_READ answer. -/
def Window.payload (w : Window) : List Byte :=
  leBytes 1 (flagCode w.valid) ++ leBytes 4 w.base.toNat ++ leBytes 4 w.limit.toNat ++ leBytes 1 w.masters.toNat ++
    leBytes 1 w.action.code ++ leBytes 4 w.hits.toNat

/-- R140: WINDOW_READ. -/
def cmdWindowRead (payload : List Byte) (s : State) : State :=
  if h : leValue payload < 16 then respond (.done (s.windows[leValue payload]).payload) s
  else respond (.refused .badValue) s

/-! ### Epoch commands (R30, R31, R33, R38, R63, R81) -/

/-- R29, R30: a taken command starts its drain, is answered STARTED, and takes effect at once if the count is 0. -/
def startDrain (c : PendingCommand) (s : State) : State :=
  respond .started (settleDrain (setController .draining (some c) s))

/-- R31: CHECKPOINT: BUSY, MODE, DEPTH, or taken. -/
def cmdCheckpoint (_ : List Byte) (s : State) : State :=
  if s.epochs.controller ≠ .idle then respond .busy s
  else if s.service.mode = .bypass then respond (.refused .mode) s
  else if Config.maxDepth ≤ s.depth then respond (.refused .depth) s
  else startDrain .checkpoint s

/-- R33: COMMIT: BUSY, NO_EPOCH, or taken. -/
def cmdCommit (_ : List Byte) (s : State) : State :=
  if s.epochs.controller ≠ .idle then respond .busy s
  else if s.depth = 0 then respond (.refused .noEpoch) s
  else startDrain .commit s

/-- R38, R82: ABANDON in STOPPED: the epoch is broken, the rollback is given up, and the parked entries are released. -/
def abandonStopped (s : State) : State :=
  releaseParked (setController .idle none (setContext none (breakTop .abandoned s)))

/-- R38: ABANDON: BUSY, NO_EPOCH, or taken in IDLE or STOPPED. -/
def cmdAbandon (_ : List Byte) (s : State) : State :=
  match s.epochs.controller with
  | .idle => if s.depth = 0 then respond (.refused .noEpoch) s else respond (.done []) (breakTop .abandoned s)
  | .stopped => if s.depth = 0 then respond (.refused .noEpoch) s else respond (.done []) (abandonStopped s)
  | _ => respond .busy s

/-- R81: ROLLBACK in STOPPED resumes: the walk starts anew and replayed keeps its value. -/
def resumeRollback (e : Epoch) (s : State) : State :=
  settleRollback (startWalk e ((s.replay.context.map (·.replayed)).getD 0) s)

/-- R63: ROLLBACK: BUSY, NO_EPOCH, UNRECOVERABLE, a drain in IDLE, or a resume in STOPPED. -/
def cmdRollback (_ : List Byte) (s : State) : State :=
  match s.epochs.controller, s.top with
  | .idle, none => respond (.refused .noEpoch) s
  | .stopped, none => respond (.refused .noEpoch) s
  | .idle, some e => if e.broken = none then startDrain .rollback s else respond (.refused .unrecoverable) s
  | .stopped, some e =>
    if e.broken = none then respond .started (resumeRollback e s) else respond (.refused .unrecoverable) s
  | _, _ => respond .busy s

/-! ### Mark table and holds (R55, R105) -/

/-- R55: MARK_QUERY. -/
def cmdMarkQuery (payload : List Byte) (s : State) : State :=
  if leValue payload < 2 ^ 30 then
    let l : Line := BitVec.ofNat 30 (leValue payload)
    respond (.done (leBytes 1 (if s.marked l then 1 else 2) ++ leBytes 2 (setIndex l).toNat ++ leBytes 1 (s.setCount l))) s
  else respond (.refused .badValue) s

/-- R105: HOLD_SET. -/
def cmdHoldSet (_ : List Byte) (s : State) : State :=
  respond (.done []) (s.setSpace { s.space with manual := true })

/-- R105: HOLD_CLEAR. -/
def cmdHoldClear (_ : List Byte) (s : State) : State :=
  respond (.done []) (s.setSpace { s.space with manual := false })

/-! ### Lending (R86 to R98) -/

/-- R86: an entry LEND selects: FILLED, settled, and, during a walk, older than the walk's current entry (R73), so none while
there is no current entry. DEDUCED (log 15). -/
def State.lendable (e : Segment) (s : State) : Bool :=
  decide (e.state = .filled) && s.settled e &&
    (if s.epochs.controller = .replay ∨ s.epochs.controller = .refillWait then
      match s.replay.context.bind (·.current) with
      | some q => seqOlder e.q q
      | none => false
    else true)

/-- R86: up to `n` selected entries, oldest first. -/
def chooseLent (s : State) : Nat → List Segment → List Segment
  | _, [] => []
  | 0, _ => []
  | n + 1, e :: rest => if s.lendable e then e :: chooseLent s n rest else chooseLent s (n + 1) rest

/-- R87, R176: the 11 bytes of one item of a LEND answer. -/
def lentItem (e : Segment) : List Byte :=
  leBytes 4 e.q.toNat ++ leBytes 1 (e.physical.getD 0).toNat ++ leBytes 4 e.first.toNat ++ leBytes 2 e.count

/-- R86: the chosen entries become LENT. -/
def lendAll (chosen : List Segment) (s : State) : State :=
  setMap (s.journal.map.map fun e => if chosen.any (fun x => x.q == e.q) then { e with state := .lent } else e) s

/-- R86, R87: LEND. -/
def cmdLend (payload : List Byte) (s : State) : State :=
  let n := leValue payload
  if n < 1 ∨ 16 < n then respond (.refused .badValue) s
  else
    let chosen := chooseLent s n s.journal.map
    respond (.done (leBytes 1 chosen.length ++ chosen.flatMap lentItem)) (lendAll chosen s)

/-- The q a lending command names. -/
def payloadQ (payload : List Byte) : SegNo := BitVec.ofNat 32 (leValue payload)

/-- The entry a lending command names, when it is in the state the command asks for. -/
def State.segmentIn (q : SegNo) (st : SegState) (s : State) : Option Segment :=
  (s.segment q).filter fun e => decide (e.state = st)

/-- R92: LEND_CANCEL. -/
def cmdLendCancel (payload : List Byte) (s : State) : State :=
  match s.segmentIn (payloadQ payload) .lent with
  | none => respond (.refused .notLent) s
  | some e => respond (.done []) (updateSegment e.q (fun x => { x with state := .filled }) s)

/-- R91: entry `e` becomes SPILLED and its segment joins the free list tail; waiting requests (R14) and a waiting refill (R74)
are served in the same step. -/
def spill (e : Segment) (s : State) : State :=
  takeRefillSegment (freeSegments e.physical.toList
    (updateSegment e.q (fun x => { x with state := .spilled, physical := none }) s))

/-- R91: SPILL_DONE. -/
def cmdSpillDone (payload : List Byte) (s : State) : State :=
  match s.segmentIn (payloadQ payload) .lent with
  | none => respond (.refused .notLent) s
  | some e => respond (.done []) (spill e s)

/-- R75: the refill of entry `e` is done: FILLED, the refill timer stopped, the refilled flag set, REPLAY. -/
def finishRefill (e : Segment) (s : State) : State :=
  setController .replay none
    (setRefillTimer none
      (setContext (s.replay.context.map fun c =>
          { c with refill := c.refill.map fun r => { r with refilled := true } })
        (updateSegment e.q (fun x => { x with state := .filled }) s)))

/-- R94, R75: REFILL_DONE. -/
def cmdRefillDone (payload : List Byte) (s : State) : State :=
  match s.segmentIn (payloadQ payload) .refilling with
  | none => respond (.refused .notRefilling) s
  | some e => respond (.done []) (finishRefill e s)

/-- R98, R176: the 17 bytes of an entry's SEG_QUERY answer. -/
def State.segmentPayload (e : Segment) (s : State) : List Byte :=
  leBytes 2 s.journal.map.length ++ leBytes 4 e.q.toNat ++ leBytes 1 e.state.code ++
    (match e.physical with
      | some p => 1 :: leBytes 1 p.toNat
      | none => leBytes 2 0) ++
    leBytes 4 e.first.toNat ++ leBytes 2 e.count ++ leBytes 1 (ownerCode e.state.owner) ++
    leBytes 1 (flagCode (decide (e.state = .filled) && s.settled e))

/-- R98: SEG_QUERY. -/
def cmdSegQuery (payload : List Byte) (s : State) : State :=
  if 1023 < leValue payload then respond (.refused .badValue) s
  else
    match s.journal.map[leValue payload]? with
    | some e => respond (.done (s.segmentPayload e)) s
    | none => respond (.done (leBytes 2 s.journal.map.length ++ leBytes 1 0)) s

/-- R88: a block transfer is placed on the service side; its answer comes at its refusal or completion. -/
def placeTransfer (op : PortOp) (s : State) : State := s.setJournal { s.journal with serviceSide := some op }

/-- R88: BLOCK_READ. -/
def cmdBlockRead (payload : List Byte) (s : State) : State :=
  placeTransfer (.blockRead (payload.getD 0 0) (payload.getD 1 0)) s

/-- R88: BLOCK_WRITE. -/
def cmdBlockWrite (payload : List Byte) (s : State) : State :=
  placeTransfer (.blockWrite (payload.getD 0 0) (payload.getD 1 0) (payload.drop 2)) s

/-! ### Frames (R156 to R158) -/

/-- R176: the command a command byte names; a byte that names none is answered UNKNOWN before it could run (R158). -/
def runCommand (code : Byte) : List Byte → State → State :=
  match code.toNat with
  | 0x10 => cmdParamRead
  | 0x11 => cmdParamWrite
  | 0x12 => cmdStatusRead
  | 0x13 => cmdEventPop
  | 0x14 => cmdEnable
  | 0x15 => cmdDisable
  | 0x16 => cmdCoreReset
  | 0x17 => cmdMtagRelease
  | 0x20 => cmdWindowWrite
  | 0x21 => cmdWindowRead
  | 0x30 => cmdCheckpoint
  | 0x31 => cmdCommit
  | 0x32 => cmdAbandon
  | 0x33 => cmdRollback
  | 0x34 => cmdMarkQuery
  | 0x40 => cmdHoldSet
  | 0x41 => cmdHoldClear
  | 0x50 => cmdLend
  | 0x51 => cmdLendCancel
  | 0x52 => cmdSpillDone
  | 0x53 => cmdRefillDone
  | 0x54 => cmdSegQuery
  | 0x55 => cmdBlockRead
  | 0x56 => cmdBlockWrite
  | _ => fun _ s => respond .unknown s

/-- R158: a complete frame is checked and, if it passes, its command is taken; from here to its answer it is at work. -/
def takeFrame (code : Byte) (f : Frame) (attached : Bool) (run : List Byte → State → State) (s : State) : State :=
  let s := s.setService { s.service with work := some { exchange := f.exchange, attached := attached } }
  match frameCheck code f with
  | some a => respond a s
  | none => run f.payload s

/-- R157: the held frame, if the earlier command has ended, is checked and its command taken in this step. -/
def takeHeld (s : State) : State :=
  match s.service.held, s.service.work with
  | some h, none =>
    takeFrame h.code h.frame h.attached (runCommand h.code) (s.setService { s.service with held := none })
  | _, _ => s

/-- R163, R166: STATUS_READ and EVENT_POP answer with values as their step leaves them: one consistent snapshot, the number of
records left after the step. -/
def answersLast (code : Byte) : Bool := code == 0x12 || code == 0x13

/-- R157: the held frame is taken if its command is of the kind asked for. -/
def takeHeldWhen (last : Bool) (s : State) : State :=
  match s.service.held with
  | none => s
  | some h => if answersLast h.code = last then takeHeld s else s

/-- R157, R102, R106: a step of a running chip in which the command at work may end. A held frame is taken after the step's other
effects; the hold follows the state they leave, and a held STATUS_READ or EVENT_POP is answered last, so that its answer shows
the hold and counts HOLD_CHANGED (log 19). DESIGN CHOICE (log 36): the end of a core reset is such a step (R172, step 6), so an
EVENT_POP held behind CORE_RESET may pop CORE_RESET_DONE in it and leave the queue empty and ALERTN released, where R172 says that
ALERTN stays low through that step. -/
def whenRunningHeld (f : State → State) (s : State) : Result :=
  whenRunning (fun s => takeHeldWhen true (settleHold s (takeHeldWhen false (f s)))) s

/-- R156, R157: the last byte of a request frame is received: the exchange enters WORKING, and the frame is taken, or held
while an earlier command works. Bytes are read in RECEIVING alone, and not in an exchange that is not received. -/
def frameComplete (code : Byte) (f : Frame) (run : List Byte → State → State) (s : State) : State :=
  if s.service.exchange = .receiving ∧ s.service.unread = false then
    let s := s.setService { s.service with exchange := .working }
    match s.service.work with
    | some _ => s.setService { s.service with held := some { code := code, frame := f, attached := true } }
    | none => takeFrame code f true run s
  else s

end Sys2Proof.Machine
end

