-- ==== Sys2Proof/Machine/MemoryRows.lean ====
section
/-! DEFINITION. The meanings of the memory link rows: DONE, MEMORY_TIMEOUT_EXPIRY. -/

namespace Sys2Proof.Machine

/-- What a memory outcome can bring about in its step: the rollback moves on (R77, R79), and a core reset ends (R172). -/
def afterOutcome (s : State) : State := settleCoreReset (settleRollback s)

/-- DONE (R145, R149, R151): a completion is taken from the memory link. -/
def execDone (tag : Fin 64) (status : Status) (data : List Word) (s : State) : Result :=
  whenRunningHeld (fun s => afterOutcome (takeCompletion tag status data s)) s

/-- MEMORY_TIMEOUT_EXPIRY (R150): the timer of an OUTSTANDING tag expires. -/
def execMemoryTimeoutExpiry (tag : Fin 64) (s : State) : Result :=
  whenRunningHeld (fun s => afterOutcome (takeTimeout tag s)) s

end Sys2Proof.Machine
end

