-- ==== Sys2Proof/Machine/PortRows.lean ====
section
/-! DEFINITION. The meanings of the journal port rows: the grant and the completions. -/

namespace Sys2Proof.Machine

/-- ARBITER_GRANT (R20, R21): the arbiter grants one waiting operation. A block transfer refused NOT_OWNER ends its command, so
a held frame is taken (R157). -/
def execArbiterGrant (s : State) : Result := whenRunningHeld arbitrate s

/-- RECORD_WRITE_COMPLETION (R15, R50, R57): a record write completes. -/
def execRecordWriteCompletion (port : Fin 8) (status : Status) (s : State) : Result :=
  whenRunningHeld (fun s => settleCoreReset (recordWriteEnds port status s)) s

/-- RECORD_READ_COMPLETION (R67, R68): a record read completes. -/
def execRecordReadCompletion (port : Fin 8) (status : Status) (data : PortData) (s : State) : Result :=
  whenRunningHeld (fun s => settleCoreReset (settleRollback (recordReadEnds port status data s))) s

/-- What the end of a block transfer can bring about in its step: a COMMIT drain (R29), a failure that waited for it (R79), and a
journal step (R171). -/
def afterBlockTransfer (s : State) : State := settleCoreReset (settleRollback (settleDrain s))

/-- BLOCK_READ_COMPLETION (R89). -/
def execBlockReadCompletion (port : Fin 8) (status : Status) (data : PortData) (s : State) : Result :=
  whenRunningHeld (fun s => afterBlockTransfer (blockReadEnds port status data s)) s

/-- BLOCK_WRITE_COMPLETION (R89). -/
def execBlockWriteCompletion (port : Fin 8) (status : Status) (s : State) : Result :=
  whenRunningHeld (fun s => afterBlockTransfer (blockWriteEnds port status s)) s

/-- UNMATCHED_JOURNAL_COMPLETION (R22): a completion that matches no operation the chip holds is discarded. -/
def execUnmatchedJournalCompletion (_ : Fin 8) (_ : Status) (s : State) : Result := .next s

end Sys2Proof.Machine
end

