-- ==== Sys2Proof/Machine/ResetRows.lean ====
section
/-! DEFINITION. The meanings of the core reset's two later parts and of pin reset. -/

namespace Sys2Proof.Machine

/-- JOURNAL_STEP (R171), with the end of the core reset in the same step when it is due (R172). -/
def execJournalStep (s : State) : Result :=
  whenRunningHeld (fun s => settleCoreResetEnd (settleJournalStep s)) s

/-- CORE_RESET_END (R172): a held request frame is taken in this step. -/
def execCoreResetEnd (s : State) : Result := whenRunningHeld settleCoreResetEnd s

/-- PIN_RESET (R173): RESETN is asserted. -/
def execPinReset (s : State) : Result := .next ((pinValues s).setInReset true)

/-- RESETN_RELEASE (R173): RESETN is released, with every block at its pin-reset values and the timebase at 0. -/
def execResetnRelease (s : State) : Result := if s.inReset then .next (pinValues s) else .next s

end Sys2Proof.Machine
end

