-- ==== Sys2Proof/Machine/RollbackRows.lean ====
section
/-! DEFINITION. The meanings of the rows of a rollback: the read, the hand-over, the refill and the two ends. -/

namespace Sys2Proof.Machine

/-- R6: the slot of a physical segment in which the record `n` of the entry lies. -/
def Segment.slotOf (e : Segment) (n : Seq) : Nat := (n - e.first).toNat

/-- RECORD_READ (R67): the read of the next record joins the engine queue. A slot above 818 is no place of a segment (R6, log
30). -/
def execRecordRead (s : State) : Result :=
  if s.inReset then .next s
  else
    match s.nextRead with
    | none => .next s
    | some (c, e, n) =>
      if e.slotOf n < Config.recordsPerSegment then .next (issueRecordRead c e n s) else .fault .noRecordSlot

/-- R69: the held record's restore is handed over, when R69 lets it go. -/
def handOverHeld (s : State) : State :=
  match s.nextRestore with
  | none => s
  | some (c, h) => handOverRestore c h s

/-- RESTORE_HANDOVER (R69). -/
def execRestoreHandover (s : State) : Result := whenRunning handOverHeld s

/-- REFILL_REQUEST (R74): a waiting refill takes the head of the free list. -/
def execRefillRequest (s : State) : Result := whenRunningSpaced takeRefillSegment s

/-- R76: the refill timer expires in REFILL_WAIT: the rollback fails at the last record of the entry not refilled. -/
def refillExpires (s : State) : State :=
  match s.walking .refillWait, s.replay.refillTimer with
  | some c, some expiry =>
    match c.refill.bind fun r => s.segment r.q with
    | some e => failRollback c .refillTimeout e.last (advanceTo expiry s)
    | none => s
  | _, _ => s

/-- REFILL_TIMER_EXPIRY (R76). -/
def execRefillTimerExpiry (s : State) : Result := whenRunningSpaced (fun s => settleRollback (refillExpires s)) s

/-- ROLLBACK_DONE (R77). -/
def execRollbackDone (s : State) : Result := whenRunningSpaced completeSuccess s

/-- ROLLBACK_FAILED (R79). -/
def execRollbackFailed (s : State) : Result := whenRunningSpaced completeFailure s

end Sys2Proof.Machine
end

