-- ==== Sys2Proof/Machine/ServiceRows.lean ====
section
/-! DEFINITION. The meanings of the service link rows: the exchange and the commands. -/

namespace Sys2Proof.Machine

/-! ### The exchange (R156, R157) -/

/-- R156: SSN is asserted in CLOSED. An exchange begun while a frame is held is not received (R157, log 20). -/
def ssnAsserts (s : State) : State :=
  if s.service.exchange = .closed then
    s.setService { s.service with exchange := .receiving, unread := s.service.held.isSome }
  else s

/-- SSN_ASSERTED (R156). -/
def execSsnAsserted (s : State) : Result := whenRunning ssnAsserts s

/-- R157: SSN is deasserted: the exchange is CLOSED; a command at work, or a held one, runs on without a response. -/
def ssnDeasserts (s : State) : State :=
  s.setService { s.service with
    exchange := .closed
    unread := false
    work := s.service.work.map fun w => { w with attached := false }
    held := s.service.held.map fun h => { h with attached := false } }

/-- SSN_DEASSERTED (R157). -/
def execSsnDeasserted (s : State) : Result := whenRunning ssnDeasserts s

/-- R156: the last response byte is sent: the exchange passes from ANSWERING to TRAILING. -/
def responseSent (s : State) : State :=
  match s.service.exchange with
  | .answering _ => s.setService { s.service with exchange := .trailing }
  | _ => s

/-- LAST_RESPONSE_BYTE_SENT (R156). -/
def execLastResponseByteSent (s : State) : Result := whenRunning responseSent s

/-- REQUEST_FRAME_HELD (R157): the frame is held while an earlier command works, and taken at once otherwise (log 21). -/
def execRequestFrameHeld (code : Byte) (frame : Frame) (s : State) : Result :=
  whenRunningSpaced (frameComplete code frame (runCommand code)) s

/-- UNKNOWN (R158): a frame whose command byte names no command. -/
def execUnknown (code : Byte) (frame : Frame) (s : State) : Result :=
  whenRunningSpaced (frameComplete code frame (runCommand code)) s

/-! ### The commands (R158, R176) -/

/-- PARAM_READ (R161). -/
def execParamRead (frame : Frame) (s : State) : Result := whenRunning (frameComplete 0x10 frame cmdParamRead) s

/-- PARAM_WRITE_DEFAULT_ACTION (R141, R162). -/
def execParamWriteDefaultAction (frame : Frame) (s : State) : Result := whenRunningSpaced (frameComplete 0x11 frame (cmdParamWriteOf .defaultAction writeDefaultAction)) s

/-- PARAM_WRITE_NSEG (R8, R162). -/
def execParamWriteNseg (frame : Frame) (s : State) : Result := whenRunningSpaced (frameComplete 0x11 frame (cmdParamWriteOf .nseg writeNseg)) s

/-- PARAM_WRITE_MEM_TIMEOUT (R148, R162). -/
def execParamWriteMemTimeout (frame : Frame) (s : State) : Result := whenRunningSpaced (frameComplete 0x11 frame (cmdParamWriteOf .memTimeout writeMemTimeout)) s

/-- PARAM_WRITE_FULL_WAIT (R110, R162). -/
def execParamWriteFullWait (frame : Frame) (s : State) : Result := whenRunningSpaced (frameComplete 0x11 frame (cmdParamWriteOf .fullWait writeFullWait)) s

/-- PARAM_WRITE_HOLD_TIME (R108, R162). -/
def execParamWriteHoldTime (frame : Frame) (s : State) : Result := whenRunningSpaced (frameComplete 0x11 frame (cmdParamWriteOf .holdTime writeHoldTime)) s

/-- PARAM_WRITE_HOLD_ON_FREE (R104, R162). -/
def execParamWriteHoldOnFree (frame : Frame) (s : State) : Result := whenRunningSpaced (frameComplete 0x11 frame (cmdParamWriteOf .holdOnFree writeHoldOnFree)) s

/-- PARAM_WRITE_HOLD_OFF_FREE (R104, R162). -/
def execParamWriteHoldOffFree (frame : Frame) (s : State) : Result := whenRunningSpaced (frameComplete 0x11 frame (cmdParamWriteOf .holdOffFree writeHoldOffFree)) s

/-- PARAM_WRITE_REFILL_WAIT (R84, R162). -/
def execParamWriteRefillWait (frame : Frame) (s : State) : Result := whenRunningSpaced (frameComplete 0x11 frame (cmdParamWriteOf .refillWait writeRefillWait)) s

/-- PARAM_WRITE_RESTORE_AHEAD (R84, R162). -/
def execParamWriteRestoreAhead (frame : Frame) (s : State) : Result := whenRunningSpaced (frameComplete 0x11 frame (cmdParamWriteOf .restoreAhead writeRestoreAhead)) s

/-- STATUS_READ (R163). -/
def execStatusRead (frame : Frame) (s : State) : Result := whenRunning (frameComplete 0x12 frame cmdStatusRead) s

/-- EVENT_POP (R166). -/
def execEventPop (frame : Frame) (s : State) : Result := whenRunning (frameComplete 0x13 frame cmdEventPop) s

/-- ENABLE (R168). -/
def execEnable (frame : Frame) (s : State) : Result := whenRunning (frameComplete 0x14 frame cmdEnable) s

/-- DISABLE (R169). -/
def execDisable (frame : Frame) (s : State) : Result := whenRunning (frameComplete 0x15 frame cmdDisable) s

/-- CORE_RESET (R170). -/
def execCoreReset (frame : Frame) (s : State) : Result := whenRunningSpaced (frameComplete 0x16 frame cmdCoreReset) s

/-- MTAG_RELEASE (R152). -/
def execMtagRelease (frame : Frame) (s : State) : Result := whenRunning (frameComplete 0x17 frame cmdMtagRelease) s

/-- WINDOW_WRITE (R138). -/
def execWindowWrite (frame : Frame) (s : State) : Result := whenRunning (frameComplete 0x20 frame cmdWindowWrite) s

/-- WINDOW_READ (R140). -/
def execWindowRead (frame : Frame) (s : State) : Result := whenRunning (frameComplete 0x21 frame cmdWindowRead) s

/-- CHECKPOINT (R31). -/
def execCheckpoint (frame : Frame) (s : State) : Result := whenRunning (frameComplete 0x30 frame cmdCheckpoint) s

/-- COMMIT (R33). -/
def execCommit (frame : Frame) (s : State) : Result := whenRunningSpaced (frameComplete 0x31 frame cmdCommit) s

/-- ABANDON (R38). -/
def execAbandon (frame : Frame) (s : State) : Result := whenRunning (frameComplete 0x32 frame cmdAbandon) s

/-- ROLLBACK (R63). -/
def execRollback (frame : Frame) (s : State) : Result := whenRunningSpaced (frameComplete 0x33 frame cmdRollback) s

/-- MARK_QUERY (R55). -/
def execMarkQuery (frame : Frame) (s : State) : Result := whenRunning (frameComplete 0x34 frame cmdMarkQuery) s

/-- HOLD_SET (R105). -/
def execHoldSet (frame : Frame) (s : State) : Result := whenRunningSpaced (frameComplete 0x40 frame cmdHoldSet) s

/-- HOLD_CLEAR (R105). -/
def execHoldClear (frame : Frame) (s : State) : Result := whenRunningSpaced (frameComplete 0x41 frame cmdHoldClear) s

/-- LEND (R86). -/
def execLend (frame : Frame) (s : State) : Result := whenRunning (frameComplete 0x50 frame cmdLend) s

/-- LEND_CANCEL (R92). -/
def execLendCancel (frame : Frame) (s : State) : Result := whenRunning (frameComplete 0x51 frame cmdLendCancel) s

/-- SPILL_DONE (R91). -/
def execSpillDone (frame : Frame) (s : State) : Result := whenRunningSpaced (frameComplete 0x52 frame cmdSpillDone) s

/-- REFILL_DONE (R94). -/
def execRefillDone (frame : Frame) (s : State) : Result := whenRunning (frameComplete 0x53 frame cmdRefillDone) s

/-- SEG_QUERY (R98). -/
def execSegQuery (frame : Frame) (s : State) : Result := whenRunning (frameComplete 0x54 frame cmdSegQuery) s

/-- BLOCK_READ (R88). -/
def execBlockRead (frame : Frame) (s : State) : Result := whenRunning (frameComplete 0x55 frame cmdBlockRead) s

/-- BLOCK_WRITE (R88). -/
def execBlockWrite (frame : Frame) (s : State) : Result := whenRunning (frameComplete 0x56 frame cmdBlockWrite) s

end Sys2Proof.Machine
end

