-- ==== Sys2Proof/Machine/SpaceRows.lean ====
section
/-! DEFINITION. The meanings of the space monitor's timers. -/

namespace Sys2Proof.Machine

/-- The expiry of an entry's running full-wait timer. -/
def State.fullWaitOf (id : HostId) (s : State) : Option Tick :=
  (s.space.fullWaits.find? fun w => decide (w.1 = id)).map (·.2)

/-- R111: the entry's full-wait timer expires: a break request with reason FULL. -/
def fullWaitExpires (id : HostId) (s : State) : State :=
  match s.fullWaitOf id with
  | none => s
  | some expiry => breakTop .full (stopFullWait id (advanceTo expiry s))

/-- FULL_WAIT_EXPIRY (R111). -/
def execFullWaitExpiry (entry : HostId) (s : State) : Result := whenRunning (fullWaitExpires entry) s

/-- R108: another HOLD(HOLD_TIME) is asked for, and the timer restarts with the period of the same value. -/
def refreshHold (s : State) : State :=
  (send (.hold s.service.params.holdTime) s).setSpace { s.space with refreshTimer := some s.refreshExpiry }

/-- R108: the refresh timer expires while the hold is in force. -/
def refreshExpires (s : State) : State :=
  match s.space.refreshTimer with
  | none => s
  | some expiry => if s.holdInForce then refreshHold (advanceTo expiry s) else s

/-- REFRESH_TIMER_EXPIRY (R108). -/
def execRefreshTimerExpiry (s : State) : Result := whenRunning refreshExpires s

end Sys2Proof.Machine
end

