-- ==== Sys2Proof/Machine/Dispatch.lean ====
section
/-! DEFINITION. What each command does to everything but the queue: one arm per row of spec/opcode_table.json, in its order. -/

namespace Sys2Proof.Machine

def exec (i : Instr) (s : State) : Host.Outcome State Fault Refusal :=
  match i with
  | .read header => Sys2Proof.Machine.execRead header s
  | .write header enables data => Sys2Proof.Machine.execWrite header enables data s
  | .messageSent => Sys2Proof.Machine.execMessageSent s
  | .done tag status data => Sys2Proof.Machine.execDone tag status data s
  | .memoryTimeoutExpiry tag => Sys2Proof.Machine.execMemoryTimeoutExpiry tag s
  | .arbiterGrant => Sys2Proof.Machine.execArbiterGrant s
  | .recordWriteCompletion port status => Sys2Proof.Machine.execRecordWriteCompletion port status s
  | .recordRead => Sys2Proof.Machine.execRecordRead s
  | .recordReadCompletion port status data => Sys2Proof.Machine.execRecordReadCompletion port status data s
  | .restoreHandover => Sys2Proof.Machine.execRestoreHandover s
  | .refillRequest => Sys2Proof.Machine.execRefillRequest s
  | .refillTimerExpiry => Sys2Proof.Machine.execRefillTimerExpiry s
  | .rollbackDone => Sys2Proof.Machine.execRollbackDone s
  | .rollbackFailed => Sys2Proof.Machine.execRollbackFailed s
  | .checkpointDrainComplete => Sys2Proof.Machine.execCheckpointDrainComplete s
  | .commitDrainComplete => Sys2Proof.Machine.execCommitDrainComplete s
  | .rollbackDrainComplete => Sys2Proof.Machine.execRollbackDrainComplete s
  | .fullWaitExpiry entry => Sys2Proof.Machine.execFullWaitExpiry entry s
  | .refreshTimerExpiry => Sys2Proof.Machine.execRefreshTimerExpiry s
  | .ssnAsserted => Sys2Proof.Machine.execSsnAsserted s
  | .ssnDeasserted => Sys2Proof.Machine.execSsnDeasserted s
  | .unknown code frame => Sys2Proof.Machine.execUnknown code frame s
  | .paramRead frame => Sys2Proof.Machine.execParamRead frame s
  | .paramWriteDefaultAction frame => Sys2Proof.Machine.execParamWriteDefaultAction frame s
  | .paramWriteNseg frame => Sys2Proof.Machine.execParamWriteNseg frame s
  | .paramWriteMemTimeout frame => Sys2Proof.Machine.execParamWriteMemTimeout frame s
  | .paramWriteFullWait frame => Sys2Proof.Machine.execParamWriteFullWait frame s
  | .paramWriteHoldTime frame => Sys2Proof.Machine.execParamWriteHoldTime frame s
  | .paramWriteHoldOnFree frame => Sys2Proof.Machine.execParamWriteHoldOnFree frame s
  | .paramWriteHoldOffFree frame => Sys2Proof.Machine.execParamWriteHoldOffFree frame s
  | .paramWriteRefillWait frame => Sys2Proof.Machine.execParamWriteRefillWait frame s
  | .paramWriteRestoreAhead frame => Sys2Proof.Machine.execParamWriteRestoreAhead frame s
  | .statusRead frame => Sys2Proof.Machine.execStatusRead frame s
  | .eventPop frame => Sys2Proof.Machine.execEventPop frame s
  | .enable frame => Sys2Proof.Machine.execEnable frame s
  | .disable frame => Sys2Proof.Machine.execDisable frame s
  | .coreReset frame => Sys2Proof.Machine.execCoreReset frame s
  | .journalStep => Sys2Proof.Machine.execJournalStep s
  | .coreResetEnd => Sys2Proof.Machine.execCoreResetEnd s
  | .mtagRelease frame => Sys2Proof.Machine.execMtagRelease frame s
  | .windowWrite frame => Sys2Proof.Machine.execWindowWrite frame s
  | .windowRead frame => Sys2Proof.Machine.execWindowRead frame s
  | .checkpoint frame => Sys2Proof.Machine.execCheckpoint frame s
  | .commit frame => Sys2Proof.Machine.execCommit frame s
  | .abandon frame => Sys2Proof.Machine.execAbandon frame s
  | .rollback frame => Sys2Proof.Machine.execRollback frame s
  | .markQuery frame => Sys2Proof.Machine.execMarkQuery frame s
  | .holdSet frame => Sys2Proof.Machine.execHoldSet frame s
  | .holdClear frame => Sys2Proof.Machine.execHoldClear frame s
  | .lend frame => Sys2Proof.Machine.execLend frame s
  | .lendCancel frame => Sys2Proof.Machine.execLendCancel frame s
  | .spillDone frame => Sys2Proof.Machine.execSpillDone frame s
  | .refillDone frame => Sys2Proof.Machine.execRefillDone frame s
  | .segQuery frame => Sys2Proof.Machine.execSegQuery frame s
  | .blockRead frame => Sys2Proof.Machine.execBlockRead frame s
  | .blockWrite frame => Sys2Proof.Machine.execBlockWrite frame s
  | .blockReadCompletion port status data => Sys2Proof.Machine.execBlockReadCompletion port status data s
  | .blockWriteCompletion port status => Sys2Proof.Machine.execBlockWriteCompletion port status s
  | .pinReset => Sys2Proof.Machine.execPinReset s
  | .resetnRelease => Sys2Proof.Machine.execResetnRelease s
  | .lastResponseByteSent => Sys2Proof.Machine.execLastResponseByteSent s
  | .requestFrameHeld code frame => Sys2Proof.Machine.execRequestFrameHeld code frame s
  | .unmatchedJournalCompletion port status => Sys2Proof.Machine.execUnmatchedJournalCompletion port status s

end Sys2Proof.Machine
end

