-- ==== Sys2Proof/Machine/Step.lean ====
section
/-! DEFINITION. One step: the command at the front of the queue, or one tick of the timebase while the queue is empty (log 2). -/

namespace Sys2Proof.Machine

/-- R164: one tick of 1 µs. The timebase does not count while RESETN is asserted (R173). -/
def tick (s : State) : State := if s.inReset then s else s.setTimebase (s.timebase + 1)

/-- The command at the front of the queue is taken with the queue's rest; on an empty queue the timebase ticks (log 2). -/
def step (s : State) : Host.Outcome State Fault Refusal :=
  match s.pending with
  | [] => .next (tick s)
  | c :: rest => exec c (s.setPending rest)

/-- The command that a word spells, put at the front of the queue; unchanged where the word spells none. -/
def State.withFetchWord (s : State) (nbits w : Nat) : State :=
  match Sys2Proof.decodeTableWord nbits w with
  | none => s
  | some c => s.setPending (c :: s.pending)

end Sys2Proof.Machine
end

