-- ==== Sys2Proof/WellFormed.lean ====
section
/-! DEFINITION. Which commands a partner can send: one check per row whose operands the manual restricts. -/

namespace Sys2Proof

open Machine

/-- R175: the kind of a request header. -/
def headerKind (h : Word) : Nat := (h.extractLsb' 0 4).toNat

/-- R175: the beats of a request header. -/
def headerBeats (h : Word) : Nat := (h.extractLsb' 56 4).toNat

/-- R176: a payload length is 0 to 65535. -/
def Frame.lengthOk (f : Frame) : Bool := decide (f.payload.length ≤ 65535)

/-- R145: a completion with status OK carries at most the 64 bytes of a line. -/
def completionOk (status : Status) (data : List Word) : Bool :=
  match status with
  | .ok => decide (data.length ≤ 8)
  | .fault => true

/-- R19: a read of the journal port brings back exactly the bytes it asked for when its status is OK. -/
def portDataOk (n : Nat) (status : Status) (data : PortData) : Bool :=
  match status, data with
  | .ok, .returned bytes => decide (bytes.length = n)
  | _, _ => true

/-- R176: the frame of the PARAM_WRITE row of `p` names `p`, or no parameter at all. -/
def namesParam (p : Param) (f : Frame) : Bool :=
  match paramOfCode (leValue (f.payload.take 1)) with
  | some q => q == p
  | none => true

/-- A command as its partner can send it. -/
def Instr.wellFormed : Instr → Bool
  | .read header => headerKind header != 2
  | .write header _ data => headerKind header == 2 && data.length == headerBeats header
  | .messageSent => true
  | .done _ status data => completionOk status data
  | .memoryTimeoutExpiry _ => true
  | .arbiterGrant => true
  | .recordWriteCompletion _ _ => true
  | .recordRead => true
  | .recordReadCompletion _ status data => portDataOk Config.recordBytes status data
  | .restoreHandover => true
  | .refillRequest => true
  | .refillTimerExpiry => true
  | .rollbackDone => true
  | .rollbackFailed => true
  | .checkpointDrainComplete => true
  | .commitDrainComplete => true
  | .rollbackDrainComplete => true
  | .fullWaitExpiry _ => true
  | .refreshTimerExpiry => true
  | .ssnAsserted => true
  | .ssnDeasserted => true
  | .unknown code f => (requestLength code).isNone && f.lengthOk
  | .paramRead f => f.lengthOk
  | .paramWriteDefaultAction f => f.lengthOk && namesParam .defaultAction f
  | .paramWriteNseg f => f.lengthOk && namesParam .nseg f
  | .paramWriteMemTimeout f => f.lengthOk && namesParam .memTimeout f
  | .paramWriteFullWait f => f.lengthOk && namesParam .fullWait f
  | .paramWriteHoldTime f => f.lengthOk && namesParam .holdTime f
  | .paramWriteHoldOnFree f => f.lengthOk && namesParam .holdOnFree f
  | .paramWriteHoldOffFree f => f.lengthOk && namesParam .holdOffFree f
  | .paramWriteRefillWait f => f.lengthOk && namesParam .refillWait f
  | .paramWriteRestoreAhead f => f.lengthOk && namesParam .restoreAhead f
  | .statusRead f => f.lengthOk
  | .eventPop f => f.lengthOk
  | .enable f => f.lengthOk
  | .disable f => f.lengthOk
  | .coreReset f => f.lengthOk
  | .journalStep => true
  | .coreResetEnd => true
  | .mtagRelease f => f.lengthOk
  | .windowWrite f => f.lengthOk
  | .windowRead f => f.lengthOk
  | .checkpoint f => f.lengthOk
  | .commit f => f.lengthOk
  | .abandon f => f.lengthOk
  | .rollback f => f.lengthOk
  | .markQuery f => f.lengthOk
  | .holdSet f => f.lengthOk
  | .holdClear f => f.lengthOk
  | .lend f => f.lengthOk
  | .lendCancel f => f.lengthOk
  | .spillDone f => f.lengthOk
  | .refillDone f => f.lengthOk
  | .segQuery f => f.lengthOk
  | .blockRead f => f.lengthOk
  | .blockWrite f => f.lengthOk
  | .blockReadCompletion _ status data => portDataOk Config.blockBytes status data
  | .blockWriteCompletion _ _ => true
  | .pinReset => true
  | .resetnRelease => true
  | .lastResponseByteSent => true
  | .requestFrameHeld _ f => f.lengthOk
  | .unmatchedJournalCompletion _ _ => true

end Sys2Proof
end

