-- ==== Sys2Proof/Safety.lean ====
section
/-! DEFINITION. What counts as a safe run, the laws of the part that hold in every state it reaches, and the words in which the
statements speak of a command. -/

namespace Sys2Proof.Machine

/-! ### Safe runs -/

/-- The machine goes on for `n` steps from `s`, with no fault and no refusal. -/
def State.runsFor : Nat → State → Prop
  | 0, _ => True
  | n + 1, s => ∃ t, step s = .next t ∧ State.runsFor n t

/-! ### The laws of the part -/

/-- R161, R104: every parameter lies in its range, and the hold thresholds are in order. -/
def Params.valid (p : Params) : Prop :=
  (p.defaultAction = .pass ∨ p.defaultAction = .deny) ∧ (16 ≤ p.nseg ∧ p.nseg ≤ 256) ∧
    (1 ≤ p.memTimeout ∧ p.memTimeout ≤ 65535) ∧ p.fullWait ≤ 65535 ∧ (2 ≤ p.holdTime ∧ p.holdTime ≤ 65535) ∧
    p.holdOnFree ≤ 255 ∧ (1 ≤ p.holdOffFree ∧ p.holdOffFree ≤ 256) ∧ (1 ≤ p.refillWait ∧ p.refillWait ≤ 65535) ∧
    (1 ≤ p.restoreAhead ∧ p.restoreAhead ≤ 4) ∧ p.holdOnFree < p.holdOffFree ∧ p.holdOffFree ≤ p.nseg

/-- R133: base ≤ limit and a non-empty master set. -/
def Window.valid' (w : Window) : Prop := w.base.toNat ≤ w.limit.toNat ∧ w.masters ≠ 0

/-- R51: no line twice, and no set with more than 4 lines. -/
def marksValid (marks : List Line) : Prop :=
  marks.Nodup ∧ ∀ l : Line, (marks.filter fun m => setIndex m == setIndex l).length ≤ Config.markWays

/-- R23, R24: at most 8 epochs, no number twice, no number 0, and room for the push of a CHECKPOINT that drains. -/
def EpochCtl.valid (e : EpochCtl) : Prop :=
  e.stack.length ≤ Config.maxDepth ∧ (e.command = some .checkpoint → e.stack.length < Config.maxDepth) ∧
    (e.stack.map (·.number)).Nodup ∧ (∀ x ∈ e.stack, x.number ≠ 0) ∧ e.nextEpoch ≠ 0

/-- R26: a command is pending in DRAINING alone. -/
def EpochCtl.pendingInDraining (e : EpochCtl) : Prop := e.command ≠ none → e.controller = .draining

/-- R19: at most 8 operations are outstanding on the journal port, no two with one port tag. -/
def JournalUnit.portValid (j : JournalUnit) : Prop :=
  j.outstanding.length ≤ Config.portOutstanding ∧ (j.outstanding.map (·.1)).Nodup

/-- R147: no request waits for a tag while a tag is FREE. -/
def State.tagsServed (s : State) : Prop := s.memIf.tagQueue = [] ∨ s.freeTag = none

/-- R106: the host interface has been told whether the hold is in force. -/
def State.holdSettled (s : State) : Prop := s.host.holdTold = s.holdInForce

/-! ### Where an entry may be on its path -/

/-- The entry of a host request (R144). -/
def MemRequest.host : MemRequest → Option HostId
  | .read id _ _ => some id
  | .write id _ _ _ => some id
  | _ => none

/-- The entry whose request holds the tag (R146). -/
def TagState.host : TagState → Option HostId
  | .outstanding r _ => r.host
  | _ => none

/-- The entry a message answers (R127). -/
def HostMessage.responds : HostMessage → Option HostId
  | .response id _ _ _ => some id
  | _ => none

/-- The capture slot of a record write (R19). -/
def PortOp.appendSlot : PortOp → Option (Fin 8)
  | .recordWrite i _ _ _ _ _ => some i
  | _ => none

/-- The record a record read reads (R19). -/
def PortOp.readSeq : PortOp → Option Seq
  | .recordRead _ _ n => some n
  | _ => none

/-- The state of the entry named `id` (R122). -/
def State.stateOf (id : HostId) (s : State) : Option EntryState := (s.entry id).map (·.state)

/-- How often the slot queue holds entry `id` (R46). -/
def State.inSlotQueue (id : HostId) (s : State) : Nat := s.capture.slotQueue.count id

/-- How many slots in stage SPACE, or in another stage, hold entry `id` (R45). -/
def State.inSlots (space : Bool) (id : HostId) (s : State) : Nat :=
  s.capture.slots.countP fun x => x.any fun sl => sl.entry == id && (sl.stage == .space) == space

/-- How many requests in the tag queue, requests with a tag, and responses in the send queue stand for entry `id`. -/
def State.inLinks (id : HostId) (s : State) : Nat :=
  s.memIf.tagQueue.countP (fun r => r.host == some id) + s.memIf.tags.countP (fun x => x.host == some id) +
    s.host.sendQueue.countP fun m => m.responds == some id

/-- R122: the places an entry of this state may take up: in the slot queue, in slots of stage SPACE, and elsewhere past the park
gate. One before the gate, or out of the table, takes up none. -/
def placesOf : Option EntryState → Nat × Nat × Nat
  | none => (0, 0, 0)
  | some .lineWait => (0, 0, 0)
  | some .parked => (0, 0, 0)
  | some .slotWait => (1, 0, 0)
  | some .spaceWait => (0, 1, 0)
  | some .captureRead => (0, 0, 1)
  | some .captureAppend => (0, 0, 1)
  | some .issueWait => (0, 0, 1)
  | some .issued => (0, 0, 1)

/-- The counts are within the places of the state. -/
def fits (st : Option EntryState) (queue space others : Nat) : Prop :=
  queue ≤ (placesOf st).1 ∧ space ≤ (placesOf st).2.1 ∧ others ≤ (placesOf st).2.2

/-- The counts of entry `id` are within the places of its state. -/
def State.fitsAt (id : HostId) (s : State) : Prop :=
  fits (s.stateOf id) (s.inSlotQueue id) (s.inSlots true id) (s.inSlots false id + s.inLinks id)

/-- R122: every entry is in one place of its path at most, and there as its state says. -/
def State.onPath (s : State) : Prop := ∀ id : HostId, s.fitsAt id

/-- The entry named `id`, if there is one, is a write. -/
def State.writeAt (id : HostId) (s : State) : Prop := ∀ e, s.entry id = some e → e.write ≠ none

/-- R43: the capture unit holds writes alone. -/
def State.capturesWrites (s : State) : Prop :=
  (∀ id ∈ s.capture.slotQueue, s.writeAt id) ∧
    ∀ (i : Fin 8) (sl : Slot), s.capture.slots[i] = some sl → s.writeAt sl.entry

/-- R14, R45: an append request that waits is that of a slot in stage SPACE, and no two are of one slot. -/
def State.waitsInSlots (s : State) : Prop :=
  (s.journal.waiting.map (·.slot)).Nodup ∧
    ∀ r ∈ s.journal.waiting, ∃ sl, s.capture.slots[r.slot] = some sl ∧ sl.stage = .space ∧ sl.entry = r.entry

/-- The operations waiting for the port and outstanding on it (R19). -/
def JournalUnit.ops (j : JournalUnit) : List PortOp := j.engineQueue ++ j.outstanding.map (·.2)

/-- R19, R45: a record write is that of a slot in stage APPEND, and no two are of one slot. -/
def State.appendsInSlots (s : State) : Prop :=
  (s.journal.ops.filterMap PortOp.appendSlot).Nodup ∧
    ∀ i ∈ s.journal.ops.filterMap PortOp.appendSlot, ∃ sl, s.capture.slots[i] = some sl ∧ sl.stage = .append

/-- The laws of entries and captures. -/
structure State.pathLaw (s : State) : Prop where
  names : (s.host.table.map (·.id)).Nodup
  path : s.onPath
  writes : s.capturesWrites
  waits : s.waitsInSlots
  appends : s.appendsInSlots

/-! ### The journal, the epochs and the walk -/

/-- R11: the entries cover consecutive sequence numbers from `b` on, each with 1 to 819 records, and end before `e`. -/
def covers : Seq → List Segment → Seq → Prop
  | b, [], e => e = b
  | b, x :: rest, e => x.first = b ∧ 1 ≤ x.count ∧ x.count ≤ 819 ∧ covers (b + BitVec.ofNat 32 x.count) rest e

/-- The age of a logical segment number: how far it lies before NEXT_Q (R9). -/
def State.age (q : SegNo) (s : State) : Nat := (s.journal.nextQ - q).toNat

/-- R7, R9, R10, R11: the journal map and the free list. The free list and the segments of the map's entries are the segments
below NSEG, each once; an entry has a segment unless it is SPILLED; at most 1024 entries; only the newest can be FILLING; the
logical numbers rise from oldest to newest, `span` bounding how far they lie before NEXT_Q. -/
structure State.mapLaw (span : Nat) (s : State) : Prop where
  pool : (s.journal.free ++ s.journal.map.filterMap (·.physical)).Perm
    ((List.range s.service.params.nseg).map (BitVec.ofNat 8))
  present : ∀ e ∈ s.journal.map, e.physical = none ↔ e.state = .spilled
  entries : s.journal.map.length ≤ 1024
  newest : ∀ e ∈ s.journal.map.dropLast, e.state ≠ .filling
  rising : s.journal.map.Pairwise fun a b => s.age b.q < s.age a.q
  ages : ∀ e ∈ s.journal.map, 1 ≤ s.age e.q ∧ s.age e.q ≤ span

/-- How far `n` lies after `b` (R5). -/
def Seq.after (b n : Seq) : Nat := (n - b).toNat

/-- R11, R23: from the outermost epoch's start the entries cover the sequence numbers up to `e`, which is not past NEXT_SEQ; the
starts rise with the depth up to NEXT_SEQ, and fewer than the journal's 838656 records lie between. -/
structure State.spanTo (b e : Seq) (s : State) : Prop where
  runs : covers b s.journal.map e
  ends : Seq.after b e ≤ Seq.after b s.journal.nextSeq
  room : Seq.after b s.journal.nextSeq ≤ 838656
  starts : ∀ x ∈ s.epochs.stack, Seq.after b x.start ≤ Seq.after b s.journal.nextSeq
  nested : s.epochs.stack.Pairwise fun newer older => Seq.after b older.start ≤ Seq.after b newer.start

/-- R65, R71, R78: what the replay context `c` names lies between the start of its epoch and the end of the map. The current entry is
the one that holds next, and the refill field is that of the current entry. -/
structure State.walkTo (c : ReplayContext) (b e : Seq) (s : State) : Prop where
  start : Seq.after b c.start ≤ Seq.after b e
  next : ∀ n, c.next = some n → Seq.after b c.start ≤ Seq.after b n ∧ Seq.after b n < Seq.after b e
  read : ∀ n, c.read = some n → c.next = some n
  held : ∀ h, c.held = some h → Seq.after b c.start ≤ Seq.after b h.seq ∧ Seq.after b h.seq < Seq.after b e
  restores : ∀ r ∈ c.restores, Seq.after b c.start ≤ Seq.after b r.1 ∧ Seq.after b r.1 < Seq.after b e
  failure : ∀ f, c.failure = some f → Seq.after b c.start ≤ Seq.after b f.kept ∧ Seq.after b f.kept < Seq.after b e
  refill : ∀ r, c.refill = some r → ∀ x, s.segment r.q = some x → Seq.after b c.start ≤ Seq.after b x.last
  waits : s.epochs.controller = .refillWait → c.read = none
  current : c.current = (c.next.bind fun n => s.segmentOf n).map (·.q)
  refills : ∀ r, c.refill = some r → c.current = some r.q

/-- The controller is in a walk (R26). -/
def EpochCtl.walks (e : EpochCtl) : Prop := e.controller = .replay ∨ e.controller = .refillWait

/-- R11, R23, R65: outside a walk the newest entry ends at NEXT_SEQ; in one, the walk's bounds hold. -/
def State.spanLaw (s : State) : Prop :=
  ∀ b, s.epochs.stack.getLast? = some b → ∃ e, s.spanTo b.start e ∧
    (¬ s.epochs.walks → e = s.journal.nextSeq) ∧
    (s.epochs.walks → ∃ c top rest, s.replay.context = some c ∧ s.epochs.stack = top :: rest ∧ c.start = top.start ∧
      s.walkTo c b.start e)

/-- R67: a record read is that of the read field, in a walk, and there is one at most. -/
def State.readsLaw (s : State) : Prop :=
  (s.journal.ops.filterMap PortOp.readSeq).length ≤ 1 ∧
    ∀ n ∈ s.journal.ops.filterMap PortOp.readSeq, s.epochs.walks ∧ ∃ c, s.replay.context = some c ∧ c.read = some n

/-- R74, R78: an entry in REFILLING is that of the refill field, in REFILL_WAIT, with no failure. -/
def State.refillLaw (s : State) : Prop :=
  ∀ e ∈ s.journal.map, e.state = .refilling → s.epochs.controller = .refillWait ∧
    ∃ c r, s.replay.context = some c ∧ c.refill = some r ∧ r.q = e.q ∧ c.failure = none

/-- R77, R79: outside a walk no restore is outstanding, but in a core reset. -/
def State.stillLaw (s : State) : Prop :=
  ¬ s.epochs.walks → s.service.coreReset = none → ∀ c, s.replay.context = some c → c.restores = []

/-- No entry of the table is past the park gate. -/
def State.gateClosed (s : State) : Prop :=
  ∀ id, s.stateOf id = none ∨ s.stateOf id = some .lineWait ∨ s.stateOf id = some .parked

/-- R27, R29, R54: in REPLAY, REFILL_WAIT and STOPPED no entry is past the gate, no line is marked, and an epoch is open; none of
them is left when the journal step of a core reset is done. -/
def State.gateLaw (s : State) : Prop :=
  (s.epochs.walks ∨ s.epochs.controller = .stopped) →
    (s.service.coreReset = none → s.gateClosed ∧ s.capture.marks = [] ∧ s.epochs.stack ≠ []) ∧
      ∀ r, s.service.coreReset = some r → r.journalDone = false

/-- R35, R54, R60: at depth 0 the journal map and the mark table are empty, and no capture is under way but reads to be ignored. -/
def State.zeroLaw (s : State) : Prop :=
  s.epochs.stack = [] → s.journal.map = [] ∧ s.capture.marks = [] ∧ s.capture.slotQueue = [] ∧
    ∀ (i : Fin 8) (sl : Slot), s.capture.slots[i] = some sl → sl.stage = .discard

/-- R170: from CORE_RESET to the journal step no operation of the engine waits, no append request does, and no slot is in stage
READ. -/
def State.stopLaw (s : State) : Prop :=
  s.portStopped = true → s.journal.engineQueue = [] ∧ s.journal.waiting = [] ∧
    ∀ (i : Fin 8) (sl : Slot), s.capture.slots[i] = some sl → sl.stage ≠ .read

/-- R31, R169: in BYPASS the depth is 0 and the controller is IDLE. -/
def State.bypassLaw (s : State) : Prop := s.service.mode = .bypass → s.epochs.stack = [] ∧ s.epochs.controller = .idle

/-- The laws that hold in every state the part reaches. -/
structure State.lawful (span : Nat) (s : State) : Prop where
  path : s.pathLaw
  map : s.mapLaw span
  spans : s.portStopped = false → s.spanLaw
  reads : s.portStopped = false → s.readsLaw
  refills : s.portStopped = false → s.refillLaw
  gate : s.gateLaw
  zero : s.zeroLaw
  stop : s.stopLaw
  bypass : s.bypassLaw
  still : s.stillLaw

/-! ### The words of the statements -/

/-- R74: a refill waits for a segment while one is free. -/
def State.refillDue (s : State) : Bool :=
  match s.walking .refillWait with
  | none => false
  | some c => (c.refill.any fun r => r.physical.isNone) && !s.journal.free.isEmpty

/-- The chip runs, has told its hold, and nothing that it does by itself is due (log 4). -/
def State.quiet (s : State) : Prop :=
  s.inReset = false ∧ s.holdSettled ∧ s.refillDue = false ∧ s.failureCompletes = false ∧ s.rollbackSucceeds = false ∧
    s.journalStepDue = false ∧ s.coreResetEndDue = false ∧ s.drainComplete = false ∧
    (s.service.held = none ∨ s.service.work ≠ none)

/-- R103: at free count `n` the automatic hold keeps the value it has. -/
def State.autoKept (n : Nat) (s : State) : Prop :=
  (n ≤ s.service.params.holdOnFree → s.space.auto = true) ∧
    (s.service.params.holdOnFree < n → s.service.params.holdOffFree ≤ n → s.space.auto = false)

/-- R106, R107, R108: what a state shows right after a change of the hold in force: the notice last in the send queue, the refresh
timer started or stopped, and HOLD_CHANGED, with the top epoch's number and the free count, last in the event queue, or dropped by a
full one. -/
def State.announced (s : State) : Prop :=
  s.host.sendQueue.getLast? = some (.hold (if s.host.holdTold then s.service.params.holdTime else 0)) ∧
    (s.space.refreshTimer =
      if s.host.holdTold then some (s.timebase + BitVec.ofNat 32 (s.service.params.holdTime / 2)) else none) ∧
    (s.service.events.getLast? =
        some {
          kind := .holdChanged s.host.holdTold s.journal.free.length, time := s.timebase
          epoch := s.epochs.stack.head?.map (·.number) } ∨
      (32 ≤ s.service.events.length ∧ s.service.dropped ≠ 0))

/-- R147: tag `t` is the lowest FREE tag, and no request waits for a tag. -/
def State.tagReady (t : Fin 64) (s : State) : Prop :=
  s.memIf.tagQueue = [] ∧ s.memIf.tags[t] = .free ∧ ∀ u : Fin 64, u < t → s.memIf.tags[u] ≠ .free

/-- R147: a request handed over now joins the tag queue. -/
def State.tagWait (s : State) : Prop := s.memIf.tagQueue ≠ [] ∨ ∀ u : Fin 64, s.memIf.tags[u] ≠ .free

/-- R148: the expiry of a memory timer started now. -/
def State.memExpiry (s : State) : Tick := s.timebase + BitVec.ofNat 32 s.service.params.memTimeout

/-- R158: the frame of command byte `code` is received, passes its checks, and no earlier command is at work. -/
def State.takes (code : Byte) (f : Frame) (s : State) : Prop :=
  s.inReset = false ∧ s.service.exchange = .receiving ∧ s.service.unread = false ∧ s.service.work = none ∧
    frameCheck code f = none

/-- R156: `s` with the response frame of answer `a` being sent in the exchange of frame `f`. -/
def State.answers (f : Frame) (a : Answer) (s : State) : State :=
  s.setService { s.service with exchange := .answering (a.frame f.exchange) }

/-- The host request of a READ or WRITE row (R114). -/
def requestOf : Instr → Option Request
  | .read header => some (readRequest header)
  | .write header enables data => some (writeRequest header enables data)
  | _ => none

/-- R117: the request passes every check of intake, so that it receives an entry. -/
def State.admits (r : Request) (s : State) : Prop :=
  s.acceptLine = true ∧ s.entry r.id = none ∧ r.malformed = false ∧ (r.write ≠ none → s.host.holdTold = false) ∧
    (s.classify (lineOf r.address) r.id.master).refuses r.write.isSome = false

/-! ### The paths of entries and requests, as relations between a state and the one it becomes -/

/-- R147, R148: a capture read or a restore is handed over: issued with the lowest FREE tag, or put at the tail of the tag
queue. -/
def State.handed (r : MemRequest) (s t : State) : Prop :=
  (∃ g : Fin 64, s.tagReady g ∧
    t = s.setMemIf { s.memIf with tags := s.memIf.tags.set g (.outstanding r s.memExpiry) }) ∨
  (s.tagWait ∧ t = s.setMemIf { s.memIf with tagQueue := s.memIf.tagQueue ++ [r] })

/-- R122: `s` with the entries of one master and tag in another state. -/
def State.placed (id : HostId) (st : EntryState) (s : State) : State :=
  s.setHost { s.host with table := s.host.table.map fun x => if x.id = id then { x with state := st } else x }

/-- R44, R122, R147: entry `e` goes to issue: ISSUED with the lowest FREE tag, or ISSUE_WAIT at the tail of the tag queue. -/
def State.issues (e : Entry) (s t : State) : Prop :=
  (∃ g : Fin 64, s.tagReady g ∧ t = (s.placed e.id .issued).setMemIf { s.memIf with
    tags := s.memIf.tags.set g (.outstanding e.request s.memExpiry) }) ∨
  (s.tagWait ∧ t = (s.placed e.id .issueWait).setMemIf { s.memIf with tagQueue := s.memIf.tagQueue ++ [e.request] })

/-- Several entries go to issue, one after the other. -/
def State.issuesAll : List Entry → State → State → Prop
  | [], s, t => t = s
  | e :: rest, s, t => ∃ u, s.issues e u ∧ u.issuesAll rest t

/-- R46, R47: entry `e` takes capture slot `i` in stage READ, and its READ_LINE is handed over. -/
def State.takesSlot (i : Fin 8) (e : Entry) (s t : State) : Prop :=
  ((s.placed e.id .captureRead).setCapture { s.capture with
    slots := s.capture.slots.set i (some { entry := e.id, line := lineOf e.address, stage := .read, data := none })
    }).handed (.readLine i (lineOf e.address)) t

/-- R46: slot `i` becomes free: it stays free, or the head of the slot queue takes it. -/
def State.slotFreed (i : Fin 8) (s t : State) : Prop :=
  (s.capture.slotQueue = [] ∧ t = s.setCapture { s.capture with slots := s.capture.slots.set i none }) ∨
  ∃ (id : HostId) (rest : List HostId) (e : Entry), s.capture.slotQueue = id :: rest ∧ s.entry id = some e ∧
    (s.setCapture { s.capture with slotQueue := rest }).takesSlot i e t

/-- R147, R149: tag `g` becomes FREE: it stays FREE, or the head of the tag queue takes it. -/
def State.tagFreed (g : Fin 64) (s t : State) : Prop :=
  (s.memIf.tagQueue = [] ∧ t = s.setMemIf { s.memIf with tags := s.memIf.tags.set g .free }) ∨
  ∃ (r : MemRequest) (rest : List MemRequest), s.memIf.tagQueue = r :: rest ∧
    (∀ u : Fin 64, s.memIf.tags[u] ≠ .free) ∧
    t = markIssued r (s.setMemIf { tags := s.memIf.tags.set g (.outstanding r s.memExpiry), tagQueue := rest })

/-- R147: the given requests are served from the first, each with the lowest FREE tag, until the requests or the FREE tags run
out; those left are the tag queue. -/
def State.serves : List MemRequest → State → State → Prop
  | [], s, t => t = s.setMemIf { s.memIf with tagQueue := [] }
  | r :: rest, s, t =>
    (∃ g : Fin 64, s.memIf.tags[g] = .free ∧ (∀ u : Fin 64, u < g → s.memIf.tags[u] ≠ .free) ∧
      (markIssued r (s.setMemIf { s.memIf with tags := s.memIf.tags.set g (.outstanding r s.memExpiry) })).serves rest t) ∨
    ((∀ u : Fin 64, s.memIf.tags[u] ≠ .free) ∧ t = s.setMemIf { s.memIf with tagQueue := r :: rest })

/-- R43: the entry is a write that needs a record. -/
def State.needsRecord (e : Entry) (s : State) : Prop :=
  e.write ≠ none ∧ e.action = .journal ∧ s.topOpen = true ∧ lineOf e.address ∉ s.capture.marks

/-- R28, R43, R46, R124: entry `e` passes the park gate: a read, or a write that needs no record, goes to issue; another write
takes the lowest-numbered free slot, or enters SLOT_WAIT at the tail of the slot queue. -/
def State.passes (e : Entry) (s t : State) : Prop :=
  (¬ s.needsRecord e ∧ s.issues e t) ∨
  (s.needsRecord e ∧ s.capture.slotQueue = [] ∧
    ∃ i : Fin 8, s.capture.slots[i] = none ∧ (∀ j : Fin 8, j < i → s.capture.slots[j] ≠ none) ∧ s.takesSlot i e t) ∨
  (s.needsRecord e ∧ (s.capture.slotQueue ≠ [] ∨ ∀ i : Fin 8, s.capture.slots[i] ≠ none) ∧
    t = (s.placed e.id .slotWait).setCapture { s.capture with slotQueue := s.capture.slotQueue ++ [e.id] })

/-- Several entries pass the park gate, one after the other. -/
def State.passesAll : List Entry → State → State → Prop
  | [], s, t => t = s
  | e :: rest, s, t => ∃ u, s.passes e u ∧ u.passesAll rest t

/-- R149, R150: command `c` ends the request of tag `g` badly, by a completion FAULT or by its timer, which runs to `expiry` (log
3); `t` is the state with the tag dealt with: freed, or QUARANTINED. -/
def State.endsBadly (g : Fin 64) (expiry : Tick) (c : Instr) (kind : MemFaultKind) (s t : State) : Prop :=
  (kind = .fault ∧ (∃ data, c = .done g .fault data) ∧ s.tagFreed g t) ∨
  (kind = .timeout ∧ c = .memoryTimeoutExpiry g ∧
    t = (advanceTo expiry s).setMemIf { s.memIf with tags := s.memIf.tags.set g .quarantined })

/-! ### The walk of a rollback -/

/-- R66, R72, R74: the walk with context `c` reaches entry `e`, which becomes current. A resident entry is read at once; a LENT
one is recalled; a SPILLED one is awaited, and takes the head of the free list if there is one. -/
def State.reaches (c : ReplayContext) (e : Segment) (s t : State) : Prop :=
  ((e.state = .filling ∨ e.state = .filled) ∧
    t = s.setReplay { s.replay with context := some { c with current := some e.q, refill := none } }) ∨
  (∃ p : Phys, e.state = .lent ∧ e.physical = some p ∧
    t = post (some c.epoch) (.segmentRecalled e.q p)
      ((s.setReplay { s.replay with context := some { c with current := some e.q, refill := none } }).setJournal { s.journal with
        map := s.journal.map.map fun x => if x.q = e.q then { x with state := .filled } else x })) ∨
  ∃ (waits : Tick) (r : Option Phys → State), e.state = .spilled ∧
    waits = s.timebase + BitVec.ofNat 32 (1000 * s.service.params.refillWait) ∧
    (∀ p, r p = (s.setEpochs { s.epochs with controller := .refillWait, command := none }).setReplay {
      context := some { c with current := some e.q, refill := some { q := e.q, physical := p, refilled := false } }
      refillTimer := some waits }) ∧
    ((s.journal.free = [] ∧ t = r none) ∨
      ∃ (p : Phys) (free : List Phys), s.journal.free = p :: free ∧ s.segment e.q = some e ∧
        t = post (some c.epoch) (.refillRequest e.q e.first p e.count) ((r (some p)).setJournal { s.journal with
          free := free
          map := s.journal.map.map fun x =>
            if x.q = e.q then { x with state := .refilling, physical := some p } else x }))

/-- R78: the rollback of context `c` fails with this reason and kept point; the entry given, if any, returns to SPILLED and its
segment joins the free list tail. The refill field stays for an entry that has been refilled (R65; log 34). -/
def State.fails (c : ReplayContext) (reason : FailReason) (kept : Seq) (back : Option Segment) (s : State) : State :=
  (s.setReplay {
    context := some { c with
      held := none, refill := c.refill.filter (·.refilled)
      failure := some { reason := reason, kept := kept, freed := back.bind (·.physical) } }
    refillTimer := none }).setJournal { s.journal with
      free := s.journal.free ++ (back.bind (·.physical)).toList
      map := s.journal.map.map fun x =>
        if back.map (·.q) = some x.q then { x with state := .spilled, physical := none } else x }

/-! ### Positions for waiting append requests -/

/-- R1, R12, R13, R25, R110: append request `r` is given a position: the next place of the newest entry, which is FILLING and has
room, or the first place of a new segment from the head of the free list. -/
def State.gives (r : AppendRequest) (top : Epoch) (rest : List Epoch) (s t : State) : Prop :=
  ∃ (others : List Segment) (e : Segment) (p : Phys) (free : List Phys) (nextQ : SegNo),
    (e.physical = some p ∧ e.state = .filling ∧ e.count < 819 ∧ (∀ x ∈ others, x.q ≠ e.q)) ∧
    ((s.journal.map = others ++ [e] ∧ (∀ x ∈ others, x.state ≠ .filling) ∧ free = s.journal.free ∧ nextQ = s.journal.nextQ) ∨
      (s.fillingHasRoom = false ∧ s.journal.map.length < 1024 ∧ s.journal.free = p :: free ∧
        nextQ = s.journal.nextQ + 1 ∧
        others = s.journal.map.map (fun x => if x.state = .filling then { x with state := .filled } else x) ∧
        e = { q := s.journal.nextQ, state := .filling, physical := some p, first := s.journal.nextSeq, count := 0 })) ∧
    s.epochs.stack = top :: rest ∧
    t = ((((s.setCapture { s.capture with
        slots := s.capture.slots.set r.slot (s.capture.slots[r.slot].map fun sl => { sl with stage := .append })
        }).placed r.entry .captureAppend).setJournal
      { s.journal with
        map := others ++ [{ e with count := e.count + 1 }]
        free := free
        nextQ := nextQ
        nextSeq := s.journal.nextSeq + 1
        engineQueue := s.journal.engineQueue ++ [.recordWrite r.slot p e.count s.journal.nextSeq e.q
          (buildRecord r.line s.journal.nextSeq top.number r.entry.master s.depth r.data)] }).setEpochs
      { s.epochs with stack := { top with records := top.records + 1 } :: rest }).setSpace
      { s.space with fullWaits := s.space.fullWaits.filter fun w => decide (w.1 ≠ r.entry) }

/-! ### Frames -/

/-- The command byte and the frame of a row of the service link (R176). -/
def frameOf : Instr → Option (Byte × Frame)
  | .unknown code f => some (code, f)
  | .requestFrameHeld code f => some (code, f)
  | .paramRead f => some (0x10, f)
  | .paramWriteDefaultAction f => some (0x11, f)
  | .paramWriteNseg f => some (0x11, f)
  | .paramWriteMemTimeout f => some (0x11, f)
  | .paramWriteFullWait f => some (0x11, f)
  | .paramWriteHoldTime f => some (0x11, f)
  | .paramWriteHoldOnFree f => some (0x11, f)
  | .paramWriteHoldOffFree f => some (0x11, f)
  | .paramWriteRefillWait f => some (0x11, f)
  | .paramWriteRestoreAhead f => some (0x11, f)
  | .statusRead f => some (0x12, f)
  | .eventPop f => some (0x13, f)
  | .enable f => some (0x14, f)
  | .disable f => some (0x15, f)
  | .coreReset f => some (0x16, f)
  | .mtagRelease f => some (0x17, f)
  | .windowWrite f => some (0x20, f)
  | .windowRead f => some (0x21, f)
  | .checkpoint f => some (0x30, f)
  | .commit f => some (0x31, f)
  | .abandon f => some (0x32, f)
  | .rollback f => some (0x33, f)
  | .markQuery f => some (0x34, f)
  | .holdSet f => some (0x40, f)
  | .holdClear f => some (0x41, f)
  | .lend f => some (0x50, f)
  | .lendCancel f => some (0x51, f)
  | .spillDone f => some (0x52, f)
  | .refillDone f => some (0x53, f)
  | .segQuery f => some (0x54, f)
  | .blockRead f => some (0x55, f)
  | .blockWrite f => some (0x56, f)
  | _ => none

/-- R156, R157: `s` right after its command at work, `w`, has ended with answer `a`, which is sent unless SSN has closed the
exchange. -/
def State.ends (w : Work) (a : Answer) (s : State) : State :=
  s.setService { s.service with
    work := none
    exchange := if w.attached then .answering (a.frame w.exchange) else s.service.exchange }

/-- R157: `t` is what a command leaves that is taken in an open exchange; this is what it leaves where SSN has closed its exchange
before, in the state `s`: no response is sent, then or later. -/
def State.unanswered (s t : State) : State :=
  t.setService { t.service with
    exchange := s.service.exchange
    work := t.service.work.map fun w => { w with attached := false } }

/-- R157: row `i` ends the command at work in `s`, which would leave `v` with no frame held, and a held frame of row `c` is taken
in that step: the row has the effect it has in `v` when its frame is completed there, but for the response of an exchange that SSN
has closed. -/
def State.takesHeld (i c : Instr) (s v : State) : Prop :=
  ∀ (code : Byte) (f : Frame) (attached : Bool), frameOf c = some (code, f) → s.service.unread = false →
    s.service.held = some { code := code, frame := f, attached := attached } → (attached = true → s.service.exchange = .working) →
    ∃ t, exec c (v.setService { v.service with exchange := .receiving, work := none, held := none }) = .next t ∧
      exec i s = .next (if attached then t else s.unanswered t)

/-- R29, R79, R89: row `i` completes the block transfer of the command at work, `w`, whose answer is `a`, and `u` is what that
leaves with the port tag free. A COMMIT drain, or a rollback failure, that waited for the transfer completes in the same step. -/
def State.transferEnds (i : Instr) (w : Work) (a : Answer) (s u : State) : Prop :=
  (u.drainComplete = false → u.failureCompletes = false → exec i s = .next (u.ends w a)) ∧
    (u.drainComplete = true → exec i s = exec .commitDrainComplete (u.ends w a)) ∧
    ∀ (c : ReplayContext) (f : Failure) (p : Phys),
      (u.epochs.controller = .replay ∨ u.epochs.controller = .refillWait) → u.service.coreReset = none →
      u.replay.context = some c → c.failure = some f → c.read = none → c.restores = [] → f.freed = some p →
      u.blockOutstanding p = false → exec i s = exec .rollbackFailed (u.ends w a)

/-- The entry of a table without its state: what an entry keeps on its path from the line gate to the memory link. -/
def Entry.unplaced (e : Entry) : Entry := { e with state := .lineWait }

/-- The blocks that a move of entries along their paths (R27, R28, R43 to R47, R147) leaves as they are. -/
structure SameButPaths (s t : State) : Prop where
  entries : t.host.table.map Entry.unplaced = s.host.table.map Entry.unplaced
  sendQueue : t.host.sendQueue = s.host.sendQueue
  holdTold : t.host.holdTold = s.host.holdTold
  lastSent : t.host.lastSent = s.host.lastSent
  windows : t.windows = s.windows
  epochs : t.epochs = s.epochs
  marks : t.capture.marks = s.capture.marks
  markSpills : t.capture.markSpills = s.capture.markSpills
  journal : t.journal = s.journal
  replay : t.replay = s.replay
  space : t.space = s.space
  service : t.service = s.service
  timebase : t.timebase = s.timebase
  inReset : t.inReset = s.inReset
  fresh : t.fresh = s.fresh
  pending : t.pending = s.pending

end Sys2Proof.Machine
end

