-- ==== Sys2Proof/Certificates/Slice0/Obligations.lean ====
section
/-! DEFINITION. The statements for the provers. A state written with the set operations of Machine/State.lean names every block
that changes; every block it does not name is as before. -/

open Sys2Proof Sys2Proof.Machine

/-! ### The machine -/

/-- The step of a queue with a command in front is that command's meaning on the state with the queue's rest. -/
def Obligations.StepTakesFrontCommand : Prop :=
  ∀ (s : State) (c : Instr) (rest : List Instr), s.pending = c :: rest → step s = exec c (s.setPending rest)

/-- The model's choice (log 2): on an empty queue the timebase ticks once, and stands still while RESETN is asserted. -/
def Obligations.EmptyQueueTicks : Prop :=
  ∀ s : State, s.pending = [] → step s = .next (if s.inReset then s else s.setTimebase (s.timebase + 1))

/-- The reset tables of R22, R42, R62, R84, R112, R130, R143, R155, R161 and R173, and that the reset state keeps the laws that
every step keeps. -/
def Obligations.ResetState : Prop :=
  (State.reset.host.table = [] ∧ State.reset.host.sendQueue = [] ∧ State.reset.acceptLine = true) ∧
    (∀ i : Fin 16, State.reset.windows[i] =
      { valid := false, base := 0, limit := 0, masters := 0b1111, action := .pass, hits := 0 }) ∧
    State.reset.epochs = { stack := [], nextEpoch := 1, controller := .idle, command := none } ∧
    ((∀ i : Fin 8, State.reset.capture.slots[i] = none) ∧ State.reset.capture.slotQueue = [] ∧
      State.reset.capture.marks = [] ∧ State.reset.capture.markSpills = 0) ∧
    (State.reset.journal.nextSeq = 0 ∧ State.reset.journal.nextQ = 0 ∧ State.reset.journal.map = [] ∧
      State.reset.journal.free.map BitVec.toNat = List.range 256 ∧ State.reset.journal.waiting = [] ∧
      State.reset.journal.engineQueue = [] ∧ State.reset.journal.serviceSide = none ∧
      State.reset.journal.outstanding = [] ∧ State.reset.journal.lastGranted = .service) ∧
    State.reset.replay = { context := none, refillTimer := none } ∧
    State.reset.space = { auto := false, manual := false, refreshTimer := none, fullWaits := [] } ∧
    ((∀ t : Fin 64, State.reset.memIf.tags[t] = .free) ∧ State.reset.memIf.tagQueue = []) ∧
    (State.reset.service.exchange = .closed ∧ State.reset.service.work = none ∧ State.reset.service.held = none ∧
      State.reset.service.mode = .bypass ∧ State.reset.service.events = [] ∧ State.reset.service.dropped = 0 ∧
      State.reset.service.coreReset = none ∧ State.reset.alertLow = false) ∧
    State.reset.service.params =
      { defaultAction := .pass, nseg := 256, memTimeout := 1000, fullWait := 500, holdTime := 200, holdOnFree := 4,
        holdOffFree := 8, refillWait := 1000, restoreAhead := 4 } ∧
    State.reset.timebase = 0 ∧
    (Memory.wf State.reset.journal.memory = true ∧ State.reset.journal.portValid ∧ State.reset.service.params.valid ∧
      (∀ i : Fin 16, State.reset.windows[i].valid') ∧ marksValid State.reset.capture.marks ∧ State.reset.epochs.valid ∧
      State.reset.epochs.pendingInDraining ∧ State.reset.tagsServed ∧ State.reset.holdSettled ∧
      State.reset.autoKept State.reset.journal.free.length ∧ State.reset.lawful 0)

/-- R173: RESETN asserted and released. The journal memory is kept; nothing else of the part is, and no command is taken while
RESETN is asserted. The queue and the number of the next free value are the model's own. -/
def Obligations.PinResetValues : Prop :=
  ∀ s : State,
    exec .pinReset s = .next
      { State.reset with
        journal := { State.reset.journal with memory := s.journal.memory }
        inReset := true
        fresh := s.fresh
        pending := s.pending } ∧
    (s.inReset = true → exec .resetnRelease s = .next
      { State.reset with
        journal := { State.reset.journal with memory := s.journal.memory }
        inReset := false
        fresh := s.fresh
        pending := s.pending }) ∧
    ∀ c : Instr, s.inReset = true → c ≠ .pinReset → c ≠ .resetnRelease → exec c s = .next s

/-! ### Laws that every step keeps -/

/-- R6, R19: the journal memory keeps its canonical form, and the port its 8 operations with 8 tags. The laws of the journal and of
what depends on it hold on: the free list and the segments of the map's entries are the segments below NSEG, each once (R7); only the
newest entry can be FILLING (R10); the entries cover consecutive sequence numbers from the outermost epoch's start, to NEXT_SEQ outside
a walk (R11, R23); at depth 0 the map and the mark table are empty (R35, R54); every entry of the table is in one place of its path at
most (R122); no entry is past the gate in a walk (R27); the current entry of a walk is the one that holds next, and the refill field
is that of the current entry (R65). `span` bounds how far the map's logical numbers lie before NEXT_Q, which a
command raises by at most 17, so that they stay apart (R9). -/
def Obligations.JournalMemoryAndPortKept : Prop :=
  ∀ (s t : State) (span : Nat), step s = .next t →
    (Memory.wf s.journal.memory = true → Memory.wf t.journal.memory = true) ∧
      (s.journal.portValid → t.journal.portValid) ∧
      (span + 17 < 2 ^ 32 → s.lawful span → t.lawful (span + 17))

/-- R165, R118, R121, R147: at most 32 events, at most 32 entries, no two entries with one master and tag, and no request waits
while a tag is FREE. -/
def Obligations.QueueLimitsKept : Prop :=
  ∀ s t : State, step s = .next t →
    (s.service.events.length ≤ 32 → t.service.events.length ≤ 32) ∧
      (s.host.table.length ≤ 32 → t.host.table.length ≤ 32) ∧
      ((s.host.table.map (·.id)).Nodup → (t.host.table.map (·.id)).Nodup) ∧ (s.tagsServed → t.tagsServed)

/-- R161, R104, R133: the parameters keep their ranges and the threshold order, and every window its base, limit and masters. -/
def Obligations.ParameterAndWindowRangesKept : Prop :=
  ∀ s t : State, step s = .next t →
    (s.service.params.valid → t.service.params.valid) ∧
      ((∀ i : Fin 16, s.windows[i].valid') → ∀ i : Fin 16, t.windows[i].valid')

/-- R23, R24, R26, R51: at most 8 epochs, no number twice and none 0, and a command pending in DRAINING alone; no line is marked
twice, and no set of the mark table holds more than 4 lines. -/
def Obligations.EpochStackAndMarksKept : Prop :=
  ∀ s t : State, step s = .next t →
    (s.epochs.valid → t.epochs.valid) ∧ (s.epochs.pendingInDraining → t.epochs.pendingInDraining) ∧
      (marksValid s.capture.marks → marksValid t.capture.marks)

/-- R106, R102, R103: at the end of every step the host interface has been told whether the hold is in force, and the automatic hold
is what R103 asks for at the free count. R103, R106, R107, R108: whatever the step of a running chip does to the free count or to a
hold, and resets apart, the automatic hold stays as it is where the free count ends between the thresholds; and where the hold in
force comes or goes, the notice joins the send queue, the refresh timer starts or stops, and HOLD_CHANGED joins the event queue after
the step's other records. A held EVENT_POP is answered after that (log 19), and could take the record again, so it is left out. -/
def Obligations.HoldToldKept : Prop :=
  (∀ s t : State, step s = .next t →
    (s.holdSettled → t.holdSettled) ∧
      (s.autoKept s.journal.free.length → t.autoKept t.journal.free.length)) ∧
  ∀ (c : Instr) (s t : State), exec c s = .next t → c ≠ .pinReset → c ≠ .resetnRelease →
    (∀ f, frameOf c ≠ some (0x16, f)) → s.service.coreReset = none →
    (∀ h, s.service.held = some h → h.code ≠ 0x13 ∧ h.code ≠ 0x16) →
    (t.host.holdTold ≠ s.host.holdTold → t.announced) ∧
      (t.service.params.holdOnFree < t.journal.free.length → t.journal.free.length < t.service.params.holdOffFree →
        t.space.auto = s.space.auto)

/-- R137: a command taken at depth 1 or more that leaves depth 1 or more changes no window, but for its hits, and not
DEFAULT_ACTION. -/
def Obligations.WindowsLockedInEpochs : Prop :=
  ∀ (c : Instr) (s t : State), exec c s = .next t → s.depth ≠ 0 → t.depth ≠ 0 →
    t.service.params.defaultAction = s.service.params.defaultAction ∧
      ∀ i : Fin 16, t.windows[i].valid = s.windows[i].valid ∧ t.windows[i].base = s.windows[i].base ∧
        t.windows[i].limit = s.windows[i].limit ∧ t.windows[i].masters = s.windows[i].masters ∧
        t.windows[i].action = s.windows[i].action

/-! ### Shared operations -/

/-- R164, R165: a record joins the tail with the timebase as its timestamp; with 32 records held it is dropped and counted. -/
def Obligations.EventPosted : Prop :=
  ∀ (n : Option EpochNo) (k : EventKind) (s : State),
    (s.service.events.length < 32 → post n k s =
      s.setService { s.service with events := s.service.events ++ [{ kind := k, time := s.timebase, epoch := n }] }) ∧
    (32 ≤ s.service.events.length → s.service.dropped.toNat < 2 ^ 32 - 1 →
      post n k s = s.setService { s.service with dropped := s.service.dropped + 1 }) ∧
    (32 ≤ s.service.events.length → s.service.dropped.toNat = 2 ^ 32 - 1 → post n k s = s)

/-- R36, R58: a break request. An OPEN top epoch becomes BROKEN, EPOCH_BROKEN is posted, and the captures under way settle: the
entries in SLOT_WAIT and SPACE_WAIT go to issue in arrival order. A BROKEN one keeps its reason; at depth 0 nothing happens. -/
def Obligations.BreakRequest : Prop :=
  ∀ (reason : BrokenReason) (s : State),
    (s.epochs.stack = [] → breakTop reason s = s) ∧
    ∀ (e : Epoch) (rest : List Epoch), s.epochs.stack = e :: rest →
      (e.broken ≠ none → breakTop reason s = s) ∧
      (e.broken = none →
        ∃ t, breakTop reason s = t ∧
          t.epochs = { s.epochs with stack := { e with broken := some reason } :: rest } ∧
          t.service = (post (some e.number) (.epochBroken reason s.depth) s).service ∧
          t.capture.slotQueue = [] ∧ t.capture.marks = s.capture.marks ∧ t.capture.markSpills = s.capture.markSpills ∧
          (∀ i : Fin 8, t.capture.slots[i] =
            match s.capture.slots[i] with
            | none => none
            | some sl =>
              if sl.stage = .read then some { sl with stage := .discard }
              else if sl.stage = .space then none
              else some sl) ∧
          t.journal = { s.journal with waiting := [] } ∧ t.space = { s.space with fullWaits := [] } ∧
          (∀ x ∈ t.host.table, x.state ≠ .slotWait ∧ x.state ≠ .spaceWait) ∧
          ((s.host.table.map (·.id)).Nodup →
            ∃ u, s.issuesAll (s.host.table.filter fun x => decide (x.state = .slotWait ∨ x.state = .spaceWait)) u ∧
              t.host.table = u.host.table ∧ t.memIf = u.memIf) ∧
          t.host.table.map Entry.unplaced = s.host.table.map Entry.unplaced ∧ t.host.sendQueue = s.host.sendQueue ∧
          t.windows = s.windows ∧ t.replay = s.replay ∧ t.timebase = s.timebase ∧ t.pending = s.pending)

/-- R53: an insert into the mark table, by the lines its set holds (R51's set index). -/
def Obligations.MarkInserted : Prop :=
  ∀ (l : Line) (s : State),
    (l ∈ s.capture.marks → insertMark l s = s) ∧
    (l ∉ s.capture.marks → (s.capture.marks.filter fun m => setIndex m == setIndex l).length < 4 →
      insertMark l s = s.setCapture { s.capture with marks := s.capture.marks ++ [l] }) ∧
    (l ∉ s.capture.marks → 4 ≤ (s.capture.marks.filter fun m => setIndex m == setIndex l).length →
      insertMark l s = s.setCapture { s.capture with
        markSpills := if s.capture.markSpills.toNat = 2 ^ 32 - 1 then s.capture.markSpills else s.capture.markSpills + 1 }) ∧
    ∀ k : Fin 10, (setIndex l)[k] = ((l[k.val]'(by omega)) ^^ (l[k.val + 10]'(by omega)) ^^ (l[k.val + 20]'(by omega)))

/-- R134, R136, R120: classification in ACTIVE by the lowest-numbered matching entry, whose hit is counted, or DEFAULT_ACTION;
PASS in BYPASS with no hit. -/
def Obligations.RequestsClassified : Prop :=
  ∀ (l : Line) (m : Fin 4) (s : State),
    (s.service.mode = .active →
      ∀ i : Fin 16, s.windows[i].valid = true → s.windows[i].base.toNat ≤ l.toNat → l.toNat ≤ s.windows[i].limit.toNat →
        s.windows[i].masters.getLsbD m.val = true → (∀ j : Fin 16, j < i → s.windows[j].matches l m = false) →
        s.classify l m = s.windows[i].action ∧
        countClassified l m s = s.setWindows (s.windows.set i { s.windows[i] with
          hits := if s.windows[i].hits.toNat = 2 ^ 32 - 1 then s.windows[i].hits else s.windows[i].hits + 1 })) ∧
    (s.service.mode = .active →
      (∀ i : Fin 16, s.windows[i].valid = false ∨ l.toNat < s.windows[i].base.toNat ∨
        s.windows[i].limit.toNat < l.toNat ∨ s.windows[i].masters.getLsbD m.val = false) →
        s.classify l m = s.service.params.defaultAction ∧ countClassified l m s = s) ∧
    (s.service.mode = .bypass → s.classify l m = .pass ∧ countClassified l m s = s)

/-- R1, R2, R3, R174: a record as it is built has 80 bytes, passes the check made when it is read back, and gives back its line,
its sequence number and its 64 bytes. Its bytes, field by field, with the checksum R2 computes: the forty words but the checksum's
summed, the sum folded and complemented, 0xFFFF in place of 0x0000. The folded sum of all forty words, with the stored checksum, is
0xFFFF (section 11.1). -/
def Obligations.BuiltRecordReadsBack : Prop :=
  ∀ (line : Line) (seq : Seq) (epoch : EpochNo) (master : Fin 4) (depth : Nat) (data : List Byte), data.length = 64 →
    ((buildRecord line seq epoch master depth data).length = 80 ∧
      checksumPasses (buildRecord line seq epoch master depth data) = true ∧
      recordSeq (buildRecord line seq epoch master depth data) = seq ∧
      recordLine (buildRecord line seq epoch master depth data) = line ∧
      recordData (buildRecord line seq epoch master depth data) = data) ∧
    ∀ (record : List Byte) (fold word : Nat → Nat), record = buildRecord line seq epoch master depth data →
      (∀ n, fold n = if n < 65536 then n else fold (n % 65536 + n / 65536)) →
      (∀ k, word k = (record.getD (2 * k) 0).toNat + 256 * (record.getD (2 * k + 1) 0).toNat) →
      (∃ sum others : Nat, others = fold (((List.range 40).filter fun k => decide (k ≠ 6)).map word).sum ∧
        sum = (if 65535 - others = 0 then 65535 else 65535 - others) ∧ word 6 = sum ∧
        record = leBytes 4 line.toNat ++ leBytes 4 seq.toNat ++ leBytes 2 epoch.toNat ++ leBytes 1 master.val ++
          leBytes 1 depth ++ leBytes 2 sum ++ [0, 0] ++ data) ∧
      fold ((List.range 40).map word).sum = 65535

/-! ### Host link -/

/-- R118: a request whose master and tag an entry holds is discarded, and HOST_PROTOCOL is posted. The code 1 of DUPLICATE_TAG in
its second argument is the model's reading of R176 (log 28). -/
def Obligations.DuplicateTagDiscarded : Prop :=
  ∀ (c : Instr) (r : Request) (s : State), requestOf c = some r → s.acceptLine = true →
    (∃ e ∈ s.host.table, e.id = r.id) →
      exec c s = .next (post none (.hostProtocol r.id) s) ∧
        (EventKind.hostProtocol r.id).first = some [BitVec.ofNat 8 r.id.master.val, BitVec.ofNat 8 r.id.tag.val] ∧
        (EventKind.hostProtocol r.id).second = some [1]

/-- R119, R117, R175: when a request is malformed, and its answer, and that any other request is not malformed. A header of a kind
other than WRITE is a READ row. -/
def Obligations.MalformedAnswered : Prop :=
  (∀ (h : Word) (s : State), (Instr.read h).wellFormed = true → s.acceptLine = true →
    (∀ e ∈ s.host.table, e.id ≠ headerId h) →
    ((h.extractLsb' 0 4).toNat ≠ 1 ∨ (h.extractLsb' 56 4).toNat < 1 ∨ 8 < (h.extractLsb' 56 4).toNat ∨
      (h.extractLsb' 16 36).toNat % 8 ≠ 0 ∨ 8 < (h.extractLsb' 16 36).toNat % 64 / 8 + (h.extractLsb' 56 4).toNat) →
      exec (.read h) s = .next (s.setHost { s.host with
        sendQueue := s.host.sendQueue ++ [.intake (headerId h) false .malformed] })) ∧
  (∀ (h enables : Word) (data : List Word) (s : State), (Instr.write h enables data).wellFormed = true →
    s.acceptLine = true → (∀ e ∈ s.host.table, e.id ≠ headerId h) →
    ((h.extractLsb' 56 4).toNat < 1 ∨ 8 < (h.extractLsb' 56 4).toNat ∨ (h.extractLsb' 16 36).toNat % 8 ≠ 0 ∨
      8 < (h.extractLsb' 16 36).toNat % 64 / 8 + (h.extractLsb' 56 4).toNat) →
      exec (.write h enables data) s = .next (s.setHost { s.host with
        sendQueue := s.host.sendQueue ++ [.intake (headerId h) true .malformed] })) ∧
  ∀ (c : Instr) (h : Word) (r : Request),
    ((c = .read h ∧ (h.extractLsb' 0 4).toNat = 1) ∨
      (∃ enables data, c = .write h enables data ∧ (h.extractLsb' 0 4).toNat = 2)) →
    requestOf c = some r → 1 ≤ (h.extractLsb' 56 4).toNat → (h.extractLsb' 56 4).toNat ≤ 8 →
    (h.extractLsb' 16 36).toNat % 8 = 0 → (h.extractLsb' 16 36).toNat % 64 / 8 + (h.extractLsb' 56 4).toNat ≤ 8 →
    r.malformed = false

/-- R116: when the accept line is asserted; a request met while it is withdrawn changes nothing (the model takes its row from the
queue untaken, log 32). R109, R117, R135: a well-formed WRITE under the hold is answered RETRY; a request that its action refuses
is answered REFUSED, its hit counted. Neither gets an entry. -/
def Obligations.RequestRefusedAtIntake : Prop :=
  (∀ s : State, s.acceptLine = true ↔
    s.host.table.length < 32 ∧
      (s.host.sendQueue.filter fun m => match m with
        | .intake .. => true
        | _ => false).length < 4 ∧
      s.service.coreReset = none ∧ s.inReset = false) ∧
  (∀ (c : Instr) (r : Request) (s : State), requestOf c = some r → s.acceptLine = false → exec c s = .next s) ∧
  ∀ (c : Instr) (r : Request) (s : State), requestOf c = some r → s.acceptLine = true → s.entry r.id = none →
    r.malformed = false →
    (r.write ≠ none → s.host.holdTold = true →
      exec c s = .next (s.setHost { s.host with sendQueue := s.host.sendQueue ++ [.intake r.id true .retry] })) ∧
    ((r.write = none ∨ s.host.holdTold = false) →
      (s.classify (lineOf r.address) r.id.master = .deny ∨
        (s.classify (lineOf r.address) r.id.master = .guard ∧ r.write ≠ none)) →
      exec c s = .next ((countClassified (lineOf r.address) r.id.master s).setHost { s.host with
        sendQueue := s.host.sendQueue ++ [.intake r.id r.write.isSome .refused] }))

/-- R27, R121, R123, R124: an admitted request waits for its line behind an older entry, and is PARKED where the gate holds its
kind; which kinds the gate lets pass in each controller state; and R28: a release lets every PARKED entry pass the gate in
arrival order, a read to its M-tag wait, a write to the capture check against the stack as it stands. -/
def Obligations.RequestHeld : Prop :=
  (∀ (s : State) (isWrite : Bool), s.service.coreReset = none →
    (s.gateOpen isWrite = true ↔ s.epochs.controller = .idle ∨
      (s.epochs.controller = .draining ∧ isWrite = false ∧
        (s.epochs.command = some .checkpoint ∨ s.epochs.command = some .commit)))) ∧
  (∀ s t : State, (s.host.table.map (·.id)).Nodup →
    (t = releaseParked s ↔ s.passesAll (s.host.table.filter fun e => decide (e.state = .parked)) t)) ∧
  ∀ (c : Instr) (r : Request) (s : State), requestOf c = some r → s.admits r →
    ((∃ x ∈ s.host.table, lineOf x.address = lineOf r.address) →
      exec c s = .next ((countClassified (lineOf r.address) r.id.master s).setHost { s.host with
        table := s.host.table ++ [{
          id := r.id, address := r.address, beats := r.beats, write := r.write,
          action := s.classify (lineOf r.address) r.id.master, state := .lineWait, response := none }] })) ∧
    ((∀ x ∈ s.host.table, lineOf x.address ≠ lineOf r.address) → s.gateOpen r.write.isSome = false →
      exec c s = .next ((countClassified (lineOf r.address) r.id.master s).setHost { s.host with
        table := s.host.table ++ [{
          id := r.id, address := r.address, beats := r.beats, write := r.write,
          action := s.classify (lineOf r.address) r.id.master, state := .parked, response := none }] }))

/-- R43, R44, R124, R125, R147, R148: an admitted READ, or WRITE that needs no record, with its line free and the gate open: it
is issued with the lowest FREE tag, or waits for one in ISSUE_WAIT. -/
def Obligations.RequestGoesToIssue : Prop :=
  ∀ (c : Instr) (r : Request) (s : State), requestOf c = some r → s.admits r →
    (∀ x ∈ s.host.table, lineOf x.address ≠ lineOf r.address) → s.gateOpen r.write.isSome = true →
    (r.write = none ∨ s.classify (lineOf r.address) r.id.master ≠ .journal ∨ s.topOpen = false ∨
      lineOf r.address ∈ s.capture.marks) →
    ∃ q : MemRequest, (q = match r.write with
        | none => .read r.id r.address r.beats
        | some b => .write r.id r.address r.beats b) ∧
      (∀ t : Fin 64, s.tagReady t →
        exec c s = .next (((countClassified (lineOf r.address) r.id.master s).setHost { s.host with
          table := s.host.table ++ [{
            id := r.id, address := r.address, beats := r.beats, write := r.write,
            action := s.classify (lineOf r.address) r.id.master, state := .issued, response := none }] }).setMemIf
              { s.memIf with tags := s.memIf.tags.set t (.outstanding q s.memExpiry) })) ∧
      (s.tagWait →
        exec c s = .next (((countClassified (lineOf r.address) r.id.master s).setHost { s.host with
          table := s.host.table ++ [{
            id := r.id, address := r.address, beats := r.beats, write := r.write,
            action := s.classify (lineOf r.address) r.id.master, state := .issueWait, response := none }] }).setMemIf
              { s.memIf with tagQueue := s.memIf.tagQueue ++ [q] }))

/-- R43, R46, R47: an admitted WRITE that needs a record takes the lowest-numbered free slot and its READ_LINE is handed over,
or joins the slot queue. -/
def Obligations.CaptureBegins : Prop :=
  ∀ (c : Instr) (r : Request) (s : State), requestOf c = some r → s.admits r →
    (∀ x ∈ s.host.table, lineOf x.address ≠ lineOf r.address) → s.gateOpen true = true → r.write ≠ none →
    s.classify (lineOf r.address) r.id.master = .journal → s.topOpen = true → lineOf r.address ∉ s.capture.marks →
    (∀ i : Fin 8, s.capture.slotQueue = [] → s.capture.slots[i] = none →
      (∀ j : Fin 8, j < i → s.capture.slots[j] ≠ none) →
      ∃ (sl : Slot) (u : State),
        sl = { entry := r.id, line := lineOf r.address, stage := .read, data := none } ∧
        u = ((countClassified (lineOf r.address) r.id.master s).setHost { s.host with
          table := s.host.table ++ [{
            id := r.id, address := r.address, beats := r.beats, write := r.write,
            action := .journal, state := .captureRead, response := none }] }).setCapture
              { s.capture with slots := s.capture.slots.set i (some sl) } ∧
        (∀ t : Fin 64, s.tagReady t → exec c s = .next (u.setMemIf { s.memIf with
          tags := s.memIf.tags.set t (.outstanding (.readLine i (lineOf r.address)) s.memExpiry) })) ∧
        (s.tagWait → exec c s = .next (u.setMemIf { s.memIf with
          tagQueue := s.memIf.tagQueue ++ [.readLine i (lineOf r.address)] }))) ∧
    ((s.capture.slotQueue ≠ [] ∨ ∀ i : Fin 8, s.capture.slots[i] ≠ none) →
      exec c s = .next (((countClassified (lineOf r.address) r.id.master s).setHost { s.host with
        table := s.host.table ++ [{
          id := r.id, address := r.address, beats := r.beats, write := r.write,
          action := .journal, state := .slotWait, response := none }] }).setCapture
            { s.capture with slotQueue := s.capture.slotQueue ++ [r.id] }))

/-- R127, R126, R123, R124: the head of the send queue goes out. An intake answer or a notice changes nothing more; a response
frees its entry, and the oldest entry left of its line, if it waits for the line, reaches the park gate, which holds it or lets it
pass. R29: where the entry freed was the last of a drain, the pending command takes effect in this step. -/
def Obligations.MessageSent : Prop :=
  ∀ (s : State) (m : HostMessage) (rest : List HostMessage), s.inReset = false → s.holdSettled →
    s.host.sendQueue = m :: rest →
    ((∀ id w st d, m ≠ .response id w st d) → s.drainComplete = false →
      exec .messageSent s = .next (s.setHost { s.host with sendQueue := rest, lastSent := some m })) ∧
    ∀ (id : HostId) (w : Bool) (st : HostStatus) (d : List Word) (e : Entry) (u v : State),
      m = .response id w st d → s.entry id = some e → (s.host.table.map (·.id)).Nodup →
      u = s.setHost { s.host with
        sendQueue := rest, lastSent := some m, table := s.host.table.filter fun x => decide (x.id ≠ id) } →
      (((∀ x, u.host.table.find? (fun y => lineOf y.address == lineOf e.address) = some x → x.state ≠ .lineWait) ∧ v = u) ∨
        ∃ x, u.host.table.find? (fun y => lineOf y.address == lineOf e.address) = some x ∧ x.state = .lineWait ∧
          ((u.gateOpen x.write.isSome = false ∧ v = u.placed x.id .parked) ∨
            (u.gateOpen x.write.isSome = true ∧ u.passes x v))) →
      (v.drainComplete = false → exec .messageSent s = .next v) ∧
      (v.drainComplete = true →
        (v.epochs.command = some .checkpoint → exec .messageSent s = exec .checkpointDrainComplete v) ∧
        (v.epochs.command = some .commit → exec .messageSent s = exec .commitDrainComplete v) ∧
        (v.epochs.command = some .rollback → exec .messageSent s = exec .rollbackDrainComplete v))

/-! ### Memory link -/

/-- R125, R126, R145, R147, R149, R153: the completion of a host request. The tag becomes FREE and serves the tag queue, the entry
is answered with the data or with MEMFAULT, and a fault posts MEM_FAULT. -/
def Obligations.HostRequestCompletes : Prop :=
  ∀ (s : State) (t : Fin 64) (q : MemRequest) (expiry : Tick) (v : State), s.quiet → s.tagFreed t v →
    s.memIf.tags[t] = .outstanding q expiry →
    (∀ (id : HostId) (a : Address) (n : Nat) (data : List Word), q = .read id a n → data.length = n →
      exec (.done t .ok data) s = .next (v.setHost { v.host with
        table := v.host.table.map fun e => if e.id = id then { e with response := some ⟨.ok, data⟩ } else e
        sendQueue := v.host.sendQueue ++ [.response id false .ok data] })) ∧
    (∀ (id : HostId) (a : Address) (n : Nat) (b : WriteBody) (data : List Word), q = .write id a n b →
      exec (.done t .ok data) s = .next (v.setHost { v.host with
        table := v.host.table.map fun e => if e.id = id then { e with response := some ⟨.ok, []⟩ } else e
        sendQueue := v.host.sendQueue ++ [.response id true .ok []] })) ∧
    ∀ (id : HostId) (a : Address) (n : Nat) (w : Option WriteBody) (data : List Word),
      q = (match w with
        | none => .read id a n
        | some b => .write id a n b) →
      exec (.done t .fault data) s = .next (post s.topNumber (.memFault .fault .host (lineOf a) t)
        (v.setHost { v.host with
          table := v.host.table.map fun e => if e.id = id then { e with response := some ⟨.memFault, []⟩ } else e
          sendQueue := v.host.sendQueue ++ [.response id w.isSome .memFault []] }))

/-- R1, R12, R13, R14, R25, R48, R110: a capture read completes OK in stage READ. Its request takes the next place of the
FILLING entry, or the first of a new segment, or waits for space with a full-wait timer. The order of the 64 bytes in the data
words is the model's choice (log 35). -/
def Obligations.CaptureReadCompletes : Prop :=
  ∀ (s : State) (t : Fin 64) (i : Fin 8) (l : Line) (expiry : Tick) (sl : Slot) (data : List Word) (top : Epoch)
    (rest : List Epoch) (v : State), s.quiet → s.tagFreed t v → s.memIf.tags[t] = .outstanding (.readLine i l) expiry →
    s.capture.slots[i] = some sl → sl.stage = .read → data.length = 8 → s.epochs.stack = top :: rest →
    (∀ (e : Segment) (p : Phys) (others : List Segment), s.journal.waiting = [] → s.journal.map = others ++ [e] →
      (∀ x ∈ others, x.state ≠ .filling ∧ x.q ≠ e.q) → e.state = .filling → e.physical = some p → e.count < 819 →
      exec (.done t .ok data) s = .next (((((v.setCapture
        { s.capture with
          slots := s.capture.slots.set i (some { sl with stage := .append, data := some (wordsBytes data) }) }).setHost
        { v.host with
          table := v.host.table.map fun x => if x.id = sl.entry then { x with state := .captureAppend } else x }).setJournal
        { s.journal with
          map := others ++ [{ e with count := e.count + 1 }]
          nextSeq := s.journal.nextSeq + 1
          engineQueue := s.journal.engineQueue ++ [.recordWrite i p e.count s.journal.nextSeq e.q
            (buildRecord sl.line s.journal.nextSeq top.number sl.entry.master s.depth (wordsBytes data))] }).setEpochs
        { s.epochs with stack := { top with records := top.records + 1 } :: rest }).setSpace
        { s.space with fullWaits := s.space.fullWaits.filter fun w => decide (w.1 ≠ sl.entry) })) ∧
    (∀ (p : Phys) (free : List Phys), s.journal.waiting = [] → s.journal.free = p :: free → s.journal.map.length < 1024 →
      s.fillingHasRoom = false → (∀ x ∈ s.journal.map, x.q ≠ s.journal.nextQ) → s.autoKept free.length →
      exec (.done t .ok data) s = .next (((((v.setCapture
        { s.capture with
          slots := s.capture.slots.set i (some { sl with stage := .append, data := some (wordsBytes data) }) }).setHost
        { v.host with
          table := v.host.table.map fun x => if x.id = sl.entry then { x with state := .captureAppend } else x }).setJournal
        { s.journal with
          map := (s.journal.map.map fun x => if x.state = .filling then { x with state := .filled } else x) ++
            [{ q := s.journal.nextQ, state := .filling, physical := some p, first := s.journal.nextSeq, count := 1 }]
          nextQ := s.journal.nextQ + 1
          free := free
          nextSeq := s.journal.nextSeq + 1
          engineQueue := s.journal.engineQueue ++ [.recordWrite i p 0 s.journal.nextSeq s.journal.nextQ
            (buildRecord sl.line s.journal.nextSeq top.number sl.entry.master s.depth (wordsBytes data))] }).setEpochs
        { s.epochs with stack := { top with records := top.records + 1 } :: rest }).setSpace
        { s.space with fullWaits := s.space.fullWaits.filter fun w => decide (w.1 ≠ sl.entry) })) ∧
    ∀ u : State,
      (s.journal.waiting ≠ [] ∨
        (s.fillingHasRoom = false ∧ (s.journal.free = [] ∨ 1024 ≤ s.journal.map.length))) →
      u = (((v.setCapture
        { s.capture with
          slots := s.capture.slots.set i (some { sl with stage := .space, data := some (wordsBytes data) }) }).setHost
        { v.host with
          table := v.host.table.map fun x => if x.id = sl.entry then { x with state := .spaceWait } else x }).setJournal
        { s.journal with
          waiting := s.journal.waiting ++ [{ slot := i, entry := sl.entry, line := sl.line, data := wordsBytes data }] }).setSpace
        { s.space with
          fullWaits := s.space.fullWaits ++
            [(sl.entry, s.timebase + BitVec.ofNat 32 s.service.params.fullWait)] } →
      (s.service.params.fullWait ≠ 0 → exec (.done t .ok data) s = .next u) ∧
      (s.service.params.fullWait = 0 → exec (.done t .ok data) s = .next (breakTop .full u))

/-- R56, R59, R60, R149, R150, R153: a request that ends FAULT, or by its timer (log 3). A capture read in stage READ answers its
write CAPFAULT and frees its slot; one in stage DISCARD, whatever its result, frees its slot and sends its write to issue, but not
between CORE_RESET and the journal step; a host request is answered MEMFAULT. MEM_FAULT is posted, and a timeout quarantines the
tag. -/
def Obligations.MemoryRequestFails : Prop :=
  (∀ (s : State) (t : Fin 64) (q : MemRequest) (expiry : Tick) (cmd : Instr) (kind : MemFaultKind) (v : State), s.quiet →
    s.memIf.tags[t] = .outstanding q expiry → s.endsBadly t expiry cmd kind v →
    (∀ (i : Fin 8) (l : Line) (sl : Slot), q = .readLine i l → s.capture.slots[i] = some sl →
      (∀ w : State, sl.stage = .read →
        (v.setHost { v.host with
          table := v.host.table.map fun e => if e.id = sl.entry then { e with response := some ⟨.capFault, []⟩ } else e
          sendQueue := v.host.sendQueue ++ [.response sl.entry true .capFault []] }).slotFreed i w →
        exec cmd s = .next (post s.topNumber (.memFault kind .capture l t) w)) ∧
      (∀ (e : Entry) (w x : State), sl.stage = .discard → s.portStopped = false → s.entry sl.entry = some e →
        v.slotFreed i w → w.issues e x → exec cmd s = .next (post s.topNumber (.memFault kind .capture l t) x)) ∧
      (sl.stage = .discard → s.portStopped = true →
        exec cmd s = .next (post s.topNumber (.memFault kind .capture l t) v))) ∧
    ∀ (id : HostId) (a : Address) (n : Nat) (w : Option WriteBody),
      q = (match w with
        | none => .read id a n
        | some b => .write id a n b) →
      exec cmd s = .next (post s.topNumber (.memFault kind .host (lineOf a) t)
        (v.setHost { v.host with
          table := v.host.table.map fun e => if e.id = id then { e with response := some ⟨.memFault, []⟩ } else e
          sendQueue := v.host.sendQueue ++ [.response id w.isSome .memFault []] }))) ∧
  ∀ (s : State) (t : Fin 64) (i : Fin 8) (l : Line) (expiry : Tick) (sl : Slot) (e : Entry) (data : List Word) (v : State),
    s.quiet → s.memIf.tags[t] = .outstanding (.readLine i l) expiry → s.capture.slots[i] = some sl → sl.stage = .discard →
    s.entry sl.entry = some e → s.tagFreed t v →
    (∀ w x : State, s.portStopped = false → v.slotFreed i w → w.issues e x → exec (.done t .ok data) s = .next x) ∧
    (s.portStopped = true → exec (.done t .ok data) s = .next v)

/-- R70, R71, R17, R77, R78, R79, R149, R150, R153: a restore ends in REPLAY or REFILL_WAIT. OK counts it, unless a failure is
present; the newest map entries that are consumed (log 16) leave the map and their segments join the free list tail. The last one
completes the rollback in its own step, or the failure present; a segment freed goes to a refill that waits. FAULT or a timeout
(log 3) fails the rollback at its record, or at the held record where that is newer, or raises the kept point of the failure
present. R170, R172, R83: a restore that ends during a core reset leaves the list, and has no other effect on the rollback; the last
one brings the end of the core reset in its own step, once the journal step is done.
The model's own readings in it: MEM_FAULT is posted before the ROLLBACK_FAILED of the same step (log 22, DEDUCED), and before what the
end of a core reset does in that step (log 19, DESIGN CHOICE); the refill field of an entry that is not yet refilled becomes absent in
the step of the failure, that of a refilled entry when the failure completes (log 34, DEDUCED). -/
def Obligations.RestoreCompletes : Prop :=
  (∀ (s : State) (t : Fin 64) (n : Seq) (l : Line) (old : List Byte) (expiry : Tick) (c : ReplayContext)
    (others : List (Seq × Line)) (lastOfFailure : Bool), s.quiet → s.service.coreReset = none →
    (s.epochs.controller = .replay ∨ s.epochs.controller = .refillWait) →
    s.memIf.tags[t] = .outstanding (.restore n l old) expiry → s.replay.context = some c → (n, l) ∈ c.restores →
    others = c.restores.filter (fun r => decide (r.1 ≠ n)) → s.journal.waiting = [] →
    lastOfFailure = (others.isEmpty && c.read.isNone &&
      !((c.failure.bind (·.freed)).any fun p => s.blockOutstanding p)) →
    (∀ (data : List Word) (v u : State) (older gone : List Segment), s.tagFreed t v → s.journal.map = older ++ gone →
      (∀ e ∈ gone, ({ c with restores := others } : ReplayContext).consumed e = true) →
      (∀ e, older.getLast? = some e → ({ c with restores := others } : ReplayContext).consumed e = false) →
      c.replayed.toNat < 2 ^ 32 - 1 →
      u = (v.setJournal { s.journal with
        map := older, free := s.journal.free ++ gone.reverse.filterMap (·.physical) }).setReplay { s.replay with
          context := some { c with
            restores := others
            replayed := if c.failure = none then c.replayed + 1 else c.replayed } } →
      (c.failure = none → (∀ r, c.refill = some r → s.epochs.controller = .refillWait → r.physical ≠ none) →
        s.autoKept u.journal.free.length →
        exec (.done t .ok data) s =
          if s.epochs.controller = .replay ∧ others = [] ∧ c.next = none ∧ c.held = none ∧ c.read = none then
            exec .rollbackDone u
          else .next u) ∧
      (∀ r e, c.failure = none → s.epochs.controller = .refillWait → c.refill = some r → r.physical = none →
        u.segment r.q = some e → e.state = .spilled →
        (u.journal.free = [] → s.autoKept 0 → exec (.done t .ok data) s = .next u) ∧
        (∀ p free, u.journal.free = p :: free → s.autoKept free.length →
          exec (.done t .ok data) s = exec .refillRequest u)) ∧
      (c.failure ≠ none → s.autoKept u.journal.free.length →
        exec (.done t .ok data) s = if lastOfFailure then exec .rollbackFailed u else .next u)) ∧
    ∀ (cmd : Instr) (kind : MemFaultKind) (v : State), s.endsBadly t expiry cmd kind v →
      (∀ (kept : Seq) (w : State), c.failure = none →
        kept = (match c.held with
          | none => n
          | some h => if seqNewer h.seq n then h.seq else n) →
        ((∀ r e, c.refill = some r → s.segment r.q = some e → e.state ≠ .refilling) →
          w = post s.topNumber (.memFault kind .restore l t)
            (v.fails { c with restores := others } .restoreFault kept none) →
          exec cmd s = if lastOfFailure then exec .rollbackFailed w else .next w) ∧
        ∀ (r : Refill) (e : Segment) (p : Phys), c.refill = some r → s.segment r.q = some e → e.state = .refilling →
          e.physical = some p → s.autoKept (s.journal.free.length + 1) →
          w = post s.topNumber (.memFault kind .restore l t)
            (v.fails { c with restores := others } .restoreFault kept (some e)) →
          exec cmd s = if lastOfFailure ∧ s.blockOutstanding p = false then exec .rollbackFailed w else .next w) ∧
      ∀ (f : Failure) (w : State), c.failure = some f →
        w = post s.topNumber (.memFault kind .restore l t) (v.setReplay { s.replay with
          context := some { c with
            restores := others
            failure := some { f with kept := if seqNewer n f.kept then n else f.kept } } }) →
        exec cmd s = if lastOfFailure then exec .rollbackFailed w else .next w) ∧
  ∀ (s : State) (r : CoreReset) (t : Fin 64) (n : Seq) (l : Line) (old : List Byte) (expiry : Tick) (c : ReplayContext)
    (others : List (Seq × Line)), s.quiet → s.service.coreReset = some r →
    s.memIf.tags[t] = .outstanding (.restore n l old) expiry → s.replay.context = some c → (n, l) ∈ c.restores →
    others = c.restores.filter (fun r => decide (r.1 ≠ n)) →
    (∀ (data : List Word) (v w : State), s.tagFreed t v →
      w = v.setReplay { s.replay with context := some { c with restores := others } } →
      exec (.done t .ok data) s = if r.journalDone = true ∧ others = [] then exec .coreResetEnd w else .next w) ∧
    ∀ (cmd : Instr) (kind : MemFaultKind) (v w : State), s.endsBadly t expiry cmd kind v →
      w = post s.topNumber (.memFault kind .restore l t)
        (v.setReplay { s.replay with context := some { c with restores := others } }) →
      exec cmd s = if r.journalDone = true ∧ others = [] then exec .coreResetEnd w else .next w

/-- R151: a completion whose tag is not OUTSTANDING. A QUARANTINED tag becomes FREE and serves the head of the tag queue; a FREE
one stays FREE. Both post LATE_COMPLETION, and no requester sees the completion. The codes 1 of QUARANTINED and 2 of UNKNOWN are
the model's reading of R176 (log 28). -/
def Obligations.LateAndStrayCompletions : Prop :=
  ∀ (s : State) (t : Fin 64) (status : Status) (data : List Word), s.quiet →
    (s.memIf.tags[t] = .quarantined → s.memIf.tagQueue = [] →
      exec (.done t status data) s = .next (post none (.lateCompletion t true)
        (s.setMemIf { s.memIf with tags := s.memIf.tags.set t .free }))) ∧
    (∀ (r : MemRequest) (rest : List MemRequest), s.memIf.tags[t] = .quarantined → s.memIf.tagQueue = r :: rest →
      (∀ u : Fin 64, s.memIf.tags[u] ≠ .free) →
      exec (.done t status data) s = .next (post none (.lateCompletion t true)
        (markIssued r (s.setMemIf {
          tags := s.memIf.tags.set t (.outstanding r s.memExpiry)
          tagQueue := rest })))) ∧
    (s.memIf.tags[t] = .free → exec (.done t status data) s = .next (post none (.lateCompletion t false) s)) ∧
    (EventKind.lateCompletion t true).second = some [1] ∧ (EventKind.lateCompletion t false).second = some [2]

/-! ### Journal port -/

/-- R20, R21: the arbiter's grants, with fewer than 8 operations outstanding: the side that waits alone, or the one not granted
last, whether or not a frame is held behind the command at work. A block transfer to a segment that the service processor does not
own is answered NOT_OWNER, a grant to neither side; FramesCheckedAndHeld says what a frame held behind it does. -/
def Obligations.PortGranted : Prop :=
  ∀ s : State, s.inReset = false → s.holdSettled → s.portStopped = false → s.journal.outstanding.length < 8 →
    (s.service.held = none ∨ s.service.work ≠ none) →
    (∀ (op : PortOp) (rest : List PortOp), s.journal.engineQueue = op :: rest →
      (s.journal.serviceSide = none ∨ s.journal.lastGranted = .service) →
      ∃ p : Fin 8, (∀ o ∈ s.journal.outstanding, o.1 ≠ p) ∧ exec .arbiterGrant s = .next (s.setJournal { s.journal with
        engineQueue := rest, outstanding := s.journal.outstanding ++ [(p, op)], lastGranted := .engine })) ∧
    ∀ (op : PortOp) (seg : Phys), s.journal.serviceSide = some op → op.blockSegment = some seg →
      (s.journal.engineQueue = [] ∨ s.journal.lastGranted = .engine) →
      ((∃ e ∈ s.journal.map, e.physical = some seg ∧ (e.state = .lent ∨ e.state = .refilling)) →
        ∃ p : Fin 8, (∀ o ∈ s.journal.outstanding, o.1 ≠ p) ∧ exec .arbiterGrant s = .next (s.setJournal { s.journal with
          serviceSide := none, outstanding := s.journal.outstanding ++ [(p, op)], lastGranted := .service })) ∧
      ((∀ e ∈ s.journal.map, e.physical = some seg → e.state ≠ .lent ∧ e.state ≠ .refilling) →
        ∀ w : Work, s.service.work = some w → s.service.held = none →
          exec .arbiterGrant s = .next ((s.setJournal { s.journal with serviceSide := none }).setService { s.service with
            work := none
            exchange := if w.attached then .answering ((Answer.refused .notOwner).frame w.exchange)
              else s.service.exchange }))

/-- R15, R22, R44, R46, R50, R57: a record write completes. OK: the record is in its slot, its line is marked, its capture slot is
free for the head of the slot queue, and the write goes to issue. FAULT: JOURNAL_FAULT is posted, the top epoch breaks, no mark is
made, the slot is free, and the write goes to issue. No byte outside the record's 80 changes. R22, R170, R171: one that completes
between CORE_RESET and the journal step does to the journal memory what it does otherwise, and is discarded: no mark, no break, no
event, no slot freed. The last operation outstanding brings the journal step in its own step. -/
def Obligations.RecordWriteCompletes : Prop :=
  (∀ (s : State) (port i : Fin 8) (seg : Phys) (place : Nat) (n : Seq) (q : SegNo) (record : List Byte) (sl : Slot)
    (e : Entry), s.quiet → s.service.coreReset = none →
    s.portOp port = some (.recordWrite i seg place n q record) → s.capture.slots[i] = some sl →
    s.entry sl.entry = some e → Memory.wf s.journal.memory = true →
    (∃ u : State,
      u = (insertMark sl.line (s.setJournal { s.journal with
        outstanding := s.journal.outstanding.filter fun o => decide (o.1 ≠ port)
        memory := Memory.writeBytes s.journal.memory (seg.toNat * 65536 + 80 * place) record })) ∧
      (∀ w x : State, u.slotFreed i w → w.issues e x → exec (.recordWriteCompletion port .ok) s = .next x) ∧
      (∀ a, (a < seg.toNat * 65536 + 80 * place ∨ seg.toNat * 65536 + 80 * place + record.length ≤ a) →
        Memory.read u.journal.memory a = Memory.read s.journal.memory a) ∧
      ∀ k : Fin record.length, Memory.read u.journal.memory (seg.toNat * 65536 + 80 * place + k.val) = record[k]) ∧
    ∃ (v : State) (unknown : List Byte),
      unknown.length = record.length ∧
      v = (s.setJournal { s.journal with
        outstanding := s.journal.outstanding.filter fun o => decide (o.1 ≠ port)
        memory := Memory.writeBytes s.journal.memory (seg.toNat * 65536 + 80 * place) unknown }).setFresh (s.fresh + 1) ∧
      (∀ w x : State, (breakTop .journalFault (post s.topNumber (.journalFault n seg) v)).slotFreed i w → w.issues e x →
        exec (.recordWriteCompletion port .fault) s = .next x) ∧
      ∀ a, (a < seg.toNat * 65536 + 80 * place ∨ seg.toNat * 65536 + 80 * place + record.length ≤ a) →
        Memory.read v.journal.memory a = Memory.read s.journal.memory a) ∧
  ∀ (s : State) (r : CoreReset) (port i : Fin 8) (seg : Phys) (place : Nat) (n : Seq) (q : SegNo) (record : List Byte)
    (others : List (Fin 8 × PortOp)), s.quiet → s.service.coreReset = some r → r.journalDone = false →
    s.portOp port = some (.recordWrite i seg place n q record) → Memory.wf s.journal.memory = true →
    others = s.journal.outstanding.filter (fun o => decide (o.1 ≠ port)) →
    (∃ u : State,
      u = s.setJournal { s.journal with
        outstanding := others
        memory := Memory.writeBytes s.journal.memory (seg.toNat * 65536 + 80 * place) record } ∧
      exec (.recordWriteCompletion port .ok) s = (if others = [] then exec .journalStep u else .next u) ∧
      (∀ a, (a < seg.toNat * 65536 + 80 * place ∨ seg.toNat * 65536 + 80 * place + record.length ≤ a) →
        Memory.read u.journal.memory a = Memory.read s.journal.memory a) ∧
      ∀ k : Fin record.length, Memory.read u.journal.memory (seg.toNat * 65536 + 80 * place + k.val) = record[k]) ∧
    ∃ (v : State) (unknown : List Byte),
      unknown.length = record.length ∧
      v = (s.setJournal { s.journal with
        outstanding := others
        memory := Memory.writeBytes s.journal.memory (seg.toNat * 65536 + 80 * place) unknown }).setFresh (s.fresh + 1) ∧
      exec (.recordWriteCompletion port .fault) s = (if others = [] then exec .journalStep v else .next v) ∧
      ∀ a, (a < seg.toNat * 65536 + 80 * place ∨ seg.toNat * 65536 + 80 * place + record.length ≤ a) →
        Memory.read v.journal.memory a = Memory.read s.journal.memory a

/-- R67, R69, R72, R6: the replay unit's read of the next record, when R67's conditions hold, and the hand-over of the held record's
restore, when R69's hold. Where one of R67's conditions fails (a read is out, a record is held, no record is next, the current entry
is not resident or waits for a block transfer, the rollback has failed, the controller is not in REPLAY, a core reset is under way),
nothing is read; where one of R69's fails (RESTORE_AHEAD restores are out, one of them has the held record's line), or no record is
held, nothing is handed over. A slot above 818 is no place of a segment, so such a read stops. -/
def Obligations.ReplayReadsAndRestores : Prop :=
  ∀ (s : State) (c : ReplayContext), s.inReset = false → s.replay.context = some c →
    (s.service.coreReset = none → c.failure = none →
      (∀ (n : Seq) (k : SegNo) (e : Segment) (p : Phys), s.epochs.controller = .replay → c.next = some n →
        c.current = some k → s.segment k = some e → (e.state = .filling ∨ e.state = .filled) → e.physical = some p →
        c.read = none → c.held = none → s.blockOutstanding p = false →
        ((n - e.first).toNat < 819 →
          exec .recordRead s = .next ((s.setJournal { s.journal with
            engineQueue := s.journal.engineQueue ++ [.recordRead p (n - e.first).toNat n] }).setReplay
              { s.replay with context := some { c with read := some n } })) ∧
        (819 ≤ (n - e.first).toNat → exec .recordRead s = .fault .noRecordSlot)) ∧
      ∀ h : HeldRecord, (s.epochs.controller = .replay ∨ s.epochs.controller = .refillWait) → c.held = some h →
        c.restores.length < s.service.params.restoreAhead → (∀ r ∈ c.restores, r.2 ≠ h.line) →
        ∃ u : State,
          u = s.setReplay { s.replay with
            context := some { c with held := none, restores := c.restores ++ [(h.seq, h.line)] } } ∧
          (∀ t : Fin 64, s.tagReady t → exec .restoreHandover s = .next (u.setMemIf { s.memIf with
            tags := s.memIf.tags.set t (.outstanding (.restore h.seq h.line h.data) s.memExpiry) })) ∧
          (s.tagWait → exec .restoreHandover s = .next (u.setMemIf { s.memIf with
            tagQueue := s.memIf.tagQueue ++ [.restore h.seq h.line h.data] }))) ∧
    ((s.service.coreReset ≠ none ∨ s.epochs.controller ≠ .replay ∨ c.failure ≠ none ∨ c.next = none ∨ c.read ≠ none ∨
        c.held ≠ none ∨
        (∀ k e, c.current = some k → s.segment k = some e → e.state ≠ .filling ∧ e.state ≠ .filled) ∨
        (∃ (k : SegNo) (e : Segment) (p : Phys), c.current = some k ∧ s.segment k = some e ∧ e.physical = some p ∧
          ∃ o ∈ s.journal.outstanding, o.2.blockSegment = some p)) →
      exec .recordRead s = .next s) ∧
    ((s.service.coreReset ≠ none ∨ (s.epochs.controller ≠ .replay ∧ s.epochs.controller ≠ .refillWait) ∨ c.failure ≠ none ∨
        c.held = none ∨ s.service.params.restoreAhead ≤ c.restores.length ∨
        (∃ h, c.held = some h ∧ ∃ r ∈ c.restores, r.2 = h.line)) →
      exec .restoreHandover s = .next s)

/-- R67, R68, R66, R72, R74, R78, R79: a record read completes. A record that passes both checks becomes the held record, and next
moves to the record before it; after the epoch's first it is absent, and with it the current entry, which is the entry that holds next,
and the refill field, which lasts while its entry is current (R65). Where the record before it lies in an older entry, the walk reaches
that entry. A fault or a failed check fails the rollback at the record read; in a refilled entry it keeps the whole entry, which returns
to SPILLED, and the refill field stays until the failure completes. With no restore
out the failure completes in the same step. R22, R83, R171: one that completes between CORE_RESET and the journal step is discarded, and the
last operation outstanding brings the journal step in its own step. R67, R79: one that arrives while a failure is present is discarded
after the read field is cleared, with no check; where no restore and no block transfer to the freed segment is out, the failure
completes in its step. -/
def Obligations.RecordReadCompletes : Prop :=
  (∀ (s : State) (port : Fin 8) (seg : Phys) (place : Nat) (n : Seq) (data : PortData) (record : List Byte)
    (c : ReplayContext) (u : State), s.quiet → s.service.coreReset = none → s.epochs.controller = .replay →
    s.portOp port = some (.recordRead seg place n) → s.replay.context = some c → c.failure = none → c.held = none →
    record = (match data with
      | .asStored => Memory.readBytes s.journal.memory (seg.toNat * 65536 + 80 * place) 80
      | .returned bytes => bytes) →
    record.length = 80 →
    u = s.setJournal { s.journal with outstanding := s.journal.outstanding.filter fun o => decide (o.1 ≠ port) } →
    (checksumPasses record = true → recordSeq record = n → n = c.start →
      exec (.recordReadCompletion port .ok data) s = .next (u.setReplay { s.replay with context := some { c with
        read := none, next := none, current := none, refill := none
        held := some ⟨n, recordLine record, recordData record⟩ } })) ∧
    (∀ e, checksumPasses record = true → recordSeq record = n → n ≠ c.start → s.segmentOf (n - 1) = some e →
      c.current = some e.q →
      exec (.recordReadCompletion port .ok data) s = .next (u.setReplay { s.replay with context := some { c with
        read := none, next := some (n - 1), held := some ⟨n, recordLine record, recordData record⟩ } })) ∧
    (∀ (e : Segment) (w : State), checksumPasses record = true → recordSeq record = n → n ≠ c.start →
      s.segmentOf (n - 1) = some e → c.current ≠ some e.q →
      (∀ p free, e.state = .spilled → s.journal.free = p :: free → s.autoKept free.length) →
      u.reaches { c with
        read := none, next := some (n - 1), held := some ⟨n, recordLine record, recordData record⟩ } e w →
      exec (.recordReadCompletion port .ok data) s = .next w) ∧
    ∀ (status : Status) (reason : FailReason),
      ((status = .fault ∧ reason = .journalReadFault) ∨
        (status = .ok ∧ checksumPasses record = false ∧ reason = .checksum) ∨
        (status = .ok ∧ checksumPasses record = true ∧ recordSeq record ≠ n ∧ reason = .sequence)) →
      (∀ w : State, c.refill = none →
        w = u.setReplay {
          context := some { c with read := none, failure := some { reason := reason, kept := n, freed := none } }
          refillTimer := none } →
        exec (.recordReadCompletion port status data) s = if c.restores = [] then exec .rollbackFailed w else .next w) ∧
      ∀ (r : Refill) (e : Segment) (p : Phys) (w : State), c.refill = some r → r.refilled = true → c.current = some r.q →
        s.segment r.q = some e → e.physical = some p → s.journal.waiting = [] → s.autoKept (s.journal.free.length + 1) →
        w = u.fails { c with read := none } reason (e.first + BitVec.ofNat 32 e.count - 1) (some e) →
        exec (.recordReadCompletion port status data) s =
          if c.restores = [] ∧ u.blockOutstanding p = false then exec .rollbackFailed w else .next w) ∧
  (∀ (s : State) (r : CoreReset) (port : Fin 8) (seg : Phys) (place : Nat) (n : Seq) (status : Status) (data : PortData)
    (u : State), s.quiet → s.service.coreReset = some r → r.journalDone = false →
    s.portOp port = some (.recordRead seg place n) → (∀ bytes, data = .returned bytes → bytes.length = 80) →
    u = s.setJournal { s.journal with outstanding := s.journal.outstanding.filter fun o => decide (o.1 ≠ port) } →
    exec (.recordReadCompletion port status data) s =
      if u.journal.outstanding = [] then exec .journalStep u else .next u) ∧
  ∀ (s : State) (port : Fin 8) (seg : Phys) (place : Nat) (n : Seq) (status : Status) (data : PortData)
    (c : ReplayContext) (f : Failure) (u : State), s.quiet → s.service.coreReset = none →
    (s.epochs.controller = .replay ∨ s.epochs.controller = .refillWait) →
    s.portOp port = some (.recordRead seg place n) → (∀ bytes, data = .returned bytes → bytes.length = 80) →
    s.replay.context = some c → c.failure = some f →
    u = (s.setJournal { s.journal with outstanding := s.journal.outstanding.filter fun o => decide (o.1 ≠ port) }).setReplay
      { s.replay with context := some { c with read := none } } →
    (c.restores = [] → (∀ p, f.freed = some p → u.blockOutstanding p = false) →
      exec (.recordReadCompletion port status data) s = exec .rollbackFailed u) ∧
    ((c.restores ≠ [] ∨ ∃ p, f.freed = some p ∧ u.blockOutstanding p = true) →
      exec (.recordReadCompletion port status data) s = .next u)

/-- R88, R89, R96, R157: a granted block transfer completes and its exchange is answered, or, where SSN has closed it, no response is
sent. A write that completes OK leaves the 256 bytes in the block, and no byte outside the block changes. R29, R79: a depth-1 COMMIT
drain, or a rollback failure, that waited for the transfer completes in the same step. FramesCheckedAndHeld says what a frame held
behind the transfer does. -/
def Obligations.BlockTransferCompletes : Prop :=
  ∀ (s : State) (port : Fin 8) (seg block : Byte) (w : Work) (u : State), s.quiet → s.portStopped = false →
    s.service.held = none → s.service.work = some w → Memory.wf s.journal.memory = true →
    u = s.setJournal { s.journal with outstanding := s.journal.outstanding.filter fun o => decide (o.1 ≠ port) } →
    (∀ (data : PortData) (bytes : List Byte), s.portOp port = some (.blockRead seg block) →
      bytes = (match data with
        | .asStored => Memory.readBytes s.journal.memory (seg.toNat * 65536 + 256 * block.toNat) 256
        | .returned bs => bs) →
      bytes.length = 256 →
      s.transferEnds (.blockReadCompletion port .ok data) w (.done (1 :: bytes)) u ∧
      s.transferEnds (.blockReadCompletion port .fault data) w (.done [2]) u) ∧
    ∀ data : List Byte, s.portOp port = some (.blockWrite seg block data) →
      (∃ v : State,
        v = u.setJournal { u.journal with
          memory := Memory.writeBytes s.journal.memory (seg.toNat * 65536 + 256 * block.toNat) data } ∧
        s.transferEnds (.blockWriteCompletion port .ok) w (.done [1]) v ∧
        (∀ a, (a < seg.toNat * 65536 + 256 * block.toNat ∨ seg.toNat * 65536 + 256 * block.toNat + data.length ≤ a) →
          Memory.read v.journal.memory a = Memory.read s.journal.memory a) ∧
        ∀ k : Fin data.length, Memory.read v.journal.memory (seg.toNat * 65536 + 256 * block.toNat + k.val) = data[k]) ∧
      ∃ (v : State) (unknown : List Byte), unknown.length = data.length ∧
        v = (u.setJournal { u.journal with
          memory := Memory.writeBytes s.journal.memory (seg.toNat * 65536 + 256 * block.toNat) unknown }).setFresh
            (s.fresh + 1) ∧
        s.transferEnds (.blockWriteCompletion port .fault) w (.done [2]) v ∧
        ∀ a, (a < seg.toNat * 65536 + 256 * block.toNat ∨ seg.toNat * 65536 + 256 * block.toNat + data.length ≤ a) →
          Memory.read v.journal.memory a = Memory.read s.journal.memory a

/-- R22: a completion that matches no operation is discarded. The other rows stand for what the chip does by itself; where that
is not due, they change nothing (the model's choice, log 6). -/
def Obligations.RowsWithoutTheirEvent : Prop :=
  ∀ s : State,
    (∀ (port : Fin 8) (status : Status), exec (.unmatchedJournalCompletion port status) s = .next s) ∧
    (s.quiet →
      (s.host.sendQueue = [] → exec .messageSent s = .next s) ∧
      (∀ t : Fin 64, (s.memIf.tags[t] = .free ∨ s.memIf.tags[t] = .quarantined) →
        exec (.memoryTimeoutExpiry t) s = .next s) ∧
      (s.journal.engineQueue = [] → s.journal.serviceSide = none → exec .arbiterGrant s = .next s) ∧
      (s.replay.context = none → exec .recordRead s = .next s ∧ exec .restoreHandover s = .next s) ∧
      exec .refillRequest s = .next s ∧ exec .rollbackDone s = .next s ∧ exec .rollbackFailed s = .next s ∧
      exec .checkpointDrainComplete s = .next s ∧ exec .commitDrainComplete s = .next s ∧
      exec .rollbackDrainComplete s = .next s ∧ exec .journalStep s = .next s ∧ exec .coreResetEnd s = .next s ∧
      (s.epochs.controller ≠ .refillWait → exec .refillTimerExpiry s = .next s) ∧
      (∀ id : HostId, (∀ w ∈ s.space.fullWaits, w.1 ≠ id) → exec (.fullWaitExpiry id) s = .next s) ∧
      (s.space.refreshTimer = none → exec .refreshTimerExpiry s = .next s))

/-! ### Rollback and epochs -/

/-- R74: the refill of a SPILLED entry that waits takes the head of the free list, the entry becomes REFILLING, and REFILL_REQUEST
is posted. -/
def Obligations.RefillTakesSegment : Prop :=
  ∀ (s : State) (c : ReplayContext) (r : Refill) (p : Phys) (free : List Phys) (e : Segment), s.inReset = false →
    s.holdSettled → s.service.coreReset = none → s.epochs.controller = .refillWait → s.replay.context = some c →
    c.failure = none → c.refill = some r → r.physical = none → s.journal.free = p :: free → s.segment r.q = some e →
    e.state = .spilled → s.autoKept free.length →
    exec .refillRequest s = .next (post (some c.epoch) (.refillRequest e.q e.first p e.count)
      ((s.setJournal { s.journal with
        free := free
        map := s.journal.map.map fun x => if x.q = r.q then { x with state := .refilling, physical := some p } else x
        }).setReplay { s.replay with context := some { c with refill := some { r with physical := some p } } }))

/-- R76, R78, R79: the refill timer expires (the timebase runs to its expiry, log 3). The rollback fails with REFILL_TIMEOUT at
the last record of the entry, or at the held record where that is newer. The entry is refilled no longer, and the refill field
becomes absent in this step (the model's reading, log 34); an entry in REFILLING returns to SPILLED and its segment to the free list tail. With no restore out the
failure completes in the same step. -/
def Obligations.RefillTimerExpires : Prop :=
  ∀ (s : State) (c : ReplayContext) (r : Refill) (x : Tick) (e : Segment) (kept : Seq) (w : State), s.quiet →
    s.service.coreReset = none → s.epochs.controller = .refillWait → s.replay.context = some c → c.failure = none →
    s.replay.refillTimer = some x → c.refill = some r → s.segment r.q = some e →
    kept = (match c.held with
      | none => e.first + BitVec.ofNat 32 e.count - 1
      | some h => if seqNewer h.seq (e.first + BitVec.ofNat 32 e.count - 1) then h.seq
        else e.first + BitVec.ofNat 32 e.count - 1) →
    (e.state = .spilled →
      w = (advanceTo x s).setReplay {
        context := some { c with
          held := none, refill := c.refill.filter (·.refilled)
          failure := some { reason := .refillTimeout, kept := kept, freed := none } }
        refillTimer := none } →
      exec .refillTimerExpiry s = if c.restores = [] ∧ c.read = none then exec .rollbackFailed w else .next w) ∧
    (∀ p : Phys, e.state = .refilling → e.physical = some p → s.journal.waiting = [] →
      s.autoKept (s.journal.free.length + 1) →
      w = ((advanceTo x s).setReplay {
        context := some { c with
          held := none, refill := c.refill.filter (·.refilled)
          failure := some { reason := .refillTimeout, kept := kept, freed := some p } }
        refillTimer := none }).setJournal { s.journal with
          free := s.journal.free ++ [p]
          map := s.journal.map.map fun y => if y.q = e.q then { y with state := .spilled, physical := none } else y } →
      exec .refillTimerExpiry s =
        if c.restores = [] ∧ c.read = none ∧ s.blockOutstanding p = false then exec .rollbackFailed w else .next w)

/-- R77, R16, R28: a rollback succeeds. The journal is cut at the epoch's start: the entries from there on go, and the one that
contains the record before it ends there, FILLING if it was FILLING or FILLED, in its state otherwise. The epoch is popped,
ROLLBACK_DONE is posted, and every PARKED entry is released. -/
def Obligations.RollbackSucceeds : Prop :=
  ∀ (s : State) (c : ReplayContext) (top : Epoch) (rest : List Epoch) (cut : Segment → Segment) (u : State),
    s.inReset = false → s.holdSettled → s.service.coreReset = none → s.epochs.controller = .replay →
    s.replay.context = some c → c.failure = none → c.next = none → c.held = none → c.read = none →
    c.restores = [] → s.epochs.stack = top :: rest → s.journal.waiting = [] →
    (∀ e, cut e = if (c.start - 1 - e.first).toNat < e.count then
        { e with
          count := (c.start - e.first).toNat
          state := if e.state = .filling ∨ e.state = .filled then .filling else e.state }
      else e) →
    u = ((s.setJournal { s.journal with
      map := (s.journal.map.filter fun e => !seqGe e.first c.start).map cut
      free := s.journal.free ++ (s.journal.map.filter fun e => seqGe e.first c.start).filterMap (·.physical)
      nextSeq := c.start }).setEpochs { s.epochs with stack := rest, controller := .idle, command := none }).setReplay
        { s.replay with context := none } →
    s.autoKept u.journal.free.length →
    exec .rollbackDone s = .next (releaseParked (post (some c.epoch) (.rollbackDone c.replayed rest.length) u)) ∧
      ∀ x ∈ (releaseParked (post (some c.epoch) (.rollbackDone c.replayed rest.length) u)).host.table, x.state ≠ .parked

/-- R79, R16: a failure completes once no read, no restore and no block transfer to the freed segment is outstanding. The
journal keeps what is older than or at the kept point: the entry that contains the kept point ends there, FILLING if it was FILLING
or FILLED, in its state otherwise. The controller is STOPPED, and ROLLBACK_FAILED is posted. -/
def Obligations.RollbackFails : Prop :=
  ∀ (s : State) (c : ReplayContext) (f : Failure) (top : Epoch) (rest : List Epoch) (cut : Segment → Segment) (u : State),
    s.inReset = false → s.holdSettled → s.service.coreReset = none →
    (s.epochs.controller = .replay ∨ s.epochs.controller = .refillWait) → s.replay.context = some c →
    c.failure = some f → c.read = none → c.restores = [] → (∀ p, f.freed = some p → s.blockOutstanding p = false) →
    s.epochs.stack = top :: rest → s.journal.waiting = [] →
    (∀ e, cut e = if (f.kept - e.first).toNat < e.count then
        { e with
          count := (f.kept + 1 - e.first).toNat
          state := if e.state = .filling ∨ e.state = .filled then .filling else e.state }
      else e) →
    u = ((s.setJournal { s.journal with
      map := (s.journal.map.filter fun e => !seqGe e.first (f.kept + 1)).map cut
      free := s.journal.free ++ (s.journal.map.filter fun e => seqGe e.first (f.kept + 1)).filterMap (·.physical)
      nextSeq := f.kept + 1 }).setEpochs { s.epochs with
        stack := { top with records := (f.kept + 1 - top.start).toNat } :: rest
        controller := .stopped
        command := none }).setReplay { s.replay with context := some { c with
          next := none, current := none, held := none, refill := none, failure := none } } →
    s.autoKept u.journal.free.length →
    exec .rollbackFailed s = .next (post (some c.epoch) (.rollbackFailed f.reason (some f.kept)) u)

/-- R32, R24, R28: a CHECKPOINT takes effect when its drain completes. The number is the first from NEXT_EPOCH on, 65535 being
followed by 1, that no epoch on the stack holds. -/
def Obligations.CheckpointTakesEffect : Prop :=
  ∀ s : State, s.inReset = false → s.epochs.command = some .checkpoint → s.drainComplete = true → s.epochs.valid →
    ∃ (following : EpochNo → EpochNo) (k : Nat) (n : EpochNo) (u : State),
      (∀ m, following m = if m.toNat = 65535 then 1 else m + 1) ∧
      (k ≤ 8 ∧ n = following^[k] s.epochs.nextEpoch ∧ (∀ e ∈ s.epochs.stack, e.number ≠ n) ∧
        ∀ j, j < k → ∃ e ∈ s.epochs.stack, e.number = following^[j] s.epochs.nextEpoch) ∧
      u = (s.setEpochs {
        stack := { number := n, start := s.journal.nextSeq, broken := none, records := 0 } :: s.epochs.stack
        nextEpoch := following n
        controller := .idle
        command := none }).setCapture { s.capture with marks := [] } ∧
      exec .checkpointDrainComplete s =
        .next (releaseParked (post (some n) (.epochOpened (s.epochs.stack.length + 1) s.journal.nextSeq) u)) ∧
      ∀ x ∈ (releaseParked (post (some n) (.epochOpened (s.epochs.stack.length + 1) s.journal.nextSeq) u)).host.table,
        x.state ≠ .parked

/-- R34, R35, R18, R28: a COMMIT takes effect when its drain completes: a merge into the parent at depth 2 or more, the journal
discard at depth 1. -/
def Obligations.CommitTakesEffect : Prop :=
  ∀ s : State, s.inReset = false → s.epochs.command = some .commit → s.drainComplete = true → s.holdSettled →
    (∀ (child parent : Epoch) (rest : List Epoch), s.epochs.stack = child :: parent :: rest →
      ∃ (inherits : Bool) (u : State), inherits = (child.broken.isSome && parent.broken.isNone) ∧
        u = s.setEpochs { s.epochs with
          stack := { parent with
            records := parent.records + child.records
            broken := if inherits then some .inherited else parent.broken } :: rest
          controller := .idle
          command := none } ∧
        exec .commitDrainComplete s = .next (releaseParked
          (if inherits then
            post (some parent.number) (.epochBroken .inherited (rest.length + 1))
              (post (some child.number) (.epochCommitted child.records (rest.length + 1)) u)
          else post (some child.number) (.epochCommitted child.records (rest.length + 1)) u))) ∧
    (∀ (e : Epoch) (u : State), s.epochs.stack = [e] → s.journal.waiting = [] →
      u = ((s.setEpochs { s.epochs with stack := [], controller := .idle, command := none }).setJournal { s.journal with
        map := [], free := s.journal.free ++ s.journal.map.filterMap (·.physical) }).setCapture
          { s.capture with marks := [] } →
      s.autoKept u.journal.free.length →
      (s.journal.map = [] → exec .commitDrainComplete s =
        .next (releaseParked (post (some e.number) (.epochCommitted e.records 0) u))) ∧
      ∀ a b, s.journal.map.head? = some a → s.journal.map.getLast? = some b →
        exec .commitDrainComplete s = .next (releaseParked (post (some e.number) (.epochCommitted e.records 0)
          (post (some e.number) (.segmentsDiscarded a.q b.q) u)))) ∧
    ∀ t, exec .commitDrainComplete s = .next t → ∀ x ∈ t.host.table, x.state ≠ .parked

/-- R64, R65, R66, R72, R74, R77, R81: the walk starts and reaches the newest map entry: when the drain completes on an OPEN top
epoch, and when ROLLBACK is taken in STOPPED, where replayed is kept. An epoch without records is rolled back at once. A BROKEN top
epoch cancels the rollback instead. -/
def Obligations.WalkStarts : Prop :=
  ∀ (s : State) (e : Epoch) (rest : List Epoch), s.epochs.stack = e :: rest → s.service.coreReset = none → s.holdSettled →
    (∀ (g : Segment) (c : BitVec 32 → ReplayContext) (base : State), e.broken = none → s.journal.nextSeq ≠ e.start →
      s.journal.map.getLast? = some g →
      (∀ p free, g.state = .spilled → s.journal.free = p :: free → s.autoKept free.length) →
      (∀ replayed, c replayed = {
        epoch := e.number, start := e.start, next := some (s.journal.nextSeq - 1), current := none, read := none,
        held := none, restores := [], refill := none, replayed := replayed, failure := none }) →
      base = (s.setEpochs { s.epochs with controller := .replay, command := none }).setCapture
        { s.capture with marks := [] } →
      (∀ w : State, s.inReset = false → s.epochs.command = some .rollback → s.drainComplete = true →
        base.reaches (c 0) g w → exec .rollbackDrainComplete s = .next w) ∧
      ∀ (f : Frame) (c' : ReplayContext) (w : State), s.takes 0x33 f → s.epochs.controller = .stopped →
        s.replay.context = some c' → base.reaches (c c'.replayed) g w →
        exec (.rollback f) s = .next (w.answers f .started)) ∧
    (e.broken = none → s.journal.nextSeq = e.start → s.inReset = false → s.epochs.command = some .rollback →
      s.drainComplete = true →
      exec .rollbackDrainComplete s =
        exec .rollbackDone (((s.setEpochs { s.epochs with controller := .replay, command := none }).setCapture
          { s.capture with marks := [] }).setReplay { s.replay with
            context := some {
              epoch := e.number, start := e.start, next := none, current := none, read := none, held := none,
              restores := [], refill := none, replayed := 0, failure := none } })) ∧
    (e.broken ≠ none → s.inReset = false → s.epochs.command = some .rollback → s.drainComplete = true →
      exec .rollbackDrainComplete s = .next (post (some e.number) (.rollbackFailed .unrecoverable none)
        (releaseParked (s.setEpochs { s.epochs with controller := .idle, command := none }))) ∧
      ∀ x ∈ (releaseParked (s.setEpochs { s.epochs with controller := .idle, command := none })).host.table,
        x.state ≠ .parked)

/-! ### Space and the hold -/

/-- R110, R111, R36: a full-wait timer expires in SPACE_WAIT: a break request with reason FULL. On an OPEN top epoch every wait
for space ends: no request waits, no timer runs, and no entry is left in SPACE_WAIT. -/
def Obligations.FullWaitExpires : Prop :=
  ∀ (s : State) (id : HostId) (x : Tick), s.inReset = false → s.space.fullWaits.find? (fun w => decide (w.1 = id)) = some (id, x) →
    exec (.fullWaitExpiry id) s = .next (breakTop .full ((advanceTo x s).setSpace { s.space with
      fullWaits := s.space.fullWaits.filter fun w => decide (w.1 ≠ id) })) ∧
    ∀ (e : Epoch) (rest : List Epoch), s.epochs.stack = e :: rest → e.broken = none →
      ∃ t, exec (.fullWaitExpiry id) s = .next t ∧
        t.epochs.stack = { e with broken := some .full } :: rest ∧ t.journal.waiting = [] ∧ t.space.fullWaits = [] ∧
        (∀ y ∈ t.host.table, y.state ≠ .spaceWait) ∧
        t.service = (post (some e.number) (.epochBroken .full s.depth) (advanceTo x s)).service

/-- R105, R106, R107, R108: HOLD_SET and HOLD_CLEAR, with the notice, the refresh timer and HOLD_CHANGED when the hold comes
into force or leaves it, and the refresh timer's expiry (the timebase runs to it, log 3). -/
def Obligations.ManualHold : Prop :=
  (∀ (s : State) (f : Frame), s.takes 0x40 f → s.holdSettled →
    (s.holdInForce = true →
      exec (.holdSet f) s = .next ((s.setSpace { s.space with manual := true }).answers f (.done []))) ∧
    (s.holdInForce = false →
      exec (.holdSet f) s = .next (post s.topNumber (.holdChanged true s.journal.free.length)
        (((s.answers f (.done [])).setHost { s.host with
          holdTold := true, sendQueue := s.host.sendQueue ++ [.hold s.service.params.holdTime] }).setSpace { s.space with
            manual := true
            refreshTimer := some (s.timebase + BitVec.ofNat 32 (s.service.params.holdTime / 2)) })))) ∧
  (∀ (s : State) (f : Frame), s.takes 0x41 f → s.holdSettled →
    ((s.space.auto = true ∨ s.space.manual = false) →
      exec (.holdClear f) s = .next ((s.setSpace { s.space with manual := false }).answers f (.done []))) ∧
    (s.space.auto = false → s.space.manual = true →
      exec (.holdClear f) s = .next (post s.topNumber (.holdChanged false s.journal.free.length)
        (((s.answers f (.done [])).setHost { s.host with
          holdTold := false, sendQueue := s.host.sendQueue ++ [.hold 0] }).setSpace { s.space with
            manual := false, refreshTimer := none })))) ∧
  ∀ (s : State) (x : Tick) (u : State), s.inReset = false → s.space.refreshTimer = some x → s.holdInForce = true →
    u = advanceTo x s →
    exec .refreshTimerExpiry s = .next ((u.setHost { s.host with
      sendQueue := s.host.sendQueue ++ [.hold s.service.params.holdTime] }).setSpace { s.space with
        refreshTimer := some (u.timebase + BitVec.ofNat 32 (s.service.params.holdTime / 2)) })

/-- R8, R103, R104, R106, R162: the writes of the thresholds and of NSEG. An accepted one re-applies R103 to the free count, and
a hold that comes into force or leaves it is announced as ManualHold says. -/
def Obligations.ThresholdAndNsegWrites : Prop :=
  ∀ (s : State) (f : Frame) (v : Nat), s.takes 0x11 f → s.holdSettled → leValue (f.payload.drop 1) = v →
    (f.payload.take 1 = [6] →
      ((255 < v ∨ s.service.params.holdOffFree ≤ v) →
        exec (.paramWriteHoldOnFree f) s = .next (s.answers f (.refused .badValue))) ∧
      (v ≤ 255 → v < s.service.params.holdOffFree →
        ∀ (auto' : Bool) (u : State),
          auto' = (if s.journal.free.length ≤ v then true
            else if s.service.params.holdOffFree ≤ s.journal.free.length then false else s.space.auto) →
          u = ((setParams { s.service.params with holdOnFree := v } s).answers f (.done [])).setSpace
            { s.space with auto := auto' } →
          (s.host.holdTold = (auto' || s.space.manual) → exec (.paramWriteHoldOnFree f) s = .next u) ∧
          (s.host.holdTold = false → (auto' || s.space.manual) = true →
            exec (.paramWriteHoldOnFree f) s = .next (holdComes u)) ∧
          (s.host.holdTold = true → (auto' || s.space.manual) = false →
            exec (.paramWriteHoldOnFree f) s = .next (holdLeaves u)))) ∧
    (f.payload.take 1 = [7] →
      ((v < 1 ∨ 256 < v ∨ v ≤ s.service.params.holdOnFree ∨ s.service.params.nseg < v) →
        exec (.paramWriteHoldOffFree f) s = .next (s.answers f (.refused .badValue))) ∧
      (1 ≤ v → v ≤ 256 → s.service.params.holdOnFree < v → v ≤ s.service.params.nseg →
        ∀ (auto' : Bool) (u : State),
          auto' = (if s.journal.free.length ≤ s.service.params.holdOnFree then true
            else if v ≤ s.journal.free.length then false else s.space.auto) →
          u = ((setParams { s.service.params with holdOffFree := v } s).answers f (.done [])).setSpace
            { s.space with auto := auto' } →
          (s.host.holdTold = (auto' || s.space.manual) → exec (.paramWriteHoldOffFree f) s = .next u) ∧
          (s.host.holdTold = false → (auto' || s.space.manual) = true →
            exec (.paramWriteHoldOffFree f) s = .next (holdComes u)) ∧
          (s.host.holdTold = true → (auto' || s.space.manual) = false →
            exec (.paramWriteHoldOffFree f) s = .next (holdLeaves u)))) ∧
    (f.payload.take 1 = [2] →
      (s.service.mode = .active → exec (.paramWriteNseg f) s = .next (s.answers f (.refused .locked))) ∧
      (s.service.mode = .bypass → (v < 16 ∨ 256 < v ∨ v < s.service.params.holdOffFree) →
        exec (.paramWriteNseg f) s = .next (s.answers f (.refused .badValue))) ∧
      (s.service.mode = .bypass → 16 ≤ v → v ≤ 256 → s.service.params.holdOffFree ≤ v →
        s.service.params.holdOnFree < s.service.params.holdOffFree →
        ∀ u : State,
          u = (((setParams { s.service.params with nseg := v } s).answers f (.done [])).setJournal { s.journal with
            free := (List.range v).map (BitVec.ofNat 8) }).setSpace { s.space with auto := false } →
          (s.host.holdTold = s.space.manual → exec (.paramWriteNseg f) s = .next u) ∧
          (s.host.holdTold = true → s.space.manual = false → exec (.paramWriteNseg f) s = .next (holdLeaves u))))

/-! ### Service link -/

/-- R141, R148, R110, R108, R84, R162: the other parameter writes: the lock of DEFAULT_ACTION, each range, and an identifier that
names no parameter. -/
def Obligations.ParameterWrites : Prop :=
  ∀ (s : State) (f : Frame) (v : Nat), s.takes 0x11 f → s.holdSettled → leValue (f.payload.drop 1) = v →
    (f.payload.take 1 = [1] →
      (s.depth ≠ 0 → exec (.paramWriteDefaultAction f) s = .next (s.answers f (.refused .locked))) ∧
      (s.depth = 0 → v = 1 → exec (.paramWriteDefaultAction f) s = .next
        ((setParams { s.service.params with defaultAction := .pass } s).answers f (.done []))) ∧
      (s.depth = 0 → v = 2 → exec (.paramWriteDefaultAction f) s = .next
        ((setParams { s.service.params with defaultAction := .deny } s).answers f (.done []))) ∧
      (s.depth = 0 → v ≠ 1 → v ≠ 2 →
        exec (.paramWriteDefaultAction f) s = .next (s.answers f (.refused .badValue)))) ∧
    (f.payload.take 1 = [3] →
      exec (.paramWriteMemTimeout f) s = .next (if 1 ≤ v ∧ v ≤ 65535 then
        (setParams { s.service.params with memTimeout := v } s).answers f (.done [])
      else s.answers f (.refused .badValue))) ∧
    (f.payload.take 1 = [4] →
      exec (.paramWriteFullWait f) s = .next (if v ≤ 65535 then
        (setParams { s.service.params with fullWait := v } s).answers f (.done [])
      else s.answers f (.refused .badValue))) ∧
    (f.payload.take 1 = [5] →
      exec (.paramWriteHoldTime f) s = .next (if 2 ≤ v ∧ v ≤ 65535 then
        (setParams { s.service.params with holdTime := v } s).answers f (.done [])
      else s.answers f (.refused .badValue))) ∧
    (f.payload.take 1 = [8] →
      exec (.paramWriteRefillWait f) s = .next (if 1 ≤ v ∧ v ≤ 65535 then
        (setParams { s.service.params with refillWait := v } s).answers f (.done [])
      else s.answers f (.refused .badValue))) ∧
    (f.payload.take 1 = [9] →
      exec (.paramWriteRestoreAhead f) s = .next (if 1 ≤ v ∧ v ≤ 4 then
        (setParams { s.service.params with restoreAhead := v } s).answers f (.done [])
      else s.answers f (.refused .badValue))) ∧
    ((leValue (f.payload.take 1) = 0 ∨ 9 < leValue (f.payload.take 1)) →
      ∀ c ∈ [Instr.paramWriteDefaultAction f, .paramWriteNseg f, .paramWriteMemTimeout f, .paramWriteFullWait f,
          .paramWriteHoldTime f, .paramWriteHoldOnFree f, .paramWriteHoldOffFree f, .paramWriteRefillWait f,
          .paramWriteRestoreAhead f],
        exec c s = .next (s.answers f (.refused .badValue)))

/-- R161, R163, R176: PARAM_READ and STATUS_READ are answered with the values as they stand, and change nothing else. An absent
command is 0 (R176); the four zero bytes of the top epoch at depth 0 are the model's reading of R176 (log 28). -/
def Obligations.StatusAndParametersRead : Prop :=
  (∀ (s : State) (f : Frame), s.takes 0x10 f →
    (∀ code value : Nat, (code, value) ∈
        [(1, if s.service.params.defaultAction = .pass then 1 else 2), (2, s.service.params.nseg),
          (3, s.service.params.memTimeout), (4, s.service.params.fullWait), (5, s.service.params.holdTime),
          (6, s.service.params.holdOnFree), (7, s.service.params.holdOffFree), (8, s.service.params.refillWait),
          (9, s.service.params.restoreAhead)] →
      leValue f.payload = code → s.service.params.valid →
      exec (.paramRead f) s = .next (s.answers f (.done (leBytes 4 value)))) ∧
    ((leValue f.payload = 0 ∨ 9 < leValue f.payload) →
      exec (.paramRead f) s = .next (s.answers f (.refused .badValue)))) ∧
  ∀ (s : State) (f : Frame), s.takes 0x12 f →
    ∃ top : List Byte,
      top = (match s.epochs.stack with
        | [] => [0, 0, 0, 0]
        | e :: _ => leBytes 2 e.number.toNat ++ (match e.broken with
            | none => [1, 0]
            | some .full => [2, 1]
            | some .journalFault => [2, 2]
            | some .abandoned => [2, 3]
            | some .inherited => [2, 4])) ∧
      exec (.statusRead f) s = .next (s.answers f (.done (
        leBytes 1 (if s.service.mode = .bypass then 1 else 2) ++
        leBytes 1 (match s.epochs.controller with
          | .idle => 1
          | .draining => 2
          | .replay => 3
          | .refillWait => 4
          | .stopped => 5) ++
        leBytes 1 (match s.epochs.command with
          | none => 0
          | some .checkpoint => 1
          | some .commit => 2
          | some .rollback => 3) ++
        leBytes 1 s.epochs.stack.length ++ top ++ leBytes 4 s.journal.nextSeq.toNat ++ leBytes 2 s.journal.free.length ++
        leBytes 2 s.journal.map.length ++ leBytes 1 (if s.space.auto then 1 else 0) ++
        leBytes 1 (if s.space.manual then 1 else 0) ++
        leBytes 1 s.service.events.length ++ leBytes 1 s.host.table.length ++ leBytes 1 s.quarantineCount ++
        leBytes 4 s.capture.markSpills.toNat)))

/-- R55, R140, R98, R176: MARK_QUERY, WINDOW_READ and SEG_QUERY are answered from the tables as they stand, and change nothing
else. The codes MARKED 1 and NOT_MARKED 2 and the settled flag's 0 where it is absent are the model's reading of R176
(log 28). -/
def Obligations.TablesQueried : Prop :=
  (∀ (s : State) (f : Frame) (l : Line), s.takes 0x34 f →
    (2 ^ 30 ≤ leValue f.payload → exec (.markQuery f) s = .next (s.answers f (.refused .badValue))) ∧
    (leValue f.payload = l.toNat → exec (.markQuery f) s = .next (s.answers f (.done (
      leBytes 1 (if l ∈ s.capture.marks then 1 else 2) ++ leBytes 2 (setIndex l).toNat ++
      leBytes 1 (s.capture.marks.filter fun m => setIndex m == setIndex l).length))))) ∧
  (∀ (s : State) (f : Frame), s.takes 0x21 f →
    (16 ≤ leValue f.payload → exec (.windowRead f) s = .next (s.answers f (.refused .badValue))) ∧
    ∀ i : Fin 16, leValue f.payload = i.val → exec (.windowRead f) s = .next (s.answers f (.done (
      leBytes 1 (if s.windows[i].valid then 1 else 0) ++ leBytes 4 s.windows[i].base.toNat ++ leBytes 4 s.windows[i].limit.toNat ++
      leBytes 1 s.windows[i].masters.toNat ++
      leBytes 1 (match s.windows[i].action with
        | .pass => 1
        | .journal => 2
        | .guard => 3
        | .deny => 4) ++ leBytes 4 s.windows[i].hits.toNat)))) ∧
  ∀ (s : State) (f : Frame), s.takes 0x54 f →
    (1023 < leValue f.payload → exec (.segQuery f) s = .next (s.answers f (.refused .badValue))) ∧
    (leValue f.payload ≤ 1023 → s.journal.map.length ≤ leValue f.payload →
      exec (.segQuery f) s = .next (s.answers f (.done (leBytes 2 s.journal.map.length ++ [0])))) ∧
    ∀ e : Segment, leValue f.payload ≤ 1023 → s.journal.map[leValue f.payload]? = some e →
      exec (.segQuery f) s = .next (s.answers f (.done (
        leBytes 2 s.journal.map.length ++ leBytes 4 e.q.toNat ++
        leBytes 1 (match e.state with
          | .filling => 1
          | .filled => 2
          | .lent => 3
          | .spilled => 4
          | .refilling => 5) ++
        (match e.physical with
          | none => [0, 0]
          | some p => [1, p]) ++
        leBytes 4 e.first.toNat ++ leBytes 2 e.count ++
        leBytes 1 (match e.state with
          | .filling => 1
          | .filled => 1
          | .lent => 2
          | .spilled => 0
          | .refilling => 2) ++
        leBytes 1 (if e.state = .filled ∧ s.settled e = true then 1 else 0))))

/-- R166, R176: EVENT_POP answers the oldest record, which leaves the queue; EVENTS_LOST takes its place at the tail when records
were dropped. With no record it is refused EMPTY. The 26 bytes of the answer: the kind, the timestamp, the epoch, two argument
slots of a presence byte and 8 bytes, and the number of records left; the codes and zero bytes that R176 does not spell are the
model's reading of it (log 28), and the code of UNRECOVERABLE is a free value (log 11). -/
def Obligations.EventPopped : Prop :=
  (∀ (s : State) (f : Frame), s.takes 0x13 f →
    (s.service.events = [] → exec (.eventPop f) s = .next (s.answers f (.refused .empty))) ∧
    ∀ (e : Event) (rest : List Event), s.service.events = e :: rest →
      (s.service.dropped = 0 →
        exec (.eventPop f) s = .next ((s.setService { s.service with events := rest }).answers f
          (.done (e.payload rest.length)))) ∧
      (s.service.dropped ≠ 0 →
        exec (.eventPop f) s = .next ((s.setService { s.service with
          dropped := 0
          events := rest ++ [{ kind := .eventsLost s.service.dropped, time := s.timebase, epoch := none }] }).answers f
            (.done (e.payload (rest.length + 1)))))) ∧
  ∀ (e : Event) (left : Nat), ∃ (kind : Nat) (first second : Option (List Byte)) (slot : Option (List Byte) → List Byte),
    slot none = [0, 0, 0, 0, 0, 0, 0, 0, 0] ∧ (∀ bytes, slot (some bytes) = 1 :: (bytes ++ List.replicate 8 0).take 8) ∧
    e.payload left = leBytes 1 kind ++ leBytes 4 e.time.toNat ++ leBytes 2 ((e.epoch.map BitVec.toNat).getD 0) ++
      slot first ++ slot second ++ leBytes 1 left ∧
    (e.payload left).length = 26 ∧
    (match e.kind with
      | .epochOpened depth start => kind = 1 ∧ first = some (leBytes 1 depth) ∧ second = some (leBytes 4 start.toNat)
      | .epochCommitted records depth => kind = 2 ∧ first = some (leBytes 4 records) ∧ second = some (leBytes 1 depth)
      | .epochBroken reason depth => kind = 3 ∧ second = some (leBytes 1 depth) ∧
        first = some [match reason with
          | .full => 1
          | .journalFault => 2
          | .abandoned => 3
          | .inherited => 4]
      | .rollbackDone replayed depth => kind = 4 ∧ first = some (leBytes 4 replayed.toNat) ∧ second = some (leBytes 1 depth)
      | .rollbackFailed reason kept => kind = 5 ∧ second = kept.map (fun k => leBytes 4 k.toNat) ∧
        first = some [match reason with
          | .journalReadFault => 1
          | .checksum => 2
          | .sequence => 3
          | .restoreFault => 4
          | .refillTimeout => 5
          | .unrecoverable => BitVec.ofNat 8 Config.unrecoverableCode.toNat]
      | .refillRequest q n p count => kind = 6 ∧ first = some (leBytes 4 q.toNat ++ leBytes 4 n.toNat) ∧
        second = some (leBytes 1 p.toNat ++ leBytes 2 count)
      | .segmentRecalled q p => kind = 7 ∧ first = some (leBytes 4 q.toNat) ∧ second = some (leBytes 1 p.toNat)
      | .segmentsDiscarded a b => kind = 8 ∧ first = some (leBytes 4 a.toNat) ∧ second = some (leBytes 4 b.toNat)
      | .holdChanged inForce free => kind = 9 ∧ first = some [if inForce then 1 else 2] ∧ second = some (leBytes 2 free)
      | .memFault bad origin line tag => kind = 10 ∧ second = some (leBytes 4 line.toNat ++ leBytes 1 tag.val) ∧
        first = some [
          match bad with
          | .fault => 1
          | .timeout => 2,
          match origin with
          | .host => 1
          | .capture => 2
          | .restore => 3]
      | .lateCompletion tag quarantined => kind = 11 ∧ first = some (leBytes 1 tag.val) ∧
        second = some [if quarantined then 1 else 2]
      | .journalFault n p => kind = 12 ∧ first = some (leBytes 4 n.toNat) ∧ second = some (leBytes 1 p.toNat)
      | .hostProtocol id => kind = 13 ∧ first = some (leBytes 1 id.master.val ++ leBytes 1 id.tag.val) ∧ second = some [1]
      | .coreResetDone controller command depth => kind = 14 ∧ second = some (leBytes 1 depth) ∧
        first = some [
          match controller with
          | .idle => 1
          | .draining => 2
          | .replay => 3
          | .refillWait => 4
          | .stopped => 5,
          match command with
          | none => 0
          | some .checkpoint => 1
          | some .commit => 2
          | some .rollback => 3]
      | .eventsLost dropped => kind = 15 ∧ first = some (leBytes 4 dropped.toNat) ∧ second = none)

/-- R168, R169: ENABLE sets the mode to ACTIVE; DISABLE sets it to BYPASS at depth 0 with the controller IDLE, and is refused
MODE otherwise. -/
def Obligations.ModeSet : Prop :=
  (∀ (s : State) (f : Frame), s.takes 0x14 f →
    exec (.enable f) s = .next ((s.setService { s.service with mode := .active }).answers f (.done []))) ∧
  ∀ (s : State) (f : Frame), s.takes 0x15 f →
    (s.epochs.stack = [] → s.epochs.controller = .idle →
      exec (.disable f) s = .next ((s.setService { s.service with mode := .bypass }).answers f (.done []))) ∧
    ((s.epochs.stack ≠ [] ∨ s.epochs.controller ≠ .idle) →
      exec (.disable f) s = .next (s.answers f (.refused .mode)))

/-- R152, R147: MTAG_RELEASE makes every QUARANTINED tag FREE, serves the tag queue from its head, one request per FREE tag, and
answers how many it freed. -/
def Obligations.QuarantineReleased : Prop :=
  ∀ (s : State) (f : Frame), s.takes 0x17 f →
    ∃ u : State,
      u = s.setMemIf { s.memIf with
        tags := s.memIf.tags.map fun x => if x = .quarantined then .free else x } ∧
      (s.memIf.tagQueue = [] → exec (.mtagRelease f) s = .next (u.answers f
        (.done (leBytes 1 (s.memIf.tags.toList.filter fun x => decide (x = .quarantined)).length)))) ∧
      ∃ v : State, u.serves s.memIf.tagQueue v ∧ exec (.mtagRelease f) s = .next (v.answers f
        (.done (leBytes 1 (s.memIf.tags.toList.filter fun x => decide (x = .quarantined)).length)))

/-- R138, R176: WINDOW_WRITE: the lock, the values, the window, and the entry written with its hit count cleared. -/
def Obligations.WindowWritten : Prop :=
  ∀ (s : State) (f : Frame) (index valid base limit masters action : Nat), s.takes 0x20 f →
    f.payload = leBytes 1 index ++ leBytes 1 valid ++ leBytes 4 base ++ leBytes 4 limit ++ leBytes 1 masters ++
      leBytes 1 action →
    index < 256 → valid < 256 → base < 2 ^ 32 → limit < 2 ^ 32 → masters < 256 → action < 256 →
    (s.depth ≠ 0 → exec (.windowWrite f) s = .next (s.answers f (.refused .locked))) ∧
    (s.depth = 0 →
      (15 < index ∨ 1 < valid ∨ 2 ^ 30 ≤ base ∨ 2 ^ 30 ≤ limit ∨ 15 < masters ∨ action = 0 ∨ 4 < action) →
      exec (.windowWrite f) s = .next (s.answers f (.refused .badValue))) ∧
    ∀ (i : Fin 16) (a : Action), s.depth = 0 → index = i.val → valid ≤ 1 → base < 2 ^ 30 → limit < 2 ^ 30 → masters ≤ 15 →
      (action, a) ∈ [(1, Action.pass), (2, .journal), (3, .guard), (4, .deny)] →
      ((limit < base ∨ masters = 0) → exec (.windowWrite f) s = .next (s.answers f (.refused .badWindow))) ∧
      (base ≤ limit → masters ≠ 0 →
        exec (.windowWrite f) s = .next ((s.setWindows (s.windows.set i {
          valid := decide (valid = 1), base := BitVec.ofNat 30 base, limit := BitVec.ofNat 30 limit,
          masters := BitVec.ofNat 4 masters, action := a, hits := 0 })).answers f (.done [])))

/-- R29, R30, R31, R33, R63: when a drain is complete; and CHECKPOINT, COMMIT and ROLLBACK, refused, or taken with their drain
left to complete, or taken with a drain that is complete at once and takes effect in the same step. -/
def Obligations.EpochCommandsTaken : Prop :=
  (∀ (s : State) (c : PendingCommand), s.service.coreReset = none → s.epochs.controller = .draining →
    s.epochs.command = some c →
    (s.drainComplete = true ↔
      (∀ e ∈ s.host.table, (c = .rollback ∨ e.write ≠ none) → e.pastGate = false) ∧
      (c = .commit → s.depth = 1 → ∀ e ∈ s.journal.map, ∀ p, e.state = .lent → e.physical = some p →
        ∀ o ∈ s.journal.outstanding, o.2.blockSegment ≠ some p))) ∧
  ∀ (s : State) (f : Frame), s.holdSettled →
    (s.takes 0x30 f →
      (s.epochs.controller ≠ .idle → exec (.checkpoint f) s = .next (s.answers f .busy)) ∧
      (s.epochs.controller = .idle → s.service.mode = .bypass →
        exec (.checkpoint f) s = .next (s.answers f (.refused .mode))) ∧
      (s.epochs.controller = .idle → s.service.mode = .active → 8 ≤ s.depth →
        exec (.checkpoint f) s = .next (s.answers f (.refused .depth))) ∧
      ∀ u : State, s.epochs.controller = .idle → s.service.mode = .active → s.depth < 8 →
        u = s.setEpochs { s.epochs with controller := .draining, command := some .checkpoint } →
        (u.drainComplete = false → exec (.checkpoint f) s = .next (u.answers f .started)) ∧
        (u.drainComplete = true → ∃ v, exec .checkpointDrainComplete u = .next v ∧
          exec (.checkpoint f) s = .next (v.answers f .started))) ∧
    (s.takes 0x31 f →
      (s.epochs.controller ≠ .idle → exec (.commit f) s = .next (s.answers f .busy)) ∧
      (s.epochs.controller = .idle → s.depth = 0 → exec (.commit f) s = .next (s.answers f (.refused .noEpoch))) ∧
      ∀ u : State, s.epochs.controller = .idle → s.depth ≠ 0 →
        u = s.setEpochs { s.epochs with controller := .draining, command := some .commit } →
        (u.drainComplete = false → exec (.commit f) s = .next (u.answers f .started)) ∧
        (u.drainComplete = true → ∃ v, exec .commitDrainComplete u = .next v ∧
          exec (.commit f) s = .next (v.answers f .started))) ∧
    (s.takes 0x33 f →
      (s.epochs.controller ≠ .idle → s.epochs.controller ≠ .stopped →
        exec (.rollback f) s = .next (s.answers f .busy)) ∧
      ((s.epochs.controller = .idle ∨ s.epochs.controller = .stopped) → s.epochs.stack = [] →
        exec (.rollback f) s = .next (s.answers f (.refused .noEpoch))) ∧
      ∀ (e : Epoch) (rest : List Epoch), s.epochs.stack = e :: rest →
        ((s.epochs.controller = .idle ∨ s.epochs.controller = .stopped) → e.broken ≠ none →
          exec (.rollback f) s = .next (s.answers f (.refused .unrecoverable))) ∧
        ∀ u : State, s.epochs.controller = .idle → e.broken = none →
          u = s.setEpochs { s.epochs with controller := .draining, command := some .rollback } →
          (u.drainComplete = false → exec (.rollback f) s = .next (u.answers f .started)) ∧
          (u.drainComplete = true → ∃ v, exec .rollbackDrainComplete u = .next v ∧
            exec (.rollback f) s = .next (v.answers f .started)))

/-- R38, R82: ABANDON is refused BUSY or NO_EPOCH; in IDLE it breaks the top epoch; in STOPPED it also gives the rollback up,
enters IDLE and releases every PARKED entry. -/
def Obligations.EpochAbandoned : Prop :=
  ∀ (s : State) (f : Frame), s.takes 0x32 f →
    ((s.epochs.controller = .draining ∨ s.epochs.controller = .replay ∨ s.epochs.controller = .refillWait) →
      exec (.abandon f) s = .next (s.answers f .busy)) ∧
    ((s.epochs.controller = .idle ∨ s.epochs.controller = .stopped) → s.epochs.stack = [] →
      exec (.abandon f) s = .next (s.answers f (.refused .noEpoch))) ∧
    ∀ (e : Epoch) (rest : List Epoch), s.epochs.stack = e :: rest →
      (s.epochs.controller = .idle →
        exec (.abandon f) s = .next ((breakTop .abandoned s).answers f (.done [])) ∧
        (breakTop .abandoned s).epochs.stack =
          { e with broken := if e.broken = none then some .abandoned else e.broken } :: rest) ∧
      (s.epochs.controller = .stopped →
        ∃ u : State,
          u = ((breakTop .abandoned s).setReplay { s.replay with context := none }).setEpochs { s.epochs with
            stack := { e with broken := if e.broken = none then some .abandoned else e.broken } :: rest
            controller := .idle
            command := none } ∧
          exec (.abandon f) s = .next ((releaseParked u).answers f (.done [])) ∧
          ∀ x ∈ (releaseParked u).host.table, x.state ≠ .parked)

/-- R86, R87, R73: LEND makes the oldest n FILLED and settled entries LENT, but during a walk only those older than the current
entry, none where there is none (log 15, DEDUCED), and answers them. A number outside 1 to 16 is refused BAD_VALUE. -/
def Obligations.SegmentsLent : Prop :=
  ∀ (s : State) (f : Frame) (n : Nat), s.takes 0x50 f → leValue f.payload = n →
    ((n < 1 ∨ 16 < n) → exec (.lend f) s = .next (s.answers f (.refused .badValue))) ∧
    ∀ (selects : Segment → Bool) (chosen : List Segment), 1 ≤ n → n ≤ 16 →
      (∀ e, selects e = true ↔ e.state = .filled ∧ s.settled e = true ∧
        ((s.epochs.controller = .replay ∨ s.epochs.controller = .refillWait) →
          ∃ c q, s.replay.context = some c ∧ c.current = some q ∧ seqOlder e.q q = true)) →
      chosen = (s.journal.map.filter selects).take n →
      exec (.lend f) s = .next ((s.setJournal { s.journal with
        map := s.journal.map.map fun e => if e.q ∈ chosen.map (·.q) then { e with state := .lent } else e }).answers f
          (.done (leBytes 1 chosen.length ++ chosen.flatMap fun e =>
            leBytes 4 e.q.toNat ++ leBytes 1 (e.physical.getD 0).toNat ++ leBytes 4 e.first.toNat ++ leBytes 2 e.count)))

/-- R91, R92, R94, R75, R14, R74: LEND_CANCEL, SPILL_DONE and REFILL_DONE of the entry they name, and their refusals. The segment
that SPILL_DONE frees joins the free list tail; append requests that wait are served from the oldest, and a refill that waits takes
it. -/
def Obligations.LentSegmentsReturned : Prop :=
  (∀ s t : State,
    (s.journal.waiting = [] → serveWaiting s = s) ∧
    (s.fillingHasRoom = false → (s.journal.free = [] ∨ 1024 ≤ s.journal.map.length) → serveWaiting s = s) ∧
    ∀ (r : AppendRequest) (others : List AppendRequest) (top : Epoch) (rest : List Epoch), s.journal.waiting = r :: others →
      (s.setJournal { s.journal with waiting := others }).gives r top rest t → serveWaiting s = serveWaiting t) ∧
  ∀ (s : State) (f : Frame) (q : SegNo), leValue f.payload = q.toNat → s.holdSettled →
    (s.takes 0x51 f →
      ((∀ x, s.segment q = some x → x.state ≠ .lent) →
        exec (.lendCancel f) s = .next (s.answers f (.refused .notLent))) ∧
      ∀ e, s.segment q = some e → e.state = .lent →
        exec (.lendCancel f) s = .next ((s.setJournal { s.journal with
          map := s.journal.map.map fun x => if x.q = q then { x with state := .filled } else x }).answers f (.done []))) ∧
    (s.takes 0x52 f →
      ((∀ x, s.segment q = some x → x.state ≠ .lent) →
        exec (.spillDone f) s = .next (s.answers f (.refused .notLent))) ∧
      ∀ (e : Segment) (p : Phys) (u : State), s.segment q = some e → e.state = .lent → e.physical = some p →
        u = s.setJournal { s.journal with
          free := s.journal.free ++ [p]
          map := s.journal.map.map fun x => if x.q = q then { x with state := .spilled, physical := none } else x } →
        ((∀ c, s.walking .refillWait = some c → ∀ r, c.refill = some r → r.physical ≠ none) →
          s.autoKept (serveWaiting u).journal.free.length →
          exec (.spillDone f) s = .next ((serveWaiting u).answers f (.done []))) ∧
        ∀ (c : ReplayContext) (r : Refill) (g : Segment), s.walking .refillWait = some c → c.refill = some r →
          r.physical = none → s.journal.waiting = [] → s.journal.free = [] → u.segment r.q = some g → g.state = .spilled →
          exec (.spillDone f) s = .next ((post (some c.epoch) (.refillRequest g.q g.first p g.count)
            ((u.setJournal { u.journal with
              free := []
              map := u.journal.map.map fun x => if x.q = r.q then { x with state := .refilling, physical := some p } else x
              }).setReplay { s.replay with context := some { c with refill := some { r with physical := some p } } })).answers
                f (.done []))) ∧
    (s.takes 0x53 f →
      ((∀ x, s.segment q = some x → x.state ≠ .refilling) →
        exec (.refillDone f) s = .next (s.answers f (.refused .notRefilling))) ∧
      ∀ (e : Segment) (c : ReplayContext) (r : Refill), s.segment q = some e → e.state = .refilling →
        s.replay.context = some c → c.refill = some r →
        exec (.refillDone f) s = .next ((((s.setJournal { s.journal with
          map := s.journal.map.map fun x => if x.q = q then { x with state := .filled } else x }).setReplay {
            context := some { c with refill := some { r with refilled := true } }
            refillTimer := none }).setEpochs { s.epochs with controller := .replay, command := none }).answers f (.done [])))

/-- R88, R19: a block transfer is placed on the service side of the port, whatever segment and block it names; its exchange
waits, at work, for the refusal or the completion. -/
def Obligations.BlockTransferPlaced : Prop :=
  ∀ (s : State) (f : Frame) (seg block : Byte) (data : List Byte) (v : ServiceIf),
    v = { s.service with exchange := .working, work := some { exchange := f.exchange, attached := true } } →
    (s.takes 0x55 f → f.payload = [seg, block] →
      exec (.blockRead f) s = .next ((s.setService v).setJournal { s.journal with
        serviceSide := some (.blockRead seg block) })) ∧
    (s.takes 0x56 f → f.payload = seg :: block :: data →
      data.length = 256 ∧
      exec (.blockWrite f) s = .next ((s.setService v).setJournal { s.journal with
        serviceSide := some (.blockWrite seg block data) }))

/-- R158, R160, R176: a frame that fails its checks is answered BAD_FRAME or UNKNOWN on every row of the service link; R157:
while an earlier command works the frame is held, and it is taken in the step in which that command ends (here a block transfer,
refused NOT_OWNER or completed; the end of a core reset is CoreResetEnds'), with no response where SSN has closed its exchange too;
and a frame outside RECEIVING is not read. A frame is held only behind a command whose exchange SSN has closed. The hold is
announced once in the step, after its other effects (log 19). -/
def Obligations.FramesCheckedAndHeld : Prop :=
  (∀ (code : Byte) (f : Frame),
    (f.crc ≠ crc (code :: f.exchange :: (leBytes 2 f.payload.length ++ f.payload)) → frameCheck code f = some .badFrame) ∧
    (f.crc = crc (code :: f.exchange :: (leBytes 2 f.payload.length ++ f.payload)) → requestLength code = none →
      frameCheck code f = some .unknown) ∧
    ∀ n, f.crc = crc (code :: f.exchange :: (leBytes 2 f.payload.length ++ f.payload)) → requestLength code = some n →
      frameCheck code f = if f.payload.length = n then none else some .badFrame) ∧
  (∀ (c : Instr) (code : Byte) (f : Frame) (s : State), frameOf c = some (code, f) → s.inReset = false → s.holdSettled →
    (∀ a, s.service.exchange = .receiving → s.service.unread = false → s.service.work = none →
      frameCheck code f = some a → exec c s = .next (s.answers f a)) ∧
    (s.service.exchange = .receiving → s.service.unread = false → s.service.work ≠ none →
      exec c s = .next (s.setService { s.service with
        exchange := .working, held := some { code := code, frame := f, attached := true } })) ∧
    ((s.service.exchange ≠ .receiving ∨ s.service.unread = true) → exec c s = .next s)) ∧
  (∀ (c : Instr) (s : State) (w : Work) (op : PortOp) (seg : Phys), s.inReset = false → s.holdSettled →
    s.portStopped = false → s.journal.outstanding.length < 8 → s.journal.serviceSide = some op → op.blockSegment = some seg →
    (s.journal.engineQueue = [] ∨ s.journal.lastGranted = .engine) →
    (∀ e ∈ s.journal.map, e.physical = some seg → e.state ≠ .lent ∧ e.state ≠ .refilling) →
    s.service.work = some w → w.attached = false →
    s.takesHeld .arbiterGrant c (s.setJournal { s.journal with serviceSide := none })) ∧
  ∀ (i c : Instr) (s : State) (w : Work) (port : Fin 8) (seg block : Byte) (u : State), s.quiet → s.portStopped = false →
    s.service.work = some w → w.attached = false →
    ((s.portOp port = some (.blockRead seg block) ∧ ∃ status data, i = .blockReadCompletion port status data) ∨
      ∃ data status, s.portOp port = some (.blockWrite seg block data) ∧ i = .blockWriteCompletion port status) →
    u = s.setJournal { s.journal with outstanding := s.journal.outstanding.filter fun o => decide (o.1 ≠ port) } →
    u.drainComplete = false → u.failureCompletes = false →
    ∃ v, exec i (s.setService { s.service with held := none }) = .next v ∧ s.takesHeld i c v

/-- R156, R157: SSN asserted in CLOSED opens an exchange; deasserted in any state, it closes it, and a command at work or a held
frame loses its response alone; the last response byte ends the answer. That SSN asserted outside CLOSED, and a last byte outside
ANSWERING, change nothing is the model's choice (log 6), as is that an exchange begun while a frame is held stays unread to its
end (log 20). -/
def Obligations.ExchangeOpensAndCloses : Prop :=
  ∀ s : State, s.inReset = false →
    (s.service.exchange = .closed → exec .ssnAsserted s = .next (s.setService { s.service with
      exchange := .receiving, unread := s.service.held.isSome })) ∧
    (s.service.exchange ≠ .closed → exec .ssnAsserted s = .next s) ∧
    exec .ssnDeasserted s = .next (s.setService { s.service with
      exchange := .closed
      unread := false
      work := s.service.work.map fun w => { w with attached := false }
      held := s.service.held.map fun h => { h with attached := false } }) ∧
    (∀ bytes, s.service.exchange = .answering bytes →
      exec .lastResponseByteSent s = .next (s.setService { s.service with exchange := .trailing })) ∧
    ((∀ bytes, s.service.exchange ≠ .answering bytes) → exec .lastResponseByteSent s = .next s)

/-! ### Core reset -/

/-- R170, R27, R116, R41, R171: the step that takes CORE_RESET. The accept line is withdrawn and the gate holds both kinds from
then on. With nothing outstanding on the journal port, the journal step, and the end where it is due, fall in this step. -/
def Obligations.CoreResetBegins : Prop :=
  ∀ (s : State) (f : Frame) (v : ServiceIf) (u : State), s.takes 0x16 f → s.holdSettled →
    v = { s.service with
      exchange := .working
      work := some { exchange := f.exchange, attached := true }
      coreReset := some {
        controller := s.epochs.controller, command := s.epochs.command, top := s.epochs.stack.head?.map (·.number),
        depth := s.epochs.stack.length, journalDone := false, discarded := none } } →
    u = (((((s.setService v).setEpochs { s.epochs with command := none }).setReplay {
      context := s.replay.context.map fun c => { c with
        next := none, current := none, read := none, held := none, refill := none, failure := none }
      refillTimer := none }).setJournal { s.journal with engineQueue := [], waiting := [] }).setSpace { s.space with
        fullWaits := [] }).setCapture { s.capture with
          slots := s.capture.slots.map fun x => x.map fun sl =>
            if sl.stage = .read then { sl with stage := .discard } else sl } →
    (s.journal.outstanding ≠ [] → exec (.coreReset f) s = .next u) ∧
    (s.journal.outstanding = [] → s.service.held = none → exec (.coreReset f) s = exec .journalStep u) ∧
    u.acceptLine = false ∧ (∀ w, u.gateOpen w = false) ∧ u.portStopped = true

/-- R171, R60, R18, R112: the journal step, after which the core reset goes on while restores are out, and ends in the same step
(R172) where none is. The entries it frees from the slot queue and from slots go to issue in arrival order. -/
def Obligations.JournalStepTaken : Prop :=
  ∀ (s : State) (r : CoreReset), s.inReset = false → s.holdSettled →
    s.service.coreReset = some r → r.journalDone = false → s.journal.outstanding = [] →
    s.journal.waiting = [] → s.service.work ≠ none →
    s.service.params.holdOnFree < s.service.params.holdOffFree →
    s.service.params.holdOffFree ≤ (s.journal.free ++ s.journal.map.filterMap (·.physical)).length →
    ∃ t, (∀ c, s.replay.context = some c → c.restores ≠ [] → exec .journalStep s = .next t) ∧
      ((∀ c, s.replay.context = some c → c.restores = []) → exec .journalStep s = exec .coreResetEnd t) ∧
      t.journal = { s.journal with
        map := [], free := s.journal.free ++ s.journal.map.filterMap (·.physical), lastGranted := .service } ∧
      t.epochs = { s.epochs with stack := [], controller := .idle, command := none } ∧
      t.capture.slotQueue = [] ∧ t.capture.marks = [] ∧ t.capture.markSpills = 0 ∧
      (∀ i : Fin 8, t.capture.slots[i] = match s.capture.slots[i] with
        | none => none
        | some sl => if sl.stage = .discard ∧ s.readPending i = true then some sl else none) ∧
      (∀ e ∈ t.host.table, e.state ≠ .slotWait) ∧
      (∀ freed : Entry → Bool, (s.host.table.map (·.id)).Nodup →
        (∀ e, freed e = true ↔ e.state = .slotWait ∨ ∃ (i : Fin 8) (sl : Slot), s.capture.slots[i] = some sl ∧
          sl.entry = e.id ∧ ¬ (sl.stage = .discard ∧ s.readPending i = true)) →
        ∃ u, s.issuesAll (s.host.table.filter freed) u ∧ t.host.table = u.host.table ∧ t.memIf = u.memIf) ∧
      t.space = { s.space with
        auto := false, manual := false, refreshTimer := if s.holdInForce then none else s.space.refreshTimer } ∧
      t.host.holdTold = false ∧
      t.host.sendQueue = s.host.sendQueue ++ (if s.holdInForce then [.hold 0] else []) ∧
      t.service.events = (if s.holdInForce then (post none (.holdChanged false t.journal.free.length) s).service.events
        else s.service.events) ∧
      t.service.mode = .bypass ∧ t.service.params = s.service.params ∧ t.service.exchange = s.service.exchange ∧
      t.service.coreReset = some { r with
        journalDone := true
        discarded := match s.journal.map.head?, s.journal.map.getLast? with
          | some a, some b => some (a.q, b.q)
          | _, _ => none } ∧
      t.replay = s.replay ∧ t.windows = s.windows ∧ t.timebase = s.timebase ∧
      t.host.table.map Entry.unplaced = s.host.table.map Entry.unplaced

/-- R172, R28, R18: the end of a core reset. Every PARKED entry is released, the event queue holds SEGMENTS_DISCARDED, when
anything was discarded, and CORE_RESET_DONE, and CORE_RESET is answered DONE, or, where SSN has closed its exchange, no response is
sent (R157). A held frame is taken in the same step. EVENT_POP is left out there: by the model's choice (log 36) it may pop
CORE_RESET_DONE in that step. -/
def Obligations.CoreResetEnds : Prop :=
  ∀ (s : State) (r : CoreReset) (w : Work) (u v : State), s.inReset = false → s.holdSettled →
    s.service.coreReset = some r → r.journalDone = true → (∀ c, s.replay.context = some c → c.restores = []) →
    s.service.work = some w →
    u = releaseParked ((s.setReplay { s.replay with context := none }).setService { s.service with coreReset := none }) →
    v = State.ends w (.done []) (u.setService { s.service with
      coreReset := none
      dropped := 0
      events := (match r.discarded with
        | none => []
        | some d => [{ kind := .segmentsDiscarded d.1 d.2, time := s.timebase, epoch := none }]) ++
        [{ kind := .coreResetDone r.controller r.command r.depth, time := s.timebase, epoch := r.top }] }) →
    (s.service.held = none → exec .coreResetEnd s = .next v) ∧
    (∀ c : Instr, w.attached = false → (∀ code f, frameOf c = some (code, f) → code ≠ 0x13) →
      s.takesHeld .coreResetEnd c v) ∧
    ∀ x ∈ u.host.table, x.state ≠ .parked
end

