-- ==== Sys2Proof/Laws/State.lean ====
section
/-! SUPPORT. One lemma per field and per replacement of a block of State: what the field reads after it. -/

namespace Sys2Proof.Machine

@[simp] theorem State.setHost_host (s : State) (x : HostIf) : (s.setHost x).host = x := rfl
@[simp] theorem State.setHost_windows (s : State) (x : HostIf) : (s.setHost x).windows = s.windows := rfl
@[simp] theorem State.setHost_epochs (s : State) (x : HostIf) : (s.setHost x).epochs = s.epochs := rfl
@[simp] theorem State.setHost_capture (s : State) (x : HostIf) : (s.setHost x).capture = s.capture := rfl
@[simp] theorem State.setHost_journal (s : State) (x : HostIf) : (s.setHost x).journal = s.journal := rfl
@[simp] theorem State.setHost_replay (s : State) (x : HostIf) : (s.setHost x).replay = s.replay := rfl
@[simp] theorem State.setHost_space (s : State) (x : HostIf) : (s.setHost x).space = s.space := rfl
@[simp] theorem State.setHost_memIf (s : State) (x : HostIf) : (s.setHost x).memIf = s.memIf := rfl
@[simp] theorem State.setHost_service (s : State) (x : HostIf) : (s.setHost x).service = s.service := rfl
@[simp] theorem State.setHost_timebase (s : State) (x : HostIf) : (s.setHost x).timebase = s.timebase := rfl
@[simp] theorem State.setHost_inReset (s : State) (x : HostIf) : (s.setHost x).inReset = s.inReset := rfl
@[simp] theorem State.setHost_fresh (s : State) (x : HostIf) : (s.setHost x).fresh = s.fresh := rfl
@[simp] theorem State.setHost_pending (s : State) (x : HostIf) : (s.setHost x).pending = s.pending := rfl
@[simp] theorem State.setHost_self (s : State) : s.setHost s.host = s := rfl
@[simp] theorem State.setHost_setHost (s : State) (x y : HostIf) : (s.setHost x).setHost y = s.setHost y := rfl

@[simp] theorem State.setWindows_host (s : State) (x : Vector Window 16) : (s.setWindows x).host = s.host := rfl
@[simp] theorem State.setWindows_windows (s : State) (x : Vector Window 16) : (s.setWindows x).windows = x := rfl
@[simp] theorem State.setWindows_epochs (s : State) (x : Vector Window 16) : (s.setWindows x).epochs = s.epochs := rfl
@[simp] theorem State.setWindows_capture (s : State) (x : Vector Window 16) : (s.setWindows x).capture = s.capture := rfl
@[simp] theorem State.setWindows_journal (s : State) (x : Vector Window 16) : (s.setWindows x).journal = s.journal := rfl
@[simp] theorem State.setWindows_replay (s : State) (x : Vector Window 16) : (s.setWindows x).replay = s.replay := rfl
@[simp] theorem State.setWindows_space (s : State) (x : Vector Window 16) : (s.setWindows x).space = s.space := rfl
@[simp] theorem State.setWindows_memIf (s : State) (x : Vector Window 16) : (s.setWindows x).memIf = s.memIf := rfl
@[simp] theorem State.setWindows_service (s : State) (x : Vector Window 16) : (s.setWindows x).service = s.service := rfl
@[simp] theorem State.setWindows_timebase (s : State) (x : Vector Window 16) : (s.setWindows x).timebase = s.timebase := rfl
@[simp] theorem State.setWindows_inReset (s : State) (x : Vector Window 16) : (s.setWindows x).inReset = s.inReset := rfl
@[simp] theorem State.setWindows_fresh (s : State) (x : Vector Window 16) : (s.setWindows x).fresh = s.fresh := rfl
@[simp] theorem State.setWindows_pending (s : State) (x : Vector Window 16) : (s.setWindows x).pending = s.pending := rfl
@[simp] theorem State.setWindows_self (s : State) : s.setWindows s.windows = s := rfl
@[simp] theorem State.setWindows_setWindows (s : State) (x y : Vector Window 16) : (s.setWindows x).setWindows y = s.setWindows y := rfl

@[simp] theorem State.setEpochs_host (s : State) (x : EpochCtl) : (s.setEpochs x).host = s.host := rfl
@[simp] theorem State.setEpochs_windows (s : State) (x : EpochCtl) : (s.setEpochs x).windows = s.windows := rfl
@[simp] theorem State.setEpochs_epochs (s : State) (x : EpochCtl) : (s.setEpochs x).epochs = x := rfl
@[simp] theorem State.setEpochs_capture (s : State) (x : EpochCtl) : (s.setEpochs x).capture = s.capture := rfl
@[simp] theorem State.setEpochs_journal (s : State) (x : EpochCtl) : (s.setEpochs x).journal = s.journal := rfl
@[simp] theorem State.setEpochs_replay (s : State) (x : EpochCtl) : (s.setEpochs x).replay = s.replay := rfl
@[simp] theorem State.setEpochs_space (s : State) (x : EpochCtl) : (s.setEpochs x).space = s.space := rfl
@[simp] theorem State.setEpochs_memIf (s : State) (x : EpochCtl) : (s.setEpochs x).memIf = s.memIf := rfl
@[simp] theorem State.setEpochs_service (s : State) (x : EpochCtl) : (s.setEpochs x).service = s.service := rfl
@[simp] theorem State.setEpochs_timebase (s : State) (x : EpochCtl) : (s.setEpochs x).timebase = s.timebase := rfl
@[simp] theorem State.setEpochs_inReset (s : State) (x : EpochCtl) : (s.setEpochs x).inReset = s.inReset := rfl
@[simp] theorem State.setEpochs_fresh (s : State) (x : EpochCtl) : (s.setEpochs x).fresh = s.fresh := rfl
@[simp] theorem State.setEpochs_pending (s : State) (x : EpochCtl) : (s.setEpochs x).pending = s.pending := rfl
@[simp] theorem State.setEpochs_self (s : State) : s.setEpochs s.epochs = s := rfl
@[simp] theorem State.setEpochs_setEpochs (s : State) (x y : EpochCtl) : (s.setEpochs x).setEpochs y = s.setEpochs y := rfl

@[simp] theorem State.setCapture_host (s : State) (x : CaptureUnit) : (s.setCapture x).host = s.host := rfl
@[simp] theorem State.setCapture_windows (s : State) (x : CaptureUnit) : (s.setCapture x).windows = s.windows := rfl
@[simp] theorem State.setCapture_epochs (s : State) (x : CaptureUnit) : (s.setCapture x).epochs = s.epochs := rfl
@[simp] theorem State.setCapture_capture (s : State) (x : CaptureUnit) : (s.setCapture x).capture = x := rfl
@[simp] theorem State.setCapture_journal (s : State) (x : CaptureUnit) : (s.setCapture x).journal = s.journal := rfl
@[simp] theorem State.setCapture_replay (s : State) (x : CaptureUnit) : (s.setCapture x).replay = s.replay := rfl
@[simp] theorem State.setCapture_space (s : State) (x : CaptureUnit) : (s.setCapture x).space = s.space := rfl
@[simp] theorem State.setCapture_memIf (s : State) (x : CaptureUnit) : (s.setCapture x).memIf = s.memIf := rfl
@[simp] theorem State.setCapture_service (s : State) (x : CaptureUnit) : (s.setCapture x).service = s.service := rfl
@[simp] theorem State.setCapture_timebase (s : State) (x : CaptureUnit) : (s.setCapture x).timebase = s.timebase := rfl
@[simp] theorem State.setCapture_inReset (s : State) (x : CaptureUnit) : (s.setCapture x).inReset = s.inReset := rfl
@[simp] theorem State.setCapture_fresh (s : State) (x : CaptureUnit) : (s.setCapture x).fresh = s.fresh := rfl
@[simp] theorem State.setCapture_pending (s : State) (x : CaptureUnit) : (s.setCapture x).pending = s.pending := rfl
@[simp] theorem State.setCapture_self (s : State) : s.setCapture s.capture = s := rfl
@[simp] theorem State.setCapture_setCapture (s : State) (x y : CaptureUnit) : (s.setCapture x).setCapture y = s.setCapture y := rfl

@[simp] theorem State.setJournal_host (s : State) (x : JournalUnit) : (s.setJournal x).host = s.host := rfl
@[simp] theorem State.setJournal_windows (s : State) (x : JournalUnit) : (s.setJournal x).windows = s.windows := rfl
@[simp] theorem State.setJournal_epochs (s : State) (x : JournalUnit) : (s.setJournal x).epochs = s.epochs := rfl
@[simp] theorem State.setJournal_capture (s : State) (x : JournalUnit) : (s.setJournal x).capture = s.capture := rfl
@[simp] theorem State.setJournal_journal (s : State) (x : JournalUnit) : (s.setJournal x).journal = x := rfl
@[simp] theorem State.setJournal_replay (s : State) (x : JournalUnit) : (s.setJournal x).replay = s.replay := rfl
@[simp] theorem State.setJournal_space (s : State) (x : JournalUnit) : (s.setJournal x).space = s.space := rfl
@[simp] theorem State.setJournal_memIf (s : State) (x : JournalUnit) : (s.setJournal x).memIf = s.memIf := rfl
@[simp] theorem State.setJournal_service (s : State) (x : JournalUnit) : (s.setJournal x).service = s.service := rfl
@[simp] theorem State.setJournal_timebase (s : State) (x : JournalUnit) : (s.setJournal x).timebase = s.timebase := rfl
@[simp] theorem State.setJournal_inReset (s : State) (x : JournalUnit) : (s.setJournal x).inReset = s.inReset := rfl
@[simp] theorem State.setJournal_fresh (s : State) (x : JournalUnit) : (s.setJournal x).fresh = s.fresh := rfl
@[simp] theorem State.setJournal_pending (s : State) (x : JournalUnit) : (s.setJournal x).pending = s.pending := rfl
@[simp] theorem State.setJournal_self (s : State) : s.setJournal s.journal = s := rfl
@[simp] theorem State.setJournal_setJournal (s : State) (x y : JournalUnit) : (s.setJournal x).setJournal y = s.setJournal y := rfl

@[simp] theorem State.setReplay_host (s : State) (x : ReplayUnit) : (s.setReplay x).host = s.host := rfl
@[simp] theorem State.setReplay_windows (s : State) (x : ReplayUnit) : (s.setReplay x).windows = s.windows := rfl
@[simp] theorem State.setReplay_epochs (s : State) (x : ReplayUnit) : (s.setReplay x).epochs = s.epochs := rfl
@[simp] theorem State.setReplay_capture (s : State) (x : ReplayUnit) : (s.setReplay x).capture = s.capture := rfl
@[simp] theorem State.setReplay_journal (s : State) (x : ReplayUnit) : (s.setReplay x).journal = s.journal := rfl
@[simp] theorem State.setReplay_replay (s : State) (x : ReplayUnit) : (s.setReplay x).replay = x := rfl
@[simp] theorem State.setReplay_space (s : State) (x : ReplayUnit) : (s.setReplay x).space = s.space := rfl
@[simp] theorem State.setReplay_memIf (s : State) (x : ReplayUnit) : (s.setReplay x).memIf = s.memIf := rfl
@[simp] theorem State.setReplay_service (s : State) (x : ReplayUnit) : (s.setReplay x).service = s.service := rfl
@[simp] theorem State.setReplay_timebase (s : State) (x : ReplayUnit) : (s.setReplay x).timebase = s.timebase := rfl
@[simp] theorem State.setReplay_inReset (s : State) (x : ReplayUnit) : (s.setReplay x).inReset = s.inReset := rfl
@[simp] theorem State.setReplay_fresh (s : State) (x : ReplayUnit) : (s.setReplay x).fresh = s.fresh := rfl
@[simp] theorem State.setReplay_pending (s : State) (x : ReplayUnit) : (s.setReplay x).pending = s.pending := rfl
@[simp] theorem State.setReplay_self (s : State) : s.setReplay s.replay = s := rfl
@[simp] theorem State.setReplay_setReplay (s : State) (x y : ReplayUnit) : (s.setReplay x).setReplay y = s.setReplay y := rfl

@[simp] theorem State.setSpace_host (s : State) (x : SpaceMonitor) : (s.setSpace x).host = s.host := rfl
@[simp] theorem State.setSpace_windows (s : State) (x : SpaceMonitor) : (s.setSpace x).windows = s.windows := rfl
@[simp] theorem State.setSpace_epochs (s : State) (x : SpaceMonitor) : (s.setSpace x).epochs = s.epochs := rfl
@[simp] theorem State.setSpace_capture (s : State) (x : SpaceMonitor) : (s.setSpace x).capture = s.capture := rfl
@[simp] theorem State.setSpace_journal (s : State) (x : SpaceMonitor) : (s.setSpace x).journal = s.journal := rfl
@[simp] theorem State.setSpace_replay (s : State) (x : SpaceMonitor) : (s.setSpace x).replay = s.replay := rfl
@[simp] theorem State.setSpace_space (s : State) (x : SpaceMonitor) : (s.setSpace x).space = x := rfl
@[simp] theorem State.setSpace_memIf (s : State) (x : SpaceMonitor) : (s.setSpace x).memIf = s.memIf := rfl
@[simp] theorem State.setSpace_service (s : State) (x : SpaceMonitor) : (s.setSpace x).service = s.service := rfl
@[simp] theorem State.setSpace_timebase (s : State) (x : SpaceMonitor) : (s.setSpace x).timebase = s.timebase := rfl
@[simp] theorem State.setSpace_inReset (s : State) (x : SpaceMonitor) : (s.setSpace x).inReset = s.inReset := rfl
@[simp] theorem State.setSpace_fresh (s : State) (x : SpaceMonitor) : (s.setSpace x).fresh = s.fresh := rfl
@[simp] theorem State.setSpace_pending (s : State) (x : SpaceMonitor) : (s.setSpace x).pending = s.pending := rfl
@[simp] theorem State.setSpace_self (s : State) : s.setSpace s.space = s := rfl
@[simp] theorem State.setSpace_setSpace (s : State) (x y : SpaceMonitor) : (s.setSpace x).setSpace y = s.setSpace y := rfl

@[simp] theorem State.setMemIf_host (s : State) (x : MemoryIf) : (s.setMemIf x).host = s.host := rfl
@[simp] theorem State.setMemIf_windows (s : State) (x : MemoryIf) : (s.setMemIf x).windows = s.windows := rfl
@[simp] theorem State.setMemIf_epochs (s : State) (x : MemoryIf) : (s.setMemIf x).epochs = s.epochs := rfl
@[simp] theorem State.setMemIf_capture (s : State) (x : MemoryIf) : (s.setMemIf x).capture = s.capture := rfl
@[simp] theorem State.setMemIf_journal (s : State) (x : MemoryIf) : (s.setMemIf x).journal = s.journal := rfl
@[simp] theorem State.setMemIf_replay (s : State) (x : MemoryIf) : (s.setMemIf x).replay = s.replay := rfl
@[simp] theorem State.setMemIf_space (s : State) (x : MemoryIf) : (s.setMemIf x).space = s.space := rfl
@[simp] theorem State.setMemIf_memIf (s : State) (x : MemoryIf) : (s.setMemIf x).memIf = x := rfl
@[simp] theorem State.setMemIf_service (s : State) (x : MemoryIf) : (s.setMemIf x).service = s.service := rfl
@[simp] theorem State.setMemIf_timebase (s : State) (x : MemoryIf) : (s.setMemIf x).timebase = s.timebase := rfl
@[simp] theorem State.setMemIf_inReset (s : State) (x : MemoryIf) : (s.setMemIf x).inReset = s.inReset := rfl
@[simp] theorem State.setMemIf_fresh (s : State) (x : MemoryIf) : (s.setMemIf x).fresh = s.fresh := rfl
@[simp] theorem State.setMemIf_pending (s : State) (x : MemoryIf) : (s.setMemIf x).pending = s.pending := rfl
@[simp] theorem State.setMemIf_self (s : State) : s.setMemIf s.memIf = s := rfl
@[simp] theorem State.setMemIf_setMemIf (s : State) (x y : MemoryIf) : (s.setMemIf x).setMemIf y = s.setMemIf y := rfl

@[simp] theorem State.setService_host (s : State) (x : ServiceIf) : (s.setService x).host = s.host := rfl
@[simp] theorem State.setService_windows (s : State) (x : ServiceIf) : (s.setService x).windows = s.windows := rfl
@[simp] theorem State.setService_epochs (s : State) (x : ServiceIf) : (s.setService x).epochs = s.epochs := rfl
@[simp] theorem State.setService_capture (s : State) (x : ServiceIf) : (s.setService x).capture = s.capture := rfl
@[simp] theorem State.setService_journal (s : State) (x : ServiceIf) : (s.setService x).journal = s.journal := rfl
@[simp] theorem State.setService_replay (s : State) (x : ServiceIf) : (s.setService x).replay = s.replay := rfl
@[simp] theorem State.setService_space (s : State) (x : ServiceIf) : (s.setService x).space = s.space := rfl
@[simp] theorem State.setService_memIf (s : State) (x : ServiceIf) : (s.setService x).memIf = s.memIf := rfl
@[simp] theorem State.setService_service (s : State) (x : ServiceIf) : (s.setService x).service = x := rfl
@[simp] theorem State.setService_timebase (s : State) (x : ServiceIf) : (s.setService x).timebase = s.timebase := rfl
@[simp] theorem State.setService_inReset (s : State) (x : ServiceIf) : (s.setService x).inReset = s.inReset := rfl
@[simp] theorem State.setService_fresh (s : State) (x : ServiceIf) : (s.setService x).fresh = s.fresh := rfl
@[simp] theorem State.setService_pending (s : State) (x : ServiceIf) : (s.setService x).pending = s.pending := rfl
@[simp] theorem State.setService_self (s : State) : s.setService s.service = s := rfl
@[simp] theorem State.setService_setService (s : State) (x y : ServiceIf) : (s.setService x).setService y = s.setService y := rfl

@[simp] theorem State.setTimebase_host (s : State) (x : Tick) : (s.setTimebase x).host = s.host := rfl
@[simp] theorem State.setTimebase_windows (s : State) (x : Tick) : (s.setTimebase x).windows = s.windows := rfl
@[simp] theorem State.setTimebase_epochs (s : State) (x : Tick) : (s.setTimebase x).epochs = s.epochs := rfl
@[simp] theorem State.setTimebase_capture (s : State) (x : Tick) : (s.setTimebase x).capture = s.capture := rfl
@[simp] theorem State.setTimebase_journal (s : State) (x : Tick) : (s.setTimebase x).journal = s.journal := rfl
@[simp] theorem State.setTimebase_replay (s : State) (x : Tick) : (s.setTimebase x).replay = s.replay := rfl
@[simp] theorem State.setTimebase_space (s : State) (x : Tick) : (s.setTimebase x).space = s.space := rfl
@[simp] theorem State.setTimebase_memIf (s : State) (x : Tick) : (s.setTimebase x).memIf = s.memIf := rfl
@[simp] theorem State.setTimebase_service (s : State) (x : Tick) : (s.setTimebase x).service = s.service := rfl
@[simp] theorem State.setTimebase_timebase (s : State) (x : Tick) : (s.setTimebase x).timebase = x := rfl
@[simp] theorem State.setTimebase_inReset (s : State) (x : Tick) : (s.setTimebase x).inReset = s.inReset := rfl
@[simp] theorem State.setTimebase_fresh (s : State) (x : Tick) : (s.setTimebase x).fresh = s.fresh := rfl
@[simp] theorem State.setTimebase_pending (s : State) (x : Tick) : (s.setTimebase x).pending = s.pending := rfl
@[simp] theorem State.setTimebase_self (s : State) : s.setTimebase s.timebase = s := rfl
@[simp] theorem State.setTimebase_setTimebase (s : State) (x y : Tick) : (s.setTimebase x).setTimebase y = s.setTimebase y := rfl

@[simp] theorem State.setInReset_host (s : State) (x : Bool) : (s.setInReset x).host = s.host := rfl
@[simp] theorem State.setInReset_windows (s : State) (x : Bool) : (s.setInReset x).windows = s.windows := rfl
@[simp] theorem State.setInReset_epochs (s : State) (x : Bool) : (s.setInReset x).epochs = s.epochs := rfl
@[simp] theorem State.setInReset_capture (s : State) (x : Bool) : (s.setInReset x).capture = s.capture := rfl
@[simp] theorem State.setInReset_journal (s : State) (x : Bool) : (s.setInReset x).journal = s.journal := rfl
@[simp] theorem State.setInReset_replay (s : State) (x : Bool) : (s.setInReset x).replay = s.replay := rfl
@[simp] theorem State.setInReset_space (s : State) (x : Bool) : (s.setInReset x).space = s.space := rfl
@[simp] theorem State.setInReset_memIf (s : State) (x : Bool) : (s.setInReset x).memIf = s.memIf := rfl
@[simp] theorem State.setInReset_service (s : State) (x : Bool) : (s.setInReset x).service = s.service := rfl
@[simp] theorem State.setInReset_timebase (s : State) (x : Bool) : (s.setInReset x).timebase = s.timebase := rfl
@[simp] theorem State.setInReset_inReset (s : State) (x : Bool) : (s.setInReset x).inReset = x := rfl
@[simp] theorem State.setInReset_fresh (s : State) (x : Bool) : (s.setInReset x).fresh = s.fresh := rfl
@[simp] theorem State.setInReset_pending (s : State) (x : Bool) : (s.setInReset x).pending = s.pending := rfl
@[simp] theorem State.setInReset_self (s : State) : s.setInReset s.inReset = s := rfl
@[simp] theorem State.setInReset_setInReset (s : State) (x y : Bool) : (s.setInReset x).setInReset y = s.setInReset y := rfl

@[simp] theorem State.setFresh_host (s : State) (x : Nat) : (s.setFresh x).host = s.host := rfl
@[simp] theorem State.setFresh_windows (s : State) (x : Nat) : (s.setFresh x).windows = s.windows := rfl
@[simp] theorem State.setFresh_epochs (s : State) (x : Nat) : (s.setFresh x).epochs = s.epochs := rfl
@[simp] theorem State.setFresh_capture (s : State) (x : Nat) : (s.setFresh x).capture = s.capture := rfl
@[simp] theorem State.setFresh_journal (s : State) (x : Nat) : (s.setFresh x).journal = s.journal := rfl
@[simp] theorem State.setFresh_replay (s : State) (x : Nat) : (s.setFresh x).replay = s.replay := rfl
@[simp] theorem State.setFresh_space (s : State) (x : Nat) : (s.setFresh x).space = s.space := rfl
@[simp] theorem State.setFresh_memIf (s : State) (x : Nat) : (s.setFresh x).memIf = s.memIf := rfl
@[simp] theorem State.setFresh_service (s : State) (x : Nat) : (s.setFresh x).service = s.service := rfl
@[simp] theorem State.setFresh_timebase (s : State) (x : Nat) : (s.setFresh x).timebase = s.timebase := rfl
@[simp] theorem State.setFresh_inReset (s : State) (x : Nat) : (s.setFresh x).inReset = s.inReset := rfl
@[simp] theorem State.setFresh_fresh (s : State) (x : Nat) : (s.setFresh x).fresh = x := rfl
@[simp] theorem State.setFresh_pending (s : State) (x : Nat) : (s.setFresh x).pending = s.pending := rfl
@[simp] theorem State.setFresh_self (s : State) : s.setFresh s.fresh = s := rfl
@[simp] theorem State.setFresh_setFresh (s : State) (x y : Nat) : (s.setFresh x).setFresh y = s.setFresh y := rfl

@[simp] theorem State.setPending_host (s : State) (x : List Instr) : (s.setPending x).host = s.host := rfl
@[simp] theorem State.setPending_windows (s : State) (x : List Instr) : (s.setPending x).windows = s.windows := rfl
@[simp] theorem State.setPending_epochs (s : State) (x : List Instr) : (s.setPending x).epochs = s.epochs := rfl
@[simp] theorem State.setPending_capture (s : State) (x : List Instr) : (s.setPending x).capture = s.capture := rfl
@[simp] theorem State.setPending_journal (s : State) (x : List Instr) : (s.setPending x).journal = s.journal := rfl
@[simp] theorem State.setPending_replay (s : State) (x : List Instr) : (s.setPending x).replay = s.replay := rfl
@[simp] theorem State.setPending_space (s : State) (x : List Instr) : (s.setPending x).space = s.space := rfl
@[simp] theorem State.setPending_memIf (s : State) (x : List Instr) : (s.setPending x).memIf = s.memIf := rfl
@[simp] theorem State.setPending_service (s : State) (x : List Instr) : (s.setPending x).service = s.service := rfl
@[simp] theorem State.setPending_timebase (s : State) (x : List Instr) : (s.setPending x).timebase = s.timebase := rfl
@[simp] theorem State.setPending_inReset (s : State) (x : List Instr) : (s.setPending x).inReset = s.inReset := rfl
@[simp] theorem State.setPending_fresh (s : State) (x : List Instr) : (s.setPending x).fresh = s.fresh := rfl
@[simp] theorem State.setPending_pending (s : State) (x : List Instr) : (s.setPending x).pending = x := rfl
@[simp] theorem State.setPending_self (s : State) : s.setPending s.pending = s := rfl
@[simp] theorem State.setPending_setPending (s : State) (x y : List Instr) : (s.setPending x).setPending y = s.setPending y := rfl

end Sys2Proof.Machine
end

