-- ==== Sys2Proof/Laws/Path.lean ====
section
/-! SUPPORT. What the operations that move entries along their path can change: entry states, capture slots, the slot queue and
the memory interface, and nothing else. -/

namespace Sys2Proof.Machine

theorem SameButPaths.refl (s : State) : SameButPaths s s := ⟨rfl, rfl, rfl, rfl, rfl, rfl, rfl, rfl, rfl, rfl, rfl, rfl, rfl, rfl, rfl, rfl⟩

theorem SameButPaths.trans {s t u : State} (a : SameButPaths s t) (b : SameButPaths t u) : SameButPaths s u :=
  ⟨b.entries.trans a.entries, b.sendQueue.trans a.sendQueue, b.holdTold.trans a.holdTold, b.lastSent.trans a.lastSent,
    b.windows.trans a.windows, b.epochs.trans a.epochs, b.marks.trans a.marks, b.markSpills.trans a.markSpills,
    b.journal.trans a.journal, b.replay.trans a.replay, b.space.trans a.space, b.service.trans a.service,
    b.timebase.trans a.timebase, b.inReset.trans a.inReset, b.fresh.trans a.fresh, b.pending.trans a.pending⟩

/-- No entry joins or leaves the table. -/
theorem SameButPaths.tableLength {s t : State} (p : SameButPaths s t) : t.host.table.length = s.host.table.length := by
  have := congrArg List.length p.entries
  simpa using this

theorem SameButPaths.ids {s t : State} (p : SameButPaths s t) : t.host.table.map (·.id) = s.host.table.map (·.id) := by
  have := congrArg (List.map Entry.id) p.entries
  simpa [List.map_map, Function.comp_def, Entry.unplaced] using this

/-- Only the memory interface changes. -/
theorem SameButPaths.ofMemIf (s : State) (m : MemoryIf) : SameButPaths s (s.setMemIf m) :=
  ⟨rfl, rfl, rfl, rfl, rfl, rfl, rfl, rfl, rfl, rfl, rfl, rfl, rfl, rfl, rfl, rfl⟩

/-- Only the slots and the slot queue change. -/
theorem SameButPaths.ofSlots (s : State) (sl : Vector (Option Slot) 8) (q : List HostId) :
    SameButPaths s (s.setCapture { s.capture with slots := sl, slotQueue := q }) :=
  ⟨rfl, rfl, rfl, rfl, rfl, rfl, rfl, rfl, rfl, rfl, rfl, rfl, rfl, rfl, rfl, rfl⟩

theorem setEntryState_path (st : EntryState) (id : HostId) (s : State) : SameButPaths s (setEntryState st id s) := by
  refine ⟨?_, rfl, rfl, rfl, rfl, rfl, rfl, rfl, rfl, rfl, rfl, rfl, rfl, rfl, rfl, rfl⟩
  simp only [setEntryState, updateEntry, State.setHost_host, List.map_map]
  congr 1
  funext e
  simp only [Function.comp_apply]
  split <;> rfl

theorem markIssued_path (r : MemRequest) (s : State) : SameButPaths s (markIssued r s) := by
  unfold markIssued; split
  · exact setEntryState_path _ _ _
  · exact setEntryState_path _ _ _
  · exact .refl s

theorem issue_path (t : Fin 64) (r : MemRequest) (s : State) : SameButPaths s (issue t r s) :=
  (SameButPaths.ofMemIf s _).trans (markIssued_path _ _)

theorem handOver_path (r : MemRequest) (s : State) : SameButPaths s (handOver r s) := by
  unfold handOver; split
  · split
    · exact issue_path _ _ _
    · exact .ofMemIf s _
  · exact .ofMemIf s _

theorem serveRequests_path (rs : List MemRequest) (s : State) : SameButPaths s (serveRequests rs s) := by
  induction rs generalizing s with
  | nil => exact .ofMemIf s _
  | cons r rest ih =>
    unfold serveRequests; split
    · exact (issue_path _ _ s).trans (ih _)
    · exact .ofMemIf s _

theorem serveTagQueue_path (s : State) : SameButPaths s (serveTagQueue s) := serveRequests_path _ _

theorem setTag_path (t : Fin 64) (st : TagState) (s : State) : SameButPaths s (setTag t st s) := .ofMemIf s _

theorem releaseQuarantine_path (s : State) : SameButPaths s (releaseQuarantine s) :=
  (SameButPaths.ofMemIf s _).trans (serveTagQueue_path _)

theorem goToIssue_path (id : HostId) (s : State) : SameButPaths s (goToIssue id s) := by
  unfold goToIssue; split
  · exact .refl s
  · exact (setEntryState_path _ _ _).trans (handOver_path _ _)

theorem issueAll_path (ids : List HostId) (s : State) : SameButPaths s (issueAll ids s) := by
  induction ids generalizing s with
  | nil => exact .refl s
  | cons id rest ih => exact (goToIssue_path id s).trans (ih _)

theorem setSlot_path (i : Fin 8) (sl : Option Slot) (s : State) : SameButPaths s (setSlot i sl s) :=
  .ofSlots s _ s.capture.slotQueue

theorem takeSlot_path (i : Fin 8) (id : HostId) (s : State) : SameButPaths s (takeSlot i id s) := by
  unfold takeSlot; split
  · exact .refl s
  · exact ((setSlot_path _ _ _).trans (setEntryState_path _ _ _)).trans (handOver_path _ _)

theorem waitForSlot_path (id : HostId) (s : State) : SameButPaths s (waitForSlot id s) :=
  (SameButPaths.ofSlots s s.capture.slots _).trans (setEntryState_path _ _ _)

theorem askSlot_path (id : HostId) (s : State) : SameButPaths s (askSlot id s) := by
  unfold askSlot; split
  · split
    · exact takeSlot_path _ _ _
    · exact waitForSlot_path _ _
  · exact waitForSlot_path _ _

theorem freeSlot_path (i : Fin 8) (s : State) : SameButPaths s (freeSlot i s) := by
  unfold freeSlot; split
  · exact setSlot_path _ _ _
  · exact ((setSlot_path _ _ _).trans (.ofSlots _ _ _)).trans (takeSlot_path _ _ _)

theorem captureCheck_path (e : Entry) (s : State) : SameButPaths s (captureCheck e s) := by
  unfold captureCheck; split
  · exact askSlot_path _ _
  · exact goToIssue_path _ _

theorem passGate_path (id : HostId) (s : State) : SameButPaths s (passGate id s) := by
  unfold passGate; split
  · exact .refl s
  · split
    · exact captureCheck_path _ _
    · exact goToIssue_path _ _

theorem reachGate_path (id : HostId) (s : State) : SameButPaths s (reachGate id s) := by
  unfold reachGate; split
  · exact .refl s
  · split
    · exact passGate_path _ _
    · exact setEntryState_path _ _ _

theorem passAll_path (ids : List HostId) (s : State) : SameButPaths s (passAll ids s) := by
  induction ids generalizing s with
  | nil => exact .refl s
  | cons id rest ih => exact (passGate_path id s).trans (ih _)

theorem releaseParked_path (s : State) : SameButPaths s (releaseParked s) := passAll_path _ _

theorem lineGate_path (l : Line) (s : State) : SameButPaths s (lineGate l s) := by
  unfold lineGate; split
  · exact .refl s
  · split
    · exact reachGate_path _ _
    · exact .refl s

/-! ### Released entries -/

/-- No entry named `id` is PARKED. -/
def State.notParked (id : HostId) (s : State) : Prop := ∀ e ∈ s.host.table, e.id = id → e.state ≠ .parked

theorem updateEntry_state {id : HostId} {st : EntryState} {s : State} {x : Entry}
    (h : x ∈ (setEntryState st id s).host.table) : (x.id = id ∧ x.state = st) ∨ (x.id ≠ id ∧ x ∈ s.host.table) := by
  simp only [setEntryState, updateEntry, State.setHost_host, List.mem_map] at h
  obtain ⟨e, he, rfl⟩ := h
  split
  · rename_i eq; exact .inl ⟨eq, rfl⟩
  · rename_i ne; exact .inr ⟨ne, he⟩

/-- An operation that parks nothing: a PARKED entry afterwards was PARKED before, and keeps its name. -/
def ParksNone (s t : State) : Prop := ∀ x ∈ t.host.table, x.state = .parked → ∃ e ∈ s.host.table, e.id = x.id ∧ e.state = .parked

theorem ParksNone.refl (s : State) : ParksNone s s := fun x h p => ⟨x, h, rfl, p⟩

theorem ParksNone.trans {s t u : State} (a : ParksNone s t) (b : ParksNone t u) : ParksNone s u := fun x h p => by
  obtain ⟨e, he, hi, hp⟩ := b x h p
  obtain ⟨e', he', hi', hp'⟩ := a e he hp
  exact ⟨e', he', hi'.trans hi, hp'⟩

theorem ParksNone.ofTable {s t : State} (h : t.host.table = s.host.table) : ParksNone s t := fun x hx p =>
  ⟨x, h ▸ hx, rfl, p⟩

theorem setEntryState_parksNone {st : EntryState} (h : st ≠ .parked) (id : HostId) (s : State) :
    ParksNone s (setEntryState st id s) := fun x hx p => by
  rcases updateEntry_state hx with ⟨_, e⟩ | ⟨_, e⟩
  · exact absurd (e.symm.trans p) h
  · exact ⟨x, e, rfl, p⟩

theorem setEntryState_notParked {st : EntryState} (h : st ≠ .parked) (id : HostId) (s : State) :
    (setEntryState st id s).notParked id := fun x hx hi => by
  rcases updateEntry_state hx with ⟨_, e⟩ | ⟨ne, _⟩
  · exact e ▸ h
  · exact absurd hi ne

theorem ParksNone.keeps {s t : State} {id : HostId} (a : ParksNone s t) (h : s.notParked id) : t.notParked id :=
  fun x hx hi p => by
    obtain ⟨e, he, hi', hp⟩ := a x hx p
    exact h e he (hi'.trans hi) hp

theorem markIssued_parksNone (r : MemRequest) (s : State) : ParksNone s (markIssued r s) := by
  unfold markIssued; split
  · exact setEntryState_parksNone (by decide) _ _
  · exact setEntryState_parksNone (by decide) _ _
  · exact .refl s

theorem handOver_parksNone (r : MemRequest) (s : State) : ParksNone s (handOver r s) := by
  unfold handOver; split
  · split
    · exact (ParksNone.ofTable (by rfl)).trans (markIssued_parksNone _ _)
    · exact .ofTable rfl
  · exact .ofTable rfl

theorem goToIssue_parksNone (id : HostId) (s : State) : ParksNone s (goToIssue id s) := by
  unfold goToIssue; split
  · exact .refl s
  · exact (setEntryState_parksNone (by decide) _ _).trans (handOver_parksNone _ _)

theorem entry_none {id : HostId} {s : State} (h : s.entry id = none) : s.notParked id := fun x hx hi => by
  have := List.find?_eq_none.mp h x hx
  simp [hi] at this

theorem goToIssue_notParked (id : HostId) (s : State) : (goToIssue id s).notParked id := by
  unfold goToIssue; split
  · rename_i h; exact entry_none h
  · exact (handOver_parksNone _ _).keeps (setEntryState_notParked (by decide) _ _)

theorem takeSlot_parksNone (i : Fin 8) (id : HostId) (s : State) : ParksNone s (takeSlot i id s) := by
  unfold takeSlot; split
  · exact .refl s
  · refine ParksNone.trans ?_ (handOver_parksNone _ _)
    exact (ParksNone.ofTable (by rfl)).trans (setEntryState_parksNone (by decide) _ _)

theorem takeSlot_notParked (i : Fin 8) (id : HostId) (s : State) : (takeSlot i id s).notParked id := by
  unfold takeSlot; split
  · rename_i h; exact entry_none h
  · exact (handOver_parksNone _ _).keeps (setEntryState_notParked (by decide) _ _)

theorem waitForSlot_parksNone (id : HostId) (s : State) : ParksNone s (waitForSlot id s) :=
  (ParksNone.ofTable (by rfl)).trans (setEntryState_parksNone (by decide) _ _)

theorem waitForSlot_notParked (id : HostId) (s : State) : (waitForSlot id s).notParked id :=
  setEntryState_notParked (by decide) _ _

theorem passGate_parksNone (id : HostId) (s : State) : ParksNone s (passGate id s) := by
  unfold passGate captureCheck askSlot
  repeat' split
  all_goals first
    | exact .refl s
    | exact takeSlot_parksNone _ _ _
    | exact waitForSlot_parksNone _ _
    | exact goToIssue_parksNone _ _

theorem passGate_notParked (id : HostId) (s : State) : (passGate id s).notParked id := by
  unfold passGate
  split
  · rename_i h; exact entry_none h
  · rename_i e he
    have hid : e.id = id := by
      have := List.find?_some he
      simpa using this
    subst hid
    unfold captureCheck askSlot
    repeat' split
    all_goals first
      | exact takeSlot_notParked _ _ _
      | exact waitForSlot_notParked _ _
      | exact goToIssue_notParked _ _

theorem passAll_parksNone (ids : List HostId) (s : State) : ParksNone s (passAll ids s) := by
  induction ids generalizing s with
  | nil => exact .refl s
  | cons id rest ih => exact (passGate_parksNone id s).trans (ih _)

theorem passAll_notParked {ids : List HostId} {id : HostId} (h : id ∈ ids) (s : State) : (passAll ids s).notParked id := by
  induction ids generalizing s with
  | nil => cases h
  | cons a rest ih =>
    rcases List.mem_cons.mp h with h | h
    · subst h
      exact (passAll_parksNone rest (passGate id s)).keeps (passGate_notParked id s)
    · exact ih h _

/-- R28: no entry is PARKED after a release. -/
theorem releaseParked_none (s : State) : ∀ e ∈ (releaseParked s).host.table, e.state ≠ .parked := by
  intro x hx p
  obtain ⟨e, he, hi, hp⟩ := passAll_parksNone s.parked s x hx p
  have mem : x.id ∈ s.parked := by
    unfold State.parked
    rw [← hi]
    exact List.mem_map_of_mem (List.mem_filter.mpr ⟨he, by simp [hp]⟩)
  exact passAll_notParked mem s x hx rfl p

end Sys2Proof.Machine
end

