-- ==== Sys2Proof/Laws/Breaks.lean ====
section
/-! SUPPORT. What sending entries to issue, and a break of the top epoch, can change (R44, R36, R58). -/

namespace Sys2Proof.Machine

theorem markIssued_capture (r : MemRequest) (s : State) : (markIssued r s).capture = s.capture := by
  unfold markIssued; split <;> rfl

theorem handOver_capture (r : MemRequest) (s : State) : (handOver r s).capture = s.capture := by
  unfold handOver; split
  · split
    · exact markIssued_capture _ _
    · rfl
  · rfl

theorem goToIssue_capture (id : HostId) (s : State) : (goToIssue id s).capture = s.capture := by
  unfold goToIssue; split
  · rfl
  · exact handOver_capture _ _

theorem issueAll_capture (ids : List HostId) (s : State) : (issueAll ids s).capture = s.capture := by
  induction ids generalizing s with
  | nil => rfl
  | cons id rest ih => exact (ih _).trans (goToIssue_capture id s)

/-- An entry that is not as it was waits for its tag or has one. -/
def IssuesOnly (s t : State) : Prop :=
  ∀ x ∈ t.host.table, x.state = .issueWait ∨ x.state = .issued ∨ x ∈ s.host.table

theorem IssuesOnly.refl (s : State) : IssuesOnly s s := fun _ h => .inr (.inr h)

theorem IssuesOnly.trans {s t u : State} (a : IssuesOnly s t) (b : IssuesOnly t u) : IssuesOnly s u := fun x h => by
  rcases b x h with h | h | h
  · exact .inl h
  · exact .inr (.inl h)
  · exact a x h

theorem handOver_issues (r : MemRequest) (s : State) : IssuesOnly s (handOver r s) := by
  have marked : ∀ u : State, u.host = s.host → IssuesOnly s (markIssued r u) := by
    intro u hu x hx
    unfold markIssued at hx
    split at hx
    · rcases updateEntry_state hx with ⟨_, e⟩ | ⟨_, e⟩
      · exact .inr (.inl e)
      · exact .inr (.inr (hu ▸ e))
    · rcases updateEntry_state hx with ⟨_, e⟩ | ⟨_, e⟩
      · exact .inr (.inl e)
      · exact .inr (.inr (hu ▸ e))
    · exact .inr (.inr (hu ▸ hx))
  unfold handOver; split
  · split
    · exact marked _ rfl
    · exact .refl s
  · exact .refl s

theorem goToIssue_issues (id : HostId) (s : State) : IssuesOnly s (goToIssue id s) := by
  unfold goToIssue; split
  · exact .refl s
  · refine IssuesOnly.trans ?_ (handOver_issues _ _)
    intro x hx
    rcases updateEntry_state hx with ⟨_, e⟩ | ⟨_, e⟩
    · exact .inl e
    · exact .inr (.inr e)

/-- The entry itself waits for its tag or has one. -/
theorem goToIssue_self (id : HostId) (s : State) :
    ∀ x ∈ (goToIssue id s).host.table, x.id = id → x.state = .issueWait ∨ x.state = .issued := by
  intro x hx hi
  unfold goToIssue at hx; split at hx
  · rename_i none'
    have := List.find?_eq_none.mp none' x hx
    simp [hi] at this
  · rcases handOver_issues _ _ x hx with h | h | h
    · exact .inl h
    · exact .inr h
    · rcases updateEntry_state h with ⟨_, e⟩ | ⟨ne, _⟩
      · exact .inl e
      · exact absurd hi ne

/-- R44: after several entries went to issue, each entry waits for its tag, has one, or was not among them. -/
theorem issueAll_issues (ids : List HostId) (s : State) : ∀ x ∈ (issueAll ids s).host.table,
    x.state = .issueWait ∨ x.state = .issued ∨ (x ∈ s.host.table ∧ x.id ∉ ids) := by
  induction ids generalizing s with
  | nil => intro x hx; exact .inr (.inr ⟨hx, by simp⟩)
  | cons id rest ih =>
    intro x hx
    rcases ih _ x hx with h | h | ⟨h, out⟩
    · exact .inl h
    · exact .inr (.inl h)
    · by_cases hi : x.id = id
      · rcases goToIssue_self id s x h hi with h | h
        · exact .inl h
        · exact .inr (.inl h)
      · rcases goToIssue_issues id s x h with h | h | h
        · exact .inl h
        · exact .inr (.inl h)
        · exact .inr (.inr ⟨h, by simp [hi, out]⟩)

/-- R58: after the notice no entry waits for a slot or for space. -/
theorem brokenNotice_waiters (s : State) :
    ∀ x ∈ (brokenNotice s).host.table, x.state ≠ .slotWait ∧ x.state ≠ .spaceWait := by
  intro x hx
  rcases issueAll_issues _ _ x hx with h | h | ⟨h, out⟩
  · simp [h]
  · simp [h]
  · have : ∀ st : EntryState, (st = .slotWait ∨ st = .spaceWait) → x.state ≠ st := by
      rintro st hst rfl
      refine out (List.mem_map_of_mem (List.mem_filter.mpr ⟨h, ?_⟩))
      simpa using hst
    exact ⟨this _ (.inl rfl), this _ (.inr rfl)⟩

/-- R58: what the notice leaves beside the entries and the memory interface. -/
theorem brokenNotice_path (s : State) :
    SameButPaths ((s.setJournal { s.journal with waiting := [] }).setSpace { s.space with fullWaits := [] })
      (brokenNotice s) :=
  (SameButPaths.ofSlots _ (s.capture.slots.map noticeSlot) []).trans (issueAll_path _ _)

theorem brokenNotice_capture (s : State) :
    (brokenNotice s).capture = { s.capture with slots := s.capture.slots.map noticeSlot, slotQueue := [] } :=
  issueAll_capture _ _

/-- R36: a break of an OPEN top epoch. -/
theorem breakTop_open {s : State} {e : Epoch} {rest : List Epoch} (h : s.epochs.stack = e :: rest) (opened : e.broken = none)
    (r : BrokenReason) :
    breakTop r s = brokenNotice (post (some e.number) (.epochBroken r s.depth)
      (setStack ({ e with broken := some r } :: rest) s)) := by
  simp [breakTop, h, opened]

theorem post_frame (n : Option EpochNo) (k : EventKind) (s : State) :
    (post n k s).host = s.host ∧ (post n k s).windows = s.windows ∧ (post n k s).epochs = s.epochs ∧
      (post n k s).capture = s.capture ∧ (post n k s).journal = s.journal ∧ (post n k s).replay = s.replay ∧
      (post n k s).space = s.space ∧ (post n k s).memIf = s.memIf ∧ (post n k s).timebase = s.timebase ∧
      (post n k s).inReset = s.inReset ∧ (post n k s).fresh = s.fresh ∧ (post n k s).pending = s.pending := by
  unfold post; split <;> simp

@[simp] theorem post_host (n : Option EpochNo) (k : EventKind) (s : State) : (post n k s).host = s.host :=
  (post_frame n k s).1
@[simp] theorem post_windows (n : Option EpochNo) (k : EventKind) (s : State) : (post n k s).windows = s.windows :=
  (post_frame n k s).2.1
@[simp] theorem post_epochs (n : Option EpochNo) (k : EventKind) (s : State) : (post n k s).epochs = s.epochs :=
  (post_frame n k s).2.2.1
@[simp] theorem post_capture (n : Option EpochNo) (k : EventKind) (s : State) : (post n k s).capture = s.capture :=
  (post_frame n k s).2.2.2.1
@[simp] theorem post_journal (n : Option EpochNo) (k : EventKind) (s : State) : (post n k s).journal = s.journal :=
  (post_frame n k s).2.2.2.2.1
@[simp] theorem post_replay (n : Option EpochNo) (k : EventKind) (s : State) : (post n k s).replay = s.replay :=
  (post_frame n k s).2.2.2.2.2.1
@[simp] theorem post_space (n : Option EpochNo) (k : EventKind) (s : State) : (post n k s).space = s.space :=
  (post_frame n k s).2.2.2.2.2.2.1
@[simp] theorem post_memIf (n : Option EpochNo) (k : EventKind) (s : State) : (post n k s).memIf = s.memIf :=
  (post_frame n k s).2.2.2.2.2.2.2.1
@[simp] theorem post_timebase (n : Option EpochNo) (k : EventKind) (s : State) : (post n k s).timebase = s.timebase :=
  (post_frame n k s).2.2.2.2.2.2.2.2.1
@[simp] theorem post_inReset (n : Option EpochNo) (k : EventKind) (s : State) : (post n k s).inReset = s.inReset :=
  (post_frame n k s).2.2.2.2.2.2.2.2.2.1
@[simp] theorem post_fresh (n : Option EpochNo) (k : EventKind) (s : State) : (post n k s).fresh = s.fresh :=
  (post_frame n k s).2.2.2.2.2.2.2.2.2.2.1
@[simp] theorem post_pending (n : Option EpochNo) (k : EventKind) (s : State) : (post n k s).pending = s.pending :=
  (post_frame n k s).2.2.2.2.2.2.2.2.2.2.2

/-- A posting changes the event queue and the dropped count alone. -/
@[simp] theorem post_params (n : Option EpochNo) (k : EventKind) (s : State) :
    (post n k s).service.params = s.service.params := by unfold post; split <;> rfl
@[simp] theorem post_coreReset (n : Option EpochNo) (k : EventKind) (s : State) :
    (post n k s).service.coreReset = s.service.coreReset := by unfold post; split <;> rfl
@[simp] theorem post_work (n : Option EpochNo) (k : EventKind) (s : State) :
    (post n k s).service.work = s.service.work := by unfold post; split <;> rfl
@[simp] theorem post_held (n : Option EpochNo) (k : EventKind) (s : State) :
    (post n k s).service.held = s.service.held := by unfold post; split <;> rfl
@[simp] theorem post_exchange (n : Option EpochNo) (k : EventKind) (s : State) :
    (post n k s).service.exchange = s.service.exchange := by unfold post; split <;> rfl
@[simp] theorem post_mode (n : Option EpochNo) (k : EventKind) (s : State) :
    (post n k s).service.mode = s.service.mode := by unfold post; split <;> rfl

/-- A posting stands beside every change outside the service interface. -/
@[simp] theorem post_setHost (n : Option EpochNo) (k : EventKind) (s : State) (h : HostIf) :
    post n k (s.setHost h) = (post n k s).setHost h := by
  by_cases r : s.service.events.length < Config.eventQueueSize <;> simp [post, r] <;> rfl
@[simp] theorem post_setWindows (n : Option EpochNo) (k : EventKind) (s : State) (h : Vector Window 16) :
    post n k (s.setWindows h) = (post n k s).setWindows h := by
  by_cases r : s.service.events.length < Config.eventQueueSize <;> simp [post, r] <;> rfl
@[simp] theorem post_setEpochs (n : Option EpochNo) (k : EventKind) (s : State) (h : EpochCtl) :
    post n k (s.setEpochs h) = (post n k s).setEpochs h := by
  by_cases r : s.service.events.length < Config.eventQueueSize <;> simp [post, r] <;> rfl
@[simp] theorem post_setCapture (n : Option EpochNo) (k : EventKind) (s : State) (h : CaptureUnit) :
    post n k (s.setCapture h) = (post n k s).setCapture h := by
  by_cases r : s.service.events.length < Config.eventQueueSize <;> simp [post, r] <;> rfl
@[simp] theorem post_setJournal (n : Option EpochNo) (k : EventKind) (s : State) (h : JournalUnit) :
    post n k (s.setJournal h) = (post n k s).setJournal h := by
  by_cases r : s.service.events.length < Config.eventQueueSize <;> simp [post, r] <;> rfl
@[simp] theorem post_setReplay (n : Option EpochNo) (k : EventKind) (s : State) (h : ReplayUnit) :
    post n k (s.setReplay h) = (post n k s).setReplay h := by
  by_cases r : s.service.events.length < Config.eventQueueSize <;> simp [post, r] <;> rfl
@[simp] theorem post_setSpace (n : Option EpochNo) (k : EventKind) (s : State) (h : SpaceMonitor) :
    post n k (s.setSpace h) = (post n k s).setSpace h := by
  by_cases r : s.service.events.length < Config.eventQueueSize <;> simp [post, r] <;> rfl
@[simp] theorem post_setMemIf (n : Option EpochNo) (k : EventKind) (s : State) (h : MemoryIf) :
    post n k (s.setMemIf h) = (post n k s).setMemIf h := by
  by_cases r : s.service.events.length < Config.eventQueueSize <;> simp [post, r] <;> rfl

end Sys2Proof.Machine
end

