-- ==== Sys2Proof/Laws/Moves.lean ====
section
/-! SUPPORT. What a step can do, said once: every operation is a chain of the moves listed here, so a law that each move keeps
is kept by every step (Laws/Steps.lean). -/

namespace Sys2Proof.Machine

/-- One move. `hold` allows a change of the holds, of their thresholds, of the core reset in progress, and of the held
frame, `config` one of the window table or DEFAULT_ACTION. -/
inductive Move (hold config : Bool) : State → State → Prop
  | table (s : State) (h : List Entry) (names : (h.map (·.id)).Sublist (s.host.table.map (·.id))) :
      Move hold config s (s.setHost { s.host with table := h })
  | enter (s : State) (e : Entry) (hl : s.host.table.length < Config.tableSize) (new : s.entry e.id = none) :
      Move hold config s (s.setHost { s.host with table := s.host.table ++ [e] })
  | queue (s : State) (q : List HostMessage) (l : Option HostMessage) :
      Move hold config s (s.setHost { s.host with sendQueue := q, lastSent := l })
  | told (s : State) (b : Bool) (ok : hold = true) : Move hold config s (tellHold b s)
  | holds (s : State) (a m : Bool) (ok : hold = true) :
      Move hold config s (s.setSpace { s.space with auto := a, manual := m })
  | timers (s : State) (r : Option Tick) (f : List (HostId × Tick)) :
      Move hold config s (s.setSpace { s.space with refreshTimer := r, fullWaits := f })
  | hit (s : State) (i : Fin 16) : Move hold config s (countHit i s)
  | window (s : State) (i : Fin 16) (w : Window) (ok : config = true) (lock : s.depth = 0) (hv : w.valid') :
      Move hold config s (s.setWindows (s.windows.set i w))
  | params (s : State) (p : Params) (hv : s.service.params.valid → p.valid)
      (lock : p.defaultAction = s.service.params.defaultAction ∨ (config = true ∧ s.depth = 0))
      (thresholds : hold = true ∨ (p.holdOnFree = s.service.params.holdOnFree ∧ p.holdOffFree = s.service.params.holdOffFree)) :
      Move hold config s (setParams p s)
  | push (s : State) (n : EpochNo) (hn : n = s.newEpochNumber) (hc : s.epochs.command = some .checkpoint) :
      Move hold config s (s.setEpochs {
        stack := { number := n, start := s.journal.nextSeq, broken := none, records := 0 } :: s.epochs.stack
        nextEpoch := followingEpoch n
        controller := .idle
        command := none })
  | stack (s : State) (st : List Epoch)
      (h : (st.map (·.number)).Sublist (s.epochs.stack.map (·.number))) : Move hold config s (setStack st s)
  | control (s : State) (c : Controller) (cmd : Option PendingCommand) (hc : cmd ≠ none → c = .draining)
      (hd : cmd = some .checkpoint → s.epochs.stack.length < Config.maxDepth) :
      Move hold config s (setController c cmd s)
  | slots (s : State) (sl : Vector (Option Slot) 8) (q : List HostId) :
      Move hold config s (s.setCapture { s.capture with slots := sl, slotQueue := q })
  | mark (s : State) (l : Line) : Move hold config s (insertMark l s)
  | unmark (s : State) (n : BitVec 32) : Move hold config s (s.setCapture { s.capture with marks := [], markSpills := n })
  | journal (s : State) (j : JournalUnit) (hm : j.memory = s.journal.memory) (ho : j.outstanding = s.journal.outstanding) :
      Move hold config s (s.setJournal j)
  | issued (s : State) (p : Fin 8) (op : PortOp) (side : Side) (hp : s.freePort = some p) :
      Move hold config s (grant p op side s)
  | ended (s : State) (p : Fin 8) : Move hold config s (dropPort p s)
  | memory (s : State) (a : Nat) (bytes : List Byte) :
      Move hold config s (s.setJournal { s.journal with memory := Memory.writeBytes s.journal.memory a bytes })
  | replay (s : State) (r : ReplayUnit) : Move hold config s (s.setReplay r)
  | handOver (s : State) (r : MemRequest) : Move hold config s (handOver r s)
  | completed (s : State) (t : Fin 64) : Move hold config s (serveTagQueue (setTag t .free s))
  | quarantined (s : State) (t : Fin 64) : Move hold config s (setTag t .quarantined s)
  | released (s : State) : Move hold config s (releaseQuarantine s)
  | service (s : State) (v : ServiceIf) (hp : v.params = s.service.params) (he : v.events.length ≤ s.service.events.length)
      (hr : hold = true ∨ (v.coreReset = s.service.coreReset ∧ v.held = s.service.held)) : Move hold config s (s.setService v)
  | posted (s : State) (n : Option EpochNo) (k : EventKind) : Move hold config s (post n k s)
  | clock (s : State) (t : Tick) : Move hold config s (s.setTimebase t)
  | fresh (s : State) (n : Nat) : Move hold config s (s.setFresh n)
  | queued (s : State) (p : List Instr) : Move hold config s (s.setPending p)
  | pins (s : State) (b : Bool) (okHold : hold = true) (okConfig : config = true) :
      Move hold config s ((pinValues s).setInReset b)

/-- A chain of moves. -/
abbrev Moves (hold config : Bool) : State → State → Prop := Relation.ReflTransGen (Move hold config)

variable {hold config : Bool}

theorem Moves.trans {s t u : State} (a : Moves hold config s t) (b : Moves hold config t u) : Moves hold config s u :=
  Relation.ReflTransGen.trans a b

theorem Moves.one {s t : State} (m : Move hold config s t) : Moves hold config s t := Relation.ReflTransGen.single m

theorem Moves.refl (s : State) : Moves hold config s s := Relation.ReflTransGen.refl

/-- A law that every move keeps is kept by a chain of moves. -/
theorem Moves.keeps {P : State → Prop} {s t : State} (each : ∀ a b, Move hold config a b → P a → P b)
    (m : Moves hold config s t) (h : P s) : P t := by
  induction m with
  | refl => exact h
  | tail _ last ih => exact each _ _ last ih

/-! ### Entries, the send queue, the timebase -/

theorem moves_updateEntry (id : HostId) (f : Entry → Entry) (keeps : ∀ e, (f e).id = e.id) (s : State) :
    Moves hold config s (updateEntry id f s) := by
  refine .one (.table s _ ?_)
  rw [List.map_map]
  have same : (Entry.id ∘ fun e => if e.id = id then f e else e) = Entry.id := by
    funext e; simp only [Function.comp_apply]; split
    · exact keeps e
    · rfl
  rw [same]

theorem moves_setEntryState (st : EntryState) (id : HostId) (s : State) : Moves hold config s (setEntryState st id s) :=
  moves_updateEntry id (fun e => { e with state := st }) (fun _ => rfl) s

theorem moves_send (m : HostMessage) (s : State) : Moves hold config s (send m s) := .one (.queue s _ s.host.lastSent)

theorem moves_answer (id : HostId) (w : Bool) (st : HostStatus) (d : List Word) (s : State) :
    Moves hold config s (answer id w st d s) := (moves_updateEntry id (fun e => { e with response := some { status := st, data := d } }) (fun _ => rfl) s).trans (moves_send _ _)

theorem moves_post (n : Option EpochNo) (k : EventKind) (s : State) : Moves hold config s (post n k s) := .one (.posted s n k)

theorem moves_advanceTo (e : Tick) (s : State) : Moves hold config s (advanceTo e s) := by
  unfold advanceTo; split
  · exact .one (.clock s _)
  · exact .refl s

theorem moves_nextFresh (s : State) : Moves hold config s (nextFresh s) := .one (.fresh s _)

/-! ### The path of an entry -/

theorem moves_goToIssue (id : HostId) (s : State) : Moves hold config s (goToIssue id s) := by
  unfold goToIssue; split
  · exact .refl s
  · exact (moves_setEntryState _ _ _).tail (.handOver _ _)

theorem moves_issueAll (ids : List HostId) (s : State) : Moves hold config s (issueAll ids s) := by
  induction ids generalizing s with
  | nil => exact .refl s
  | cons id rest ih => exact (moves_goToIssue id s).trans (ih _)

theorem moves_setSlot (i : Fin 8) (sl : Option Slot) (s : State) : Moves hold config s (setSlot i sl s) :=
  .one (.slots s _ s.capture.slotQueue)

theorem moves_takeSlot (i : Fin 8) (id : HostId) (s : State) : Moves hold config s (takeSlot i id s) := by
  unfold takeSlot; split
  · exact .refl s
  · exact ((moves_setSlot _ _ _).trans (moves_setEntryState _ _ _)).tail (.handOver _ _)

theorem moves_waitForSlot (id : HostId) (s : State) : Moves hold config s (waitForSlot id s) :=
  (Moves.one (.slots s s.capture.slots _)).trans (moves_setEntryState _ _ _)

theorem moves_askSlot (id : HostId) (s : State) : Moves hold config s (askSlot id s) := by
  unfold askSlot; split
  · split
    · exact moves_takeSlot _ _ _
    · exact moves_waitForSlot _ _
  · exact moves_waitForSlot _ _

theorem moves_freeSlot (i : Fin 8) (s : State) : Moves hold config s (freeSlot i s) := by
  unfold freeSlot; split
  · exact moves_setSlot _ _ _
  · exact ((moves_setSlot _ _ _).tail (.slots _ _ _)).trans (moves_takeSlot _ _ _)

theorem moves_captureCheck (e : Entry) (s : State) : Moves hold config s (captureCheck e s) := by
  unfold captureCheck; split
  · exact moves_askSlot _ _
  · exact moves_goToIssue _ _

theorem moves_passGate (id : HostId) (s : State) : Moves hold config s (passGate id s) := by
  unfold passGate; split
  · exact .refl s
  · split
    · exact moves_captureCheck _ _
    · exact moves_goToIssue _ _

theorem moves_reachGate (id : HostId) (s : State) : Moves hold config s (reachGate id s) := by
  unfold reachGate; split
  · exact .refl s
  · split
    · exact moves_passGate _ _
    · exact moves_setEntryState _ _ _

theorem moves_passAll (ids : List HostId) (s : State) : Moves hold config s (passAll ids s) := by
  induction ids generalizing s with
  | nil => exact .refl s
  | cons id rest ih => exact (moves_passGate id s).trans (ih _)

theorem moves_releaseParked (s : State) : Moves hold config s (releaseParked s) := moves_passAll _ _

/-! ### Breaks and the stack -/

theorem moves_brokenNotice (s : State) : Moves hold config s (brokenNotice s) := by
  refine Moves.trans ?_ (moves_issueAll _ _)
  exact ((Moves.one (.slots s _ _)).tail (.journal _ _ (by rfl) (by rfl))).tail (.timers _ s.space.refreshTimer [])

theorem moves_breakTop (r : BrokenReason) (s : State) : Moves hold config s (breakTop r s) := by
  unfold breakTop; split
  · exact .refl s
  · rename_i e rest he
    split
    · exact ((Moves.one (.stack s _ (by simp [he]))).trans (moves_post _ _ _)).trans (moves_brokenNotice _)
    · exact .refl s

/-! ### The journal -/

theorem moves_setMap (m : List Segment) (s : State) : Moves hold config s (setMap m s) := .one (.journal s _ rfl rfl)

theorem moves_updateSegment (q : SegNo) (f : Segment → Segment) (s : State) :
    Moves hold config s (updateSegment q f s) := moves_setMap _ _

theorem moves_countPosition (s : State) : Moves hold config s (countPosition s) := by
  unfold countPosition; split
  · exact .refl s
  · rename_i e rest he; exact .one (.stack s _ (by simp [he]))

theorem moves_setStage (i : Fin 8) (st : SlotStage) (s : State) : Moves hold config s (setStage i st s) := moves_setSlot _ _ _

theorem moves_stopFullWait (id : HostId) (s : State) : Moves hold config s (stopFullWait id s) :=
  .one (.timers s s.space.refreshTimer _)

theorem moves_takePlace (r : AppendRequest) (e : Segment) (s : State) : Moves hold config s (takePlace r e s) := by
  refine Moves.trans ?_ (moves_countPosition _)
  refine Moves.trans ?_ (moves_stopFullWait _ _)
  refine Moves.trans ?_ (moves_setEntryState _ _ _)
  refine Moves.trans ?_ (moves_setStage _ _ _)
  exact .one (.journal s _ (by rfl) (by rfl))

theorem moves_allocate (s : State) : Moves hold config s (allocate s) := by
  unfold allocate; split
  · exact .refl s
  · exact .one (.journal s _ rfl rfl)

theorem moves_givePosition (r : AppendRequest) (s : State) : Moves hold config s (givePosition r s) := by
  have room : Moves hold config s (if s.fillingHasRoom then s else allocate s) := by
    split
    · exact .refl s
    · exact moves_allocate s
  unfold givePosition
  simp only
  split
  · exact room
  · exact room.trans (moves_takePlace _ _ _)

theorem moves_serveAppends (rs : List AppendRequest) (s : State) : Moves hold config s (serveAppends rs s) := by
  induction rs generalizing s with
  | nil => exact .one (.journal s _ rfl rfl)
  | cons r rest ih =>
    unfold serveAppends; split
    · exact (moves_givePosition r s).trans (ih _)
    · exact .one (.journal s _ rfl rfl)

theorem moves_freeSegments (ps : List Phys) (s : State) : Moves hold config s (freeSegments ps s) := by
  refine Moves.trans ?_ (moves_serveAppends _ _)
  exact .one (.journal s _ (by rfl) (by rfl))

theorem moves_waitForSpace (r : AppendRequest) (s : State) : Moves hold config s (waitForSpace r s) := by
  have wait := (((Moves.one (hold := hold) (config := config)
    (.journal s { s.journal with waiting := s.journal.waiting ++ [r] } rfl rfl)).tail
    (.timers _ s.space.refreshTimer (s.space.fullWaits ++
          [(r.entry, s.timebase + BitVec.ofNat 32 s.service.params.fullWait)]))).trans
            (moves_setStage r.slot .space _)).trans (moves_setEntryState .spaceWait r.entry _)
  unfold waitForSpace; simp only; split
  · exact wait.trans (moves_breakTop _ _)
  · exact wait

theorem moves_appendRequest (r : AppendRequest) (s : State) : Moves hold config s (appendRequest r s) := by
  unfold appendRequest; split
  · exact moves_givePosition _ _
  · exact moves_waitForSpace _ _

theorem moves_truncate (c : Seq) (s : State) : Moves hold config s (truncate c s) := by
  refine Moves.trans ?_ (moves_freeSegments _ _)
  exact .one (.journal s _ (by rfl) (by rfl))

theorem moves_discardJournal (s : State) : Moves hold config s (discardJournal s) :=
  (moves_setMap _ _).trans (moves_freeSegments _ _)

theorem moves_landWrite (a : Nat) (bytes : List Byte) (st : Status) (s : State) :
    Moves hold config s (landWrite a bytes st s) := by
  unfold landWrite; split
  · exact .one (.memory s _ _)
  · exact (Moves.one (.memory s _ _)).trans (moves_nextFresh _)

/-! ### Answers, the controller, the replay context -/

theorem moves_respond (a : Answer) (s : State) : Moves hold config s (respond a s) := by
  unfold respond; split
  · exact .refl s
  · exact .one (.service s _ rfl le_rfl (.inr ⟨rfl, rfl⟩))

theorem moves_idle (s : State) (c : Controller) : Moves hold config s (setController c none s) :=
  .one (.control s c none (by simp) (by simp))

theorem moves_setContext (c : Option ReplayContext) (s : State) : Moves hold config s (setContext c s) := .one (.replay s _)

theorem moves_setRefillTimer (t : Option Tick) (s : State) : Moves hold config s (setRefillTimer t s) := .one (.replay s _)

theorem moves_clearMarks (s : State) : Moves hold config s (clearMarks s) := .one (.unmark s s.capture.markSpills)

end Sys2Proof.Machine
end

