-- ==== Sys2Proof/Laws/Steps.lean ====
section
/-! SUPPORT. Every operation, every command and every step as a chain of moves (Laws/Moves.lean). -/

namespace Sys2Proof.Machine

variable {hold config : Bool}

/-! ### The replay unit -/

theorem moves_recallSegment (c : ReplayContext) (e : Segment) (s : State) : Moves hold config s (recallSegment c e s) := by
  unfold recallSegment; split
  · exact .refl s
  · exact (moves_updateSegment _ _ _).trans (moves_post _ _ _)

theorem moves_awaitRefill (c : ReplayContext) (e : Segment) (s : State) : Moves hold config s (awaitRefill c e s) :=
  ((moves_setContext _ _).trans (moves_setRefillTimer _ _)).trans (moves_idle _ _)

theorem moves_takeRefillSegment (s : State) : Moves hold config s (takeRefillSegment s) := by
  unfold takeRefillSegment
  split
  · exact .refl s
  · split
    · split
      · split
        · exact .refl s
        · split
          · refine Moves.trans ?_ (moves_post _ _ _)
            refine Moves.trans ?_ (moves_setContext _ _)
            refine Moves.trans ?_ (moves_updateSegment _ _ _)
            exact .one (.journal s _ (by rfl) (by rfl))
          · exact .refl s
      · exact .refl s
    · exact .refl s

theorem moves_reach (c : ReplayContext) (e : Segment) (s : State) : Moves hold config s (reach c e s) := by
  unfold reach
  simp only
  split
  · exact (moves_setContext _ _).trans (moves_recallSegment _ _ _)
  · exact ((moves_setContext _ _).trans (moves_awaitRefill _ _ _)).trans (moves_takeRefillSegment _)
  · exact moves_setContext _ _

theorem moves_startWalk (e : Epoch) (n : BitVec 32) (s : State) : Moves hold config s (startWalk e n s) := by
  have start : ∀ c, Moves hold config s (setContext c (clearMarks (setController .replay none s))) := fun c =>
    ((moves_idle s _).trans (moves_clearMarks _)).trans (moves_setContext _ _)
  unfold startWalk
  simp only
  split
  · exact start _
  · split
    · exact start _
    · exact (start _).trans (moves_reach _ _ _)

theorem moves_popTail (s : State) : Moves hold config s (setStack s.epochs.stack.tail s) :=
  .one (.stack s _ ((List.tail_sublist _).map _))

theorem moves_completeSuccess (s : State) : Moves hold config s (completeSuccess s) := by
  unfold completeSuccess
  split
  · split
    · exact .refl s
    · simp only
      refine Moves.trans ?_ (moves_releaseParked _)
      refine Moves.trans ?_ (moves_idle _ _)
      refine Moves.trans ?_ (moves_setContext _ _)
      refine Moves.trans ?_ (moves_post _ _ _)
      exact (moves_truncate _ _).trans (moves_popTail _)
  · exact .refl s

theorem moves_recountTop (s : State) : Moves hold config s (recountTop s) := by
  unfold recountTop; split
  · exact .refl s
  · rename_i e rest he; exact .one (.stack s _ (by simp [he]))

theorem moves_completeFailure (s : State) : Moves hold config s (completeFailure s) := by
  unfold completeFailure
  split
  · split
    · exact .refl s
    · split
      · exact .refl s
      · refine Moves.trans ?_ (moves_post _ _ _)
        refine Moves.trans ?_ (moves_setContext _ _)
        refine Moves.trans ?_ (moves_idle _ _)
        exact (moves_truncate _ _).trans (moves_recountTop _)
  · exact .refl s

theorem moves_settleRollback (s : State) : Moves hold config s (settleRollback s) :=
  ((moves_takeRefillSegment s).trans (moves_completeFailure _)).trans (moves_completeSuccess _)

theorem moves_failRollback (c : ReplayContext) (r : FailReason) (n : Seq) (s : State) :
    Moves hold config s (failRollback c r n s) := by
  have set : ∀ x, Moves hold config s (setContext x (setRefillTimer none s)) := fun x =>
    (moves_setRefillTimer _ _).trans (moves_setContext _ _)
  unfold failRollback
  simp only
  split
  · exact set _
  · exact ((set _).trans (moves_updateSegment _ _ _)).trans (moves_freeSegments _ _)

theorem moves_dropConsumed (c : ReplayContext) (s : State) : Moves hold config s (dropConsumed c s) :=
  (moves_setMap _ _).trans (moves_freeSegments _ _)

theorem moves_restoreEnds (n : Seq) (ok : Bool) (s : State) : Moves hold config s (restoreEnds n ok s) := by
  unfold restoreEnds
  split
  · exact .refl s
  · simp only
    split
    · exact .refl s
    · split
      · exact moves_setContext _ _
      · split
        · exact (moves_setContext _ _).trans (moves_dropConsumed _ _)
        · exact (moves_setContext _ _).trans (moves_dropConsumed _ _)
        · exact (moves_setContext _ _).trans (moves_failRollback _ _ _ _)
        · exact moves_setContext _ _

theorem moves_holdRecord (c : ReplayContext) (n : Seq) (r : List Byte) (s : State) :
    Moves hold config s (holdRecord c n r s) := by
  unfold holdRecord
  simp only
  split
  · exact moves_setContext _ _
  · split
    · exact moves_setContext _ _
    · split
      · exact moves_setContext _ _
      · exact moves_reach _ _ _

theorem moves_checkRecord (c : ReplayContext) (n : Seq) (r : List Byte) (s : State) :
    Moves hold config s (checkRecord c n r s) := by
  unfold checkRecord; split
  · split
    · exact moves_holdRecord _ _ _ _
    · exact moves_failRollback _ _ _ _
  · exact moves_failRollback _ _ _ _

theorem moves_issueRecordRead (c : ReplayContext) (e : Segment) (n : Seq) (s : State) :
    Moves hold config s (issueRecordRead c e n s) := by
  refine Moves.trans ?_ (moves_setContext _ _)
  exact .one (.journal s _ (by rfl) (by rfl))

theorem moves_handOverRestore (c : ReplayContext) (h : HeldRecord) (s : State) :
    Moves hold config s (handOverRestore c h s) := (moves_setContext _ _).tail (.handOver _ _)

/-! ### The epoch controller -/

theorem moves_checkpointEffect (s : State) (h : s.epochs.command = some .checkpoint) :
    Moves hold config s (checkpointEffect s) := by
  unfold checkpointEffect
  simp only
  refine Moves.trans ?_ (moves_releaseParked _)
  refine Moves.trans ?_ (moves_post _ _ _)
  exact (Moves.one (.push s _ rfl h)).trans (moves_clearMarks _)

theorem moves_commitNested (child parent : Epoch) (rest : List Epoch) (s : State)
    (h : s.epochs.stack = child :: parent :: rest) : Moves hold config s (commitNested child parent rest s) := by
  have popped : Moves hold config s (setStack (mergeChild child parent :: rest) s) :=
    .one (.stack s _ (by simp [h, mergeChild]))
  unfold commitNested
  simp only
  refine Moves.trans ?_ (moves_releaseParked _)
  refine Moves.trans ?_ (moves_idle _ _)
  split
  · exact (popped.trans (moves_post _ _ _)).trans (moves_post _ _ _)
  · exact popped.trans (moves_post _ _ _)

theorem moves_postDiscard (n : Option EpochNo) (r : Option (SegNo × SegNo)) (s : State) :
    Moves hold config s (postDiscard n r s) := by
  unfold postDiscard; split
  · exact .refl s
  · exact moves_post _ _ _

theorem moves_emptyStack (s : State) : Moves hold config s (setStack [] s) := .one (.stack s _ (by simp))

theorem moves_commitOutermost (e : Epoch) (s : State) : Moves hold config s (commitOutermost e s) := by
  unfold commitOutermost
  simp only
  refine Moves.trans ?_ (moves_releaseParked _)
  refine Moves.trans ?_ (moves_idle _ _)
  refine Moves.trans ?_ (moves_post _ _ _)
  refine Moves.trans ?_ (moves_clearMarks _)
  exact ((moves_emptyStack s).trans (moves_discardJournal _)).trans (moves_postDiscard _ _ _)

theorem moves_commitEffect (s : State) : Moves hold config s (commitEffect s) := by
  unfold commitEffect; split
  · rename_i h; exact moves_commitNested _ _ _ _ h
  · exact moves_commitOutermost _ _
  · exact (moves_idle s _).trans (moves_releaseParked _)

theorem moves_rollbackEffect (s : State) : Moves hold config s (rollbackEffect s) := by
  unfold rollbackEffect; split
  · exact (moves_idle s _).trans (moves_releaseParked _)
  · split
    · exact (moves_startWalk _ _ _).trans (moves_settleRollback _)
    · exact ((moves_idle s _).trans (moves_releaseParked _)).trans (moves_post _ _ _)

theorem moves_completeDrain (c : PendingCommand) (s : State) : Moves hold config s (completeDrain c s) := by
  unfold completeDrain; split
  · rename_i h
    cases c with
    | checkpoint => exact moves_checkpointEffect s h.1
    | commit => exact moves_commitEffect s
    | rollback => exact moves_rollbackEffect s
  · exact .refl s

theorem moves_settleDrain (s : State) : Moves hold config s (settleDrain s) := by
  unfold settleDrain; split
  · exact .refl s
  · exact moves_completeDrain _ _

/-! ### The space monitor -/

theorem moves_evaluateAuto (s : State) : Moves true config s (evaluateAuto s) := by
  unfold evaluateAuto; split
  · exact .one (.holds s true s.space.manual rfl)
  · split
    · exact .one (.holds s false s.space.manual rfl)
    · exact .refl s

theorem moves_announceHold (s : State) : Moves true config s (announceHold s) := by
  unfold announceHold; split
  · exact .refl s
  · split
    · refine Moves.trans ?_ (moves_post _ _ _)
      exact ((Moves.one (.told s true rfl)).trans (moves_send _ _)).tail (.timers _ _ s.space.fullWaits)
    · refine Moves.trans ?_ (moves_post _ _ _)
      exact ((Moves.one (.told s false rfl)).trans (moves_send _ _)).tail (.timers _ _ s.space.fullWaits)

theorem moves_settleHold {before after : State} (m : Moves true config before after) :
    Moves true config before (settleHold before after) := by
  unfold settleHold
  refine Moves.trans ?_ (moves_announceHold _)
  split
  · exact m
  · exact m.trans (moves_evaluateAuto _)

/-! ### The host interface -/

theorem moves_answerIntake (r : Request) (st : HostStatus) (s : State) : Moves hold config s (answerIntake r st s) :=
  moves_send _ _

theorem moves_countClassified (l : Line) (m : Fin 4) (s : State) : Moves hold config s (countClassified l m s) := by
  unfold countClassified; split
  · exact .refl s
  · split
    · exact .one (.hit s _)
    · exact .refl s

theorem moves_createEntry (e : Entry) (s : State) (h : s.host.table.length < Config.tableSize) (new : s.entry e.id = none) :
    Moves hold config s (createEntry e s) := by
  unfold createEntry
  simp only
  split
  · exact .one (.enter s e h new)
  · exact (Moves.one (.enter s e h new)).trans (moves_reachGate _ _)

theorem countClassified_host (l : Line) (m : Fin 4) (s : State) : (countClassified l m s).host = s.host := by
  unfold countClassified; split
  · rfl
  · split <;> rfl

theorem moves_takeRequest (r : Request) (s : State) : Moves hold config s (takeRequest r s) := by
  unfold takeRequest
  split
  · rename_i open'
    have room : s.host.table.length < Config.tableSize := by
      simp only [State.acceptLine, Bool.and_eq_true, decide_eq_true_eq] at open'
      exact open'.1.1.1
    split
    · exact moves_post _ _ _
    · split
      · exact moves_answerIntake _ _ _
      · split
        · exact moves_answerIntake _ _ _
        · unfold classifyRequest
          simp only
          split
          · exact (moves_countClassified _ _ _).trans (moves_answerIntake _ _ _)
          · exact (moves_countClassified _ _ _).trans (moves_createEntry _ _ (by rw [countClassified_host]; exact room)
              (by rw [State.entry, countClassified_host]; exact Option.not_isSome_iff_eq_none.mp (by assumption)))
  · exact .refl s

theorem moves_lineGate (l : Line) (s : State) : Moves hold config s (lineGate l s) := by
  unfold lineGate; split
  · exact .refl s
  · split
    · exact moves_reachGate _ _
    · exact .refl s

theorem moves_freeEntry (id : HostId) (s : State) : Moves hold config s (freeEntry id s) := by
  unfold freeEntry; split
  · exact .refl s
  · refine Moves.trans ?_ (moves_lineGate _ _)
    exact .one (.table s _ (List.filter_sublist.map _))

theorem moves_sendHead (s : State) : Moves hold config s (sendHead s) := by
  unfold sendHead; split
  · exact .refl s
  · simp only
    split
    · exact (Moves.one (.queue s _ _)).trans (moves_freeEntry _ _)
    · exact .one (.queue s _ _)

/-! ### The memory interface -/

theorem moves_useFresh (a b : Nat) (s : State) : Moves hold config s (useFresh a b s) := by
  unfold useFresh; split
  · exact moves_nextFresh s
  · exact .refl s

theorem moves_captureReadEnds (i : Fin 8) (d : Option (List Word)) (s : State) :
    Moves hold config s (captureReadEnds i d s) := by
  unfold captureReadEnds; split
  · exact .refl s
  · split
    · unfold captureAppend
      exact ((moves_useFresh _ _ s).trans (moves_setSlot _ _ _)).trans (moves_appendRequest _ _)
    · exact (moves_answer _ _ _ _ _).trans (moves_freeSlot _ _)
    · unfold discardEnds; split
      · exact .refl s
      · exact (moves_freeSlot _ _).trans (moves_goToIssue _ _)
    · exact .refl s

theorem moves_readEnds (id : HostId) (n : Nat) (d : Option (List Word)) (s : State) :
    Moves hold config s (readEnds id n d s) := by
  unfold readEnds; split
  · exact (moves_useFresh _ _ s).trans (moves_answer _ _ _ _ _)
  · exact moves_answer _ _ _ _ _

theorem moves_handOutcome (r : MemRequest) (d : Option (List Word)) (s : State) : Moves hold config s (handOutcome r d s) := by
  unfold handOutcome; split
  · exact moves_readEnds _ _ _ _
  · exact moves_answer _ _ _ _ _
  · exact moves_captureReadEnds _ _ _
  · exact moves_restoreEnds _ _ _

theorem moves_takeCompletion (t : Fin 64) (st : Status) (d : List Word) (s : State) :
    Moves hold config s (takeCompletion t st d s) := by
  unfold takeCompletion; split
  · unfold completeRequest
    simp only
    split
    · exact (Moves.one (.completed s t)).trans (moves_handOutcome _ _ _)
    · exact ((Moves.one (.completed s t)).trans (moves_handOutcome _ _ _)).trans (moves_post _ _ _)
  · exact (Moves.one (.completed s t)).trans (moves_post _ _ _)
  · exact moves_post _ _ _

theorem moves_takeTimeout (t : Fin 64) (s : State) : Moves hold config s (takeTimeout t s) := by
  unfold takeTimeout; split
  · refine Moves.trans ?_ (moves_post _ _ _)
    refine Moves.trans ?_ (moves_handOutcome _ _ _)
    exact (moves_advanceTo _ s).tail (.quarantined _ t)
  · exact .refl s

/-! ### The journal port -/

theorem moves_arbitrate (s : State) : Moves hold config s (arbitrate s) := by
  have engine : ∀ p, s.freePort = some p → Moves hold config s (grantEngine p s) := by
    intro p hp
    unfold grantEngine; split
    · exact .refl s
    · exact (Moves.one (.journal s _ (by rfl) (by rfl))).tail (.issued _ _ _ _ hp)
  have service : ∀ p, s.freePort = some p → Moves hold config s (grantService p s) := by
    intro p hp
    unfold grantService; split
    · exact .refl s
    · simp only
      split
      · exact (Moves.one (.journal s _ (by rfl) (by rfl))).tail (.issued _ _ _ _ hp)
      · refine Moves.trans ?_ (moves_respond _ _)
        exact .one (.journal s _ (by rfl) (by rfl))
  unfold arbitrate; split
  · exact .refl s
  · split
    · exact .refl s
    · rename_i p hp
      split
      · exact service p hp
      · exact engine p hp
      · split
        · exact engine p hp
        · exact service p hp

theorem moves_landed (a : Nat) (bytes : List Byte) (st : Status) (p : Fin 8) (s : State) :
    Moves hold config s (landWrite a bytes st (dropPort p s)) := (Moves.one (.ended s p)).trans (moves_landWrite _ _ _ _)

theorem moves_appendOk (i : Fin 8) (s : State) : Moves hold config s (appendOk i s) := by
  unfold appendOk; split
  · exact .refl s
  · exact ((Moves.one (.mark _ _)).trans (moves_freeSlot _ _)).trans (moves_goToIssue _ _)

theorem moves_appendFault (i : Fin 8) (n : Seq) (p : Phys) (s : State) : Moves hold config s (appendFault i n p s) := by
  unfold appendFault; split
  · exact .refl s
  · exact (((moves_post _ _ _).trans (moves_breakTop _ _)).trans (moves_freeSlot _ _)).trans (moves_goToIssue _ _)

theorem moves_recordWriteEnds (p : Fin 8) (st : Status) (s : State) : Moves hold config s (recordWriteEnds p st s) := by
  unfold recordWriteEnds; split
  · simp only
    split
    · exact moves_landed _ _ _ _ _
    · split
      · exact (moves_landed _ _ _ _ _).trans (moves_appendOk _ _)
      · exact (moves_landed _ _ _ _ _).trans (moves_appendFault _ _ _ _)
  · exact .refl s

theorem moves_usePortFresh (n : Nat) (d : PortData) (s : State) : Moves hold config s (usePortFresh n d s) := by
  unfold usePortFresh; split
  · exact .refl s
  · split
    · exact moves_nextFresh s
    · exact .refl s

theorem moves_replayRead (n : Seq) (st : Status) (r : List Byte) (s : State) : Moves hold config s (replayRead n st r s) := by
  unfold replayRead; split
  · exact .refl s
  · simp only
    split
    · exact moves_setContext _ _
    · split
      · exact (moves_setContext _ _).trans (moves_failRollback _ _ _ _)
      · exact (moves_setContext _ _).trans (moves_checkRecord _ _ _ _)

theorem moves_recordReadEnds (p : Fin 8) (st : Status) (d : PortData) (s : State) :
    Moves hold config s (recordReadEnds p st d s) := by
  have dropped : ∀ n, Moves hold config s (usePortFresh n d (dropPort p s)) := fun n =>
    (Moves.one (.ended s p)).trans (moves_usePortFresh _ _ _)
  unfold recordReadEnds; split
  · simp only
    split
    · exact dropped _
    · exact (dropped _).trans (moves_replayRead _ _ _ _)
  · exact .refl s

theorem moves_blockReadEnds (p : Fin 8) (st : Status) (d : PortData) (s : State) :
    Moves hold config s (blockReadEnds p st d s) := by
  have dropped : ∀ n, Moves hold config s (usePortFresh n d (dropPort p s)) := fun n =>
    (Moves.one (.ended s p)).trans (moves_usePortFresh _ _ _)
  unfold blockReadEnds; split
  · simp only
    split
    · exact dropped _
    · exact (dropped _).trans (moves_respond _ _)
  · exact .refl s

theorem moves_blockWriteEnds (p : Fin 8) (st : Status) (s : State) : Moves hold config s (blockWriteEnds p st s) := by
  unfold blockWriteEnds; split
  · simp only
    split
    · exact moves_landed _ _ _ _ _
    · exact (moves_landed _ _ _ _ _).trans (moves_respond _ _)
  · exact .refl s

/-! ### Core reset -/

theorem moves_beginCoreReset (s : State) : Moves true config s (beginCoreReset s) := by
  unfold beginCoreReset
  simp only
  have recorded : Moves true config s (s.setService { s.service with coreReset := some s.coreResetRecord }) :=
    .one (.service s _ rfl le_rfl (.inl rfl))
  refine Moves.trans ?_ (.one (.slots _ _ _))
  refine Moves.trans ?_ (.one (.timers _ _ _))
  refine Moves.trans ?_ (.one (.journal _ _ (by rfl) (by rfl)))
  exact ((recorded.trans (moves_idle _ _)).trans (moves_setContext _ _)).trans (moves_setRefillTimer _ _)

theorem moves_settleCaptures (s : State) : Moves hold config s (settleCaptures s) := by
  refine Moves.trans ?_ (moves_issueAll _ _)
  exact (Moves.one (.slots s (Vector.ofFn s.slotAfterJournalStep) [])).trans (.one (.unmark _ 0))

theorem moves_clearHolds (s : State) : Moves true config s (clearHolds s) :=
  ((Moves.one (.holds s s.space.auto false rfl)).trans (moves_evaluateAuto _)).trans (moves_announceHold _)

theorem moves_journalStep (s : State) : Moves true config s (journalStep s) := by
  unfold journalStep
  simp only
  refine Moves.trans ?_ (.one (.service _ _ rfl le_rfl (.inl rfl)))
  refine Moves.trans ?_ (moves_clearHolds _)
  refine Moves.trans ?_ (moves_settleCaptures _)
  refine Moves.trans ?_ (moves_emptyStack _)
  refine Moves.trans ?_ (moves_idle _ _)
  refine Moves.trans (moves_discardJournal s) ?_
  exact .one (.journal _ _ (by rfl) (by rfl))

theorem moves_endCoreReset (r : CoreReset) (s : State) : Moves true config s (endCoreReset r s) := by
  unfold endCoreReset
  simp only
  refine Moves.trans ?_ (moves_respond _ _)
  refine Moves.trans ?_ (moves_post _ _ _)
  refine Moves.trans ?_ (moves_postDiscard _ _ _)
  refine Moves.trans ?_ (.one (.service _ _ rfl (by simp) (.inl rfl)))
  refine Moves.trans ?_ (moves_releaseParked _)
  refine Moves.trans ?_ (moves_setContext _ _)
  exact .one (.service s _ rfl le_rfl (.inl rfl))

theorem moves_settleJournalStep (s : State) : Moves true config s (settleJournalStep s) := by
  unfold settleJournalStep; split
  · exact moves_journalStep s
  · exact .refl s

theorem moves_settleCoreResetEnd (s : State) : Moves true config s (settleCoreResetEnd s) := by
  unfold settleCoreResetEnd; split
  · split
    · exact .refl s
    · exact moves_endCoreReset _ s
  · exact .refl s

theorem moves_settleCoreReset (s : State) : Moves true config s (settleCoreReset s) :=
  (moves_settleJournalStep s).trans (moves_settleCoreResetEnd _)

/-! ### The service commands -/

theorem moves_setParams (p : Params) (s : State) (hv : s.service.params.valid → p.valid)
    (hd : p.defaultAction = s.service.params.defaultAction)
    (ht : hold = true ∨ (p.holdOnFree = s.service.params.holdOnFree ∧ p.holdOffFree = s.service.params.holdOffFree)) :
    Moves hold config s (setParams p s) :=
  .one (.params s p hv (.inl hd) ht)

theorem moves_cmdParamRead (f : List Byte) (s : State) : Moves hold config s (cmdParamRead f s) := by
  unfold cmdParamRead; split <;> exact moves_respond _ _

theorem moves_writeDefaultAction (v : Nat) (s : State) : Moves hold true s (writeDefaultAction v s) := by
  unfold writeDefaultAction; split
  · exact moves_respond _ _
  · rename_i depth0
    split
    · exact moves_respond _ _
    · rename_i a ha
      refine Moves.trans ?_ (moves_respond _ _)
      refine .one (.params s _ ?_ (.inr ⟨rfl, by omega⟩) (.inr ⟨rfl, rfl⟩))
      intro ⟨_, rest⟩
      refine ⟨?_, rest⟩
      unfold defaultActionOfCode at ha
      split at ha <;> simp_all

theorem moves_writeNseg (v : Nat) (s : State) : Moves true config s (writeNseg v s) := by
  unfold writeNseg; split
  · exact moves_respond _ _
  · split
    · exact moves_respond _ _
    · rename_i hv
      refine Moves.trans ?_ (moves_respond _ _)
      refine Moves.trans ?_ (moves_evaluateAuto _)
      refine Moves.trans (moves_setParams { s.service.params with nseg := v } s ?_ (by rfl) (.inl rfl)) (.one (.journal _ _ (by rfl) (by rfl)))
      intro h; exact ⟨h.1, by have := h.2; simp only at this ⊢; omega⟩

theorem moves_writeMemTimeout (v : Nat) (s : State) : Moves hold config s (writeMemTimeout v s) := by
  unfold writeMemTimeout; split
  · exact moves_respond _ _
  · refine (moves_setParams { s.service.params with memTimeout := v } s ?_ (by rfl) (.inr ⟨rfl, rfl⟩)).trans (moves_respond _ _)
    intro h; exact ⟨h.1, by have := h.2; simp only at this ⊢; omega⟩

theorem moves_writeFullWait (v : Nat) (s : State) : Moves hold config s (writeFullWait v s) := by
  unfold writeFullWait; split
  · exact moves_respond _ _
  · refine (moves_setParams { s.service.params with fullWait := v } s ?_ (by rfl) (.inr ⟨rfl, rfl⟩)).trans (moves_respond _ _)
    intro h; exact ⟨h.1, by have := h.2; simp only at this ⊢; omega⟩

theorem moves_writeHoldTime (v : Nat) (s : State) : Moves hold config s (writeHoldTime v s) := by
  unfold writeHoldTime; split
  · exact moves_respond _ _
  · refine (moves_setParams { s.service.params with holdTime := v } s ?_ (by rfl) (.inr ⟨rfl, rfl⟩)).trans (moves_respond _ _)
    intro h; exact ⟨h.1, by have := h.2; simp only at this ⊢; omega⟩

theorem moves_writeHoldOnFree (v : Nat) (s : State) : Moves true config s (writeHoldOnFree v s) := by
  unfold writeHoldOnFree; split
  · exact moves_respond _ _
  · refine ((moves_setParams { s.service.params with holdOnFree := v } s ?_ (by rfl) (.inl rfl)).trans (moves_evaluateAuto _)).trans (moves_respond _ _)
    intro h; exact ⟨h.1, by have := h.2; simp only at this ⊢; omega⟩

theorem moves_writeHoldOffFree (v : Nat) (s : State) : Moves true config s (writeHoldOffFree v s) := by
  unfold writeHoldOffFree; split
  · exact moves_respond _ _
  · refine ((moves_setParams { s.service.params with holdOffFree := v } s ?_ (by rfl) (.inl rfl)).trans (moves_evaluateAuto _)).trans (moves_respond _ _)
    intro h; exact ⟨h.1, by have := h.2; simp only at this ⊢; omega⟩

theorem moves_writeRefillWait (v : Nat) (s : State) : Moves hold config s (writeRefillWait v s) := by
  unfold writeRefillWait; split
  · exact moves_respond _ _
  · refine (moves_setParams { s.service.params with refillWait := v } s ?_ (by rfl) (.inr ⟨rfl, rfl⟩)).trans (moves_respond _ _)
    intro h; exact ⟨h.1, by have := h.2; simp only at this ⊢; omega⟩

theorem moves_writeRestoreAhead (v : Nat) (s : State) : Moves hold config s (writeRestoreAhead v s) := by
  unfold writeRestoreAhead; split
  · exact moves_respond _ _
  · refine (moves_setParams { s.service.params with restoreAhead := v } s ?_ (by rfl) (.inr ⟨rfl, rfl⟩)).trans (moves_respond _ _)
    intro h; exact ⟨h.1, by have := h.2; simp only at this ⊢; omega⟩

theorem moves_writeParam (p : Param) (v : Nat) (s : State) : Moves true true s (writeParam p v s) := by
  cases p
  · exact moves_writeDefaultAction v s
  · exact moves_writeNseg v s
  · exact moves_writeMemTimeout v s
  · exact moves_writeFullWait v s
  · exact moves_writeHoldTime v s
  · exact moves_writeHoldOnFree v s
  · exact moves_writeHoldOffFree v s
  · exact moves_writeRefillWait v s
  · exact moves_writeRestoreAhead v s

theorem moves_cmdParamWrite (f : List Byte) (s : State) : Moves true true s (cmdParamWrite f s) := by
  unfold cmdParamWrite; split
  · exact moves_respond _ _
  · exact moves_writeParam _ _ _

theorem moves_cmdParamWriteOf (p : Param) (own : Nat → State → State) (f : List Byte) (s : State)
    (h : ∀ v, Moves true true s (own v s)) : Moves true true s (cmdParamWriteOf p own f s) := by
  unfold cmdParamWriteOf; split
  · exact h _
  · exact moves_cmdParamWrite _ _

theorem moves_cmdStatusRead (f : List Byte) (s : State) : Moves hold config s (cmdStatusRead f s) := moves_respond _ _

theorem moves_cmdEventPop (f : List Byte) (s : State) : Moves hold config s (cmdEventPop f s) := by
  unfold cmdEventPop; split
  · exact moves_respond _ _
  · rename_i e rest he
    refine Moves.trans ?_ (moves_respond _ _)
    refine .one (.service s _ (by rfl) ?_ (.inr ⟨rfl, rfl⟩))
    simp only [he, State.afterPop]
    split <;> simp

theorem moves_cmdEnable (f : List Byte) (s : State) : Moves hold config s (cmdEnable f s) :=
  (Moves.one (.service s { s.service with mode := .active } rfl le_rfl (.inr ⟨rfl, rfl⟩))).trans (moves_respond _ _)

theorem moves_cmdDisable (f : List Byte) (s : State) : Moves hold config s (cmdDisable f s) := by
  unfold cmdDisable; split
  · exact (Moves.one (.service s { s.service with mode := .bypass } rfl le_rfl (.inr ⟨rfl, rfl⟩))).trans (moves_respond _ _)
  · exact moves_respond _ _

theorem moves_cmdCoreReset (f : List Byte) (s : State) : Moves true config s (cmdCoreReset f s) :=
  (moves_beginCoreReset s).trans (moves_settleCoreReset _)

theorem moves_cmdMtagRelease (f : List Byte) (s : State) : Moves hold config s (cmdMtagRelease f s) :=
  (Moves.one (.released s)).trans (moves_respond _ _)

theorem moves_cmdWindowWrite (f : List Byte) (s : State) : Moves hold true s (cmdWindowWrite f s) := by
  unfold cmdWindowWrite; split
  · exact moves_respond _ _
  · rename_i depth0
    split
    · exact moves_respond _ _
    · split
      · exact moves_respond _ _
      · rename_i i w _ good
        refine Moves.trans (.one (.window s i w rfl (by omega) ?_)) (moves_respond _ _)
        simp only [Window.bad, Bool.not_eq_true, Bool.or_eq_false_iff, decide_eq_false_iff_not, beq_eq_false_iff_ne] at good
        exact ⟨by omega, good.2⟩

theorem moves_cmdWindowRead (f : List Byte) (s : State) : Moves hold config s (cmdWindowRead f s) := by
  unfold cmdWindowRead; split <;> exact moves_respond _ _

theorem moves_startDrain (c : PendingCommand) (s : State)
    (h : c = .checkpoint → s.epochs.stack.length < Config.maxDepth) : Moves hold config s (startDrain c s) := by
  refine Moves.trans ?_ (moves_respond _ _)
  refine Moves.trans ?_ (moves_settleDrain _)
  exact .one (.control s .draining (some c) (fun _ => rfl) (fun e => h (Option.some.inj e)))

theorem moves_cmdCheckpoint (f : List Byte) (s : State) : Moves hold config s (cmdCheckpoint f s) := by
  unfold cmdCheckpoint; split
  · exact moves_respond _ _
  · split
    · exact moves_respond _ _
    · split
      · exact moves_respond _ _
      · rename_i room
        exact moves_startDrain _ _ (fun _ => Nat.lt_of_not_le room)

theorem moves_cmdCommit (f : List Byte) (s : State) : Moves hold config s (cmdCommit f s) := by
  unfold cmdCommit; split
  · exact moves_respond _ _
  · split
    · exact moves_respond _ _
    · exact moves_startDrain _ _ (by simp)

theorem moves_cmdAbandon (f : List Byte) (s : State) : Moves hold config s (cmdAbandon f s) := by
  unfold cmdAbandon; split
  · split
    · exact moves_respond _ _
    · exact (moves_breakTop _ _).trans (moves_respond _ _)
  · split
    · exact moves_respond _ _
    · unfold abandonStopped
      refine Moves.trans ?_ (moves_respond _ _)
      refine Moves.trans ?_ (moves_releaseParked _)
      refine Moves.trans ?_ (moves_idle _ _)
      exact (moves_breakTop _ s).trans (moves_setContext _ _)
  · exact moves_respond _ _

theorem moves_cmdRollback (f : List Byte) (s : State) : Moves hold config s (cmdRollback f s) := by
  unfold cmdRollback; split
  · exact moves_respond _ _
  · exact moves_respond _ _
  · split
    · exact moves_startDrain _ _ (by simp)
    · exact moves_respond _ _
  · split
    · refine Moves.trans ?_ (moves_respond _ _)
      exact (moves_startWalk _ _ s).trans (moves_settleRollback _)
    · exact moves_respond _ _
  · exact moves_respond _ _

theorem moves_cmdMarkQuery (f : List Byte) (s : State) : Moves hold config s (cmdMarkQuery f s) := by
  unfold cmdMarkQuery; split <;> exact moves_respond _ _

theorem moves_cmdHoldSet (f : List Byte) (s : State) : Moves true config s (cmdHoldSet f s) :=
  (Moves.one (.holds s s.space.auto true rfl)).trans (moves_respond _ _)

theorem moves_cmdHoldClear (f : List Byte) (s : State) : Moves true config s (cmdHoldClear f s) :=
  (Moves.one (.holds s s.space.auto false rfl)).trans (moves_respond _ _)

theorem moves_cmdLend (f : List Byte) (s : State) : Moves hold config s (cmdLend f s) := by
  unfold cmdLend
  simp only
  split
  · exact moves_respond _ _
  · exact (moves_setMap _ s).trans (moves_respond _ _)

theorem moves_cmdLendCancel (f : List Byte) (s : State) : Moves hold config s (cmdLendCancel f s) := by
  unfold cmdLendCancel; split
  · exact moves_respond _ _
  · exact (moves_updateSegment _ _ s).trans (moves_respond _ _)

theorem moves_cmdSpillDone (f : List Byte) (s : State) : Moves hold config s (cmdSpillDone f s) := by
  unfold cmdSpillDone; split
  · exact moves_respond _ _
  · unfold spill
    exact (((moves_updateSegment _ _ s).trans (moves_freeSegments _ _)).trans (moves_takeRefillSegment _)).trans
      (moves_respond _ _)

theorem moves_cmdRefillDone (f : List Byte) (s : State) : Moves hold config s (cmdRefillDone f s) := by
  unfold cmdRefillDone; split
  · exact moves_respond _ _
  · refine Moves.trans ?_ (moves_respond _ _)
    unfold finishRefill
    refine Moves.trans ?_ (moves_idle _ _)
    exact ((moves_updateSegment _ _ s).trans (moves_setContext _ _)).trans (moves_setRefillTimer _ _)

theorem moves_cmdSegQuery (f : List Byte) (s : State) : Moves hold config s (cmdSegQuery f s) := by
  unfold cmdSegQuery; split
  · exact moves_respond _ _
  · split <;> exact moves_respond _ _

theorem moves_placeTransfer (op : PortOp) (s : State) : Moves hold config s (placeTransfer op s) :=
  .one (.journal s _ (by rfl) (by rfl))

theorem moves_runCommand (code : Byte) (f : List Byte) (s : State) : Moves true true s (runCommand code f s) := by
  suffices h : ∀ g, runCommand code = g → Moves true true s (g f s) from h _ rfl
  intro g hg
  unfold runCommand at hg
  split at hg <;> subst hg
  · exact moves_cmdParamRead _ _
  · exact moves_cmdParamWrite _ _
  · exact moves_cmdStatusRead _ _
  · exact moves_cmdEventPop _ _
  · exact moves_cmdEnable _ _
  · exact moves_cmdDisable _ _
  · exact moves_cmdCoreReset _ _
  · exact moves_cmdMtagRelease _ _
  · exact moves_cmdWindowWrite _ _
  · exact moves_cmdWindowRead _ _
  · exact moves_cmdCheckpoint _ _
  · exact moves_cmdCommit _ _
  · exact moves_cmdAbandon _ _
  · exact moves_cmdRollback _ _
  · exact moves_cmdMarkQuery _ _
  · exact moves_cmdHoldSet _ _
  · exact moves_cmdHoldClear _ _
  · exact moves_cmdLend _ _
  · exact moves_cmdLendCancel _ _
  · exact moves_cmdSpillDone _ _
  · exact moves_cmdRefillDone _ _
  · exact moves_cmdSegQuery _ _
  · exact moves_placeTransfer _ _
  · exact moves_placeTransfer _ _
  · exact moves_respond _ _

theorem moves_takeFrame (code : Byte) (f : Frame) (b : Bool) (run : List Byte → State → State) (s : State)
    (h : ∀ p u, Moves hold config u (run p u)) : Moves hold config s (takeFrame code f b run s) := by
  unfold takeFrame
  have begun : Moves hold config s
      (s.setService { s.service with work := some { exchange := f.exchange, attached := b } }) :=
    .one (.service s _ rfl le_rfl (.inr ⟨rfl, rfl⟩))
  simp only
  split
  · exact begun.trans (moves_respond _ _)
  · exact begun.trans (h _ _)

theorem moves_takeHeld (s : State) : Moves true true s (takeHeld s) := by
  unfold takeHeld; split
  · exact (Moves.one (.service s { s.service with held := none } rfl le_rfl (.inl rfl))).trans
      (moves_takeFrame _ _ _ _ _ (moves_runCommand _))
  · exact .refl s

theorem moves_takeHeldWhen (last : Bool) (s : State) : Moves true true s (takeHeldWhen last s) := by
  unfold takeHeldWhen; split
  · exact .refl s
  · split
    · exact moves_takeHeld s
    · exact .refl s

theorem moves_frameComplete (code : Byte) (f : Frame) (run : List Byte → State → State) (s : State)
    (h : ∀ p u, Moves true config u (run p u)) : Moves true config s (frameComplete code f run s) := by
  unfold frameComplete; split
  · have working : Moves true config s (s.setService { s.service with exchange := .working }) :=
      .one (.service s _ rfl le_rfl (.inl rfl))
    simp only
    split
    · exact working.trans (.one (.service _ _ rfl le_rfl (.inl rfl)))
    · exact working.trans (moves_takeFrame _ _ _ _ _ h)
  · exact .refl s

/-! ### The commands and the step -/

theorem moves_whenRunning {f : State → State} {s t : State} (h : ∀ u, Moves hold config u (f u))
    (e : whenRunning f s = .next t) : Moves hold config s t := by
  unfold whenRunning at e
  split at e
  · cases e; exact .refl s
  · cases e; exact h s

theorem moves_whenRunningSpaced {f : State → State} {s t : State} (h : ∀ u, Moves true config u (f u))
    (e : whenRunningSpaced f s = .next t) : Moves true config s t :=
  moves_whenRunning (fun u => moves_settleHold (h u)) e

theorem moves_whenRunningHeld {f : State → State} {s t : State} (h : ∀ u, Moves true true u (f u))
    (e : whenRunningHeld f s = .next t) : Moves true true s t :=
  moves_whenRunning (fun u => (moves_settleHold ((h u).trans (moves_takeHeldWhen _ _))).trans (moves_takeHeldWhen _ _)) e

theorem moves_afterOutcome (s : State) : Moves true true s (afterOutcome s) :=
  (moves_settleRollback s).trans (moves_settleCoreReset _)

theorem moves_afterBlockTransfer (s : State) : Moves true true s (afterBlockTransfer s) :=
  (moves_settleDrain s).trans (moves_afterOutcome _)

theorem moves_handOverHeld (s : State) : Moves hold config s (handOverHeld s) := by
  unfold handOverHeld; split
  · exact .refl s
  · exact moves_handOverRestore _ _ _

theorem moves_refillExpires (s : State) : Moves hold config s (refillExpires s) := by
  unfold refillExpires; split
  · split
    · exact (moves_advanceTo _ s).trans (moves_failRollback _ _ _ _)
    · exact .refl s
  · exact .refl s

theorem moves_fullWaitExpires (id : HostId) (s : State) : Moves hold config s (fullWaitExpires id s) := by
  unfold fullWaitExpires; split
  · exact .refl s
  · exact ((moves_advanceTo _ s).trans (moves_stopFullWait _ _)).trans (moves_breakTop _ _)

theorem moves_refreshExpires (s : State) : Moves hold config s (refreshExpires s) := by
  unfold refreshExpires; split
  · exact .refl s
  · split
    · unfold refreshHold
      exact ((moves_advanceTo _ s).trans (moves_send _ _)).tail (.timers _ _ _)
    · exact .refl s

theorem moves_ssnAsserts (s : State) : Moves hold config s (ssnAsserts s) := by
  unfold ssnAsserts; split
  · exact .one (.service s _ rfl le_rfl (.inr ⟨rfl, rfl⟩))
  · exact .refl s

theorem moves_ssnDeasserts (s : State) : Moves true config s (ssnDeasserts s) := .one (.service s _ rfl le_rfl (.inl rfl))

theorem moves_responseSent (s : State) : Moves hold config s (responseSent s) := by
  unfold responseSent; split
  · exact .one (.service s _ rfl le_rfl (.inr ⟨rfl, rfl⟩))
  · exact .refl s

/-- What a command can do, said once. -/
theorem moves_exec {c : Instr} {s t : State} (e : exec c s = .next t) : Moves true true s t := by
  cases c with
  | read h => exact moves_whenRunning (moves_takeRequest _) e
  | write h en d => exact moves_whenRunning (moves_takeRequest _) e
  | messageSent => exact moves_whenRunningSpaced (fun u => (moves_sendHead u).trans (moves_settleDrain _)) e
  | done tag st d => exact moves_whenRunningHeld (fun u => (moves_takeCompletion _ _ _ u).trans (moves_afterOutcome _)) e
  | memoryTimeoutExpiry tag => exact moves_whenRunningHeld (fun u => (moves_takeTimeout _ u).trans (moves_afterOutcome _)) e
  | arbiterGrant => exact moves_whenRunningHeld moves_arbitrate e
  | recordWriteCompletion p st =>
    exact moves_whenRunningHeld (fun u => (moves_recordWriteEnds _ _ u).trans (moves_settleCoreReset _)) e
  | recordRead =>
    change execRecordRead s = _ at e
    unfold execRecordRead at e
    split at e
    · cases e; exact .refl s
    · split at e
      · cases e; exact .refl s
      · split at e
        · cases e; exact moves_issueRecordRead _ _ _ s
        · cases e
  | recordReadCompletion p st d =>
    exact moves_whenRunningHeld (fun u => (moves_recordReadEnds _ _ _ u).trans (moves_afterOutcome _)) e
  | restoreHandover => exact moves_whenRunning moves_handOverHeld e
  | refillRequest => exact moves_whenRunningSpaced moves_takeRefillSegment e
  | refillTimerExpiry => exact moves_whenRunningSpaced (fun u => (moves_refillExpires u).trans (moves_settleRollback _)) e
  | rollbackDone => exact moves_whenRunningSpaced moves_completeSuccess e
  | rollbackFailed => exact moves_whenRunningSpaced moves_completeFailure e
  | checkpointDrainComplete => exact moves_whenRunning (moves_completeDrain _) e
  | commitDrainComplete => exact moves_whenRunningSpaced (moves_completeDrain _) e
  | rollbackDrainComplete => exact moves_whenRunningSpaced (moves_completeDrain _) e
  | fullWaitExpiry id => exact moves_whenRunning (moves_fullWaitExpires _) e
  | refreshTimerExpiry => exact moves_whenRunning moves_refreshExpires e
  | ssnAsserted => exact moves_whenRunning moves_ssnAsserts e
  | ssnDeasserted => exact moves_whenRunning moves_ssnDeasserts e
  | unknown code f => exact moves_whenRunningSpaced (fun u => moves_frameComplete _ _ _ u (moves_runCommand _)) e
  | paramRead f => exact moves_whenRunning (fun u => moves_frameComplete _ _ _ u moves_cmdParamRead) e
  | paramWriteDefaultAction f =>
    exact moves_whenRunningSpaced
      (fun u => moves_frameComplete _ _ _ u fun _ _ => moves_cmdParamWriteOf _ _ _ _ fun _ => moves_writeDefaultAction _ _) e
  | paramWriteNseg f =>
    exact moves_whenRunningSpaced
      (fun u => moves_frameComplete _ _ _ u fun _ _ => moves_cmdParamWriteOf _ _ _ _ fun _ => moves_writeNseg _ _) e
  | paramWriteMemTimeout f =>
    exact moves_whenRunningSpaced
      (fun u => moves_frameComplete _ _ _ u fun _ _ => moves_cmdParamWriteOf _ _ _ _ fun _ => moves_writeMemTimeout _ _) e
  | paramWriteFullWait f =>
    exact moves_whenRunningSpaced
      (fun u => moves_frameComplete _ _ _ u fun _ _ => moves_cmdParamWriteOf _ _ _ _ fun _ => moves_writeFullWait _ _) e
  | paramWriteHoldTime f =>
    exact moves_whenRunningSpaced
      (fun u => moves_frameComplete _ _ _ u fun _ _ => moves_cmdParamWriteOf _ _ _ _ fun _ => moves_writeHoldTime _ _) e
  | paramWriteHoldOnFree f =>
    exact moves_whenRunningSpaced
      (fun u => moves_frameComplete _ _ _ u fun _ _ => moves_cmdParamWriteOf _ _ _ _ fun _ => moves_writeHoldOnFree _ _) e
  | paramWriteHoldOffFree f =>
    exact moves_whenRunningSpaced
      (fun u => moves_frameComplete _ _ _ u fun _ _ => moves_cmdParamWriteOf _ _ _ _ fun _ => moves_writeHoldOffFree _ _) e
  | paramWriteRefillWait f =>
    exact moves_whenRunningSpaced
      (fun u => moves_frameComplete _ _ _ u fun _ _ => moves_cmdParamWriteOf _ _ _ _ fun _ => moves_writeRefillWait _ _) e
  | paramWriteRestoreAhead f =>
    exact moves_whenRunningSpaced
      (fun u => moves_frameComplete _ _ _ u fun _ _ => moves_cmdParamWriteOf _ _ _ _ fun _ => moves_writeRestoreAhead _ _) e
  | statusRead f => exact moves_whenRunning (fun u => moves_frameComplete _ _ _ u moves_cmdStatusRead) e
  | eventPop f => exact moves_whenRunning (fun u => moves_frameComplete _ _ _ u moves_cmdEventPop) e
  | enable f => exact moves_whenRunning (fun u => moves_frameComplete _ _ _ u moves_cmdEnable) e
  | disable f => exact moves_whenRunning (fun u => moves_frameComplete _ _ _ u moves_cmdDisable) e
  | coreReset f => exact moves_whenRunningSpaced (fun u => moves_frameComplete _ _ _ u moves_cmdCoreReset) e
  | journalStep =>
    exact moves_whenRunningHeld (fun u => (moves_settleJournalStep u).trans (moves_settleCoreResetEnd _)) e
  | coreResetEnd => exact moves_whenRunningHeld moves_settleCoreResetEnd e
  | mtagRelease f => exact moves_whenRunning (fun u => moves_frameComplete _ _ _ u moves_cmdMtagRelease) e
  | windowWrite f => exact moves_whenRunning (fun u => moves_frameComplete _ _ _ u moves_cmdWindowWrite) e
  | windowRead f => exact moves_whenRunning (fun u => moves_frameComplete _ _ _ u moves_cmdWindowRead) e
  | checkpoint f => exact moves_whenRunning (fun u => moves_frameComplete _ _ _ u moves_cmdCheckpoint) e
  | commit f => exact moves_whenRunningSpaced (fun u => moves_frameComplete _ _ _ u moves_cmdCommit) e
  | abandon f => exact moves_whenRunning (fun u => moves_frameComplete _ _ _ u moves_cmdAbandon) e
  | rollback f => exact moves_whenRunningSpaced (fun u => moves_frameComplete _ _ _ u moves_cmdRollback) e
  | markQuery f => exact moves_whenRunning (fun u => moves_frameComplete _ _ _ u moves_cmdMarkQuery) e
  | holdSet f => exact moves_whenRunningSpaced (fun u => moves_frameComplete _ _ _ u moves_cmdHoldSet) e
  | holdClear f => exact moves_whenRunningSpaced (fun u => moves_frameComplete _ _ _ u moves_cmdHoldClear) e
  | lend f => exact moves_whenRunning (fun u => moves_frameComplete _ _ _ u moves_cmdLend) e
  | lendCancel f => exact moves_whenRunning (fun u => moves_frameComplete _ _ _ u moves_cmdLendCancel) e
  | spillDone f => exact moves_whenRunningSpaced (fun u => moves_frameComplete _ _ _ u moves_cmdSpillDone) e
  | refillDone f => exact moves_whenRunning (fun u => moves_frameComplete _ _ _ u moves_cmdRefillDone) e
  | segQuery f => exact moves_whenRunning (fun u => moves_frameComplete _ _ _ u moves_cmdSegQuery) e
  | blockRead f => exact moves_whenRunning (fun u => moves_frameComplete _ _ _ u fun _ _ => moves_placeTransfer _ _) e
  | blockWrite f => exact moves_whenRunning (fun u => moves_frameComplete _ _ _ u fun _ _ => moves_placeTransfer _ _) e
  | blockReadCompletion p st d =>
    exact moves_whenRunningHeld (fun u => (moves_blockReadEnds _ _ _ u).trans (moves_afterBlockTransfer _)) e
  | blockWriteCompletion p st =>
    exact moves_whenRunningHeld (fun u => (moves_blockWriteEnds _ _ u).trans (moves_afterBlockTransfer _)) e
  | pinReset => cases e; exact .one (.pins s true rfl rfl)
  | resetnRelease =>
    change execResetnRelease s = _ at e
    unfold execResetnRelease at e
    split at e
    · cases e; exact .one (.pins s false rfl rfl)
    · cases e; exact .refl s
  | lastResponseByteSent => exact moves_whenRunning moves_responseSent e
  | requestFrameHeld code f => exact moves_whenRunningSpaced (fun u => moves_frameComplete _ _ _ u (moves_runCommand _)) e
  | unmatchedJournalCompletion p st => cases e; exact .refl s

/-- What a step can do, said once. -/
theorem moves_step {s t : State} (e : step s = .next t) : Moves true true s t := by
  unfold step at e
  split at e
  · cases e
    unfold tick
    split
    · exact .refl s
    · exact .one (.clock s _)
  · exact (Moves.one (.queued s _)).trans (moves_exec e)

/-- A law that every move keeps is kept by every step. -/
theorem step_keeps {P : State → Prop} (each : ∀ a b, Move true true a b → P a → P b) {s t : State}
    (e : step s = .next t) (h : P s) : P t := (moves_step e).keeps each h

end Sys2Proof.Machine
end

