-- ==== Sys2Proof/Laws/Exchange.lean ====
section
/-! SUPPORT. The exchange stands apart: every operation of a command does the same whatever the state of the exchange and the
command at work, so a command taken is its effect on the state before, with its answer. -/

namespace Sys2Proof.Machine

/-- The state with another exchange state and another command at work. -/
def State.withExchange (x : Exchange) (w : Option Work) (s : State) : State :=
  s.setService { s.service with exchange := x, work := w }

variable (x : Exchange) (w : Option Work)

section Fields
variable (s : State)
@[simp] theorem withExchange_host : (s.withExchange x w).host = s.host := rfl
@[simp] theorem withExchange_windows : (s.withExchange x w).windows = s.windows := rfl
@[simp] theorem withExchange_epochs : (s.withExchange x w).epochs = s.epochs := rfl
@[simp] theorem withExchange_capture : (s.withExchange x w).capture = s.capture := rfl
@[simp] theorem withExchange_journal : (s.withExchange x w).journal = s.journal := rfl
@[simp] theorem withExchange_replay : (s.withExchange x w).replay = s.replay := rfl
@[simp] theorem withExchange_space : (s.withExchange x w).space = s.space := rfl
@[simp] theorem withExchange_memIf : (s.withExchange x w).memIf = s.memIf := rfl
@[simp] theorem withExchange_timebase : (s.withExchange x w).timebase = s.timebase := rfl
@[simp] theorem withExchange_inReset : (s.withExchange x w).inReset = s.inReset := rfl
@[simp] theorem withExchange_fresh : (s.withExchange x w).fresh = s.fresh := rfl
@[simp] theorem withExchange_pending : (s.withExchange x w).pending = s.pending := rfl
@[simp] theorem withExchange_exchange : (s.withExchange x w).service.exchange = x := rfl
@[simp] theorem withExchange_work : (s.withExchange x w).service.work = w := rfl
@[simp] theorem withExchange_unread : (s.withExchange x w).service.unread = s.service.unread := rfl
@[simp] theorem withExchange_held : (s.withExchange x w).service.held = s.service.held := rfl
@[simp] theorem withExchange_params : (s.withExchange x w).service.params = s.service.params := rfl
@[simp] theorem withExchange_mode : (s.withExchange x w).service.mode = s.service.mode := rfl
@[simp] theorem withExchange_events : (s.withExchange x w).service.events = s.service.events := rfl
@[simp] theorem withExchange_dropped : (s.withExchange x w).service.dropped = s.service.dropped := rfl
@[simp] theorem withExchange_coreReset : (s.withExchange x w).service.coreReset = s.service.coreReset := rfl
@[simp] theorem withExchange_withExchange (y : Exchange) (v : Option Work) :
    (s.withExchange x w).withExchange y v = s.withExchange y v := rfl
theorem withExchange_self : s.withExchange s.service.exchange s.service.work = s := rfl

@[simp] theorem withExchange_depth : (s.withExchange x w).depth = s.depth := rfl
@[simp] theorem withExchange_top : (s.withExchange x w).top = s.top := rfl
@[simp] theorem withExchange_topNumber : (s.withExchange x w).topNumber = s.topNumber := rfl
@[simp] theorem withExchange_topOpen : (s.withExchange x w).topOpen = s.topOpen := rfl
@[simp] theorem withExchange_freeCount : (s.withExchange x w).freeCount = s.freeCount := rfl
@[simp] theorem withExchange_holdInForce : (s.withExchange x w).holdInForce = s.holdInForce := rfl
@[simp] theorem withExchange_gateOpen (b : Bool) : (s.withExchange x w).gateOpen b = s.gateOpen b := rfl
@[simp] theorem withExchange_freeTag : (s.withExchange x w).freeTag = s.freeTag := rfl
@[simp] theorem withExchange_freeSlot : (s.withExchange x w).freeSlot = s.freeSlot := rfl
@[simp] theorem withExchange_entry (id : HostId) : (s.withExchange x w).entry id = s.entry id := rfl
@[simp] theorem withExchange_marked (l : Line) : (s.withExchange x w).marked l = s.marked l := rfl
@[simp] theorem withExchange_setCount (l : Line) : (s.withExchange x w).setCount l = s.setCount l := rfl
@[simp] theorem withExchange_settled (e : Segment) : (s.withExchange x w).settled e = s.settled e := rfl
@[simp] theorem withExchange_segment (q : SegNo) : (s.withExchange x w).segment q = s.segment q := rfl
@[simp] theorem withExchange_filling : (s.withExchange x w).filling = s.filling := rfl
@[simp] theorem withExchange_fillingHasRoom : (s.withExchange x w).fillingHasRoom = s.fillingHasRoom := rfl
@[simp] theorem withExchange_positionExists : (s.withExchange x w).positionExists = s.positionExists := rfl
@[simp] theorem withExchange_walking (c : Controller) : (s.withExchange x w).walking c = s.walking c := rfl
@[simp] theorem withExchange_portStopped : (s.withExchange x w).portStopped = s.portStopped := rfl
@[simp] theorem withExchange_drainComplete : (s.withExchange x w).drainComplete = s.drainComplete := rfl
@[simp] theorem withExchange_rollbackSucceeds : (s.withExchange x w).rollbackSucceeds = s.rollbackSucceeds := rfl
@[simp] theorem withExchange_failureCompletes : (s.withExchange x w).failureCompletes = s.failureCompletes := rfl
@[simp] theorem withExchange_parked : (s.withExchange x w).parked = s.parked := rfl
@[simp] theorem withExchange_captureWaiters : (s.withExchange x w).captureWaiters = s.captureWaiters := rfl
@[simp] theorem withExchange_newEpochNumber : (s.withExchange x w).newEpochNumber = s.newEpochNumber := rfl
@[simp] theorem withExchange_segmentRange : (s.withExchange x w).segmentRange = s.segmentRange := rfl
@[simp] theorem withExchange_quarantineCount : (s.withExchange x w).quarantineCount = s.quarantineCount := rfl
@[simp] theorem withExchange_snapshot : (s.withExchange x w).snapshot = s.snapshot := rfl
@[simp] theorem withExchange_refreshExpiry : (s.withExchange x w).refreshExpiry = s.refreshExpiry := rfl
@[simp] theorem withExchange_lendable (e : Segment) : (s.withExchange x w).lendable e = s.lendable e := rfl
@[simp] theorem withExchange_segmentPayload (e : Segment) : (s.withExchange x w).segmentPayload e = s.segmentPayload e := rfl
@[simp] theorem withExchange_segmentIn (q : SegNo) (st : SegState) :
    (s.withExchange x w).segmentIn q st = s.segmentIn q st := rfl

@[simp] theorem setHost_withExchange (h : HostIf) : (s.withExchange x w).setHost h = (s.setHost h).withExchange x w := rfl
@[simp] theorem setWindows_withExchange (h : Vector Window 16) :
    (s.withExchange x w).setWindows h = (s.setWindows h).withExchange x w := rfl
@[simp] theorem setEpochs_withExchange (h : EpochCtl) :
    (s.withExchange x w).setEpochs h = (s.setEpochs h).withExchange x w := rfl
@[simp] theorem setCapture_withExchange (h : CaptureUnit) :
    (s.withExchange x w).setCapture h = (s.setCapture h).withExchange x w := rfl
@[simp] theorem setJournal_withExchange (h : JournalUnit) :
    (s.withExchange x w).setJournal h = (s.setJournal h).withExchange x w := rfl
@[simp] theorem setReplay_withExchange (h : ReplayUnit) :
    (s.withExchange x w).setReplay h = (s.setReplay h).withExchange x w := rfl
@[simp] theorem setSpace_withExchange (h : SpaceMonitor) :
    (s.withExchange x w).setSpace h = (s.setSpace h).withExchange x w := rfl
@[simp] theorem setMemIf_withExchange (h : MemoryIf) :
    (s.withExchange x w).setMemIf h = (s.setMemIf h).withExchange x w := rfl
@[simp] theorem setTimebase_withExchange (h : Tick) :
    (s.withExchange x w).setTimebase h = (s.setTimebase h).withExchange x w := rfl
end Fields

/-! ### Operations -/

@[simp] theorem post_withExchange (n : Option EpochNo) (k : EventKind) (s : State) :
    post n k (s.withExchange x w) = (post n k s).withExchange x w := by
  by_cases room : s.service.events.length < Config.eventQueueSize
  · simp only [post, withExchange_events, room, if_true]; rfl
  · simp only [post, withExchange_events, room, if_false]; rfl

@[simp] theorem advanceTo_withExchange (e : Tick) (s : State) :
    advanceTo e (s.withExchange x w) = (advanceTo e s).withExchange x w := by
  by_cases newer : seqNewer e s.timebase
  · simp [advanceTo, newer]
  · simp [advanceTo, newer]

@[simp] theorem updateEntry_withExchange (id : HostId) (f : Entry → Entry) (s : State) :
    updateEntry id f (s.withExchange x w) = (updateEntry id f s).withExchange x w := rfl

@[simp] theorem setEntryState_withExchange (st : EntryState) (id : HostId) (s : State) :
    setEntryState st id (s.withExchange x w) = (setEntryState st id s).withExchange x w := rfl

@[simp] theorem send_withExchange (m : HostMessage) (s : State) :
    send m (s.withExchange x w) = (send m s).withExchange x w := rfl

@[simp] theorem markIssued_withExchange (r : MemRequest) (s : State) :
    markIssued r (s.withExchange x w) = (markIssued r s).withExchange x w := by
  unfold markIssued; split <;> rfl

@[simp] theorem issue_withExchange (t : Fin 64) (r : MemRequest) (s : State) :
    issue t r (s.withExchange x w) = (issue t r s).withExchange x w := by simp [issue]

@[simp] theorem handOver_withExchange (r : MemRequest) (s : State) :
    handOver r (s.withExchange x w) = (handOver r s).withExchange x w := by
  unfold handOver queueForTag
  simp only [withExchange_memIf, withExchange_freeTag, issue_withExchange, setMemIf_withExchange]
  split
  · split <;> rfl
  · rfl

@[simp] theorem serveRequests_withExchange (rs : List MemRequest) (s : State) :
    serveRequests rs (s.withExchange x w) = (serveRequests rs s).withExchange x w := by
  induction rs generalizing s with
  | nil => rfl
  | cons r rest ih =>
    unfold serveRequests
    simp only [withExchange_memIf, withExchange_freeTag, issue_withExchange, setMemIf_withExchange, ih]
    split <;> rfl

@[simp] theorem serveTagQueue_withExchange (s : State) :
    serveTagQueue (s.withExchange x w) = (serveTagQueue s).withExchange x w := serveRequests_withExchange x w _ s

@[simp] theorem releaseQuarantine_withExchange (s : State) :
    releaseQuarantine (s.withExchange x w) = (releaseQuarantine s).withExchange x w := by simp [releaseQuarantine]

@[simp] theorem goToIssue_withExchange (id : HostId) (s : State) :
    goToIssue id (s.withExchange x w) = (goToIssue id s).withExchange x w := by
  unfold goToIssue
  simp only [withExchange_entry, setEntryState_withExchange, handOver_withExchange]
  split <;> rfl

@[simp] theorem issueAll_withExchange (ids : List HostId) (s : State) :
    issueAll ids (s.withExchange x w) = (issueAll ids s).withExchange x w := by
  induction ids generalizing s with
  | nil => rfl
  | cons id rest ih => simp [issueAll, ih]

@[simp] theorem setSlot_withExchange (i : Fin 8) (sl : Option Slot) (s : State) :
    setSlot i sl (s.withExchange x w) = (setSlot i sl s).withExchange x w := rfl

@[simp] theorem takeSlot_withExchange (i : Fin 8) (id : HostId) (s : State) :
    takeSlot i id (s.withExchange x w) = (takeSlot i id s).withExchange x w := by
  unfold takeSlot
  simp only [withExchange_entry, setSlot_withExchange, setEntryState_withExchange, handOver_withExchange]
  split <;> rfl

@[simp] theorem waitForSlot_withExchange (id : HostId) (s : State) :
    waitForSlot id (s.withExchange x w) = (waitForSlot id s).withExchange x w := rfl

@[simp] theorem askSlot_withExchange (id : HostId) (s : State) :
    askSlot id (s.withExchange x w) = (askSlot id s).withExchange x w := by
  unfold askSlot
  simp only [withExchange_capture, withExchange_freeSlot, takeSlot_withExchange, waitForSlot_withExchange]
  split
  · split <;> rfl
  · rfl

@[simp] theorem captureCheck_withExchange (e : Entry) (s : State) :
    captureCheck e (s.withExchange x w) = (captureCheck e s).withExchange x w := by
  unfold captureCheck
  simp only [withExchange_topOpen, withExchange_marked, askSlot_withExchange, goToIssue_withExchange]
  split <;> rfl

@[simp] theorem passGate_withExchange (id : HostId) (s : State) :
    passGate id (s.withExchange x w) = (passGate id s).withExchange x w := by
  unfold passGate
  simp only [withExchange_entry, captureCheck_withExchange, goToIssue_withExchange]
  split
  · rfl
  · split <;> rfl

@[simp] theorem passAll_withExchange (ids : List HostId) (s : State) :
    passAll ids (s.withExchange x w) = (passAll ids s).withExchange x w := by
  induction ids generalizing s with
  | nil => rfl
  | cons id rest ih => simp [passAll, ih]

@[simp] theorem releaseParked_withExchange (s : State) :
    releaseParked (s.withExchange x w) = (releaseParked s).withExchange x w := by simp [releaseParked]

@[simp] theorem brokenNotice_withExchange (s : State) :
    brokenNotice (s.withExchange x w) = (brokenNotice s).withExchange x w := by simp [brokenNotice]

@[simp] theorem setStack_withExchange (st : List Epoch) (s : State) :
    setStack st (s.withExchange x w) = (setStack st s).withExchange x w := rfl

@[simp] theorem breakTop_withExchange (r : BrokenReason) (s : State) :
    breakTop r (s.withExchange x w) = (breakTop r s).withExchange x w := by
  unfold breakTop
  simp only [withExchange_epochs, withExchange_depth, setStack_withExchange, post_withExchange, brokenNotice_withExchange]
  split
  · rfl
  · split <;> rfl

@[simp] theorem clearMarks_withExchange (s : State) : clearMarks (s.withExchange x w) = (clearMarks s).withExchange x w := rfl

@[simp] theorem setMap_withExchange (m : List Segment) (s : State) :
    setMap m (s.withExchange x w) = (setMap m s).withExchange x w := rfl

@[simp] theorem updateSegment_withExchange (q : SegNo) (f : Segment → Segment) (s : State) :
    updateSegment q f (s.withExchange x w) = (updateSegment q f s).withExchange x w := rfl

@[simp] theorem countPosition_withExchange (s : State) :
    countPosition (s.withExchange x w) = (countPosition s).withExchange x w := by
  unfold countPosition; simp only [withExchange_epochs, setStack_withExchange]; split <;> rfl

@[simp] theorem setStage_withExchange (i : Fin 8) (st : SlotStage) (s : State) :
    setStage i st (s.withExchange x w) = (setStage i st s).withExchange x w := rfl

@[simp] theorem stopFullWait_withExchange (id : HostId) (s : State) :
    stopFullWait id (s.withExchange x w) = (stopFullWait id s).withExchange x w := rfl

@[simp] theorem takePlace_withExchange (r : AppendRequest) (e : Segment) (s : State) :
    takePlace r e (s.withExchange x w) = (takePlace r e s).withExchange x w := by simp [takePlace]

@[simp] theorem allocate_withExchange (s : State) : allocate (s.withExchange x w) = (allocate s).withExchange x w := by
  unfold allocate; simp only [withExchange_journal, setJournal_withExchange]; split <;> rfl

@[simp] theorem givePosition_withExchange (r : AppendRequest) (s : State) :
    givePosition r (s.withExchange x w) = (givePosition r s).withExchange x w := by
  have room : (if (s.withExchange x w).fillingHasRoom then s.withExchange x w else allocate (s.withExchange x w)) =
      (if s.fillingHasRoom then s else allocate s).withExchange x w := by
    simp only [withExchange_fillingHasRoom, allocate_withExchange]; split <;> rfl
  unfold givePosition
  simp only [room, withExchange_filling, takePlace_withExchange]
  split <;> rfl

@[simp] theorem serveAppends_withExchange (rs : List AppendRequest) (s : State) :
    serveAppends rs (s.withExchange x w) = (serveAppends rs s).withExchange x w := by
  induction rs generalizing s with
  | nil => rfl
  | cons r rest ih =>
    unfold serveAppends
    simp only [withExchange_positionExists, givePosition_withExchange, withExchange_journal, setJournal_withExchange, ih]
    split <;> rfl

@[simp] theorem freeSegments_withExchange (ps : List Phys) (s : State) :
    freeSegments ps (s.withExchange x w) = (freeSegments ps s).withExchange x w := by simp [freeSegments, serveWaiting]

@[simp] theorem truncate_withExchange (c : Seq) (s : State) :
    truncate c (s.withExchange x w) = (truncate c s).withExchange x w := by simp [truncate]

@[simp] theorem discardJournal_withExchange (s : State) :
    discardJournal (s.withExchange x w) = (discardJournal s).withExchange x w := by simp [discardJournal]

@[simp] theorem setParams_withExchange (p : Params) (s : State) :
    setParams p (s.withExchange x w) = (setParams p s).withExchange x w := rfl

@[simp] theorem setController_withExchange (c : Controller) (k : Option PendingCommand) (s : State) :
    setController c k (s.withExchange x w) = (setController c k s).withExchange x w := rfl

@[simp] theorem setContext_withExchange (c : Option ReplayContext) (s : State) :
    setContext c (s.withExchange x w) = (setContext c s).withExchange x w := rfl

@[simp] theorem setRefillTimer_withExchange (t : Option Tick) (s : State) :
    setRefillTimer t (s.withExchange x w) = (setRefillTimer t s).withExchange x w := rfl

/-! ### The space monitor -/

@[simp] theorem evaluateAuto_withExchange (s : State) :
    evaluateAuto (s.withExchange x w) = (evaluateAuto s).withExchange x w := by
  by_cases on : s.freeCount ≤ s.service.params.holdOnFree
  · simp [evaluateAuto, on]
  · by_cases off : s.service.params.holdOffFree ≤ s.freeCount
    · simp [evaluateAuto, on, off]
    · simp [evaluateAuto, on, off]

@[simp] theorem holdComes_withExchange (s : State) : holdComes (s.withExchange x w) = (holdComes s).withExchange x w := by
  simp [holdComes, tellHold]

@[simp] theorem holdLeaves_withExchange (s : State) : holdLeaves (s.withExchange x w) = (holdLeaves s).withExchange x w := by
  simp [holdLeaves, tellHold]

@[simp] theorem announceHold_withExchange (s : State) :
    announceHold (s.withExchange x w) = (announceHold s).withExchange x w := by
  unfold announceHold
  simp only [withExchange_holdInForce, withExchange_host, holdComes_withExchange, holdLeaves_withExchange]
  split
  · rfl
  · split <;> rfl

@[simp] theorem settleHold_withExchange (y : Exchange) (v : Option Work) (s t : State) :
    settleHold (s.withExchange y v) (t.withExchange x w) = (settleHold s t).withExchange x w := by
  unfold settleHold
  simp only [withExchange_freeCount, evaluateAuto_withExchange]
  split <;> simp

/-- The state before the step may be taken with any exchange. -/
@[simp] theorem settleHold_withExchange_right (s t : State) :
    settleHold s (t.withExchange x w) = (settleHold s t).withExchange x w :=
  settleHold_withExchange x w s.service.exchange s.service.work s t

/-! ### Epochs and rollback -/

@[simp] theorem recallSegment_withExchange (c : ReplayContext) (e : Segment) (s : State) :
    recallSegment c e (s.withExchange x w) = (recallSegment c e s).withExchange x w := by
  unfold recallSegment; split <;> simp

@[simp] theorem awaitRefill_withExchange (c : ReplayContext) (e : Segment) (s : State) :
    awaitRefill c e (s.withExchange x w) = (awaitRefill c e s).withExchange x w := rfl

@[simp] theorem takeRefillSegment_withExchange (s : State) :
    takeRefillSegment (s.withExchange x w) = (takeRefillSegment s).withExchange x w := by
  unfold takeRefillSegment
  simp only [withExchange_walking, withExchange_journal, withExchange_segment, setJournal_withExchange,
    updateSegment_withExchange, setContext_withExchange, post_withExchange]
  split
  · rfl
  · split
    · split
      · split
        · rfl
        · split <;> rfl
      · rfl
    · rfl

@[simp] theorem reach_withExchange (c : ReplayContext) (e : Segment) (s : State) :
    reach c e (s.withExchange x w) = (reach c e s).withExchange x w := by
  unfold reach
  simp only [setContext_withExchange, recallSegment_withExchange, awaitRefill_withExchange, takeRefillSegment_withExchange]
  split <;> rfl

@[simp] theorem startWalk_withExchange (e : Epoch) (n : BitVec 32) (s : State) :
    startWalk e n (s.withExchange x w) = (startWalk e n s).withExchange x w := by
  by_cases empty : s.journal.nextSeq = e.start
  · simp [startWalk, empty]
  · simp only [startWalk, withExchange_journal, empty, decide_false, setController_withExchange, clearMarks_withExchange,
      setContext_withExchange, reach_withExchange, Bool.false_eq_true, if_false]
    split <;> rfl

@[simp] theorem completeSuccess_withExchange (s : State) :
    completeSuccess (s.withExchange x w) = (completeSuccess s).withExchange x w := by
  unfold completeSuccess
  simp only [withExchange_rollbackSucceeds, withExchange_replay, truncate_withExchange, withExchange_epochs,
    setStack_withExchange, withExchange_depth, post_withExchange, setContext_withExchange, setController_withExchange,
    releaseParked_withExchange]
  split
  · split <;> rfl
  · rfl

@[simp] theorem recountTop_withExchange (s : State) :
    recountTop (s.withExchange x w) = (recountTop s).withExchange x w := by
  unfold recountTop; simp only [withExchange_epochs, withExchange_journal, setStack_withExchange]; split <;> rfl

@[simp] theorem completeFailure_withExchange (s : State) :
    completeFailure (s.withExchange x w) = (completeFailure s).withExchange x w := by
  unfold completeFailure
  simp only [withExchange_failureCompletes, withExchange_replay, truncate_withExchange, recountTop_withExchange,
    setController_withExchange, setContext_withExchange, post_withExchange]
  split
  · split
    · rfl
    · split <;> rfl
  · rfl

@[simp] theorem settleRollback_withExchange (s : State) :
    settleRollback (s.withExchange x w) = (settleRollback s).withExchange x w := by simp [settleRollback]

@[simp] theorem checkpointEffect_withExchange (s : State) :
    checkpointEffect (s.withExchange x w) = (checkpointEffect s).withExchange x w := by simp [checkpointEffect]

@[simp] theorem postDiscard_withExchange (n : Option EpochNo) (r : Option (SegNo × SegNo)) (s : State) :
    postDiscard n r (s.withExchange x w) = (postDiscard n r s).withExchange x w := by
  unfold postDiscard; split <;> simp

@[simp] theorem commitNested_withExchange (child parent : Epoch) (rest : List Epoch) (s : State) :
    commitNested child parent rest (s.withExchange x w) = (commitNested child parent rest s).withExchange x w := by
  unfold commitNested
  simp only [setStack_withExchange, withExchange_depth, post_withExchange]
  split <;> simp

@[simp] theorem commitOutermost_withExchange (e : Epoch) (s : State) :
    commitOutermost e (s.withExchange x w) = (commitOutermost e s).withExchange x w := by simp [commitOutermost]

@[simp] theorem commitEffect_withExchange (s : State) :
    commitEffect (s.withExchange x w) = (commitEffect s).withExchange x w := by
  unfold commitEffect
  simp only [withExchange_epochs, commitNested_withExchange, commitOutermost_withExchange, setController_withExchange,
    releaseParked_withExchange]
  split <;> rfl

@[simp] theorem rollbackEffect_withExchange (s : State) :
    rollbackEffect (s.withExchange x w) = (rollbackEffect s).withExchange x w := by
  unfold rollbackEffect
  simp only [withExchange_top, setController_withExchange, releaseParked_withExchange, startWalk_withExchange,
    settleRollback_withExchange, post_withExchange]
  split
  · rfl
  · split <;> rfl

@[simp] theorem drainEffect_withExchange (c : PendingCommand) (s : State) :
    drainEffect c (s.withExchange x w) = (drainEffect c s).withExchange x w := by
  cases c <;> simp [drainEffect]

@[simp] theorem completeDrain_withExchange (c : PendingCommand) (s : State) :
    completeDrain c (s.withExchange x w) = (completeDrain c s).withExchange x w := by
  unfold completeDrain
  simp only [withExchange_epochs, withExchange_drainComplete, drainEffect_withExchange]
  split <;> rfl

@[simp] theorem settleDrain_withExchange (s : State) :
    settleDrain (s.withExchange x w) = (settleDrain s).withExchange x w := by
  unfold settleDrain
  simp only [withExchange_epochs, completeDrain_withExchange]
  split <;> rfl

/-! ### Frames taken and answered -/

/-- A frame that is taken runs its command with the exchange in WORKING and the command at work. -/
theorem frameComplete_takes {code : Byte} {f : Frame} {s : State} (h : s.takes code f) (run : List Byte → State → State) :
    frameComplete code f run s =
      run f.payload (s.withExchange .working (some { exchange := f.exchange, attached := true })) := by
  obtain ⟨-, receiving, read, idle, checked⟩ := h
  simp [frameComplete, receiving, read, idle, takeFrame, checked, State.withExchange]

/-- The step of a row whose frame is taken, where the free count and the holds do not change. -/
theorem whenRunning_takes {code : Byte} {f : Frame} {s : State} (h : s.takes code f) (run : List Byte → State → State) :
    whenRunning (frameComplete code f run) s =
      .next (run f.payload (s.withExchange .working (some { exchange := f.exchange, attached := true }))) := by
  rw [← frameComplete_takes h run]
  simp [whenRunning, h.1]

/-- The step of a row whose frame is taken. -/
theorem whenRunningSpaced_takes {code : Byte} {f : Frame} {s : State} (h : s.takes code f)
    (run : List Byte → State → State) :
    whenRunningSpaced (frameComplete code f run) s =
      .next (settleHold s
        (run f.payload (s.withExchange .working (some { exchange := f.exchange, attached := true })))) := by
  rw [← frameComplete_takes h run]
  simp [whenRunningSpaced, whenRunning, h.1]

/-- The answer of a command whose exchange is open. -/
theorem respond_withExchange (a : Answer) (f : Frame) (s : State) :
    respond a (s.withExchange .working (some { exchange := f.exchange, attached := true })) =
      s.withExchange (.answering (a.frame f.exchange)) none := rfl

/-- The answer of a statement, when no command was at work. -/
theorem answers_eq {a : Answer} {f : Frame} {s : State} (h : s.service.work = none) :
    s.answers f a = s.withExchange (.answering (a.frame f.exchange)) none := by
  unfold State.answers State.withExchange
  rw [← h]

/-- An operation that does the same in every exchange leaves the exchange and the command at work as they are. -/
theorem exchange_kept {f : State → State} (h : ∀ x w s, f (s.withExchange x w) = (f s).withExchange x w) (s : State) :
    (f s).service.exchange = s.service.exchange ∧ (f s).service.work = s.service.work := by
  have same := h s.service.exchange s.service.work s
  rw [withExchange_self] at same
  exact ⟨congrArg (·.service.exchange) same, congrArg (·.service.work) same⟩

/-- A step that leaves the free count and the hold as they were ends with nothing to announce. -/
theorem settleHold_of_same {s t : State} (settled : s.holdSettled) (free : t.freeCount = s.freeCount)
    (told : t.host.holdTold = s.host.holdTold) (hold : t.holdInForce = s.holdInForce) : settleHold s t = t := by
  unfold settleHold announceHold
  rw [if_pos free, if_pos]
  rw [hold, told]
  exact settled.symm

/-- R103: where the automatic hold keeps its value at the new free count, the step ends with nothing to announce. -/
theorem settleHold_of_kept {s t : State} (settled : s.holdSettled) (kept : s.autoKept t.freeCount)
    (params : t.service.params = s.service.params) (told : t.host.holdTold = s.host.holdTold)
    (auto : t.space.auto = s.space.auto) (manual : t.space.manual = s.space.manual) : settleHold s t = t := by
  have inForce : t.holdInForce = s.holdInForce := by simp [State.holdInForce, auto, manual]
  have same : evaluateAuto t = t := by
    unfold evaluateAuto
    rw [params]
    obtain ⟨on, off⟩ := kept
    split
    · rename_i h
      have := on h
      rw [← this, ← auto]
      rfl
    · split
      · rename_i h g
        have := off (by omega) g
        rw [← this, ← auto]
        rfl
      · rfl
  unfold settleHold
  rw [same, ite_self]
  unfold announceHold
  rw [if_pos (by rw [inForce, told]; exact settled.symm)]

end Sys2Proof.Machine
end

