-- ==== Sys2Proof/Laws/Quiet.lean ====
section
/-! SUPPORT. What a step does by itself when nothing is due (log 4): nothing; and what a hand-over does, by the tags (R147). -/

namespace Sys2Proof.Machine

theorem takeRefillSegment_notDue {s : State} (h : s.refillDue = false) : takeRefillSegment s = s := by
  unfold State.refillDue at h
  unfold takeRefillSegment
  split
  · rfl
  · rename_i c hc
    rw [hc] at h
    split
    · rename_i r p rest hr hf
      rw [if_neg]
      intro none'
      simp [hr, none', hf] at h
    · rfl

theorem settleRollback_notDue {s : State} (refill : s.refillDue = false) (failure : s.failureCompletes = false)
    (success : s.rollbackSucceeds = false) : settleRollback s = s := by
  simp [settleRollback, takeRefillSegment_notDue refill, completeFailure, failure, completeSuccess, success]

theorem settleCoreReset_notDue {s : State} (journal : s.journalStepDue = false) (ends : s.coreResetEndDue = false) :
    settleCoreReset s = s := by
  simp [settleCoreReset, settleJournalStep, journal, settleCoreResetEnd, ends]

theorem takeHeld_notDue {s : State} (h : s.service.held = none ∨ s.service.work ≠ none) : takeHeld s = s := by
  unfold takeHeld
  split
  · rename_i f held work
    rcases h with h | h
    · rw [h] at held; cases held
    · exact absurd work h
  · rfl

theorem takeHeldWhen_notDue {s : State} (last : Bool) (h : s.service.held = none ∨ s.service.work ≠ none) :
    takeHeldWhen last s = s := by
  unfold takeHeldWhen; split
  · rfl
  · split
    · exact takeHeld_notDue h
    · rfl

/-- A step in which no held frame is due ends with the hold alone. -/
theorem whenRunningHeld_of_notDue {f : State → State} {s : State}
    (h : (f s).service.held = none ∨ (f s).service.work ≠ none)
    (h' : (settleHold s (f s)).service.held = none ∨ (settleHold s (f s)).service.work ≠ none) :
    whenRunningHeld f s = whenRunningSpaced f s := by
  simp only [whenRunningHeld, whenRunningSpaced, whenRunning, takeHeldWhen_notDue false h, takeHeldWhen_notDue true h']

theorem settleDrain_notDue {s : State} (h : s.drainComplete = false) : settleDrain s = s := by
  unfold settleDrain
  split
  · rfl
  · simp [completeDrain, h]

/-- What decides that nothing is due: the controller and the stack, the core reset, the replay unit, and of the journal whether a
segment is free and what is outstanding on the port. -/
theorem settled_of_quiet {s t : State} (q : s.quiet) (epochs : t.epochs = s.epochs) (replay : t.replay = s.replay)
    (coreReset : t.service.coreReset = s.service.coreReset)
    (free : s.journal.free = [] → t.journal.free = []) (port : t.journal.outstanding = s.journal.outstanding) :
    settleRollback t = t ∧ settleCoreReset t = t := by
  obtain ⟨-, -, refill, failure, success, journal, ends, -, -⟩ := q
  refine ⟨settleRollback_notDue ?_ ?_ ?_, settleCoreReset_notDue ?_ ?_⟩
  · unfold State.refillDue State.walking at refill ⊢
    rw [epochs, replay, coreReset]
    split at refill
    · rfl
    · simp only [Bool.and_eq_false_iff, Bool.not_eq_false', List.isEmpty_iff] at refill ⊢
      exact refill.imp_right free
  · unfold State.failureCompletes at failure ⊢
    rw [epochs, replay, coreReset]
    unfold State.blockOutstanding at failure ⊢
    rw [port]; exact failure
  · unfold State.rollbackSucceeds State.walking at success ⊢
    rw [epochs, replay, coreReset]; exact success
  · unfold State.journalStepDue at journal ⊢
    rw [coreReset, port]; exact journal
  · unfold State.coreResetEndDue at ends ⊢
    rw [coreReset, replay]; exact ends

/-- The end of a memory outcome's step, when nothing was due and nothing becomes due. -/
theorem settleHold_afterOutcome {s t : State} (q : s.quiet) (epochs : t.epochs = s.epochs) (replay : t.replay = s.replay)
    (coreReset : t.service.coreReset = s.service.coreReset) (held : t.service.held = s.service.held)
    (work : t.service.work = s.service.work) (journal : t.journal = s.journal) (told : t.host.holdTold = s.host.holdTold)
    (auto : t.space.auto = s.space.auto) (manual : t.space.manual = s.space.manual) :
    takeHeldWhen true (settleHold s (takeHeldWhen false (settleCoreReset (settleRollback t)))) = t := by
  obtain ⟨a, b⟩ := settled_of_quiet q epochs replay coreReset (by rw [journal]; exact id) (by rw [journal])
  have idle : t.service.held = none ∨ t.service.work ≠ none := by rw [held, work]; exact q.2.2.2.2.2.2.2.2
  rw [a, b, takeHeldWhen_notDue false idle, settleHold_of_same q.2.1 (by rw [State.freeCount, journal, State.freeCount]) told
    (by rw [State.holdInForce, auto, manual, State.holdInForce]), takeHeldWhen_notDue true idle]

/-! ### Hand-over (R147) -/

theorem freeTag_of_ready {t : Fin 64} {s : State} (h : s.tagReady t) : s.freeTag = some t := by
  obtain ⟨-, isFree, lowest⟩ := h
  unfold State.freeTag
  rw [List.find?_eq_some_iff_getElem]
  refine ⟨by simp [isFree, TagState.isFree], t.val, by simp, by simp, fun j hj => ?_⟩
  have := lowest ⟨j, by omega⟩ hj
  simp only [List.getElem_finRange]
  cases hx : s.memIf.tags[j]'(by omega) <;> simp_all [TagState.isFree]

theorem freeTag_none {s : State} (h : ∀ u : Fin 64, s.memIf.tags[u] ≠ .free) : s.freeTag = none := by
  unfold State.freeTag
  rw [List.find?_eq_none]
  intro u _
  have := h u
  cases hx : s.memIf.tags[u] <;> simp_all [TagState.isFree]

/-- A request handed over while its tag is ready is issued with it. -/
theorem handOver_ready {t : Fin 64} {s : State} (h : s.tagReady t) (r : MemRequest) : handOver r s = issue t r s := by
  simp [handOver, h.1, freeTag_of_ready h]

/-- A request handed over while no tag is FREE, or others wait, joins the tag queue. -/
theorem handOver_wait {s : State} (h : s.tagWait) (r : MemRequest) : handOver r s = queueForTag r s := by
  unfold handOver
  rcases h with h | h
  · rw [if_neg (by simpa using h)]
  · simp [freeTag_none h]

/-! ### The transaction table (R121) -/

theorem entry_some_id {id : HostId} {s : State} {e : Entry} (h : s.entry id = some e) : e.id = id := by
  have := List.find?_some h
  simpa using this

theorem entry_none_of {id : HostId} {s : State} (h : ∀ e ∈ s.host.table, e.id ≠ id) : s.entry id = none := by
  unfold State.entry
  rw [List.find?_eq_none]
  intro e he
  simp [h e he]

/-- An entry that joins the table is found under its own master and tag. -/
theorem entry_append {s u : State} {e : Entry} (h : s.entry e.id = none) (hu : u.host.table = s.host.table ++ [e]) :
    u.entry e.id = some e := by
  unfold State.entry at h ⊢
  rw [hu, List.find?_append, h]
  simp

/-- A change of the entry that joined the table reaches that entry alone. -/
theorem map_append {s : State} {e : Entry} (h : s.entry e.id = none) (f : Entry → Entry) :
    (s.host.table ++ [e]).map (fun x => if x.id = e.id then f x else x) = s.host.table ++ [f e] := by
  rw [List.map_append]
  congr 1
  · conv_rhs => rw [← List.map_id s.host.table]
    apply List.map_congr_left
    intro x hx
    have := List.find?_eq_none.mp h x hx
    simp only [beq_iff_eq] at this
    simp [this]
  · simp

end Sys2Proof.Machine
end

