-- ==== Sys2Proof/Laws/Words.lean ====
section
/-! SUPPORT. The words of the statements (Safety.lean) and the operations they speak of: each relation holds of exactly the state
its operation leaves. -/

namespace Sys2Proof.Machine

/-! ### Tags (R147) -/

/-- A request handed over is issued or waits. -/
theorem tagReady_or_wait (s : State) : (∃ g, s.tagReady g) ∨ s.tagWait := by
  by_cases queue : s.memIf.tagQueue = []
  · by_cases free : ∀ u : Fin 64, s.memIf.tags[u] ≠ .free
    · exact .inr (.inr free)
    · left
      have found : s.freeTag ≠ none := by
        intro none'
        apply free
        intro u hu
        have := List.find?_eq_none.mp none' u (List.mem_finRange u)
        simp [hu, TagState.isFree] at this
      obtain ⟨g, hg⟩ := Option.ne_none_iff_exists'.mp found
      refine ⟨g, queue, ?_, fun u hu hfree => ?_⟩
      · have := List.find?_some hg
        cases h : s.memIf.tags[g] <;> simp_all [TagState.isFree]
      · unfold State.freeTag at hg
        rw [List.find?_eq_some_iff_getElem] at hg
        obtain ⟨-, j, hj, eq, before⟩ := hg
        have hjg : j = g.val := by
          have := congrArg Fin.val eq
          simpa using this
        have := before u.val (by omega)
        simp [hfree, TagState.isFree] at this
  · exact .inr (.inl queue)

theorem tagReady_not_wait {g : Fin 64} {s : State} (ready : s.tagReady g) : ¬ s.tagWait := by
  rintro (h | h)
  · exact h ready.1
  · exact h g ready.2.1

theorem tagReady_unique {g k : Fin 64} {s : State} (a : s.tagReady g) (b : s.tagReady k) : g = k := by
  have := (freeTag_of_ready a).symm.trans (freeTag_of_ready b)
  exact Option.some.inj this

/-- R147: handing a request over that is no host request. -/
theorem handed_iff {r : MemRequest} (capture : ∀ u, markIssued r u = u) {s t : State} : s.handed r t ↔ t = handOver r s := by
  have on : ∀ g, s.tagReady g → handOver r s =
      s.setMemIf { s.memIf with tags := s.memIf.tags.set g (.outstanding r s.memExpiry) } := by
    intro g hg
    rw [handOver_ready hg, issue, capture]; rfl
  constructor
  · rintro (⟨g, hg, rfl⟩ | ⟨hw, rfl⟩)
    · rw [on g hg]
    · rw [handOver_wait hw]; rfl
  · rintro rfl
    rcases tagReady_or_wait s with ⟨g, hg⟩ | hw
    · exact .inl ⟨g, hg, on g hg⟩
    · exact .inr ⟨hw, handOver_wait hw r⟩

/-- R149: a tag that becomes FREE serves the tag queue. -/
theorem serveTagQueue_of_freed {g : Fin 64} {s t : State} (h : s.tagFreed g t) : serveTagQueue (setTag g .free s) = t := by
  rcases h with ⟨queue, rfl⟩ | ⟨r, rest, queue, full, rfl⟩
  · simp only [serveTagQueue, setTag, State.setMemIf_memIf, queue, serveRequests]
    rfl
  · have first : (setTag g .free s).freeTag = some g := by
      unfold State.freeTag
      rw [List.find?_eq_some_iff_getElem]
      refine ⟨by simp [setTag, TagState.isFree], g.val, by simp, by simp, fun j hj => ?_⟩
      simp only [List.getElem_finRange, setTag, State.setMemIf_memIf, Fin.getElem_fin, Fin.val_cast]
      rw [Vector.getElem_set_ne _ _ (by omega)]
      have := full ⟨j, by omega⟩
      cases hx : s.memIf.tags[j]'(by omega) <;> simp_all [TagState.isFree]
    have others : ∀ u : Fin 64, (issue g r (setTag g .free s)).memIf.tags[u] ≠ .free := by
      intro u
      have tags : (issue g r (setTag g .free s)).memIf.tags = s.memIf.tags.set g (.outstanding r s.memExpiry) := by
        have h : ∀ u : State, (markIssued r u).memIf = u.memIf := fun u => by unfold markIssued; split <;> rfl
        simp [issue, h, setTag, State.memExpiry]
      rw [tags]
      by_cases hu : u = g
      · subst hu; simp
      · simp only [Fin.getElem_fin]
        rw [Vector.getElem_set_ne _ _ (by intro h; exact hu (Fin.ext h.symm))]
        exact full u
    have queue' : (setTag g .free s).memIf.tagQueue = r :: rest := queue
    unfold serveTagQueue
    rw [queue']
    simp only [serveRequests, first]
    have memIf : ∀ u : State, ∀ m, (markIssued r u).setMemIf m = markIssued r (u.setMemIf m) := fun u m => by
      unfold markIssued; split <;> rfl
    have tags : (issue g r (setTag g .free s)).memIf.tags = s.memIf.tags.set g (.outstanding r s.memExpiry) := by
      have h : ∀ u : State, (markIssued r u).memIf = u.memIf := fun u => by unfold markIssued; split <;> rfl
      simp [issue, h, setTag, State.memExpiry]
    cases rest with
    | nil =>
      simp only [serveRequests, tags]
      rw [issue, memIf]; rfl
    | cons r' rest =>
      simp only [serveRequests, freeTag_none others, tags]
      rw [issue, memIf]; rfl

/-- R147: the tag queue served from its head. -/
theorem serves_iff {rs : List MemRequest} {s t : State} : s.serves rs t ↔ t = serveRequests rs s := by
  induction rs generalizing s with
  | nil => rfl
  | cons r rest ih =>
    have unique : ∀ g : Fin 64, s.memIf.tags[g] = .free → (∀ u : Fin 64, u < g → s.memIf.tags[u] ≠ .free) → s.freeTag = some g :=
      fun g isFree lowest => freeTag_of_ready (s := s.setMemIf { s.memIf with tagQueue := [] }) ⟨rfl, isFree, lowest⟩
    have full : s.freeTag = none → ∀ u : Fin 64, s.memIf.tags[u] ≠ .free := by
      intro h u hu
      have := List.find?_eq_none.mp h u (List.mem_finRange u)
      simp [hu, TagState.isFree] at this
    constructor
    · rintro (⟨g, isFree, lowest, h⟩ | ⟨none', rfl⟩)
      · simp only [serveRequests, unique g isFree lowest]; exact ih.mp h
      · simp only [serveRequests, freeTag_none none']
    · rintro rfl
      cases h : s.freeTag with
      | none => exact .inr ⟨full h, by simp only [serveRequests, h]⟩
      | some g =>
        rcases tagReady_or_wait (s.setMemIf { s.memIf with tagQueue := [] }) with ⟨k, -, isFree, lowest⟩ | wait
        · have hk : k = g := by
            have := (unique k isFree lowest).symm.trans h
            exact Option.some.inj this
          subst hk
          refine .inl ⟨k, isFree, lowest, ih.mpr ?_⟩
          simp only [serveRequests, h]
          rfl
        · rcases wait with wait | wait
          · exact absurd rfl wait
          · rw [freeTag_none (s := s) wait] at h; cases h

/-! ### Entries (R44, R46, R124) -/

/-- What an entry keeps on its path. -/
theorem unplaced_eq {a b : Entry} (h : a.unplaced = b.unplaced) :
    a.id = b.id ∧ a.address = b.address ∧ a.beats = b.beats ∧ a.write = b.write ∧ a.action = b.action := by
  simp only [Entry.unplaced, Entry.mk.injEq] at h
  exact ⟨h.1, h.2.1, h.2.2.1, h.2.2.2.1, h.2.2.2.2.1⟩

/-- An entry is found with what it keeps on its path. -/
def State.keeps (e : Entry) (s : State) : Prop := ∃ e', s.entry e.id = some e' ∧ e'.unplaced = e.unplaced

theorem keeps_of_entry {id : HostId} {s : State} {e : Entry} (h : s.entry id = some e) : s.keeps e :=
  ⟨e, by rw [entry_some_id h]; exact h, rfl⟩

theorem find_unplaced {id : HostId} : ∀ {a b : List Entry}, b.map Entry.unplaced = a.map Entry.unplaced →
    (b.find? fun e => e.id == id).map Entry.unplaced = (a.find? fun e => e.id == id).map Entry.unplaced
  | [], [], _ => rfl
  | [], _ :: _, h => by simp at h
  | _ :: _, [], h => by simp at h
  | x :: a, y :: b, h => by
    rw [List.map_cons, List.map_cons, List.cons.injEq] at h
    have ids : y.id = x.id := (unplaced_eq h.1).1
    simp only [List.find?_cons, ids]
    split
    · simpa using h.1
    · exact find_unplaced h.2

/-- A move of entries along their paths loses none. -/
theorem SameButPaths.keeps {s t : State} (p : SameButPaths s t) {e : Entry} (h : s.keeps e) : t.keeps e := by
  obtain ⟨e', he, hu⟩ := h
  have same := find_unplaced (id := e.id) p.entries
  unfold State.entry at he
  rw [he] at same
  cases ht : t.host.table.find? fun x => x.id == e.id with
  | none => rw [ht] at same; simp at same
  | some x =>
    rw [ht] at same
    exact ⟨x, ht, (Option.some.inj same).trans hu⟩

/-- R44: an entry going to issue. -/
theorem issues_iff {e : Entry} {s t : State} (h : s.keeps e) : s.issues e t ↔ t = goToIssue e.id s := by
  obtain ⟨e', he, hu⟩ := h
  have req : e'.request = e.request := by
    obtain ⟨a, b, c, d, -⟩ := unplaced_eq hu
    simp only [Entry.request, a, b, c, d]
  have go : goToIssue e.id s = handOver e.request (setEntryState .issueWait e.id s) := by simp [goToIssue, he, req]
  have marked : ∀ u, markIssued e.request u = setEntryState .issued e.id u := fun u => by
    unfold Entry.request; split <;> rfl
  have on : ∀ g, s.tagReady g → goToIssue e.id s = (s.placed e.id .issued).setMemIf { s.memIf with
      tags := s.memIf.tags.set g (.outstanding e.request s.memExpiry) } := by
    intro g hg
    rw [go, handOver_ready (t := g) (s := setEntryState .issueWait e.id s) hg, issue, marked]
    simp only [setEntryState, updateEntry, State.placed]
    unfold State.setMemIf State.setHost
    congr 2
    simp only [List.map_map]
    apply List.map_congr_left
    intro x _
    by_cases hx : x.id = e.id <;> simp [hx]
  have wait : s.tagWait → goToIssue e.id s = (s.placed e.id .issueWait).setMemIf { s.memIf with
      tagQueue := s.memIf.tagQueue ++ [e.request] } := by
    intro hw
    rw [go, handOver_wait (s := setEntryState .issueWait e.id s) hw]
    rfl
  constructor
  · rintro (⟨g, hg, rfl⟩ | ⟨hw, rfl⟩)
    · rw [on g hg]
    · rw [wait hw]
  · rintro rfl
    rcases tagReady_or_wait s with ⟨g, hg⟩ | hw
    · exact .inl ⟨g, hg, on g hg⟩
    · exact .inr ⟨hw, wait hw⟩

theorem issuesAll_iff {es : List Entry} {s t : State} (h : ∀ e ∈ es, s.keeps e) :
    s.issuesAll es t ↔ t = issueAll (es.map (·.id)) s := by
  induction es generalizing s with
  | nil => rfl
  | cons e rest ih =>
    have he := h e (by simp)
    have rest' : ∀ x ∈ rest, (goToIssue e.id s).keeps x := fun x hx => (goToIssue_path _ _).keeps (h x (by simp [hx]))
    simp only [State.issuesAll, issues_iff he, List.map_cons, issueAll]
    constructor
    · rintro ⟨u, rfl, h'⟩; exact (ih rest').mp h'
    · intro h'; exact ⟨_, rfl, (ih rest').mpr h'⟩

/-- R46: an entry taking a slot. -/
theorem takesSlot_iff {i : Fin 8} {e : Entry} {s t : State} (h : s.keeps e) : s.takesSlot i e t ↔ t = takeSlot i e.id s := by
  obtain ⟨e', he, hu⟩ := h
  have a : e'.address = e.address := (unplaced_eq hu).2.1
  unfold State.takesSlot
  rw [handed_iff (fun _ => rfl)]
  simp only [takeSlot, he, Entry.line, a]
  rfl

/-- R46: a slot that becomes free serves the slot queue. -/
theorem freeSlot_of_freed {i : Fin 8} {s t : State} (h : s.slotFreed i t) : freeSlot i s = t := by
  rcases h with ⟨queue, rfl⟩ | ⟨id, rest, e, queue, found, taken⟩
  · simp only [freeSlot, queue, setSlot]
  · have hid := entry_some_id found
    have keeps : (s.setCapture { s.capture with slotQueue := rest }).keeps e := keeps_of_entry (id := id) found
    have := (takesSlot_iff keeps).mp taken
    rw [this]
    simp only [freeSlot, queue, hid]
    unfold takeSlot
    have e1 : State.entry id ((setSlot i none s).setCapture { (setSlot i none s).capture with slotQueue := rest }) = some e := found
    have e2 : State.entry id (s.setCapture { s.capture with slotQueue := rest }) = some e := found
    rw [e1, e2]
    simp only [setSlot, State.setCapture_capture]
    congr 2
    simp [State.setCapture]

/-- R124: an entry passing the park gate. -/
theorem passes_iff {e : Entry} {s t : State} (h : s.keeps e) : s.passes e t ↔ t = passGate e.id s := by
  have h0 := h
  obtain ⟨e', he, hu⟩ := h
  obtain ⟨id', addr, -, write, act⟩ := unplaced_eq hu
  have check : passGate e.id s = if e.isWrite then captureCheck e s else goToIssue e.id s := by
    simp only [passGate, he, Entry.isWrite, captureCheck, write, act, id', Entry.line, addr]
    rfl
  have needs : s.needsRecord e ↔ (e.isWrite = true ∧ e.action = .journal ∧ s.topOpen = true ∧ s.marked e.line = false) := by
    unfold State.needsRecord Entry.isWrite State.marked Entry.line
    rw [Option.ne_none_iff_isSome]
    simp
  have goes : ¬ s.needsRecord e → passGate e.id s = goToIssue e.id s := by
    intro hn
    rw [needs] at hn
    rw [check]
    split
    · rename_i w
      unfold captureCheck
      rw [if_neg (by intro c; exact hn ⟨w, c⟩)]
    · rfl
  have asks : s.needsRecord e → passGate e.id s = askSlot e.id s := by
    intro hn
    rw [needs] at hn
    rw [check, if_pos hn.1, captureCheck, if_pos hn.2]
  have lowest : ∀ i : Fin 8, s.capture.slots[i] = none → (∀ j : Fin 8, j < i → s.capture.slots[j] ≠ none) →
      s.freeSlot = some i := by
    intro i hi before
    unfold State.freeSlot
    rw [List.find?_eq_some_iff_getElem]
    refine ⟨by simp at hi; simp [hi], i.val, by simp, by simp, fun j hj => ?_⟩
    have := before ⟨j, by omega⟩ hj
    simp only [Fin.getElem_fin] at this
    simpa [← Option.ne_none_iff_isSome] using this
  constructor
  · rintro (⟨hn, hi⟩ | ⟨hn, queue, i, hi, before, taken⟩ | ⟨hn, full, rfl⟩)
    · rw [goes hn]; exact (issues_iff h0).mp hi
    · rw [asks hn]
      simp only [askSlot, queue, List.isEmpty_nil, if_true, lowest i hi before]
      exact (takesSlot_iff h0).mp taken
    · rw [asks hn]
      unfold askSlot
      split
      · rename_i queue
        rcases full with full | full
        · simp at queue; exact absurd queue full
        · have : s.freeSlot = none := by
            unfold State.freeSlot
            rw [List.find?_eq_none]
            intro j _
            have := full j
            simp only [Fin.getElem_fin] at this
            simpa [← Option.ne_none_iff_isSome] using this
          rw [this]; rfl
      · rfl
  · rintro rfl
    by_cases hn : s.needsRecord e
    · right
      rw [asks hn]
      by_cases queue : s.capture.slotQueue = []
      · cases free : s.freeSlot with
        | none =>
          right
          refine ⟨hn, .inr fun i hi => ?_, ?_⟩
          · have := List.find?_eq_none.mp free i (List.mem_finRange i)
            simp only [Fin.getElem_fin] at hi
            simp [hi] at this
          · simp only [askSlot, queue, List.isEmpty_nil, if_true, free, waitForSlot]
            rfl
        | some i =>
          left
          unfold State.freeSlot at free
          rw [List.find?_eq_some_iff_getElem] at free
          obtain ⟨isNone, j, hj, eq, before⟩ := free
          have hji : j = i.val := by have := congrArg Fin.val eq; simpa using this
          have isNone' : s.capture.slots[i] = none := by simpa using isNone
          have before' : ∀ k : Fin 8, k < i → s.capture.slots[k] ≠ none := by
            intro k hk hnone
            have := before k.val (by omega)
            simp only [Fin.getElem_fin] at hnone
            simp [hnone] at this
          refine ⟨hn, queue, i, isNone', before', ?_⟩
          rw [takesSlot_iff h0]
          simp only [askSlot, queue, List.isEmpty_nil, if_true, lowest i isNone' before']
      · right
        refine ⟨hn, .inl queue, ?_⟩
        unfold askSlot
        rw [if_neg (by simpa using queue)]
        rfl
    · exact .inl ⟨hn, (issues_iff h0).mpr (goes hn)⟩

theorem passesAll_iff {es : List Entry} {s t : State} (h : ∀ e ∈ es, s.keeps e) :
    s.passesAll es t ↔ t = passAll (es.map (·.id)) s := by
  induction es generalizing s with
  | nil => rfl
  | cons e rest ih =>
    have he := h e (by simp)
    have rest' : ∀ x ∈ rest, (passGate e.id s).keeps x := fun x hx => (passGate_path _ _).keeps (h x (by simp [hx]))
    simp only [State.passesAll, passes_iff he, List.map_cons, passAll]
    constructor
    · rintro ⟨u, rfl, h'⟩; exact (ih rest').mp h'
    · intro h'; exact ⟨_, rfl, (ih rest').mpr h'⟩

/-- In a table without repeated names each entry is found under its own. -/
theorem keeps_of_mem {s : State} (names : (s.host.table.map (·.id)).Nodup) {e : Entry} (h : e ∈ s.host.table) : s.keeps e := by
  have found : s.entry e.id = some e := by
    unfold State.entry
    generalize s.host.table = l at names h
    induction l with
    | nil => cases h
    | cons x l ih =>
      rw [List.find?_cons]
      rcases List.mem_cons.mp h with rfl | h'
      · simp
      · have ne : x.id ≠ e.id := by
          intro eq
          rw [List.map_cons, List.nodup_cons] at names
          exact names.1 (eq ▸ List.mem_map_of_mem h')
        have : (x.id == e.id) = false := by simpa using ne
        rw [this]
        exact ih (by rw [List.map_cons, List.nodup_cons] at names; exact names.2) h'
  exact keeps_of_entry found

/-- R28: the release of the PARKED entries in arrival order. -/
theorem releaseParked_iff {s t : State} (names : (s.host.table.map (·.id)).Nodup) :
    s.passesAll (s.host.table.filter fun e => decide (e.state = .parked)) t ↔ t = releaseParked s :=
  passesAll_iff fun _ h => keeps_of_mem names (List.mem_of_mem_filter h)

end Sys2Proof.Machine
end

