-- ==== Sys2Proof/Laws/Places.lean ====
section
/-! SUPPORT. Where an entry is on its path: the moves of entries keep every entry in one place, as its state says (R122). -/

namespace Sys2Proof.Machine

/-! ### One entry's state -/

theorem entry_updateEntry (id x : HostId) (f : Entry → Entry) (keeps : ∀ e, (f e).id = e.id) (s : State) :
    (updateEntry id f s).entry x = (s.entry x).map fun e => if e.id = id then f e else e := by
  have same : ((fun e : Entry => e.id == x) ∘ fun e => if e.id = id then f e else e) = fun e : Entry => e.id == x := by
    funext e; simp only [Function.comp_apply]; split
    · rw [keeps]
    · rfl
  simp only [State.entry, updateEntry, State.setHost_host, List.find?_map, same]

theorem entry_setEntryState (st : EntryState) (id x : HostId) (s : State) : (setEntryState st id s).entry x =
    if x = id then (s.entry id).map (fun e => { e with state := st }) else s.entry x := by
  rw [setEntryState, entry_updateEntry]
  · split
    · rename_i h; subst h
      cases he : s.entry x with
      | none => rfl
      | some e => simp [entry_some_id he]
    · rename_i h
      cases he : s.entry x with
      | none => rfl
      | some e => simp [entry_some_id he, h]
  · exact fun _ => rfl

theorem stateOf_setEntryState (st : EntryState) (id x : HostId) (s : State) : (setEntryState st id s).stateOf x =
    if x = id then (s.stateOf id).map (fun _ => st) else s.stateOf x := by
  unfold State.stateOf
  rw [entry_setEntryState]
  split
  · simp [Option.map_map, Function.comp_def]
  · rfl

theorem stateOf_updateEntry (id x : HostId) (f : Entry → Entry) (keeps : ∀ e, (f e).id = e.id)
    (state : ∀ e, (f e).state = e.state) (s : State) : (updateEntry id f s).stateOf x = s.stateOf x := by
  unfold State.stateOf
  rw [entry_updateEntry _ _ _ keeps, Option.map_map]
  congr 1
  funext e; simp only [Function.comp_apply]; split
  · exact state e
  · rfl

/-! ### Fitting counts -/

theorem fits_zero (st : Option EntryState) : fits st 0 0 0 := ⟨Nat.zero_le _, Nat.zero_le _, Nat.zero_le _⟩

theorem fits.mono {st : Option EntryState} {q sp o q' sp' o' : Nat} (h : fits st q sp o) (hq : q' ≤ q) (hs : sp' ≤ sp)
    (ho : o' ≤ o) : fits st q' sp' o' := ⟨hq.trans h.1, hs.trans h.2.1, ho.trans h.2.2⟩

/-- What is past the gate and outside the waits stands alone, and in a state whose one place it is. -/
theorem fits.other {st : Option EntryState} {q sp o : Nat} (h : fits st q sp o) (ho : 1 ≤ o) :
    q = 0 ∧ sp = 0 ∧ o = 1 ∧ placesOf st = (0, 0, 1) := by
  obtain ⟨a, b, c⟩ := h
  rcases st with _ | st
  · simp [placesOf] at c; omega
  · cases st <;> simp [placesOf] at a b c ⊢ <;> omega

theorem fits.queued {st : Option EntryState} {q sp o : Nat} (h : fits st q sp o) (hq : 1 ≤ q) :
    q = 1 ∧ sp = 0 ∧ o = 0 ∧ st = some .slotWait := by
  obtain ⟨a, b, c⟩ := h
  rcases st with _ | st
  · simp [placesOf] at a; omega
  · cases st <;> simp [placesOf] at a b c ⊢ <;> omega

theorem fits.spaced {st : Option EntryState} {q sp o : Nat} (h : fits st q sp o) (hs : 1 ≤ sp) :
    q = 0 ∧ sp = 1 ∧ o = 0 ∧ st = some .spaceWait := by
  obtain ⟨a, b, c⟩ := h
  rcases st with _ | st
  · simp [placesOf] at b; omega
  · cases st <;> simp [placesOf] at a b c ⊢ <;> omega

theorem fits.outside {st : Option EntryState} {q sp o : Nat} (h : fits st q sp o)
    (hst : st = none ∨ st = some .lineWait ∨ st = some .parked) : q = 0 ∧ sp = 0 ∧ o = 0 := by
  obtain ⟨a, b, c⟩ := h
  rcases hst with rfl | rfl | rfl <;> simp [placesOf] at a b c <;> omega

/-- No place of the path holds entry `id`. -/
def State.nowhere (id : HostId) (s : State) : Prop :=
  s.inSlotQueue id = 0 ∧ s.inSlots true id = 0 ∧ s.inSlots false id = 0 ∧ s.inLinks id = 0

theorem State.nowhere.fitsAt {id : HostId} {s : State} (h : s.nowhere id) : s.fitsAt id := by
  unfold State.fitsAt; obtain ⟨a, b, c, d⟩ := h; rw [a, b, c, d]; exact fits_zero _

/-- The counts and the state of an entry are what the table, the send queue, the slots and the memory interface say. -/
theorem State.fitsAt.congr {id : HostId} {s t : State} (st : t.stateOf id = s.stateOf id)
    (slots : t.capture.slots = s.capture.slots) (queue : t.capture.slotQueue = s.capture.slotQueue)
    (memIf : t.memIf = s.memIf) (sent : t.host.sendQueue = s.host.sendQueue) : t.fitsAt id ↔ s.fitsAt id := by
  simp only [State.fitsAt, State.inSlotQueue, State.inSlots, State.inLinks, st, slots, queue, memIf, sent]

/-! ### Requests and tags -/

theorem isFree_host {x : TagState} (h : x.isFree = true) : x.host = none := by
  cases x <;> simp_all [TagState.isFree, TagState.host]

theorem freeTag_free {t : Fin 64} {s : State} (h : s.freeTag = some t) : s.memIf.tags[t].host = none :=
  isFree_host (by have := List.find?_some h; simpa using this)

@[simp] theorem markIssued_memIf (r : MemRequest) (s : State) : (markIssued r s).memIf = s.memIf := by
  unfold markIssued; split <;> rfl
@[simp] theorem markIssued_sendQueue (r : MemRequest) (s : State) : (markIssued r s).host.sendQueue = s.host.sendQueue := by
  unfold markIssued; split <;> rfl

theorem stateOf_markIssued (r : MemRequest) (x : HostId) (s : State) : (markIssued r s).stateOf x =
    if r.host = some x then (s.stateOf x).map (fun _ => .issued) else s.stateOf x := by
  cases r with
  | read id a b =>
    simp only [markIssued, stateOf_setEntryState, MemRequest.host, Option.some.injEq]
    by_cases h : x = id
    · subst h; simp
    · rw [if_neg h, if_neg fun e => h e.symm]
  | write id a b c =>
    simp only [markIssued, stateOf_setEntryState, MemRequest.host, Option.some.injEq]
    by_cases h : x = id
    · subst h; simp
    · rw [if_neg h, if_neg fun e => h e.symm]
  | readLine i l => simp [markIssued, MemRequest.host]
  | restore a b c => simp [markIssued, MemRequest.host]

/-- The count of one request. -/
def MemRequest.counts (r : MemRequest) (x : HostId) : Nat := if r.host = some x then 1 else 0

theorem inLinks_queue (x : HostId) (s : State) (q : List MemRequest) (r : MemRequest) :
    (s.setMemIf { s.memIf with tagQueue := q ++ [r] }).inLinks x =
      (s.setMemIf { s.memIf with tagQueue := q }).inLinks x + r.counts x := by
  simp only [State.inLinks, State.setMemIf_memIf, State.setMemIf_host, List.countP_append, List.countP_singleton,
    MemRequest.counts]
  simp only [beq_iff_eq]; split <;> omega

theorem inLinks_head (x : HostId) (s : State) (q : List MemRequest) (r : MemRequest) :
    (s.setMemIf { s.memIf with tagQueue := r :: q }).inLinks x =
      (s.setMemIf { s.memIf with tagQueue := q }).inLinks x + r.counts x := by
  simp only [State.inLinks, State.setMemIf_memIf, State.setMemIf_host, List.countP_cons, MemRequest.counts]
  simp only [beq_iff_eq]; split <;> omega

theorem countP_tag_le (x : HostId) (tags : Vector TagState 64) (t : Fin 64) (h : tags[t].host = some x) :
    1 ≤ tags.countP fun y => y.host == some x := by
  rw [← Vector.countP_toList, Nat.one_le_iff_ne_zero, Ne, List.countP_eq_zero]
  intro all
  have := all tags[t] (by simp)
  rw [h] at this
  simp at this

theorem inLinks_setTag (x : HostId) (s : State) (t : Fin 64) (v : TagState) :
    (s.setMemIf { s.memIf with tags := s.memIf.tags.set t v }).inLinks x + (if s.memIf.tags[t].host = some x then 1 else 0) =
      s.inLinks x + if v.host = some x then 1 else 0 := by
  have le := countP_tag_le x s.memIf.tags t
  simp only [State.inLinks, State.setMemIf_memIf, State.setMemIf_host, Vector.countP_set, beq_iff_eq, Fin.getElem_fin] at *
  by_cases h : s.memIf.tags[t.val].host = some x
  · have := le h
    rw [if_pos h]; omega
  · rw [if_neg h]; omega

theorem inLinks_issue (x : HostId) (t : Fin 64) (r : MemRequest) (s : State) (h : s.memIf.tags[t].host = none) :
    (issue t r s).inLinks x = s.inLinks x + r.counts x := by
  have := inLinks_setTag x s t (.outstanding r (s.timebase + BitVec.ofNat 32 s.service.params.memTimeout))
  simp only [h, reduceCtorEq, if_false, Nat.add_zero] at this
  simp only [issue, State.inLinks, markIssued_memIf, markIssued_sendQueue] at this ⊢
  rw [MemRequest.counts]
  exact this

theorem handOver_links (r : MemRequest) (x : HostId) (s : State) : (handOver r s).inLinks x = s.inLinks x + r.counts x := by
  have queue := inLinks_queue x s s.memIf.tagQueue r
  unfold handOver
  split
  · split
    · rename_i t ht; exact inLinks_issue x t r s (freeTag_free ht)
    · exact queue
  · exact queue

theorem stateOf_handOver (r : MemRequest) (x : HostId) (s : State) : (handOver r s).stateOf x = s.stateOf x ∨
    (r.host = some x ∧ (handOver r s).stateOf x = (s.stateOf x).map fun _ => .issued) := by
  unfold handOver
  split
  · split
    · rename_i t ht
      simp only [issue, stateOf_markIssued]
      split
      · rename_i hx; exact .inr ⟨hx, rfl⟩
      · exact .inl rfl
    · exact .inl rfl
  · exact .inl rfl

/-- R147: the tag queue is served: every request keeps its place at the memory link, and an entry whose request is issued was in
one of the states of a place there. -/
theorem serveRequests_fitsAt (x : HostId) : ∀ (rs : List MemRequest) (s : State),
    (s.setMemIf { s.memIf with tagQueue := rs }).fitsAt x → (serveRequests rs s).fitsAt x := by
  intro rs
  induction rs with
  | nil => intro s h; exact h
  | cons r rest ih =>
    intro s h
    unfold serveRequests
    split
    · rename_i t ht
      apply ih
      have links := inLinks_issue x t r (s.setMemIf { s.memIf with tagQueue := rest }) (freeTag_free ht)
      have head := inLinks_head x s rest r
      have eq : (issue t r s).setMemIf { (issue t r s).memIf with tagQueue := rest } =
          issue t r (s.setMemIf { s.memIf with tagQueue := rest }) := by
        unfold issue markIssued; split <;> rfl
      rw [eq]
      unfold State.fitsAt at h ⊢
      rw [links]
      rw [head] at h
      have capture : (issue t r (s.setMemIf { s.memIf with tagQueue := rest })).capture = s.capture := markIssued_capture _ _
      simp only [State.inSlotQueue, State.inSlots, capture] at h ⊢
      have st : (issue t r (s.setMemIf { s.memIf with tagQueue := rest })).stateOf x =
          if r.host = some x then (s.stateOf x).map (fun _ => .issued) else s.stateOf x := stateOf_markIssued _ _ _
      rw [st]
      change fits (s.stateOf x) _ _ _ at h
      split
      · rename_i hx
        have one : r.counts x = 1 := by simp [MemRequest.counts, hx]
        simp only [State.setMemIf_capture] at h ⊢
        obtain ⟨a, b, c, d⟩ := h.other (by omega)
        rw [a, b, c]
        cases hs : s.stateOf x with
        | none => rw [hs] at d; simp [placesOf] at d
        | some y => exact ⟨Nat.zero_le _, Nat.zero_le _, Nat.le_refl _⟩
      · exact h
    · exact h

theorem serveRequests_links (x : HostId) : ∀ (rs : List MemRequest) (s : State),
    (serveRequests rs s).inLinks x = (s.setMemIf { s.memIf with tagQueue := rs }).inLinks x := by
  intro rs
  induction rs with
  | nil => intro s; rfl
  | cons r rest ih =>
    intro s
    unfold serveRequests
    split
    · rename_i t ht
      rw [ih]
      have links := inLinks_issue x t r (s.setMemIf { s.memIf with tagQueue := rest }) (freeTag_free ht)
      have eq : (issue t r s).setMemIf { (issue t r s).memIf with tagQueue := rest } =
          issue t r (s.setMemIf { s.memIf with tagQueue := rest }) := by
        unfold issue markIssued; split <;> rfl
      rw [eq, links, inLinks_head x s rest r]
    · rfl

/-- R147: an entry with no request in the queue keeps its state while the queue is served. -/
theorem serveRequests_stateOf (x : HostId) : ∀ (rs : List MemRequest) (s : State), (∀ r ∈ rs, r.host ≠ some x) →
    (serveRequests rs s).stateOf x = s.stateOf x := by
  intro rs
  induction rs with
  | nil => intro s _; rfl
  | cons r rest ih =>
    intro s h
    unfold serveRequests
    split
    · rw [ih _ fun y hy => h y (List.mem_cons_of_mem _ hy)]
      simp only [issue, stateOf_markIssued]
      rw [if_neg (h r List.mem_cons_self)]
      rfl
    · rfl

/-! ### One entry on its path -/

theorem inSlots_setSlot (b : Bool) (x : HostId) (i : Fin 8) (v : Option Slot) (s : State) :
    (setSlot i v s).inSlots b x +
        (if (s.capture.slots[i].any fun sl => sl.entry == x && (sl.stage == .space) == b) then 1 else 0) =
      s.inSlots b x + if (v.any fun sl => sl.entry == x && (sl.stage == .space) == b) then 1 else 0 := by
  have le : (s.capture.slots[i].any fun sl => sl.entry == x && (sl.stage == .space) == b) = true → 1 ≤ s.inSlots b x := by
    intro h
    unfold State.inSlots
    rw [← Vector.countP_toList, Nat.one_le_iff_ne_zero, Ne, List.countP_eq_zero]
    intro all
    exact all s.capture.slots[i] (by simp) h
  simp only [State.inSlots, setSlot, State.setCapture_capture, Vector.countP_set] at le ⊢
  simp only [Fin.getElem_fin] at le ⊢
  generalize (s.capture.slots[i.val].any fun sl => sl.entry == x && (sl.stage == .space) == b) = old at le ⊢
  cases old
  · simp
  · have := le rfl
    simp only [if_true]; omega

theorem setSlot_none_le (b : Bool) (x : HostId) (i : Fin 8) (s : State) : (setSlot i none s).inSlots b x ≤ s.inSlots b x := by
  have := inSlots_setSlot b x i none s
  simp only [Option.any_none, Bool.false_eq_true, if_false] at this
  omega

/-- Another entry goes through a change that leaves its places alone. -/
theorem State.nowhere.congr {id : HostId} {s t : State} (h : s.nowhere id) (queue : t.inSlotQueue id = s.inSlotQueue id)
    (space : t.inSlots true id = s.inSlots true id) (slots : t.inSlots false id = s.inSlots false id)
    (links : t.inLinks id = s.inLinks id) : t.nowhere id := by
  obtain ⟨a, b, c, d⟩ := h
  exact ⟨queue.trans a, space.trans b, slots.trans c, links.trans d⟩

/-- What an operation on the path of entry `id`, which is in no place, does: every entry stays on its path, and another one in no
place stays in none. -/
def Carries (id : HostId) (s t : State) : Prop :=
  (s.onPath → s.nowhere id → t.onPath) ∧ ∀ x, x ≠ id → s.nowhere x → t.nowhere x

theorem Carries.refl (id : HostId) (s : State) : Carries id s s := ⟨fun h _ => h, fun _ _ h => h⟩

theorem setEntryState_carries (st : EntryState) (id : HostId) (s : State) : Carries id s (setEntryState st id s) := by
  refine ⟨fun h n x => ?_, fun x _ h => h⟩
  by_cases hx : x = id
  · subst hx; exact State.nowhere.fitsAt (id := x) n
  · refine (State.fitsAt.congr (s := s) (t := setEntryState st id s) ?_ rfl rfl rfl rfl).mpr (h x)
    rw [stateOf_setEntryState, if_neg hx]

theorem goToIssue_carries (id : HostId) (s : State) : Carries id s (goToIssue id s) := by
  unfold goToIssue
  split
  · exact .refl id s
  · rename_i e he
    have eid := entry_some_id he
    have host : e.request.host = some id := by
      subst eid; unfold Entry.request; split <;> rfl
    have capture : (handOver e.request (setEntryState .issueWait id s)).capture = s.capture := handOver_capture _ _
    have links : ∀ x, (handOver e.request (setEntryState .issueWait id s)).inLinks x =
        s.inLinks x + e.request.counts x := fun x => handOver_links _ _ _
    have other : ∀ x, x ≠ id → e.request.counts x = 0 := fun x hx => by
      simp only [MemRequest.counts, host, Option.some.injEq]; exact if_neg fun h => hx h.symm
    refine ⟨fun h n x => ?_, fun x hx n => ?_⟩
    · have moved := stateOf_handOver e.request x (setEntryState .issueWait id s)
      rw [stateOf_setEntryState, host] at moved
      by_cases hx : x = id
      · subst hx
        have st : (s.stateOf x) = some e.state := by simp [State.stateOf, he]
        obtain ⟨a, b, c, d⟩ := n
        unfold State.fitsAt
        rw [links]
        simp only [State.inSlotQueue, State.inSlots, capture] at a b c ⊢
        rw [a, b, c, d]
        have one : e.request.counts x = 1 := by simp [MemRequest.counts, host]
        rw [one]
        simp only [if_true, st, Option.map_some] at moved
        rcases moved with moved | ⟨-, moved⟩ <;> rw [moved] <;> exact ⟨Nat.zero_le _, Nat.zero_le _, Nat.le_refl _⟩
      · rw [if_neg hx] at moved
        have st := moved.resolve_right fun h => hx (Option.some.inj h.1).symm
        have := h x
        unfold State.fitsAt
        rw [links, other x hx, st]
        simp only [State.inSlotQueue, State.inSlots, capture] at this ⊢
        exact this
    · refine n.congr ?_ ?_ ?_ ?_
      · simp only [State.inSlotQueue, capture]
      · simp only [State.inSlots, capture]
      · simp only [State.inSlots, capture]
      · rw [links, other x hx, Nat.add_zero]

theorem takeSlot_carries (i : Fin 8) (id : HostId) (s : State) (free : s.capture.slots[i] = none) :
    Carries id s (takeSlot i id s) := by
  unfold takeSlot
  split
  · exact .refl id s
  · rename_i e he
    generalize hu : setEntryState .captureRead id
      (setSlot i (some { entry := id, line := e.line, stage := .read, data := none }) s) = u
    have queue : ∀ x, (handOver (.readLine i e.line) u).inSlotQueue x = s.inSlotQueue x := fun x => by
      simp only [State.inSlotQueue, handOver_capture]; subst hu; rfl
    have slots : ∀ b x, (handOver (.readLine i e.line) u).inSlots b x =
        s.inSlots b x + if id = x ∧ b = false then 1 else 0 := fun b x => by
      have := inSlots_setSlot b x i (some { entry := id, line := e.line, stage := .read, data := none }) s
      simp only [free, Option.any_none, Bool.false_eq_true, if_false, Nat.add_zero, Option.any_some] at this
      simp only [State.inSlots, handOver_capture] at this ⊢
      have cap : u.capture.slots = (setSlot i (some { entry := id, line := e.line, stage := .read, data := none }) s).capture.slots := by
        subst hu; rfl
      rw [cap, this]
      cases b <;> simp
    have links : ∀ x, (handOver (.readLine i e.line) u).inLinks x = s.inLinks x := fun x => by
      rw [handOver_links]; subst hu; rfl
    have st : ∀ x, (handOver (.readLine i e.line) u).stateOf x = if x = id then (s.stateOf id).map (fun _ => .captureRead) else s.stateOf x := fun x => by
      rcases stateOf_handOver (.readLine i e.line) x u with h | ⟨h, -⟩
      · rw [h]; subst hu; rw [stateOf_setEntryState]; rfl
      · cases h
    refine ⟨fun h n x => ?_, fun x hx n => ?_⟩
    · unfold State.fitsAt
      rw [queue, slots, slots, links, st]
      by_cases hx : x = id
      · subst hx
        obtain ⟨a, b, c, d⟩ := n
        rw [a, b, c, d]
        simp [State.stateOf, he, fits, placesOf]
      · have hx' : ¬ id = x := fun h => hx h.symm
        have := h x
        simp only [hx, hx', false_and, if_false, Nat.add_zero]
        exact this
    · have hx' : ¬ id = x := fun h => hx h.symm
      exact n.congr (queue x) (by rw [slots]; simp) (by rw [slots]; simp [hx']) (links x)

theorem waitForSlot_carries (id : HostId) (s : State) (there : (s.entry id).isSome) : Carries id s (waitForSlot id s) := by
  have queue : ∀ x, (waitForSlot id s).inSlotQueue x = s.inSlotQueue x + if id = x then 1 else 0 := fun x => by
    simp only [State.inSlotQueue, waitForSlot, setEntryState, updateEntry, State.setHost_capture, State.setCapture_capture,
      List.count_append, List.count_singleton, beq_iff_eq]
  have st : ∀ x, (waitForSlot id s).stateOf x = if x = id then (s.stateOf id).map (fun _ => .slotWait) else s.stateOf x :=
    fun x => stateOf_setEntryState _ _ _ _
  refine ⟨fun h n x => ?_, fun x hx n => ?_⟩
  · unfold State.fitsAt
    rw [queue, st]
    change fits _ _ (s.inSlots true x) (s.inSlots false x + s.inLinks x)
    by_cases hx : x = id
    · subst hx
      obtain ⟨a, b, c, d⟩ := n
      rw [a, b, c, d]
      obtain ⟨e, he⟩ := Option.isSome_iff_exists.mp there
      simp [State.stateOf, he, fits, placesOf]
    · have hx' : ¬ id = x := fun h => hx h.symm
      have := h x
      simp only [hx, hx', if_false, Nat.add_zero]
      exact this
  · have hx' : ¬ id = x := fun h => hx h.symm
    exact n.congr (by rw [queue]; simp [hx']) rfl rfl rfl

theorem freeSlot_some {s : State} {i : Fin 8} (h : s.freeSlot = some i) : s.capture.slots[i] = none := by
  have := List.find?_some h
  simpa using this

theorem passGate_carries (id : HostId) (s : State) : Carries id s (passGate id s) := by
  unfold passGate
  split
  · exact .refl id s
  · rename_i e he
    split
    · unfold captureCheck
      rw [entry_some_id he]
      split
      · unfold askSlot
        split
        · split
          · rename_i i hi; exact takeSlot_carries _ _ _ (freeSlot_some hi)
          · exact waitForSlot_carries _ _ (by rw [he]; rfl)
        · exact waitForSlot_carries _ _ (by rw [he]; rfl)
      · exact goToIssue_carries _ _
    · exact goToIssue_carries _ _

theorem reachGate_carries (id : HostId) (s : State) : Carries id s (reachGate id s) := by
  unfold reachGate
  split
  · exact .refl id s
  · split
    · exact passGate_carries _ _
    · exact setEntryState_carries _ _ _

/-- Several entries that are in no place go on, one after the other. -/
theorem all_onPath {f : List HostId → State → State} {g : HostId → State → State} (nil : ∀ s, f [] s = s)
    (cons : ∀ id rest s, f (id :: rest) s = f rest (g id s)) (carries : ∀ id s, Carries id s (g id s)) :
    ∀ (ids : List HostId) (s : State), ids.Nodup → s.onPath → (∀ id ∈ ids, s.nowhere id) → (f ids s).onPath := by
  intro ids
  induction ids with
  | nil => intro s _ h _; rw [nil]; exact h
  | cons id rest ih =>
    intro s nodup h n
    rw [cons]
    have ne := List.nodup_cons.mp nodup
    refine ih _ ne.2 ((carries id s).1 h (n id List.mem_cons_self)) fun x hx => ?_
    exact (carries id s).2 x (fun e => ne.1 (e ▸ hx)) (n x (List.mem_cons_of_mem _ hx))

theorem issueAll_onPath {ids : List HostId} {s : State} (nodup : ids.Nodup) (h : s.onPath) (n : ∀ id ∈ ids, s.nowhere id) :
    (issueAll ids s).onPath :=
  all_onPath (f := issueAll) (g := goToIssue) (fun _ => rfl) (fun _ _ _ => rfl) goToIssue_carries ids s nodup h n

theorem passAll_onPath {ids : List HostId} {s : State} (nodup : ids.Nodup) (h : s.onPath) (n : ∀ id ∈ ids, s.nowhere id) :
    (passAll ids s).onPath :=
  all_onPath (f := passAll) (g := passGate) (fun _ => rfl) (fun _ _ _ => rfl) passGate_carries ids s nodup h n

/-- With one entry to a name, an entry of the table is the one its name finds. -/
theorem entry_of_mem {s : State} {e : Entry} (names : (s.host.table.map (·.id)).Nodup) (h : e ∈ s.host.table) :
    s.entry e.id = some e := by
  have go : ∀ l : List Entry, (l.map (·.id)).Nodup → e ∈ l → l.find? (fun x => x.id == e.id) = some e := by
    intro l
    induction l with
    | nil => intro _ h; cases h
    | cons x rest ih =>
      intro nodup h
      rw [List.map_cons, List.nodup_cons] at nodup
      rcases List.mem_cons.mp h with rfl | h
      · simp
      · have ne : x.id ≠ e.id := fun eq => nodup.1 (eq ▸ List.mem_map_of_mem h)
        rw [List.find?_cons]
        simp only [beq_eq_false_iff_ne.mpr ne]
        exact ih nodup.2 h
  exact go _ names h

theorem stateOf_of_mem {s : State} {e : Entry} (names : (s.host.table.map (·.id)).Nodup) (h : e ∈ s.host.table) :
    s.stateOf e.id = some e.state := by rw [State.stateOf, entry_of_mem names h]; rfl

/-- An entry before the gate, or none, is in no place. -/
theorem State.onPath.outside {s : State} (h : s.onPath) {id : HostId}
    (hst : s.stateOf id = none ∨ s.stateOf id = some .lineWait ∨ s.stateOf id = some .parked) : s.nowhere id := by
  obtain ⟨a, b, c⟩ := (h id).outside hst
  exact ⟨a, b, by omega, by omega⟩

theorem filter_ids_nodup {s : State} (names : (s.host.table.map (·.id)).Nodup) (p : Entry → Bool) :
    ((s.host.table.filter p).map (·.id)).Nodup := names.sublist (List.filter_sublist.map _)

theorem releaseParked_onPath {s : State} (names : (s.host.table.map (·.id)).Nodup) (h : s.onPath) :
    (releaseParked s).onPath := by
  refine passAll_onPath (filter_ids_nodup names _) h fun id hid => ?_
  simp only [State.parked, List.mem_map, List.mem_filter, decide_eq_true_eq] at hid
  obtain ⟨e, ⟨mem, st⟩, rfl⟩ := hid
  exact h.outside (.inr (.inr (by rw [stateOf_of_mem names mem, st])))

/-! ### What a move of entries on their paths does to the capture unit -/

theorem find_write {s t : State} (h : t.host.table.map Entry.unplaced = s.host.table.map Entry.unplaced) (id : HostId) :
    (t.entry id).map (·.write) = (s.entry id).map (·.write) := by
  have same := find_unplaced (id := id) h
  have := congrArg (Option.map Entry.write) same
  simpa [Option.map_map, Function.comp_def, Entry.unplaced, State.entry] using this

theorem writeAt_of_map {s t : State} {id : HostId} (h : (t.entry id).map (·.write) = (s.entry id).map (·.write))
    (w : s.writeAt id) : t.writeAt id := by
  intro e he
  rw [he] at h
  cases hs : s.entry id with
  | none => rw [hs] at h; cases h
  | some x =>
    rw [hs] at h
    have eq : e.write = x.write := Option.some.inj h
    rw [eq]; exact w x hs

/-- A move of entries on their paths: held slots stay as they are, and what joins the slots or the slot queue is a write that
found the top epoch OPEN, or came from the slot queue. -/
structure Carried (s t : State) : Prop where
  path : SameButPaths s t
  kept : ∀ (j : Fin 8) (sl : Slot), s.capture.slots[j] = some sl → t.capture.slots[j] = some sl
  slots : ∀ (j : Fin 8) (sl : Slot), t.capture.slots[j] = some sl → s.capture.slots[j] = some sl ∨
    (sl.stage = .read ∧ ((s.writeAt sl.entry ∧ s.topOpen = true) ∨ sl.entry ∈ s.capture.slotQueue))
  queue : ∀ id ∈ t.capture.slotQueue, id ∈ s.capture.slotQueue ∨ (s.writeAt id ∧ s.topOpen = true)

theorem SameButPaths.topOpen {s t : State} (p : SameButPaths s t) : t.topOpen = s.topOpen := by
  simp only [State.topOpen, State.top, p.epochs]

theorem SameButPaths.writeAt {s t : State} (p : SameButPaths s t) {id : HostId} : t.writeAt id ↔ s.writeAt id :=
  ⟨writeAt_of_map (find_write p.entries id).symm, writeAt_of_map (find_write p.entries id)⟩

theorem Carried.refl (s : State) : Carried s s := ⟨.refl s, fun _ _ h => h, fun _ _ h => .inl h, fun _ h => .inl h⟩

theorem Carried.trans {s t u : State} (a : Carried s t) (b : Carried t u) : Carried s u where
  path := a.path.trans b.path
  kept j sl h := b.kept j sl (a.kept j sl h)
  slots j sl h := by
    rcases b.slots j sl h with h | ⟨st, ⟨w, o⟩ | m⟩
    · exact a.slots j sl h
    · exact .inr ⟨st, .inl ⟨a.path.writeAt.mp w, a.path.topOpen ▸ o⟩⟩
    · rcases a.queue _ m with m | m
      · exact .inr ⟨st, .inr m⟩
      · exact .inr ⟨st, .inl m⟩
  queue id h := by
    rcases b.queue id h with h | ⟨w, o⟩
    · exact a.queue id h
    · exact .inr ⟨a.path.writeAt.mp w, a.path.topOpen ▸ o⟩

theorem Carried.ofCapture {s t : State} (p : SameButPaths s t) (c : t.capture = s.capture) : Carried s t :=
  ⟨p, fun _ _ h => by rw [c]; exact h, fun _ _ h => .inl (by rw [c] at h; exact h), fun _ h => .inl (by rw [c] at h; exact h)⟩

theorem setEntryState_carried (st : EntryState) (id : HostId) (s : State) : Carried s (setEntryState st id s) :=
  .ofCapture (setEntryState_path _ _ _) rfl

theorem goToIssue_carried (id : HostId) (s : State) : Carried s (goToIssue id s) :=
  .ofCapture (goToIssue_path _ _) (goToIssue_capture _ _)

theorem issueAll_carried (ids : List HostId) (s : State) : Carried s (issueAll ids s) :=
  .ofCapture (issueAll_path _ _) (issueAll_capture _ _)

theorem serveRequests_capture (rs : List MemRequest) (s : State) : (serveRequests rs s).capture = s.capture := by
  induction rs generalizing s with
  | nil => rfl
  | cons r rest ih =>
    unfold serveRequests; split
    · exact (ih _).trans (markIssued_capture _ _)
    · rfl

theorem serveTagQueue_carried (s : State) : Carried s (serveTagQueue s) :=
  .ofCapture (serveTagQueue_path _) (serveRequests_capture _ _)

theorem takeSlot_capture (i : Fin 8) (id : HostId) (s : State) : (takeSlot i id s).capture = s.capture ∨
    ∃ l, (takeSlot i id s).capture = (setSlot i (some { entry := id, line := l, stage := .read, data := none }) s).capture := by
  unfold takeSlot; split
  · exact .inl rfl
  · exact .inr ⟨_, handOver_capture _ _⟩

theorem slots_set {v : Vector (Option Slot) 8} {i j : Fin 8} {x : Option Slot} {sl : Slot}
    (h : (v.set i x)[j] = some sl) : (i = j ∧ x = some sl) ∨ (i ≠ j ∧ v[j] = some sl) := by
  by_cases hij : i = j
  · subst hij; simp only [Fin.getElem_fin, Vector.getElem_set_self] at h; exact .inl ⟨rfl, h⟩
  · simp only [Fin.getElem_fin] at h ⊢
    rw [Vector.getElem_set_ne _ _ (fun e => hij (Fin.ext e))] at h
    exact .inr ⟨hij, h⟩

theorem slots_at {v : Vector (Option Slot) 8} {i j : Fin 8} {x : Option Slot} (e : i = j) (h : v[i] = x) : v[j] = x := by
  subst e; exact h

theorem slots_set_ne {v : Vector (Option Slot) 8} {i j : Fin 8} {x : Option Slot} (h : i ≠ j) : (v.set i x)[j] = v[j] := by
  simp only [Fin.getElem_fin]
  exact Vector.getElem_set_ne _ _ (fun e => h (Fin.ext e))

/-- A free slot is taken by an entry that the capture check sends there, or that stood in the slot queue. -/
theorem takeSlot_carried (i : Fin 8) (id : HostId) (s : State) (free : s.capture.slots[i] = none)
    (by' : (s.writeAt id ∧ s.topOpen = true) ∨ id ∈ s.capture.slotQueue) : Carried s (takeSlot i id s) := by
  have path := takeSlot_path i id s
  rcases takeSlot_capture i id s with c | ⟨l, c⟩
  · exact .ofCapture path c
  · refine ⟨path, fun j sl h => ?_, fun j sl h => ?_, fun x h => .inl (by rw [c] at h; exact h)⟩
    · rw [c]
      by_cases hij : i = j
      · subst hij; rw [free] at h; cases h
      · exact (slots_set_ne hij).trans h
    · rw [c] at h
      rcases slots_set h with ⟨-, h⟩ | ⟨-, h⟩
      · cases h; exact .inr ⟨rfl, by'⟩
      · exact .inl h

theorem waitForSlot_carried (id : HostId) (s : State) (w : s.writeAt id) (o : s.topOpen = true) :
    Carried s (waitForSlot id s) := by
  refine ⟨waitForSlot_path _ _, fun _ _ h => h, fun _ _ h => .inl h, fun x h => ?_⟩
  rcases List.mem_append.mp h with h | h
  · exact .inl h
  · rw [List.mem_singleton.mp h]; exact .inr ⟨w, o⟩

theorem passGate_carried (id : HostId) (s : State) : Carried s (passGate id s) := by
  unfold passGate
  split
  · exact .refl s
  · rename_i e he
    split
    · rename_i w
      have write : s.writeAt id := fun x hx => by
        rw [he] at hx; cases hx; intro n; simp [Entry.isWrite, n] at w
      unfold captureCheck
      rw [entry_some_id he]
      split
      · rename_i need
        unfold askSlot
        split
        · split
          · rename_i i hi; exact takeSlot_carried _ _ _ (freeSlot_some hi) (.inl ⟨write, need.2.1⟩)
          · exact waitForSlot_carried _ _ write need.2.1
        · exact waitForSlot_carried _ _ write need.2.1
      · exact goToIssue_carried _ _
    · exact goToIssue_carried _ _

theorem reachGate_carried (id : HostId) (s : State) : Carried s (reachGate id s) := by
  unfold reachGate
  split
  · exact .refl s
  · split
    · exact passGate_carried _ _
    · exact setEntryState_carried _ _ _

theorem passAll_carried (ids : List HostId) (s : State) : Carried s (passAll ids s) := by
  induction ids generalizing s with
  | nil => exact .refl s
  | cons id rest ih => exact (passGate_carried id s).trans (ih _)

theorem releaseParked_carried (s : State) : Carried s (releaseParked s) := passAll_carried _ _

/-- R46: a slot that becomes free. -/
theorem freeSlot_carried (i : Fin 8) (s : State) : Carried (setSlot i none s) (freeSlot i s) := by
  unfold freeSlot
  split
  · exact .refl _
  · rename_i id rest hq
    generalize hu : (setSlot i none s).setCapture { (setSlot i none s).capture with slotQueue := rest } = u
    have cap : u.capture = { (setSlot i none s).capture with slotQueue := rest } := by subst hu; rfl
    have path : SameButPaths (setSlot i none s) (takeSlot i id u) := by
      subst hu; exact (SameButPaths.ofSlots _ _ _).trans (takeSlot_path _ _ _)
    have queue : id ∈ (setSlot i none s).capture.slotQueue := by
      change id ∈ s.capture.slotQueue
      rw [hq]; exact List.mem_cons_self
    have tail : ∀ x ∈ rest, x ∈ (setSlot i none s).capture.slotQueue := fun x hx => by
      change x ∈ s.capture.slotQueue
      rw [hq]; exact List.mem_cons_of_mem _ hx
    rcases takeSlot_capture i id u with c | ⟨l, c⟩
    · refine ⟨path, fun j sl h => ?_, fun j sl h => .inl ?_, fun x h => .inl (tail x ?_)⟩
      · rw [c, cap]; exact h
      · rw [c, cap] at h; exact h
      · rw [c, cap] at h; exact h
    · have cslots : (takeSlot i id u).capture.slots = (setSlot i none s).capture.slots.set i
          (some { entry := id, line := l, stage := .read, data := none }) := by rw [c]; simp only [setSlot, State.setCapture_capture, cap]
      have cqueue : (takeSlot i id u).capture.slotQueue = rest := by rw [c]; simp only [setSlot, State.setCapture_capture, cap]
      refine ⟨path, fun j sl h => ?_, fun j sl h => ?_, fun x h => .inl (tail x (by rw [cqueue] at h; exact h))⟩
      · rw [cslots]
        by_cases hij : i = j
        · subst hij
          simp [setSlot] at h
        · exact (slots_set_ne hij).trans h
      · rw [cslots] at h
        rcases slots_set h with ⟨-, h⟩ | ⟨-, h⟩
        · cases h; exact .inr ⟨rfl, .inr queue⟩
        · exact .inl h

/-- R46: every entry stays on its path when a slot becomes free, and one in no place stays in none. -/
theorem freeSlot_onPath {i : Fin 8} {s : State} (h : (setSlot i none s).onPath) :
    (freeSlot i s).onPath ∧ ∀ x, (setSlot i none s).nowhere x → (freeSlot i s).nowhere x := by
  unfold freeSlot
  split
  · exact ⟨h, fun _ n => n⟩
  · rename_i id rest hq
    generalize hu : (setSlot i none s).setCapture { (setSlot i none s).capture with slotQueue := rest } = u
    have cap : u.capture = { (setSlot i none s).capture with slotQueue := rest } := by subst hu; rfl
    have queue : ∀ x, (setSlot i none s).inSlotQueue x = u.inSlotQueue x + if id = x then 1 else 0 := fun x => by
      have q : (setSlot i none s).capture.slotQueue = id :: rest := hq
      simp only [State.inSlotQueue, cap, q, List.count_cons, beq_iff_eq]
    have slots : ∀ b x, u.inSlots b x = (setSlot i none s).inSlots b x := fun b x => by simp only [State.inSlots, cap]
    have links : ∀ x, u.inLinks x = (setSlot i none s).inLinks x := fun x => by subst hu; rfl
    have st : ∀ x, u.stateOf x = (setSlot i none s).stateOf x := fun x => by subst hu; rfl
    have free : u.capture.slots[i] = none := by rw [cap]; simp [setSlot]
    have carries := takeSlot_carries i id u free
    have path : u.onPath := fun x => by
      have := h x
      unfold State.fitsAt at this ⊢
      rw [slots, slots, links, st]
      exact this.mono (by rw [queue]; omega) le_rfl le_rfl
    have none' : u.nowhere id := by
      have q := queue id
      rw [if_pos rfl] at q
      obtain ⟨a, b, c, -⟩ := (h id).queued (by omega)
      refine ⟨by omega, by rw [slots]; exact b, by rw [slots]; omega, by rw [links]; omega⟩
    refine ⟨carries.1 path none', fun x n => carries.2 x ?_ ?_⟩
    · rintro rfl
      have := queue x
      rw [n.1, if_pos rfl] at this
      omega
    · refine n.congr ?_ (slots _ _) (slots _ _) (links _)
      have := queue x
      rw [n.1] at this ⊢; omega

/-! ### The laws of entries and captures -/

/-- What the laws speak of. -/
theorem State.pathLaw.congr {s t : State} (h : s.pathLaw) (table : t.host.table = s.host.table)
    (sent : t.host.sendQueue.filterMap HostMessage.responds = s.host.sendQueue.filterMap HostMessage.responds)
    (slots : t.capture.slots = s.capture.slots) (queue : t.capture.slotQueue = s.capture.slotQueue)
    (memIf : t.memIf = s.memIf) (waiting : t.journal.waiting = s.journal.waiting)
    (ops : t.journal.ops.filterMap PortOp.appendSlot = s.journal.ops.filterMap PortOp.appendSlot) : t.pathLaw := by
  obtain ⟨a, b, c, d, e⟩ := h
  have entry : ∀ id, t.entry id = s.entry id := fun id => by simp only [State.entry, table]
  have count : ∀ (id : HostId) (l : List HostMessage),
      l.countP (fun m => m.responds == some id) = (l.filterMap HostMessage.responds).count id := by
    intro id l
    induction l with
    | nil => rfl
    | cons m rest ih =>
      rw [List.countP_cons, ih, List.filterMap_cons]
      cases hm : m.responds with
      | none => simp
      | some x => by_cases hx : x = id <;> simp [hx]
  refine ⟨by rw [table]; exact a, fun id => ?_, ?_, ?_, ?_⟩
  · have := b id
    simp only [State.fitsAt, State.stateOf, State.inSlotQueue, State.inSlots, State.inLinks, entry, slots, queue, memIf, count,
      sent] at this ⊢
    exact this
  · simp only [State.capturesWrites, State.writeAt, entry, slots, queue] at c ⊢; exact c
  · simp only [State.waitsInSlots, waiting, slots] at d ⊢; exact d
  · simp only [State.appendsInSlots, ops, slots] at e ⊢; exact e

/-- Moves of entries on their paths keep the laws. -/
theorem Carried.pathLaw {s t : State} (c : Carried s t) (h : s.pathLaw) (p : t.onPath) : t.pathLaw := by
  have w : ∀ id, t.writeAt id ↔ s.writeAt id := fun id => c.path.writeAt
  refine ⟨by rw [c.path.ids]; exact h.names, p, ⟨fun id hid => ?_, fun j sl hj => ?_⟩, ⟨?_, fun r hr => ?_⟩, ⟨?_, fun i hi => ?_⟩⟩
  · rw [w]; exact (c.queue id hid).elim (h.writes.1 id) (·.1)
  · rw [w]
    rcases c.slots j sl hj with k | ⟨-, ⟨k, -⟩ | k⟩
    · exact h.writes.2 j sl k
    · exact k
    · exact h.writes.1 _ k
  · rw [c.path.journal]; exact h.waits.1
  · rw [c.path.journal] at hr
    obtain ⟨sl, a, b⟩ := h.waits.2 r hr
    exact ⟨sl, c.kept _ _ a, b⟩
  · rw [c.path.journal]; exact h.appends.1
  · rw [c.path.journal] at hi
    obtain ⟨sl, a, b⟩ := h.appends.2 i hi
    exact ⟨sl, c.kept _ _ a, b⟩

theorem releaseParked_pathLaw {s : State} (h : s.pathLaw) : (releaseParked s).pathLaw :=
  (releaseParked_carried s).pathLaw h (releaseParked_onPath h.names h.path)

theorem reachGate_pathLaw {id : HostId} {s : State} (h : s.pathLaw) (n : s.nowhere id) : (reachGate id s).pathLaw :=
  (reachGate_carried id s).pathLaw h ((reachGate_carries id s).1 h.path n)

theorem goToIssue_pathLaw {id : HostId} {s : State} (h : s.pathLaw) (n : s.nowhere id) : (goToIssue id s).pathLaw :=
  (goToIssue_carried id s).pathLaw h ((goToIssue_carries id s).1 h.path n)

/-- R46: a slot becomes free. -/
theorem freeSlot_pathLaw {i : Fin 8} {s : State} (h : (setSlot i none s).pathLaw) : (freeSlot i s).pathLaw :=
  (freeSlot_carried i s).pathLaw h (freeSlot_onPath h.path).1

/-- A slot emptied holds nothing that waits for space or is written. -/
theorem setSlot_none_pathLaw {i : Fin 8} {s : State} (h : s.pathLaw) (waits : ∀ r ∈ s.journal.waiting, r.slot ≠ i)
    (appends : i ∉ s.journal.ops.filterMap PortOp.appendSlot) : (setSlot i none s).pathLaw := by
  have slots : ∀ {j : Fin 8} {sl : Slot}, (setSlot i none s).capture.slots[j] = some sl → s.capture.slots[j] = some sl :=
    fun h => by
      rcases slots_set h with ⟨-, h⟩ | ⟨-, h⟩
      · cases h
      · exact h
  refine ⟨h.names, fun x => ?_, ⟨h.writes.1, fun j sl hj => h.writes.2 j sl (slots hj)⟩, ⟨h.waits.1, fun r hr => ?_⟩,
    ⟨h.appends.1, fun j hj => ?_⟩⟩
  · have := h.path x
    exact this.mono le_rfl (setSlot_none_le true x i s) (Nat.add_le_add_right (setSlot_none_le false x i s) _)
  · obtain ⟨sl, a, b⟩ := h.waits.2 r hr
    exact ⟨sl, (slots_set_ne (waits r hr).symm).trans a, b⟩
  · obtain ⟨sl, a, b⟩ := h.appends.2 j hj
    exact ⟨sl, (slots_set_ne (fun e : i = j => appends (e ▸ hj))).trans a, b⟩

/-- The entry of an emptied slot is in no place. -/
theorem setSlot_none_nowhere {i : Fin 8} {sl : Slot} {s : State} (h : s.onPath) (hs : s.capture.slots[i] = some sl) :
    (setSlot i none s).nowhere sl.entry := by
  have fits := h sl.entry
  have a := inSlots_setSlot true sl.entry i none s
  have b := inSlots_setSlot false sl.entry i none s
  simp only [hs, Option.any_some, Option.any_none, beq_self_eq_true, Bool.true_and, Bool.false_eq_true, if_false,
    Nat.add_zero] at a b
  change _ ∧ _ ∧ _ ∧ s.inLinks _ = 0
  change s.inSlotQueue _ = 0 ∧ _
  by_cases stage : sl.stage = .space
  · simp only [stage, beq_self_eq_true, if_true] at a b
    have b' : ((true == false) = true) = False := by simp
    simp only [b', if_false] at b
    obtain ⟨c, d, e, -⟩ := fits.spaced (by omega)
    omega
  · have st : (sl.stage == SlotStage.space) = false := by simpa using stage
    simp only [st] at a b
    have a' : ((false == true) = true) = False := by simp
    simp only [a', if_false, beq_self_eq_true, if_true] at a b
    obtain ⟨c, d, e, -⟩ := fits.other (by omega)
    omega

/-- What the entry of a held slot can be. -/
theorem slot_places {i : Fin 8} {sl : Slot} {s : State} (h : s.onPath) (hs : s.capture.slots[i] = some sl)
    (stage : sl.stage ≠ .space) : placesOf (s.stateOf sl.entry) = (0, 0, 1) := by
  have b := inSlots_setSlot false sl.entry i none s
  have st : (sl.stage == SlotStage.space) = false := by simpa using stage
  simp only [hs, Option.any_some, Option.any_none, beq_self_eq_true, Bool.true_and, Bool.false_eq_true, if_false,
    Nat.add_zero, st, if_true] at b
  exact ((h sl.entry).other (by omega)).2.2.2

end Sys2Proof.Machine
end

