-- ==== Sys2Proof/Laws/Captures.lean ====
section
/-! SUPPORT. The path laws over answers, append requests, breaks, the memory link and the journal port. -/

namespace Sys2Proof.Machine

/-! ### Answers and the send queue -/

theorem stateOf_answer (id x : HostId) (w : Bool) (st : HostStatus) (d : List Word) (s : State) :
    (answer id w st d s).stateOf x = s.stateOf x :=
  stateOf_updateEntry id x (fun e => { e with response := some { status := st, data := d } }) (fun _ => rfl) (fun _ => rfl) s

theorem entry_answer_write (id x : HostId) (w : Bool) (st : HostStatus) (d : List Word) (s : State) :
    ((answer id w st d s).entry x).map (·.write) = (s.entry x).map (·.write) := by
  change ((updateEntry id _ s).entry x).map _ = _
  rw [entry_updateEntry id x (fun e => { e with response := some { status := st, data := d } }) (fun _ => rfl), Option.map_map]
  congr 1
  funext e; simp only [Function.comp_apply]; split <;> rfl

theorem ids_updateEntry (id : HostId) (f : Entry → Entry) (keeps : ∀ e, (f e).id = e.id) (s : State) :
    (updateEntry id f s).host.table.map (·.id) = s.host.table.map (·.id) := by
  simp only [updateEntry, State.setHost_host, List.map_map]
  congr 1
  funext e; simp only [Function.comp_apply]; split
  · exact keeps e
  · rfl

/-- R126: an entry past the gate that is in no place is answered. -/
theorem answer_pathLaw {id : HostId} {s : State} (h : s.pathLaw) (n : s.nowhere id)
    (past : placesOf (s.stateOf id) = (0, 0, 1)) (w : Bool) (st : HostStatus) (d : List Word) :
    (answer id w st d s).pathLaw := by
  have write : ∀ x, s.writeAt x → (answer id w st d s).writeAt x := fun x hx =>
    writeAt_of_map (entry_answer_write id x w st d s) hx
  refine ⟨?_, fun x => ?_, ⟨fun x hx => write x (h.writes.1 x hx), fun j sl hj => write _ (h.writes.2 j sl hj)⟩, h.waits, h.appends⟩
  · have := ids_updateEntry id (fun e => { e with response := some { status := st, data := d } }) (fun _ => rfl) s
    exact this ▸ h.names
  · have links : (answer id w st d s).inLinks x = s.inLinks x + if id = x then 1 else 0 := by
      simp only [State.inLinks, answer, send, updateEntry, State.setHost_host, State.setHost_memIf, List.countP_append,
        List.countP_singleton, HostMessage.responds, beq_iff_eq, Option.some.injEq, Nat.add_assoc]
    unfold State.fitsAt
    rw [stateOf_answer, links]
    change fits _ (s.inSlotQueue x) (s.inSlots true x) (s.inSlots false x + _)
    by_cases hx : id = x
    · subst hx
      obtain ⟨a, b, c, d⟩ := n
      rw [a, b, c, d, if_pos rfl]
      refine ⟨Nat.zero_le _, Nat.zero_le _, ?_⟩
      rw [past]
    · rw [if_neg hx]; exact h.path x

theorem entry_filter (id x : HostId) (s : State) :
    (s.setHost { s.host with table := s.host.table.filter fun y => decide (y.id ≠ id) }).entry x =
      if x = id then none else s.entry x := by
  simp only [State.entry, State.setHost_host, List.find?_filter]
  split
  · rename_i h; subst h
    rw [List.find?_eq_none]; intro y _; simp
  · rename_i h
    congr 1; funext y
    by_cases hy : y.id = x <;> simp [hy, h]

/-! ### Append requests -/

/-- `s` with another queue of waiting append requests. -/
def State.withWaiting (ws : List AppendRequest) (s : State) : State := s.setJournal { s.journal with waiting := ws }

theorem slot_present {i : Fin 8} {sl : Slot} {s : State} (h : s.onPath) (hs : s.capture.slots[i] = some sl) :
    (s.stateOf sl.entry).isSome := by
  by_cases stage : sl.stage = .space
  · have a := inSlots_setSlot true sl.entry i none s
    simp only [hs, Option.any_some, Option.any_none, beq_self_eq_true, Bool.true_and, Bool.false_eq_true, if_false,
      Nat.add_zero, stage, if_true] at a
    rw [((h sl.entry).spaced (by omega)).2.2.2]; rfl
  · have := slot_places h hs stage
    cases hst : s.stateOf sl.entry with
    | none => rw [hst] at this; simp [placesOf] at this
    | some x => rfl

/-- R45: a slot goes over to stage SPACE or APPEND together with its entry. -/
theorem restage_onPath {i : Fin 8} {sl new : Slot} {es : EntryState} {s : State} (h : s.onPath)
    (hs : s.capture.slots[i] = some sl) (entry : new.entry = sl.entry)
    (stage : (new.stage = .space ∧ es = .spaceWait) ∨ (new.stage = .append ∧ es = .captureAppend)) :
    (setEntryState es sl.entry (setSlot i (some new) s)).onPath := by
  intro x
  have twice : setSlot i (some new) s = setSlot i (some new) (setSlot i none s) := by
    simp [setSlot]
  have free : (setSlot i none s).capture.slots[i] = none := by simp [setSlot]
  have count : ∀ b, (setSlot i (some new) s).inSlots b x = (setSlot i none s).inSlots b x +
      if (new.entry == x && (new.stage == .space) == b) then 1 else 0 := fun b => by
    have := inSlots_setSlot b x i (some new) (setSlot i none s)
    simp only [free, Option.any_none, Bool.false_eq_true, if_false, Nat.add_zero, Option.any_some] at this
    rw [twice]; exact this
  unfold State.fitsAt
  rw [stateOf_setEntryState]
  change fits _ (s.inSlotQueue x) ((setSlot i (some new) s).inSlots true x) ((setSlot i (some new) s).inSlots false x + s.inLinks x)
  rw [count, count]
  by_cases hx : x = sl.entry
  · subst hx
    obtain ⟨a, b, c, d⟩ := setSlot_none_nowhere h hs
    change s.inSlotQueue _ = 0 at a
    change s.inLinks _ = 0 at d
    rw [a, b, c, d, if_pos rfl]
    obtain ⟨st, hst⟩ := Option.isSome_iff_exists.mp (slot_present h hs)
    change fits (Option.map _ (s.stateOf sl.entry)) _ _ _
    rw [hst]
    rcases stage with ⟨a, b⟩ | ⟨a, b⟩ <;> subst b <;> simp [a, entry, fits, placesOf]
  · rw [if_neg hx]
    have ne : (new.entry == x) = false := by rw [entry]; simpa using fun e => hx e.symm
    simp only [ne, Bool.false_and, Bool.false_eq_true, if_false, Nat.add_zero]
    exact (h x).mono le_rfl (setSlot_none_le _ _ _ _) (Nat.add_le_add_right (setSlot_none_le _ _ _ _) _)

theorem names_setEntryState {st : EntryState} {id : HostId} {s : State} (h : (s.host.table.map (·.id)).Nodup) :
    ((setEntryState st id s).host.table.map (·.id)).Nodup := by
  rw [setEntryState, ids_updateEntry id (fun e => { e with state := st }) (fun _ => rfl)]; exact h

theorem writeAt_setEntryState {st : EntryState} {id x : HostId} {s : State} (h : s.writeAt x) :
    (setEntryState st id s).writeAt x := (setEntryState_path st id s).writeAt.mpr h

/-- R12, R45: a request is given a position; `ws` are the requests that go on waiting. -/
theorem takePlace_pathLaw {r : AppendRequest} {e : Segment} {s : State} {ws : List AppendRequest} {sl : Slot}
    (h : (s.withWaiting ws).pathLaw) (hs : s.capture.slots[r.slot] = some sl) (entry : sl.entry = r.entry)
    (stage : sl.stage ≠ .append) (out : ∀ w ∈ ws, w.slot ≠ r.slot) : ((takePlace r e s).withWaiting ws).pathLaw := by
  let new : Slot := { sl with stage := .append }
  let op : PortOp := .recordWrite r.slot (e.physical.getD 0) e.count s.journal.nextSeq e.q
    (buildRecord r.line s.journal.nextSeq (s.topNumber.getD 0) r.entry.master s.depth r.data)
  have notOp : r.slot ∉ s.journal.ops.filterMap PortOp.appendSlot := fun hi => by
    obtain ⟨sl', a, b⟩ := h.appends.2 r.slot hi
    change s.capture.slots[r.slot] = some sl' at a
    rw [hs] at a; cases a; exact stage b
  have law : (((setEntryState .captureAppend r.entry (setSlot r.slot (some new) s)).setJournal
      { s.journal with waiting := ws, engineQueue := s.journal.engineQueue ++ [op] })).pathLaw := by
    have slots : ∀ {j : Fin 8} {x : Slot}, r.slot ≠ j → s.capture.slots[j] = some x →
        (setSlot r.slot (some new) s).capture.slots[j] = some x := fun ne h => (slots_set_ne ne).trans h
    have ops : (s.journal.engineQueue ++ [op] ++ s.journal.outstanding.map (·.2)).filterMap PortOp.appendSlot =
        s.journal.engineQueue.filterMap PortOp.appendSlot ++ r.slot ::
          (s.journal.outstanding.map (·.2)).filterMap PortOp.appendSlot := by
      simp [List.filterMap_append, op, PortOp.appendSlot]
    have old : s.journal.ops.filterMap PortOp.appendSlot = s.journal.engineQueue.filterMap PortOp.appendSlot ++
        (s.journal.outstanding.map (·.2)).filterMap PortOp.appendSlot := by simp [JournalUnit.ops]
    refine ⟨names_setEntryState h.names, ?_, ⟨fun x hx => writeAt_setEntryState (h.writes.1 x hx), fun j x hj => ?_⟩,
      ⟨h.waits.1, fun w hw => ?_⟩, ⟨?_, fun j hj => ?_⟩⟩
    · have := restage_onPath (s := s.withWaiting ws) (new := new) h.path hs rfl (.inr ⟨rfl, rfl⟩)
      rw [entry] at this
      exact this
    · apply writeAt_setEntryState
      rcases slots_set hj with ⟨-, hj⟩ | ⟨-, hj⟩
      · cases hj; exact h.writes.2 r.slot sl hs
      · exact h.writes.2 j x hj
    · obtain ⟨x, a, b⟩ := h.waits.2 w hw
      exact ⟨x, slots (out w hw).symm a, b⟩
    · change ((s.journal.engineQueue ++ [op] ++ s.journal.outstanding.map (·.2)).filterMap PortOp.appendSlot).Nodup
      rw [ops, List.nodup_middle, ← old]
      exact List.nodup_cons.mpr ⟨notOp, h.appends.1⟩
    · change j ∈ (s.journal.engineQueue ++ [op] ++ s.journal.outstanding.map (·.2)).filterMap PortOp.appendSlot at hj
      rw [ops] at hj
      by_cases hij : r.slot = j
      · subst hij
        exact ⟨new, by simp [setSlot, setEntryState, updateEntry], rfl⟩
      · have : j ∈ s.journal.ops.filterMap PortOp.appendSlot := by
          rw [old]
          simp only [List.mem_append, List.mem_cons] at hj ⊢
          rcases hj with hj | hj | hj
          · exact .inl hj
          · exact absurd hj.symm hij
          · exact .inr hj
        obtain ⟨x, a, b⟩ := h.appends.2 j this
        exact ⟨x, slots hij a, b⟩
  have count : ∀ u : State, (countPosition u).host = u.host ∧ (countPosition u).capture = u.capture ∧
      (countPosition u).memIf = u.memIf ∧ (countPosition u).journal = u.journal := fun u => by
    unfold countPosition; split <;> exact ⟨rfl, rfl, rfl, rfl⟩
  have cap : (s.capture.slots[r.slot].map fun sl => { sl with stage := SlotStage.append }) = some new := by rw [hs]; rfl
  unfold takePlace
  generalize hu : stopFullWait r.entry _ = u
  obtain ⟨a, b, c, d⟩ := count u
  refine law.congr ?_ ?_ ?_ ?_ ?_ rfl ?_
  · simp only [State.withWaiting, State.setJournal_host, a]; subst hu; rfl
  · simp only [State.withWaiting, State.setJournal_host, a]; subst hu; rfl
  · simp only [State.withWaiting, State.setJournal_capture, b]; subst hu
    simp only [stopFullWait, State.setSpace_capture, setEntryState, updateEntry, State.setHost_capture, setStage, setSlot,
      State.setCapture_capture, State.setJournal_capture, cap]
  · simp only [State.withWaiting, State.setJournal_capture, b]; subst hu; rfl
  · simp only [State.withWaiting, State.setJournal_memIf, c]; subst hu; rfl
  · simp only [State.withWaiting, State.setJournal_journal, d, JournalUnit.ops]; subst hu; rfl

theorem allocate_host (s : State) : (allocate s).host = s.host ∧ (allocate s).capture = s.capture ∧
    (allocate s).memIf = s.memIf ∧ (allocate s).journal.ops = s.journal.ops ∧
    (allocate s).journal.waiting = s.journal.waiting ∧ (allocate s).journal.engineQueue = s.journal.engineQueue ∧
    (allocate s).journal.outstanding = s.journal.outstanding := by
  unfold allocate; split <;> exact ⟨rfl, rfl, rfl, rfl, rfl, rfl, rfl⟩

theorem givePosition_pathLaw {r : AppendRequest} {s : State} {ws : List AppendRequest} {sl : Slot}
    (h : (s.withWaiting ws).pathLaw) (hs : s.capture.slots[r.slot] = some sl) (entry : sl.entry = r.entry)
    (stage : sl.stage ≠ .append) (out : ∀ w ∈ ws, w.slot ≠ r.slot) : ((givePosition r s).withWaiting ws).pathLaw := by
  unfold givePosition
  simp only
  generalize hu : (if s.fillingHasRoom then s else allocate s) = u
  have same : u.host = s.host ∧ u.capture = s.capture ∧ u.memIf = s.memIf ∧ u.journal.ops = s.journal.ops := by
    subst hu; split
    · exact ⟨rfl, rfl, rfl, rfl⟩
    · obtain ⟨a, b, c, d, -⟩ := allocate_host s; exact ⟨a, b, c, d⟩
  have law : (u.withWaiting ws).pathLaw := by
    refine h.congr ?_ ?_ ?_ ?_ ?_ rfl ?_
    · simp only [State.withWaiting, State.setJournal_host, same.1]
    · simp only [State.withWaiting, State.setJournal_host, same.1]
    · simp only [State.withWaiting, State.setJournal_capture, same.2.1]
    · simp only [State.withWaiting, State.setJournal_capture, same.2.1]
    · simp only [State.withWaiting, State.setJournal_memIf, same.2.2.1]
    · have := same.2.2.2
      simp only [JournalUnit.ops] at this
      simp only [State.withWaiting, State.setJournal_journal, JournalUnit.ops, this]
  split
  · exact law
  · exact takePlace_pathLaw law (by rw [same.2.1]; exact hs) entry stage out

theorem givePosition_waiting {r : AppendRequest} {s : State} : (givePosition r s).journal.waiting = s.journal.waiting := by
  have count : ∀ u : State, (countPosition u).journal = u.journal := fun u => by unfold countPosition; split <;> rfl
  unfold givePosition
  simp only
  split
  · split
    · rfl
    · exact (allocate_host s).2.2.2.2.1
  · unfold takePlace
    rw [count]
    simp only [stopFullWait, State.setSpace_journal, setEntryState, updateEntry, State.setHost_journal, setStage, setSlot,
      State.setCapture_journal, State.setJournal_journal]
    split
    · rfl
    · exact (allocate_host s).2.2.2.2.1

/-- A change of the journal's map, free list, counters and memory changes nothing here. -/
theorem setJournal_pathLaw {s : State} {j : JournalUnit} (h : s.pathLaw) (waiting : j.waiting = s.journal.waiting)
    (ops : j.ops.filterMap PortOp.appendSlot = s.journal.ops.filterMap PortOp.appendSlot) : (s.setJournal j).pathLaw :=
  h.congr rfl rfl rfl rfl rfl waiting ops

/-! ### Breaks -/

theorem countP_slots (p : Option Slot → Bool) (v : Vector (Option Slot) 8) :
    v.countP p = (List.finRange 8).countP fun j => p v[j] := by
  have eq : v.toList = (List.finRange 8).map fun j => v[j] := by
    apply List.ext_getElem <;> simp
  rw [← Vector.countP_toList, eq, List.countP_map]
  rfl

theorem countP_slots_le {p : Option Slot → Bool} {v w : Vector (Option Slot) 8} (h : ∀ j : Fin 8, p w[j] = true → p v[j] = true) :
    w.countP p ≤ v.countP p := by
  rw [countP_slots, countP_slots]
  exact List.countP_mono_left fun j _ => h j

theorem countP_slots_lt {p : Option Slot → Bool} {v w : Vector (Option Slot) 8} (h : ∀ j : Fin 8, p w[j] = true → p v[j] = true)
    (none' : p none = false) {i : Fin 8} (old : p v[i] = true) (new : p w[i] = false) : w.countP p + 1 ≤ v.countP p := by
  have le : w.countP p ≤ (v.set i none).countP p := countP_slots_le fun j hj => by
    by_cases hij : i = j
    · subst hij; rw [new] at hj; cases hj
    · rw [slots_set_ne hij]; exact h j hj
  have one : 1 ≤ v.countP p := by
    rw [countP_slots, Nat.one_le_iff_ne_zero, Ne, List.countP_eq_zero]
    intro all
    exact all i (List.mem_finRange i) old
  rw [Vector.countP_set, none'] at le
  simp only [Fin.getElem_fin] at old le
  rw [old] at le
  simp only [if_true, Bool.false_eq_true, if_false] at le
  omega

/-- R58: the notice that the top epoch has become BROKEN. -/
theorem brokenNotice_pathLaw {s : State} (h : s.pathLaw) : (brokenNotice s).pathLaw := by
  generalize hu : ((s.setCapture { s.capture with slots := s.capture.slots.map noticeSlot, slotQueue := [] }).setJournal
      { s.journal with waiting := [] }).setSpace { s.space with fullWaits := [] } = u
  have eq : brokenNotice s = issueAll s.captureWaiters u := by subst hu; rfl
  have cap : u.capture = { s.capture with slots := s.capture.slots.map noticeSlot, slotQueue := [] } := by subst hu; rfl
  have slot : ∀ j : Fin 8, u.capture.slots[j] = noticeSlot s.capture.slots[j] := fun j => by rw [cap]; simp
  have space : ∀ x, u.inSlots true x = 0 := fun x => by
    unfold State.inSlots
    rw [countP_slots, List.countP_eq_zero]
    intro j _
    rw [slot]
    cases hs : s.capture.slots[j] with
    | none => simp [noticeSlot]
    | some sl => cases hst : sl.stage <;> simp [noticeSlot, hst]
  have others : ∀ x, u.inSlots false x ≤ s.inSlots false x := fun x => by
    unfold State.inSlots
    refine countP_slots_le fun j => ?_
    rw [slot]
    cases hs : s.capture.slots[j] with
    | none => simp [noticeSlot]
    | some sl => cases hst : sl.stage <;> simp [noticeSlot, hst]
  have queue : ∀ x, u.inSlotQueue x = 0 := fun x => by simp [State.inSlotQueue, cap]
  have links : ∀ x, u.inLinks x = s.inLinks x := fun x => by subst hu; rfl
  have st : ∀ x, u.stateOf x = s.stateOf x := fun x => by subst hu; rfl
  have kept : ∀ {j : Fin 8} {x : Slot}, u.capture.slots[j] = some x → ∃ y, s.capture.slots[j] = some y ∧ y.entry = x.entry :=
    fun {j} {x} hj => by
      rw [slot] at hj
      cases hs : s.capture.slots[j] with
      | none => rw [hs] at hj; cases hj
      | some y =>
        rw [hs] at hj
        refine ⟨y, rfl, ?_⟩
        cases hst : y.stage <;> simp [noticeSlot, hst] at hj
        all_goals rw [← hj]
  have law : u.pathLaw := by
    refine ⟨by subst hu; exact h.names, fun x => ?_, ⟨fun x hx => ?_, fun j x hj => ?_⟩, ?_, ?_⟩
    · unfold State.fitsAt
      rw [st, links, queue, space]
      exact (h.path x).mono (Nat.zero_le _) (Nat.zero_le _) (Nat.add_le_add_right (others x) _)
    · rw [cap] at hx; cases hx
    · obtain ⟨y, hy, e⟩ := kept hj
      have := h.writes.2 j y hy
      rw [e] at this
      subst hu; exact this
    · subst hu; exact ⟨List.nodup_nil, fun r hr => by cases hr⟩
    · have ops : u.journal.ops = s.journal.ops := by subst hu; rfl
      refine ⟨by rw [ops]; exact h.appends.1, fun j hj => ?_⟩
      rw [ops] at hj
      obtain ⟨x, a, b⟩ := h.appends.2 j hj
      exact ⟨x, by rw [slot, a]; simp [noticeSlot, b], b⟩
  rw [eq]
  refine (issueAll_carried _ u).pathLaw law (issueAll_onPath (filter_ids_nodup h.names _) law.path fun id hid => ?_)
  simp only [State.captureWaiters, List.mem_map, List.mem_filter, Bool.or_eq_true, decide_eq_true_eq] at hid
  obtain ⟨e, ⟨mem, wait⟩, rfl⟩ := hid
  have fit := h.path e.id
  have state := stateOf_of_mem h.names mem
  refine ⟨queue _, space _, ?_, ?_⟩
  all_goals
    unfold State.fitsAt at fit
    rw [state] at fit
    have le := others e.id
    have l := links e.id
    obtain ⟨-, -, c⟩ := fit
    rcases wait with w | w <;> rw [w] at c <;> simp only [placesOf] at c <;> omega

theorem breakTop_pathLaw {r : BrokenReason} {s : State} (h : s.pathLaw) : (breakTop r s).pathLaw := by
  unfold breakTop
  split
  · exact h
  · split
    · exact brokenNotice_pathLaw (h.congr (by simp; rfl) (by simp; rfl) (by simp; rfl) (by simp; rfl) (by simp; rfl) (by simp; rfl) (by simp; rfl))
    · exact h

/-- R14: a request of a slot in stage READ waits for space. -/
theorem waitForSpace_waiting {r : AppendRequest} {s : State} {sl : Slot} (h : s.pathLaw)
    (hs : s.capture.slots[r.slot] = some sl) (entry : sl.entry = r.entry) (stage : sl.stage = .read) :
    (setEntryState .spaceWait r.entry (setStage r.slot .space
      ((s.setJournal { s.journal with waiting := s.journal.waiting ++ [r] }).setSpace { s.space with
        fullWaits := s.space.fullWaits ++ [(r.entry, s.timebase + BitVec.ofNat 32 s.service.params.fullWait)] }))).pathLaw := by
  let new : Slot := { sl with stage := .space }
  have notOp : r.slot ∉ s.journal.ops.filterMap PortOp.appendSlot := fun hi => by
    obtain ⟨sl', a, b⟩ := h.appends.2 r.slot hi
    rw [hs] at a; cases a; rw [stage] at b; cases b
  have notWaits : ∀ w ∈ s.journal.waiting, w.slot ≠ r.slot := fun w hw e => by
    obtain ⟨sl', a, b, -⟩ := h.waits.2 w hw
    have a' : s.capture.slots[r.slot] = some sl' := slots_at e a
    rw [hs] at a'; cases a'; rw [stage] at b; cases b
  have slots : ∀ {j : Fin 8} {x : Slot}, r.slot ≠ j → s.capture.slots[j] = some x →
      (setSlot r.slot (some new) s).capture.slots[j] = some x := fun ne h => (slots_set_ne ne).trans h
  have self : (setSlot r.slot (some new) s).capture.slots[r.slot] = some new := by simp [setSlot]
  have law : ((setEntryState .spaceWait r.entry (setSlot r.slot (some new) s)).setJournal
      { s.journal with waiting := s.journal.waiting ++ [r] }).pathLaw := by
    refine ⟨names_setEntryState h.names, ?_, ⟨fun x hx => writeAt_setEntryState (h.writes.1 x hx), fun j x hj => ?_⟩,
      ⟨?_, fun w hw => ?_⟩, ⟨h.appends.1, fun j hj => ?_⟩⟩
    · have := restage_onPath (s := s) (new := new) h.path hs rfl (.inl ⟨rfl, rfl⟩)
      rw [entry] at this
      exact this
    · apply writeAt_setEntryState
      rcases slots_set hj with ⟨-, hj⟩ | ⟨-, hj⟩
      · cases hj; exact h.writes.2 r.slot sl hs
      · exact h.writes.2 j x hj
    · simp only [State.setJournal_journal, List.map_append, List.map_cons, List.map_nil]
      rw [List.nodup_append]
      refine ⟨h.waits.1, by simp, fun a ha b hb eq => ?_⟩
      simp only [List.mem_cons, List.not_mem_nil, or_false] at hb
      rw [List.mem_map] at ha
      obtain ⟨w, hw, e⟩ := ha
      exact notWaits w hw (by rw [e, eq, hb])
    · rcases List.mem_append.mp hw with hw | hw
      · obtain ⟨x, a, b⟩ := h.waits.2 w hw
        exact ⟨x, slots (notWaits w hw).symm a, b⟩
      · rw [List.mem_singleton.mp hw]; exact ⟨new, self, rfl, entry⟩
    · obtain ⟨x, a, b⟩ := h.appends.2 j hj
      exact ⟨x, slots (fun e : r.slot = j => notOp (e ▸ hj)) a, b⟩
  have cap : (s.capture.slots[r.slot].map fun sl => { sl with stage := SlotStage.space }) = some new := by rw [hs]; rfl
  refine law.congr ?_ ?_ ?_ ?_ ?_ ?_ ?_
  · rfl
  · rfl
  · simp only [setEntryState, updateEntry, State.setHost_capture, setStage, setSlot, State.setCapture_capture,
      State.setJournal_capture, State.setSpace_capture, cap]
  · rfl
  · rfl
  · rfl
  · rfl

theorem waitForSpace_pathLaw {r : AppendRequest} {s : State} {sl : Slot} (h : s.pathLaw)
    (hs : s.capture.slots[r.slot] = some sl) (entry : sl.entry = r.entry) (stage : sl.stage = .read) :
    (waitForSpace r s).pathLaw := by
  have law := waitForSpace_waiting h hs entry stage
  unfold waitForSpace
  simp only
  split
  · exact breakTop_pathLaw law
  · exact law

/-! ### Changes beside the path -/

theorem setContext_pathLaw {c : Option ReplayContext} {s : State} (h : s.pathLaw) : (setContext c s).pathLaw :=
  h.congr rfl rfl rfl rfl rfl rfl rfl

theorem setRefillTimer_pathLaw {c : Option Tick} {s : State} (h : s.pathLaw) : (setRefillTimer c s).pathLaw :=
  h.congr rfl rfl rfl rfl rfl rfl rfl

theorem setController_pathLaw {c : Controller} {k : Option PendingCommand} {s : State} (h : s.pathLaw) :
    (setController c k s).pathLaw := h.congr rfl rfl rfl rfl rfl rfl rfl

theorem setStack_pathLaw {st : List Epoch} {s : State} (h : s.pathLaw) : (setStack st s).pathLaw :=
  h.congr rfl rfl rfl rfl rfl rfl rfl

theorem setService_pathLaw {v : ServiceIf} {s : State} (h : s.pathLaw) : (s.setService v).pathLaw :=
  h.congr rfl rfl rfl rfl rfl rfl rfl

theorem clearMarks_pathLaw {s : State} (h : s.pathLaw) : (clearMarks s).pathLaw := h.congr rfl rfl rfl rfl rfl rfl rfl

theorem insertMark_pathLaw {l : Line} {s : State} (h : s.pathLaw) : (insertMark l s).pathLaw := by
  unfold insertMark; split
  · exact h
  · split <;> exact h.congr rfl rfl rfl rfl rfl rfl rfl

theorem setMap_pathLaw {m : List Segment} {s : State} (h : s.pathLaw) : (setMap m s).pathLaw := setJournal_pathLaw h rfl rfl

/-! ### The memory link -/

/-- A tag that holds no host request any more. -/
theorem setTag_pathLaw {t : Fin 64} {v : TagState} {s : State} (h : s.pathLaw) (none' : v.host = none) :
    (setTag t v s).pathLaw := by
  refine ⟨h.names, fun x => ?_, h.writes, h.waits, h.appends⟩
  have links : (setTag t v s).inLinks x + _ = s.inLinks x + _ := inLinks_setTag x s t v
  simp only [none', reduceCtorEq, if_false, Nat.add_zero] at links
  refine (h.path x).mono le_rfl le_rfl ?_
  change s.inSlots false x + (setTag t v s).inLinks x ≤ _
  omega

/-- The entry whose request ends is in no place, and past the gate. -/
theorem setTag_nowhere {t : Fin 64} {v : TagState} {s : State} {id : HostId} (h : s.onPath) (none' : v.host = none)
    (host : s.memIf.tags[t].host = some id) :
    (setTag t v s).nowhere id ∧ placesOf ((setTag t v s).stateOf id) = (0, 0, 1) := by
  have links : (setTag t v s).inLinks id + _ = s.inLinks id + _ := inLinks_setTag id s t v
  simp only [none', reduceCtorEq, if_false, Nat.add_zero, host, if_true] at links
  obtain ⟨a, b, c, d⟩ := (h id).other (by omega)
  refine ⟨⟨a, b, ?_, ?_⟩, d⟩
  · change s.inSlots false id = 0; omega
  · omega

theorem serveTagQueue_pathLaw {s : State} (h : s.pathLaw) : (serveTagQueue s).pathLaw :=
  (serveTagQueue_carried s).pathLaw h fun x => serveRequests_fitsAt x _ s (h.path x)

theorem serveTagQueue_nowhere {s : State} {id : HostId} (n : s.nowhere id) :
    (serveTagQueue s).nowhere id ∧ (serveTagQueue s).stateOf id = s.stateOf id := by
  have cap := serveRequests_capture s.memIf.tagQueue s
  refine ⟨n.congr ?_ ?_ ?_ ?_, serveRequests_stateOf id _ s fun r hr host => ?_⟩
  · simp only [State.inSlotQueue, serveTagQueue, cap]
  · simp only [State.inSlots, serveTagQueue, cap]
  · simp only [State.inSlots, serveTagQueue, cap]
  · exact serveRequests_links id _ s
  · have := n.2.2.2
    unfold State.inLinks at this
    have zero : s.memIf.tagQueue.countP (fun r => r.host == some id) = 0 := by omega
    rw [List.countP_eq_zero] at zero
    exact zero r hr (by simp [host])

/-- R48: the bytes a capture read brought back are stored in its slot. -/
theorem storeData_pathLaw {i : Fin 8} {sl : Slot} {bytes : List Byte} {u : State} (lawU : u.pathLaw)
    (slotU : u.capture.slots[i] = some sl) : (setSlot i (some { sl with data := some bytes }) u).pathLaw := by
  let new : Slot := { sl with data := some bytes }
  have slots : ∀ {j : Fin 8} {x : Slot}, u.capture.slots[j] = some x → ∃ y,
      (setSlot i (some new) u).capture.slots[j] = some y ∧ y.stage = x.stage ∧ y.entry = x.entry := fun {j} {x} hj => by
    by_cases hij : i = j
    · subst hij; rw [slotU] at hj; cases hj; exact ⟨new, by simp [setSlot], rfl, rfl⟩
    · exact ⟨x, (slots_set_ne hij).trans hj, rfl, rfl⟩
  refine ⟨lawU.names, fun x => ?_, ⟨lawU.writes.1, fun j x hj => ?_⟩, ⟨lawU.waits.1, fun r hr => ?_⟩, ⟨lawU.appends.1, fun j hj => ?_⟩⟩
  · have same : ∀ b, (setSlot i (some new) u).inSlots b x = u.inSlots b x := fun b => by
      have a := inSlots_setSlot b x i (some new) u
      rw [slotU] at a
      exact Nat.add_right_cancel a
    refine (lawU.path x).mono le_rfl (same true).le ?_
    change (setSlot i (some new) u).inSlots false x + u.inLinks x ≤ _
    rw [same]
  · rcases slots_set hj with ⟨-, hj⟩ | ⟨-, hj⟩
    · cases hj; exact lawU.writes.2 i sl slotU
    · exact lawU.writes.2 j x hj
  · obtain ⟨x, a, b, c⟩ := lawU.waits.2 r hr
    obtain ⟨y, hy, st, en⟩ := slots a
    exact ⟨y, hy, st.trans b, en.trans c⟩
  · obtain ⟨x, a, b⟩ := lawU.appends.2 j hj
    obtain ⟨y, hy, st, -⟩ := slots a
    exact ⟨y, hy, st.trans b⟩

/-! ### The journal port -/

theorem dropPort_pathLaw {p : Fin 8} {s : State} (h : s.pathLaw) : (dropPort p s).pathLaw := by
  have sub : (dropPort p s).journal.ops.Sublist s.journal.ops :=
    List.Sublist.append (List.Sublist.refl _) ((List.filter_sublist).map _)
  refine ⟨h.names, h.path, h.writes, h.waits, ⟨h.appends.1.sublist (sub.filterMap _), fun i hi => ?_⟩⟩
  exact h.appends.2 i ((sub.filterMap _).subset hi)

/-- R19: the record write that completes is outstanding no more. -/
theorem dropPort_ends {p i : Fin 8} {seg : Phys} {place : Nat} {n : Seq} {q : SegNo} {record : List Byte} {s : State}
    (h : s.appendsInSlots) (op : s.portOp p = some (.recordWrite i seg place n q record)) :
    i ∈ s.journal.ops.filterMap PortOp.appendSlot ∧ i ∉ (dropPort p s).journal.ops.filterMap PortOp.appendSlot := by
  unfold State.portOp at op
  obtain ⟨o, ho, eq⟩ := Option.map_eq_some_iff.mp op
  have mem := List.mem_of_find?_eq_some ho
  have tag : (o.1 == p) = true := by have := List.find?_some ho; exact this
  have slot : PortOp.appendSlot o.2 = some i := by rw [eq]; rfl
  refine ⟨?_, fun hi => ?_⟩
  · rw [List.mem_filterMap]
    exact ⟨o.2, List.mem_append_right _ (List.mem_map_of_mem mem), slot⟩
  · have perm : ((s.journal.outstanding.filter fun o => decide (o.1 ≠ p)) ++
        s.journal.outstanding.filter fun o => !decide (o.1 ≠ p)).Perm s.journal.outstanding := List.filter_append_perm _ _
    have perm' : ((dropPort p s).journal.ops ++ (s.journal.outstanding.filter fun o => !decide (o.1 ≠ p)).map (·.2)).Perm
        s.journal.ops := by
      simp only [JournalUnit.ops, dropPort, State.setJournal_journal, List.append_assoc, ← List.map_append]
      exact List.Perm.append_left _ (perm.map _)
    have nodup := (perm'.filterMap PortOp.appendSlot).nodup_iff.mpr h.1
    rw [List.filterMap_append, List.nodup_append] at nodup
    refine nodup.2.2 i hi i ?_ rfl
    rw [List.mem_filterMap]
    refine ⟨o.2, List.mem_map_of_mem (List.mem_filter.mpr ⟨mem, ?_⟩), slot⟩
    simpa using tag

theorem breakTop_slot {r : BrokenReason} {i : Fin 8} {sl : Slot} {s : State} (h : s.capture.slots[i] = some sl)
    (stage : sl.stage = .append) : (breakTop r s).capture.slots[i] = some sl := by
  cases hst : s.epochs.stack with
  | nil => simp only [breakTop, hst]; exact h
  | cons e rest =>
    by_cases opened : e.broken = none
    · rw [breakTop_open hst opened, brokenNotice_capture, post_capture]
      simp only [Fin.getElem_fin, Vector.getElem_map] at h ⊢
      change noticeSlot s.capture.slots[i.val] = _
      rw [h]; simp [noticeSlot, stage]
    · simp only [breakTop, hst, if_neg opened]; exact h

theorem breakTop_journal (r : BrokenReason) (s : State) : (breakTop r s).journal = s.journal ∨
    (breakTop r s).journal = { s.journal with waiting := [] } := by
  cases hst : s.epochs.stack with
  | nil => simp only [breakTop, hst]; exact .inl trivial
  | cons e rest =>
    by_cases opened : e.broken = none
    · rw [breakTop_open hst opened]
      right
      rw [(brokenNotice_path _).journal, State.setSpace_journal, State.setJournal_journal, post_journal]
      rfl
    · simp only [breakTop, hst, if_neg opened]; exact .inl trivial

theorem breakTop_ops (r : BrokenReason) (s : State) : (breakTop r s).journal.ops = s.journal.ops := by
  rcases breakTop_journal r s with h | h <;> rw [h]; rfl

end Sys2Proof.Machine
end

