-- ==== Sys2Proof/Laws/Hold.lean ====
section
/-! SUPPORT. The hold: what the end of a step does to it, which operations leave it and its thresholds as they are, and which of
them leave the free count as it is (R102, R103, R106). -/

namespace Sys2Proof.Machine

/-! ### What leaves the hold as it is -/

/-- The automatic hold and its thresholds are as before. -/
structure SameAuto (s t : State) : Prop where
  auto : t.space.auto = s.space.auto
  onFree : t.service.params.holdOnFree = s.service.params.holdOnFree
  offFree : t.service.params.holdOffFree = s.service.params.holdOffFree

/-- The holds, the thresholds, the core reset in progress and the held frame are as before. -/
structure SameHold (s t : State) : Prop extends SameAuto s t where
  manual : t.space.manual = s.space.manual
  told : t.host.holdTold = s.host.holdTold
  coreReset : t.service.coreReset = s.service.coreReset
  held : t.service.held = s.service.held

theorem SameAuto.refl (s : State) : SameAuto s s := ⟨rfl, rfl, rfl⟩

theorem SameAuto.trans {s t u : State} (a : SameAuto s t) (b : SameAuto t u) : SameAuto s u :=
  ⟨b.auto.trans a.auto, b.onFree.trans a.onFree, b.offFree.trans a.offFree⟩

theorem SameHold.refl (s : State) : SameHold s s := ⟨.refl s, rfl, rfl, rfl, rfl⟩

theorem SameHold.trans {s t u : State} (a : SameHold s t) (b : SameHold t u) : SameHold s u :=
  ⟨a.toSameAuto.trans b.toSameAuto, b.manual.trans a.manual, b.told.trans a.told, b.coreReset.trans a.coreReset,
    b.held.trans a.held⟩

theorem SameButPaths.sameHold {s t : State} (p : SameButPaths s t) : SameHold s t :=
  ⟨⟨by rw [p.space], by rw [p.service], by rw [p.service]⟩, by rw [p.space], p.holdTold, by rw [p.service], by rw [p.service]⟩

theorem insertMark_sameHold (l : Line) (s : State) : SameHold s (insertMark l s) := by
  unfold insertMark
  split
  · exact .refl s
  · split <;> exact ⟨⟨rfl, rfl, rfl⟩, rfl, rfl, rfl, rfl⟩

theorem post_sameHold (n : Option EpochNo) (k : EventKind) (s : State) : SameHold s (post n k s) := by
  refine ⟨⟨?_, ?_, ?_⟩, ?_, ?_, ?_, ?_⟩ <;> simp

/-- An operation made of moves that may not change a hold changes none. -/
theorem Moves.sameHold {config : Bool} {s t : State} (m : Moves false config s t) : SameHold s t := by
  induction m with
  | refl => exact .refl s
  | tail _ last ih =>
    refine ih.trans ?_
    cases last with
    | told _ ok => cases ok
    | holds _ _ ok => cases ok
    | pins _ ok => exact absurd ok (by decide)
    | params p _ _ th => exact ⟨⟨rfl, (th.resolve_left (by simp)).1, (th.resolve_left (by simp)).2⟩, rfl, rfl, rfl, rfl⟩
    | service v hp _ hr =>
      exact ⟨⟨rfl, congrArg Params.holdOnFree hp, congrArg Params.holdOffFree hp⟩, rfl, rfl, (hr.resolve_left (by simp)).1,
        (hr.resolve_left (by simp)).2⟩
    | mark l => exact insertMark_sameHold l _
    | handOver r => exact (handOver_path r _).sameHold
    | completed g => exact ((setTag_path g _ _).trans (serveTagQueue_path _)).sameHold
    | released => exact (releaseQuarantine_path _).sameHold
    | posted n k => exact post_sameHold n k _
    | _ => exact ⟨⟨rfl, rfl, rfl⟩, rfl, rfl, rfl, rfl⟩

/-! ### The automatic hold follows the free count -/

theorem SameAuto.autoKept {s t : State} (h : SameAuto s t) (n : Nat) : t.autoKept n ↔ s.autoKept n := by
  unfold State.autoKept
  rw [h.auto, h.onFree, h.offFree]

/-- The automatic hold, its thresholds and the free count are as before. -/
structure SameCount (s t : State) : Prop extends SameAuto s t where
  count : t.freeCount = s.freeCount

/-- R103 as an invariant: the automatic hold is what the free count asks for. -/
def State.autoFollows (s : State) : Prop := s.autoKept s.freeCount

theorem SameCount.refl (s : State) : SameCount s s := ⟨.refl s, rfl⟩

theorem SameCount.trans {s t u : State} (a : SameCount s t) (b : SameCount t u) : SameCount s u :=
  ⟨a.toSameAuto.trans b.toSameAuto, b.count.trans a.count⟩

theorem SameCount.follows {s t : State} (h : SameCount s t) (f : s.autoFollows) : t.autoFollows := by
  unfold State.autoFollows
  rw [h.count]
  exact (h.toSameAuto.autoKept _).2 f

/-- A part of a step leaves the automatic hold and its thresholds, or an automatic hold that follows the free count. -/
def settles (s t : State) : Prop := SameAuto s t ∨ t.autoFollows

theorem evaluateAuto_frame (s : State) :
    (evaluateAuto s).journal = s.journal ∧ (evaluateAuto s).service = s.service ∧ (evaluateAuto s).host = s.host ∧
      (evaluateAuto s).epochs = s.epochs ∧ (evaluateAuto s).timebase = s.timebase := by
  unfold evaluateAuto
  split
  · exact ⟨rfl, rfl, rfl, rfl, rfl⟩
  · split <;> exact ⟨rfl, rfl, rfl, rfl, rfl⟩

/-- R103: after the comparison the automatic hold follows the free count. -/
theorem evaluateAuto_follows (s : State) : (evaluateAuto s).autoFollows := by
  unfold State.autoFollows State.autoKept evaluateAuto
  split
  · rename_i h
    exact ⟨fun _ => rfl, fun n => absurd h (Nat.not_le.mpr n)⟩
  · rename_i h
    split
    · exact ⟨fun n => absurd n h, fun _ _ => rfl⟩
    · rename_i off
      exact ⟨fun n => absurd n h, fun _ n => absurd n off⟩

theorem announceHold_frame (s : State) :
    (announceHold s).journal = s.journal ∧ (announceHold s).service.params = s.service.params ∧
      (announceHold s).space.auto = s.space.auto := by
  unfold announceHold
  split
  · exact ⟨rfl, rfl, rfl⟩
  · split
    · simp [holdComes, send, tellHold]
    · simp [holdLeaves, send, tellHold]

theorem announceHold_follows {s : State} (f : s.autoFollows) : (announceHold s).autoFollows := by
  obtain ⟨j, p, a⟩ := announceHold_frame s
  unfold State.autoFollows State.autoKept State.freeCount
  rw [j, p, a]
  exact f

/-- R102, R103: at the end of a step the automatic hold follows the free count, if it did before the step. -/
theorem settleHold_follows {s t : State} (f : s.autoFollows) (h : settles s t) : (settleHold s t).autoFollows := by
  unfold settleHold
  refine announceHold_follows ?_
  split
  · rename_i same
    rcases h with h | h
    · exact SameCount.follows ⟨h, same⟩ f
    · exact h
  · exact evaluateAuto_follows t

/-! ### A hold that comes or leaves is announced -/

theorem post_event (n : Option EpochNo) (k : EventKind) (s : State) :
    (post n k s).service.events.getLast? = some { kind := k, time := s.timebase, epoch := n } ∨
      (32 ≤ (post n k s).service.events.length ∧ (post n k s).service.dropped ≠ 0) := by
  unfold post
  split
  · left; simp
  · right
    rename_i full
    refine ⟨Nat.le_of_not_lt full, ?_⟩
    change saturate s.service.dropped ≠ 0
    unfold saturate
    split
    · rename_i last; rw [last]; decide
    · rename_i below; intro zero
      have ones : BitVec.allOnes 32 = 4294967295#32 := rfl
      rw [ones] at below
      exact below (by bv_omega)

/-- R106: the change of the hold in force is announced, where there is one. -/
theorem announceHold_announced (s : State) :
    (announceHold s).host.holdTold = s.host.holdTold ∨ (announceHold s).announced := by
  unfold announceHold
  split
  · exact .inl rfl
  · split
    · right
      unfold holdComes
      refine ⟨by simp [send, tellHold], by simp [send, tellHold, State.refreshExpiry], ?_⟩
      have := post_event s.topNumber (.holdChanged true s.freeCount)
        ((send (.hold s.service.params.holdTime) (tellHold true s)).setSpace { s.space with refreshTimer := some s.refreshExpiry })
      simpa [send, tellHold, State.freeCount, State.topNumber, State.top] using this
    · right
      unfold holdLeaves
      refine ⟨by simp [send, tellHold], by simp [send, tellHold], ?_⟩
      have := post_event s.topNumber (.holdChanged false s.freeCount)
        ((send (.hold 0) (tellHold false s)).setSpace { s.space with refreshTimer := none })
      simpa [send, tellHold, State.freeCount, State.topNumber, State.top] using this

/-! ### What leaves the free count as it is -/

theorem SameButPaths.sameCount {s t : State} (p : SameButPaths s t) : SameCount s t :=
  ⟨p.sameHold.toSameAuto, by unfold State.freeCount; rw [p.journal]⟩

theorem sameCount_of {s t : State} (m : Moves false true s t) (free : t.journal.free = s.journal.free) : SameCount s t :=
  ⟨m.sameHold.toSameAuto, by unfold State.freeCount; rw [free]⟩

theorem respond_journal (a : Answer) (s : State) : (respond a s).journal = s.journal := by
  unfold respond
  split <;> rfl

theorem respond_sameCount (a : Answer) (s : State) : SameCount s (respond a s) :=
  sameCount_of (moves_respond a s) (by rw [respond_journal])

theorem breakTop_free (r : BrokenReason) (s : State) : (breakTop r s).journal.free = s.journal.free := by
  unfold breakTop
  split
  · rfl
  · split
    · unfold brokenNotice
      rw [(issueAll_path _ _).journal]
      simp [setStack]
    · rfl

/-! ### The service commands -/

/-- A part of a step leaves the automatic hold, its thresholds and the free count, or an automatic hold that follows the free
count. -/
def countSettles (s t : State) : Prop := SameCount s t ∨ t.autoFollows

theorem countSettles.trans {s t u : State} (a : countSettles s t) (b : countSettles t u) : countSettles s u := by
  rcases b with b | b
  · rcases a with a | a
    · exact .inl (a.trans b)
    · exact .inr (b.follows a)
  · exact .inr b

theorem countSettles.follows {s t : State} (h : countSettles s t) (f : s.autoFollows) : t.autoFollows :=
  h.elim (·.follows f) id

theorem countSettles.settles {s t : State} (h : countSettles s t) : settles s t := h.imp SameCount.toSameAuto id

theorem respond_countSettles (a : Answer) (s : State) : countSettles s (respond a s) := .inl (respond_sameCount a s)

theorem followed_countSettles (a : Answer) (s t : State) : countSettles s (respond a (evaluateAuto t)) :=
  .inr ((respond_sameCount a _).follows (evaluateAuto_follows t))

/-- R8, R104: an accepted write of a threshold or of NSEG leaves an automatic hold that follows the free count. -/
theorem writeParam_countSettles (p : Param) (v : Nat) (s : State) : countSettles s (writeParam p v s) := by
  cases p
  case nseg =>
    change countSettles s (writeNseg v s)
    unfold writeNseg
    split
    · exact respond_countSettles _ _
    · split
      · exact respond_countSettles _ _
      · exact followed_countSettles _ _ _
  case holdOnFree =>
    change countSettles s (writeHoldOnFree v s)
    unfold writeHoldOnFree
    split
    · exact respond_countSettles _ _
    · exact followed_countSettles _ _ _
  case holdOffFree =>
    change countSettles s (writeHoldOffFree v s)
    unfold writeHoldOffFree
    split
    · exact respond_countSettles _ _
    · exact followed_countSettles _ _ _
  case defaultAction =>
    exact .inl (sameCount_of (moves_writeDefaultAction v s) (by
      change (writeDefaultAction v s).journal.free = _
      unfold writeDefaultAction
      split
      · rw [respond_journal]
      · split <;> (rw [respond_journal]; try rfl)))
  case memTimeout =>
    exact .inl (sameCount_of (moves_writeMemTimeout v s) (by
      change (writeMemTimeout v s).journal.free = _
      unfold writeMemTimeout; split <;> (rw [respond_journal]; try rfl)))
  case fullWait =>
    exact .inl (sameCount_of (moves_writeFullWait v s) (by
      change (writeFullWait v s).journal.free = _
      unfold writeFullWait; split <;> (rw [respond_journal]; try rfl)))
  case holdTime =>
    exact .inl (sameCount_of (moves_writeHoldTime v s) (by
      change (writeHoldTime v s).journal.free = _
      unfold writeHoldTime; split <;> (rw [respond_journal]; try rfl)))
  case refillWait =>
    exact .inl (sameCount_of (moves_writeRefillWait v s) (by
      change (writeRefillWait v s).journal.free = _
      unfold writeRefillWait; split <;> (rw [respond_journal]; try rfl)))
  case restoreAhead =>
    exact .inl (sameCount_of (moves_writeRestoreAhead v s) (by
      change (writeRestoreAhead v s).journal.free = _
      unfold writeRestoreAhead; split <;> (rw [respond_journal]; try rfl)))

theorem cmdParamWrite_countSettles (f : List Byte) (s : State) : countSettles s (cmdParamWrite f s) := by
  unfold cmdParamWrite
  split
  · exact respond_countSettles _ _
  · exact writeParam_countSettles _ _ _

/-! ### Core reset -/

theorem clearHolds_follows (s : State) : (clearHolds s).autoFollows := announceHold_follows (evaluateAuto_follows _)

/-- R112, R171: after the journal step the automatic hold follows the free count. -/
theorem journalStep_follows (s : State) : (journalStep s).autoFollows := by
  unfold journalStep
  dsimp only
  generalize settleCaptures _ = u
  have follows := clearHolds_follows u
  generalize clearHolds u = w at follows ⊢
  exact SameCount.follows ⟨⟨rfl, rfl, rfl⟩, rfl⟩ follows

/-- What the end of a core reset leaves as it is. -/
theorem endCoreReset_frame (r : CoreReset) (s : State) :
    (endCoreReset r s).journal = s.journal ∧ (endCoreReset r s).epochs = s.epochs ∧
      (endCoreReset r s).space = s.space ∧ (endCoreReset r s).service.params = s.service.params ∧
      (endCoreReset r s).host.holdTold = s.host.holdTold := by
  have p := releaseParked_path (setContext none (s.setService { s.service with coreReset := none }))
  have answered : ∀ (a : Answer) (u : State), (respond a u).journal = u.journal ∧ (respond a u).epochs = u.epochs ∧
      (respond a u).space = u.space ∧ (respond a u).service.params = u.service.params ∧ (respond a u).host = u.host := by
    intro a u
    unfold respond
    split <;> exact ⟨rfl, rfl, rfl, rfl, rfl⟩
  have discard : ∀ (n : Option EpochNo) (d : Option (SegNo × SegNo)) (u : State), (postDiscard n d u).journal = u.journal ∧
      (postDiscard n d u).epochs = u.epochs ∧ (postDiscard n d u).space = u.space ∧
      (postDiscard n d u).service.params = u.service.params ∧ (postDiscard n d u).host = u.host := by
    intro n d u
    unfold postDiscard
    split <;> simp
  unfold endCoreReset
  simp only [answered, post_journal, post_epochs, post_space, post_params, post_host, discard, State.setService_journal,
    State.setService_epochs, State.setService_space, State.setService_service, State.setService_host]
  exact ⟨p.journal, p.epochs, p.space, (congrArg ServiceIf.params p.service).trans rfl, p.holdTold⟩

theorem endCoreReset_sameCount (r : CoreReset) (s : State) : SameCount s (endCoreReset r s) := by
  obtain ⟨j, -, sp, pa, -⟩ := endCoreReset_frame r s
  refine ⟨⟨by rw [sp], by rw [pa], by rw [pa]⟩, ?_⟩
  unfold State.freeCount
  rw [j]

theorem settleCoreResetEnd_sameCount (s : State) : SameCount s (settleCoreResetEnd s) := by
  unfold settleCoreResetEnd
  split
  · split
    · exact .refl s
    · exact endCoreReset_sameCount _ s
  · exact .refl s

theorem settleJournalStep_countSettles (s : State) : countSettles s (settleJournalStep s) := by
  unfold settleJournalStep
  split
  · exact .inr (journalStep_follows s)
  · exact .inl (.refl s)

theorem settleCoreReset_countSettles (s : State) : countSettles s (settleCoreReset s) :=
  (settleJournalStep_countSettles s).trans (.inl (settleCoreResetEnd_sameCount _))

theorem beginCoreReset_sameCount (s : State) : SameCount s (beginCoreReset s) := ⟨⟨rfl, rfl, rfl⟩, rfl⟩

theorem cmdCoreReset_countSettles (f : List Byte) (s : State) : countSettles s (cmdCoreReset f s) :=
  countSettles.trans (.inl (beginCoreReset_sameCount s)) (settleCoreReset_countSettles _)

/-! ### The other commands -/

/-- The command bytes of the commands that may change the free count: COMMIT, ROLLBACK and SPILL_DONE. -/
def changesCount (code : Byte) : Bool := code == 0x31 || code == 0x33 || code == 0x52

theorem checkpointEffect_free (s : State) : (checkpointEffect s).journal.free = s.journal.free := by
  unfold checkpointEffect
  simp only
  rw [(releaseParked_path _).journal, post_journal]
  rfl

theorem startCheckpoint_free (s : State) : (startDrain .checkpoint s).journal.free = s.journal.free := by
  unfold startDrain settleDrain
  rw [respond_journal]
  simp only [setController, State.setEpochs_epochs]
  unfold completeDrain
  split
  · exact checkpointEffect_free _
  · rfl

theorem abandonStopped_free (s : State) : (abandonStopped s).journal.free = s.journal.free := by
  unfold abandonStopped
  rw [(releaseParked_path _).journal]
  exact breakTop_free _ _

/-- The command bytes of the commands that may change the free count or a hold, or the thresholds of the automatic hold: PARAM_WRITE,
CORE_RESET, COMMIT, ROLLBACK, HOLD_SET, HOLD_CLEAR and SPILL_DONE. -/
def changesSpace (code : Byte) : Bool := [0x11, 0x16, 0x31, 0x33, 0x40, 0x41, 0x52].contains code

/-- Any other command leaves the holds, the thresholds, the core reset in progress, the held frame and the free count. -/
theorem runCommand_plain {code : Byte} (h : changesSpace code = false) (f : List Byte) (s : State) :
    SameHold s (runCommand code f s) ∧ (runCommand code f s).freeCount = s.freeCount := by
  have kept : ∀ {t : State}, Moves false true s t → t.journal.free = s.journal.free →
      SameHold s t ∧ t.freeCount = s.freeCount := fun m e => ⟨m.sameHold, congrArg List.length e⟩
  suffices all : ∀ g, runCommand code = g → SameHold s (g f s) ∧ (g f s).freeCount = s.freeCount from all _ rfl
  intro g hg
  unfold runCommand at hg
  split at hg <;> subst hg
  case h_2 eq => exact absurd h (by rw [show code = 0x11 from BitVec.eq_of_toNat_eq eq]; decide)
  case h_7 eq => exact absurd h (by rw [show code = 0x16 from BitVec.eq_of_toNat_eq eq]; decide)
  case h_12 eq => exact absurd h (by rw [show code = 0x31 from BitVec.eq_of_toNat_eq eq]; decide)
  case h_14 eq => exact absurd h (by rw [show code = 0x33 from BitVec.eq_of_toNat_eq eq]; decide)
  case h_16 eq => exact absurd h (by rw [show code = 0x40 from BitVec.eq_of_toNat_eq eq]; decide)
  case h_17 eq => exact absurd h (by rw [show code = 0x41 from BitVec.eq_of_toNat_eq eq]; decide)
  case h_20 eq => exact absurd h (by rw [show code = 0x52 from BitVec.eq_of_toNat_eq eq]; decide)
  · exact kept (moves_cmdParamRead f s) (by unfold cmdParamRead; split <;> rw [respond_journal])
  · exact kept (moves_cmdStatusRead f s) (by unfold cmdStatusRead; rw [respond_journal])
  · exact kept (moves_cmdEventPop f s) (by unfold cmdEventPop; split <;> (rw [respond_journal]; try rfl))
  · exact kept (moves_cmdEnable f s) (by unfold cmdEnable; rw [respond_journal]; rfl)
  · exact kept (moves_cmdDisable f s) (by unfold cmdDisable; split <;> (rw [respond_journal]; try rfl))
  · exact kept (moves_cmdMtagRelease f s) (by unfold cmdMtagRelease; rw [respond_journal, (releaseQuarantine_path s).journal])
  · exact kept (moves_cmdWindowWrite f s) (by
      unfold cmdWindowWrite
      split
      · rw [respond_journal]
      · split
        · rw [respond_journal]
        · split <;> (rw [respond_journal]; try rfl))
  · exact kept (moves_cmdWindowRead f s) (by unfold cmdWindowRead; split <;> rw [respond_journal])
  · exact kept (moves_cmdCheckpoint f s) (by
      unfold cmdCheckpoint
      repeat' split
      all_goals first
        | rw [respond_journal]
        | exact startCheckpoint_free s)
  · exact kept (moves_cmdAbandon f s) (by
      unfold cmdAbandon
      repeat' split
      all_goals rw [respond_journal]
      · exact breakTop_free _ _
      · exact abandonStopped_free _)
  · exact kept (moves_cmdMarkQuery f s) (by unfold cmdMarkQuery; split <;> rw [respond_journal])
  · exact kept (moves_cmdLend f s) (by unfold cmdLend; simp only; split <;> (rw [respond_journal]; try rfl))
  · exact kept (moves_cmdLendCancel f s) (by unfold cmdLendCancel; split <;> (rw [respond_journal]; try rfl))
  · exact kept (moves_cmdRefillDone f s) (by unfold cmdRefillDone; split <;> (rw [respond_journal]; try rfl))
  · exact kept (moves_cmdSegQuery f s) (by
      unfold cmdSegQuery
      split
      · rw [respond_journal]
      · split <;> rw [respond_journal])
  · exact kept (moves_placeTransfer _ s) rfl
  · exact kept (moves_placeTransfer _ s) rfl
  · exact kept (moves_respond _ s) (by rw [respond_journal])

/-- R102: a command other than COMMIT, ROLLBACK and SPILL_DONE leaves the free count, or re-applies R103 to it. -/
theorem runCommand_countSettles {code : Byte} (h : changesCount code = false) (f : List Byte) (s : State) :
    countSettles s (runCommand code f s) := by
  cases space : changesSpace code with
  | false =>
    obtain ⟨same, count⟩ := runCommand_plain space f s
    exact .inl ⟨same.toSameAuto, count⟩
  | true =>
    simp only [changesSpace, List.contains_cons, List.contains_nil, Bool.or_false, Bool.or_eq_true, beq_iff_eq] at space
    rcases space with rfl | rfl | rfl | rfl | rfl | rfl | rfl
    · exact cmdParamWrite_countSettles f s
    · exact cmdCoreReset_countSettles f s
    · cases h
    · cases h
    · have set : SameCount s (s.setSpace { s.space with manual := true }) := ⟨⟨rfl, rfl, rfl⟩, rfl⟩
      exact .inl (set.trans (respond_sameCount (.done []) _))
    · have set : SameCount s (s.setSpace { s.space with manual := false }) := ⟨⟨rfl, rfl, rfl⟩, rfl⟩
      exact .inl (set.trans (respond_sameCount (.done []) _))
    · cases h

/-- A command leaves the automatic hold and its thresholds, or an automatic hold that follows the free count. -/
theorem runCommand_settles (code : Byte) (f : List Byte) (s : State) : settles s (runCommand code f s) := by
  cases h : changesCount code with
  | false => exact (runCommand_countSettles h f s).settles
  | true =>
    left
    simp only [changesCount, Bool.or_eq_true, beq_iff_eq] at h
    rcases h with (rfl | rfl) | rfl
    · exact (moves_cmdCommit (config := true) f s).sameHold.toSameAuto
    · exact (moves_cmdRollback (config := true) f s).sameHold.toSameAuto
    · exact (moves_cmdSpillDone (config := true) f s).sameHold.toSameAuto

/-! ### Frames -/

theorem setService_sameCount {s : State} {v : ServiceIf} (h : v.params = s.service.params) : SameCount s (s.setService v) :=
  ⟨⟨rfl, congrArg Params.holdOnFree h, congrArg Params.holdOffFree h⟩, rfl⟩

theorem SameAuto.settles {s t u : State} (a : SameAuto s t) (b : settles t u) : settles s u := b.imp_left a.trans

theorem takeFrame_countSettles {code : Byte} {f : Frame} {b : Bool} {run : List Byte → State → State} {s : State}
    (h : ∀ u, countSettles u (run f.payload u)) : countSettles s (takeFrame code f b run s) := by
  unfold takeFrame
  simp only
  refine countSettles.trans (.inl (setService_sameCount (v := { s.service with work := some { exchange := f.exchange, attached := b } }) rfl)) ?_
  split
  · exact respond_countSettles _ _
  · exact h _

theorem takeFrame_settles {code : Byte} {f : Frame} {b : Bool} {run : List Byte → State → State} {s : State}
    (h : ∀ u, settles u (run f.payload u)) : settles s (takeFrame code f b run s) := by
  unfold takeFrame
  simp only
  refine SameAuto.settles (setService_sameCount (v := { s.service with work := some { exchange := f.exchange, attached := b } }) rfl).toSameAuto ?_
  split
  · exact (respond_countSettles _ _).settles
  · exact h _

theorem frameComplete_countSettles {code : Byte} {f : Frame} {run : List Byte → State → State} {s : State}
    (h : ∀ u, countSettles u (run f.payload u)) : countSettles s (frameComplete code f run s) := by
  unfold frameComplete
  split
  · refine countSettles.trans (.inl (setService_sameCount (v := { s.service with exchange := .working }) rfl)) ?_
    simp only
    split
    · exact .inl (setService_sameCount rfl)
    · exact takeFrame_countSettles h
  · exact .inl (.refl s)

theorem frameComplete_settles {code : Byte} {f : Frame} {run : List Byte → State → State} {s : State}
    (h : ∀ u, settles u (run f.payload u)) : settles s (frameComplete code f run s) := by
  unfold frameComplete
  split
  · refine SameAuto.settles (setService_sameCount (v := { s.service with exchange := .working }) rfl).toSameAuto ?_
    simp only
    split
    · exact .inl ⟨rfl, rfl, rfl⟩
    · exact takeFrame_settles h
  · exact .inl (.refl s)

/-- A held frame, if it is taken, leaves the hold as its command does. -/
theorem takeHeldWhen_settles (last : Bool) (s : State) : settles s (takeHeldWhen last s) := by
  unfold takeHeldWhen
  split
  · exact .inl (.refl s)
  · split
    · unfold takeHeld
      split
      · exact SameAuto.settles (setService_sameCount (v := { s.service with held := none }) rfl).toSameAuto
          (takeFrame_settles fun u => runCommand_settles _ _ u)
      · exact .inl (.refl s)
    · exact .inl (.refl s)

theorem takeHeldWhen_countSettles (last : Bool) {s : State}
    (h : ∀ x u, s.service.held = some x → answersLast x.code = last →
      u.epochs = s.epochs → u.journal = s.journal → countSettles u (runCommand x.code x.frame.payload u)) :
    countSettles s (takeHeldWhen last s) := by
  unfold takeHeldWhen
  split
  · exact .inl (.refl s)
  · rename_i x hx
    split
    · rename_i kind
      unfold takeHeld
      split
      · rename_i x' h' _
        obtain rfl : x = x' := Option.some.inj (hx.symm.trans h')
        refine countSettles.trans (.inl (setService_sameCount (v := { s.service with held := none }) rfl)) ?_
        unfold takeFrame
        simp only
        refine countSettles.trans (.inl (setService_sameCount (s := s.setService { s.service with held := none })
          (v := { s.service with held := none, work := some { exchange := x.frame.exchange, attached := x.attached } }) rfl)) ?_
        split
        · exact respond_countSettles _ _
        · exact h _ _ hx kind rfl rfl
      · exact .inl (.refl s)
    · exact .inl (.refl s)

/-- R163, R166: what answers last leaves the free count and the automatic hold. -/
theorem takeHeldWhen_last_countSettles (s : State) : countSettles s (takeHeldWhen true s) := by
  refine takeHeldWhen_countSettles true fun x u _ last _ _ => runCommand_countSettles ?_ _ _
  simp only [answersLast, Bool.or_eq_true, beq_iff_eq] at last
  rcases last with h | h <;> (rw [h]; rfl)

/-! ### What the journal step leaves for a held frame -/

/-- R171: no epoch is open, the controller is IDLE, and no segment is LENT. -/
structure State.cleared (s : State) : Prop where
  stack : s.epochs.stack = []
  controller : s.epochs.controller = .idle
  lent : ∀ e ∈ s.journal.map, e.state ≠ .lent

theorem takePlace_noLent {r : AppendRequest} {e : Segment} {s : State} (h : ∀ x ∈ s.journal.map, x.state ≠ .lent) :
    ∀ x ∈ (takePlace r e s).journal.map, x.state ≠ .lent := by
  intro x hx
  have : (takePlace r e s).journal.map = s.journal.map.map fun x => if x.q = e.q then { x with count := x.count + 1 } else x := by
    unfold takePlace countPosition
    split <;> rfl
  rw [this, List.mem_map] at hx
  obtain ⟨y, hy, rfl⟩ := hx
  have := h y hy
  split <;> exact this

theorem allocate_noLent {s : State} (h : ∀ x ∈ s.journal.map, x.state ≠ .lent) :
    ∀ x ∈ (allocate s).journal.map, x.state ≠ .lent := by
  unfold allocate
  split
  · exact h
  · intro x hx
    simp only [State.setJournal_journal, List.mem_append, List.mem_map, List.mem_singleton] at hx
    rcases hx with ⟨y, hy, rfl⟩ | rfl
    · unfold closeSegment
      split
      · exact fun n => nomatch n
      · exact h y hy
    · exact fun n => nomatch n

theorem serveAppends_noLent (rs : List AppendRequest) (s : State) (h : ∀ x ∈ s.journal.map, x.state ≠ .lent) :
    ∀ x ∈ (serveAppends rs s).journal.map, x.state ≠ .lent := by
  induction rs generalizing s with
  | nil => exact h
  | cons r rest ih =>
    unfold serveAppends
    split
    · refine ih _ ?_
      unfold givePosition
      simp only
      generalize hu : (if s.fillingHasRoom = true then s else allocate s) = u
      have law : ∀ x ∈ u.journal.map, x.state ≠ .lent := by
        rw [← hu]
        split
        · exact h
        · exact allocate_noLent h
      split
      · exact law
      · exact takePlace_noLent law
    · exact h

theorem discardJournal_noLent (s : State) : ∀ x ∈ (discardJournal s).journal.map, x.state ≠ .lent :=
  serveAppends_noLent _ _ fun _ hx => nomatch hx

theorem clearHolds_frame (s : State) : (clearHolds s).journal = s.journal ∧ (clearHolds s).epochs = s.epochs := by
  unfold clearHolds
  generalize hu : s.setSpace { s.space with manual := false } = u
  have same : u.journal = s.journal ∧ u.epochs = s.epochs := by rw [← hu]; exact ⟨rfl, rfl⟩
  obtain ⟨j, -, -, e, -⟩ := evaluateAuto_frame u
  refine ⟨(announceHold_frame _).1.trans (j.trans same.1), ?_⟩
  rw [← same.2, ← e]
  generalize evaluateAuto u = v
  unfold announceHold
  split
  · rfl
  · split
    · simp [holdComes, send, tellHold]
    · simp [holdLeaves, send, tellHold]

theorem journalStep_cleared (s : State) : (journalStep s).cleared := by
  unfold journalStep
  simp only
  generalize hu : setStack [] (setController .idle none ((discardJournal s).setJournal
    { (discardJournal s).journal with lastGranted := .service })) = u
  have cleared : u.cleared := by
    rw [← hu]
    exact ⟨rfl, rfl, discardJournal_noLent s⟩
  have c : SameButPaths _ (settleCaptures u) := issueAll_path _ _
  obtain ⟨j, e⟩ := clearHolds_frame (settleCaptures u)
  refine ⟨?_, ?_, ?_⟩
  · change (clearHolds (settleCaptures u)).epochs.stack = []
    rw [e, c.epochs]; exact cleared.stack
  · change (clearHolds (settleCaptures u)).epochs.controller = .idle
    rw [e, c.epochs]; exact cleared.controller
  · change ∀ x ∈ (clearHolds (settleCaptures u)).journal.map, _
    rw [j, c.journal]; exact cleared.lent

theorem State.cleared.of {s t : State} (h : s.cleared) (epochs : t.epochs = s.epochs) (journal : t.journal = s.journal) :
    t.cleared := ⟨by rw [epochs]; exact h.stack, by rw [epochs]; exact h.controller, by rw [journal]; exact h.lent⟩

theorem settleCoreResetEnd_cleared {s : State} (h : s.cleared) : (settleCoreResetEnd s).cleared := by
  unfold settleCoreResetEnd
  split
  · split
    · exact h
    · rename_i r _
      obtain ⟨j, e, -⟩ := endCoreReset_frame r s
      exact h.of e j
  · exact h

/-- After the journal step every command leaves the free count, or re-applies R103 to it: COMMIT and ROLLBACK find no epoch,
SPILL_DONE no LENT segment. -/
theorem runCommand_cleared {code : Byte} {f : List Byte} {s : State} (h : s.cleared) : countSettles s (runCommand code f s) := by
  cases changes : changesCount code with
  | false => exact runCommand_countSettles changes f s
  | true =>
    simp only [changesCount, Bool.or_eq_true, beq_iff_eq] at changes
    rcases changes with (rfl | rfl) | rfl
    · change countSettles s (cmdCommit f s)
      unfold cmdCommit
      rw [if_neg (by simp [h.controller]), if_pos (by simp [State.depth, h.stack])]
      exact respond_countSettles _ _
    · change countSettles s (cmdRollback f s)
      unfold cmdRollback
      rw [h.controller, State.top, h.stack]
      exact respond_countSettles _ _
    · change countSettles s (cmdSpillDone f s)
      unfold cmdSpillDone
      have none' : s.segmentIn (payloadQ f) .lent = none := by
        unfold State.segmentIn
        rw [Option.filter_eq_none_iff]
        intro e he
        have := h.lent e (List.mem_of_find?_eq_some he)
        simp [this]
      rw [none']
      exact respond_countSettles _ _

theorem takeHeldWhen_cleared (last : Bool) {s : State} (h : s.cleared) : countSettles s (takeHeldWhen last s) :=
  takeHeldWhen_countSettles last fun _ _ _ _ e j => runCommand_cleared (h.of e j)

/-- R102, R103, R171, R172: the part of a step up to the end of a core reset and the held frame taken after it leaves the automatic
hold and its thresholds, or an automatic hold that follows the free count. -/
theorem settleCoreReset_settles {s u : State} (h : SameAuto s u) : settles s (takeHeldWhen false (settleCoreReset u)) := by
  by_cases due : u.journalStepDue = true
  · have follows : (settleJournalStep u).autoFollows ∧ (settleJournalStep u).cleared := by
      unfold settleJournalStep
      rw [if_pos due]
      exact ⟨journalStep_follows u, journalStep_cleared u⟩
    exact .inr ((takeHeldWhen_cleared false (settleCoreResetEnd_cleared follows.2)).follows
      ((settleCoreResetEnd_sameCount _).follows follows.1))
  · have same : settleCoreReset u = settleCoreResetEnd u := by
      unfold settleCoreReset settleJournalStep
      rw [if_neg due]
    rw [same]
    exact SameAuto.settles (h.trans (settleCoreResetEnd_sameCount u).toSameAuto) (takeHeldWhen_settles _ _)

/-! ### What the host interface has been told -/

/-- R103: the free count lies between the thresholds, where the automatic hold stays as it is. -/
def State.inBand (s : State) : Prop :=
  s.service.params.holdOnFree < s.freeCount ∧ s.freeCount < s.service.params.holdOffFree

/-- What the host interface has been told and the held frame are as before, and so is the automatic hold where the free count lies
between the thresholds. -/
structure SameTold (s t : State) : Prop where
  told : t.host.holdTold = s.host.holdTold
  held : t.service.held = s.service.held
  band : t.inBand → t.space.auto = s.space.auto

theorem SameHold.sameTold {s t : State} (h : SameHold s t) : SameTold s t := ⟨h.told, h.held, fun _ => h.auto⟩

theorem SameCount.inBand {s t : State} (h : SameCount s t) (b : t.inBand) : s.inBand := by
  unfold State.inBand at b ⊢
  rw [h.count, h.onFree, h.offFree] at b
  exact b

/-- What comes before leaves the three as they are. -/
theorem SameTold.after {s t u : State} (h : SameTold t u) (told : t.host.holdTold = s.host.holdTold)
    (held : t.service.held = s.service.held) (auto : t.space.auto = s.space.auto) : SameTold s u :=
  ⟨h.told.trans told, h.held.trans held, fun b => (h.band b).trans auto⟩

/-- An answer leaves the three as they are. -/
theorem SameTold.respond {s t : State} (h : SameTold s t) (a : Answer) : SameTold s (respond a t) := by
  have m := (moves_respond (config := true) a t).sameHold
  exact ⟨m.told.trans h.told, m.held.trans h.held,
    fun b => m.auto.trans (h.band ((respond_sameCount a t).inBand b))⟩

theorem respond_sameTold (a : Answer) (s : State) : SameTold s (Machine.respond a s) :=
  (moves_respond (config := true) a s).sameHold.sameTold

theorem evaluateAuto_inBand {s : State} (b : (evaluateAuto s).inBand) : s.inBand ∧ evaluateAuto s = s := by
  obtain ⟨j, v, -⟩ := evaluateAuto_frame s
  have inBand : s.inBand := by
    unfold State.inBand State.freeCount at b ⊢
    rw [j, v] at b
    exact b
  refine ⟨inBand, ?_⟩
  unfold evaluateAuto
  rw [if_neg (Nat.not_le.mpr inBand.1), if_neg (Nat.not_le.mpr inBand.2)]

theorem evaluateAuto_sameTold (s : State) : SameTold s (evaluateAuto s) := by
  obtain ⟨-, v, h, -⟩ := evaluateAuto_frame s
  exact ⟨by rw [h], by rw [v], fun b => by rw [(evaluateAuto_inBand b).2]⟩

theorem writeParam_sameTold (p : Param) (v : Nat) (s : State) : SameTold s (writeParam p v s) := by
  have kept : ∀ {t : State}, Moves false true s t → SameTold s t := fun m => m.sameHold.sameTold
  have followed : ∀ (a : Answer) (t : State), t.host.holdTold = s.host.holdTold → t.service.held = s.service.held →
      t.space.auto = s.space.auto → SameTold s (Machine.respond a (evaluateAuto t)) :=
    fun a t told held auto => ((evaluateAuto_sameTold t).after told held auto).respond a
  cases p
  case nseg =>
    change SameTold s (writeNseg v s)
    unfold writeNseg
    split
    · exact respond_sameTold _ _
    · split
      · exact respond_sameTold _ _
      · exact followed _ _ rfl rfl rfl
  case holdOnFree =>
    change SameTold s (writeHoldOnFree v s)
    unfold writeHoldOnFree
    split
    · exact respond_sameTold _ _
    · exact followed _ _ rfl rfl rfl
  case holdOffFree =>
    change SameTold s (writeHoldOffFree v s)
    unfold writeHoldOffFree
    split
    · exact respond_sameTold _ _
    · exact followed _ _ rfl rfl rfl
  case defaultAction => exact kept (moves_writeDefaultAction v s)
  case memTimeout => exact kept (moves_writeMemTimeout v s)
  case fullWait => exact kept (moves_writeFullWait v s)
  case holdTime => exact kept (moves_writeHoldTime v s)
  case refillWait => exact kept (moves_writeRefillWait v s)
  case restoreAhead => exact kept (moves_writeRestoreAhead v s)

theorem cmdParamWrite_sameTold (f : List Byte) (s : State) : SameTold s (cmdParamWrite f s) := by
  unfold cmdParamWrite
  split
  · exact respond_sameTold _ _
  · exact writeParam_sameTold _ _ _

/-- A command other than CORE_RESET tells the host interface nothing itself: its step does, at its end (R106). -/
theorem runCommand_sameTold {code : Byte} (h : code ≠ 0x16) (f : List Byte) (s : State) : SameTold s (runCommand code f s) := by
  have kept : ∀ {t : State}, Moves false true s t → SameTold s t := fun m => m.sameHold.sameTold
  suffices all : ∀ g, runCommand code = g → SameTold s (g f s) from all _ rfl
  intro g hg
  unfold runCommand at hg
  split at hg <;> subst hg
  case h_7 eq => exact absurd (BitVec.eq_of_toNat_eq eq) h
  · exact kept (moves_cmdParamRead f s)
  · exact cmdParamWrite_sameTold f s
  · exact kept (moves_cmdStatusRead f s)
  · exact kept (moves_cmdEventPop f s)
  · exact kept (moves_cmdEnable f s)
  · exact kept (moves_cmdDisable f s)
  · exact kept (moves_cmdMtagRelease f s)
  · exact kept (moves_cmdWindowWrite f s)
  · exact kept (moves_cmdWindowRead f s)
  · exact kept (moves_cmdCheckpoint f s)
  · exact kept (moves_cmdCommit f s)
  · exact kept (moves_cmdAbandon f s)
  · exact kept (moves_cmdRollback f s)
  · exact kept (moves_cmdMarkQuery f s)
  · exact SameTold.respond (s := s) (t := s.setSpace { s.space with manual := true }) ⟨rfl, rfl, fun _ => rfl⟩ (.done [])
  · exact SameTold.respond (s := s) (t := s.setSpace { s.space with manual := false }) ⟨rfl, rfl, fun _ => rfl⟩ (.done [])
  · exact kept (moves_cmdLend f s)
  · exact kept (moves_cmdLendCancel f s)
  · exact kept (moves_cmdSpillDone f s)
  · exact kept (moves_cmdRefillDone f s)
  · exact kept (moves_cmdSegQuery f s)
  · exact kept (moves_placeTransfer _ s)
  · exact kept (moves_placeTransfer _ s)
  · exact respond_sameTold _ _

theorem takeFrame_sameTold {code : Byte} {f : Frame} {b : Bool} {run : List Byte → State → State} {s : State}
    (h : ∀ u, SameTold u (run f.payload u)) : SameTold s (takeFrame code f b run s) := by
  unfold takeFrame
  simp only
  refine SameTold.after (t := s.setService { s.service with work := some { exchange := f.exchange, attached := b } }) ?_ rfl rfl rfl
  split
  · exact respond_sameTold _ _
  · exact h _

/-- A part of a step leaves what the host interface has been told, and the automatic hold where the free count lies between the
thresholds. -/
def keepsTold (s t : State) : Prop :=
  t.host.holdTold = s.host.holdTold ∧ (t.inBand → t.space.auto = s.space.auto)

theorem SameTold.keepsTold {s t : State} (h : SameTold s t) : keepsTold s t := ⟨h.told, h.band⟩

/-- The frame of a command other than CORE_RESET leaves what the host interface has been told. -/
theorem frameComplete_keepsTold {code : Byte} {f : Frame} {run : List Byte → State → State} {s : State}
    (h : ∀ u, SameTold u (run f.payload u)) : keepsTold s (frameComplete code f run s) := by
  unfold frameComplete
  split
  · simp only
    split
    · exact ⟨rfl, fun _ => rfl⟩
    · have same := takeFrame_sameTold (code := code) (b := true) (s := s.setService { s.service with exchange := .working }) h
      exact ⟨same.told, same.band⟩
  · exact ⟨rfl, fun _ => rfl⟩

/-- A held frame that is taken leaves no held frame; what the host interface has been told is as before, but for CORE_RESET. -/
theorem takeHeldWhen_keepsTold (last : Bool) {s : State} (h : ∀ x, s.service.held = some x → x.code ≠ 0x16) :
    keepsTold s (takeHeldWhen last s) ∧
      ((takeHeldWhen last s).service.held = s.service.held ∨ (takeHeldWhen last s).service.held = none) := by
  unfold takeHeldWhen
  split
  · exact ⟨⟨rfl, fun _ => rfl⟩, .inl rfl⟩
  · rename_i x hx
    split
    · unfold takeHeld
      split
      · rename_i x' h' _
        have same := takeFrame_sameTold (code := x'.code) (f := x'.frame) (b := x'.attached)
          (s := s.setService { s.service with held := none }) fun u => runCommand_sameTold (h x' h') x'.frame.payload u
        exact ⟨⟨same.told, same.band⟩, .inr same.held⟩
      · exact ⟨⟨rfl, fun _ => rfl⟩, .inl rfl⟩
    · exact ⟨⟨rfl, fun _ => rfl⟩, .inl rfl⟩

theorem announceHold_sameCount (s : State) :
    SameCount s (announceHold s) ∧ (announceHold s).service.held = s.service.held := by
  unfold announceHold
  split
  · exact ⟨.refl s, rfl⟩
  · split
    · refine ⟨⟨⟨?_, ?_, ?_⟩, ?_⟩, ?_⟩ <;> simp [holdComes, send, tellHold, State.freeCount]
    · refine ⟨⟨⟨?_, ?_, ?_⟩, ?_⟩, ?_⟩ <;> simp [holdLeaves, send, tellHold, State.freeCount]

/-- R103, R106: the end of a step announces the hold in force where it has changed, and leaves the automatic hold where the free
count lies between the thresholds. -/
theorem settleHold_announced {s u : State} (h : keepsTold s u) :
    ((settleHold s u).host.holdTold = s.host.holdTold ∨ (settleHold s u).announced) ∧
      (settleHold s u).service.held = u.service.held ∧ ((settleHold s u).inBand → (settleHold s u).space.auto = s.space.auto) := by
  obtain ⟨told, band⟩ := h
  unfold settleHold
  split
  · obtain ⟨c, held⟩ := announceHold_sameCount u
    refine ⟨?_, held, fun b => c.auto.trans (band (c.inBand b))⟩
    rw [← told]
    exact announceHold_announced u
  · obtain ⟨c, held⟩ := announceHold_sameCount (evaluateAuto u)
    have e := evaluateAuto_sameTold u
    refine ⟨?_, held.trans e.held, fun b => ?_⟩
    · rw [← told, ← e.told]
      exact announceHold_announced _
    · have inside := evaluateAuto_inBand (c.inBand b)
      exact c.auto.trans ((e.band (c.inBand b)).trans (band inside.1))

theorem respond_announced (a : Answer) {s : State} (h : s.announced) : (respond a s).announced := by
  unfold respond
  split <;> exact h

/-- A held STATUS_READ, or a held frame that fails its checks, leaves the announcement of the hold as it stands, the automatic hold,
its thresholds and the free count. -/
theorem takeHeldWhen_announced {s : State} (pop : ∀ x, s.service.held = some x → x.code ≠ 0x13) :
    (s.announced → (takeHeldWhen true s).announced) ∧ SameCount s (takeHeldWhen true s) := by
  unfold takeHeldWhen
  split
  · exact ⟨id, .refl s⟩
  · rename_i x hx
    split
    · rename_i last
      have code : x.code = 0x12 := by
        simp only [answersLast, Bool.or_eq_true, beq_iff_eq] at last
        exact last.resolve_right (pop x hx)
      unfold takeHeld
      split
      · rename_i x' h' _
        obtain rfl : x = x' := Option.some.inj (hx.symm.trans h')
        unfold takeFrame
        simp only
        generalize ht : State.setService (s.setService _) _ = t
        have same : SameCount s t := by subst ht; exact ⟨⟨rfl, rfl, rfl⟩, rfl⟩
        have shown : s.announced → t.announced := by subst ht; exact id
        split
        · exact ⟨fun h => respond_announced _ (shown h), same.trans (respond_sameCount _ _)⟩
        · rw [code]
          exact ⟨fun h => respond_announced _ (shown h), same.trans (respond_sameCount _ _)⟩
      · exact ⟨id, .refl s⟩
    · exact ⟨id, .refl s⟩

end Sys2Proof.Machine
end

