-- ==== Sys2Proof/Laws/Frames.lean ====
section
/-! SUPPORT. The frames of the service link: a row of the link is the command of its frame at the end of a step (R158), a command whose
exchange has closed does the same but for its response (R157), and a held frame is its row in the state the earlier command leaves
(R157). -/

namespace Sys2Proof.Machine

/-! ### A command whose exchange has closed -/

/-- `s` with the exchange at `x` and the command at work, if there is one, without a response to come. -/
def State.closed (x : Exchange) (s : State) : State :=
  s.withExchange x (s.service.work.map fun w => { w with attached := false })

@[simp] theorem closed_withExchange (x y : Exchange) (w : Option Work) (s : State) :
    (s.withExchange y w).closed x = s.withExchange x (w.map fun w => { w with attached := false }) := rfl

/-- The answer of a command whose exchange has closed: none is sent. -/
theorem respond_detached (a : Answer) (e : Byte) (x : Exchange) (s : State) :
    respond a (s.withExchange x (some { exchange := e, attached := false })) = s.withExchange x none := rfl

/-- The answer of a command whose exchange is open. -/
theorem respond_attached (a : Answer) (e : Byte) (x : Exchange) (s : State) :
    respond a (s.withExchange x (some { exchange := e, attached := true })) = s.withExchange (.answering (a.frame e)) none := rfl

/-- An operation on commands does the same for one whose exchange has closed, but for the response. -/
def closes (g : State → State) : Prop :=
  ∀ (s : State) (e : Byte) (x : Exchange), g (s.withExchange x (some { exchange := e, attached := false })) =
    (g (s.withExchange .working (some { exchange := e, attached := true }))).closed x

/-- An answer after an operation that does the same in every exchange. -/
theorem closes_respond {f : State → State} (a : Answer) (h : ∀ x w s, f (State.withExchange x w s) = (f s).withExchange x w) :
    closes fun s => respond a (f s) := by
  intro s e x
  simp only [h, respond_detached, respond_attached, closed_withExchange, Option.map_none]

theorem closes_kept {f : State → State} (h : ∀ x w s, f (State.withExchange x w s) = (f s).withExchange x w) : closes f := by
  intro s e x
  simp only [h, closed_withExchange, Option.map_some]

theorem closes_answer (a : Answer) : closes (respond a) := closes_respond (f := id) a fun _ _ _ => rfl

/-- R8, R104: the automatic hold is compared with the free count after the operation. -/
theorem closes_evaluate {f : State → State} (h : ∀ x w s, f (State.withExchange x w s) = (f s).withExchange x w) :
    closes fun s => respond (.done []) (evaluateAuto (f s)) :=
  closes_respond _ fun x w s => by rw [h, evaluateAuto_withExchange]

/-- A choice that does not depend on the exchange. -/
theorem closed_ite {p q : Prop} [Decidable p] [Decidable q] (same : p ↔ q) {a b c d : State} {x : Exchange}
    (yes : a = c.closed x) (no : b = d.closed x) : (if p then a else b) = (if q then c else d).closed x := by
  by_cases h : p
  · rw [if_pos h, if_pos (same.mp h), yes]
  · rw [if_neg h, if_neg (mt same.mpr h), no]

theorem closes_writeParam (p : Param) (v : Nat) : closes (writeParam p v) := by
  intro s e x
  cases p <;> simp only [writeParam]
  case defaultAction =>
    refine closed_ite Iff.rfl rfl ?_
    split <;> rfl
  case nseg =>
    exact closed_ite Iff.rfl rfl (closed_ite Iff.rfl rfl (closes_evaluate
      (f := fun u => rebuildFree v (setParams { s.service.params with nseg := v } u)) (fun _ _ _ => rfl) s e x))
  case holdOnFree =>
    exact closed_ite Iff.rfl rfl
      (closes_evaluate (f := fun u => setParams { s.service.params with holdOnFree := v } u) (fun _ _ _ => rfl) s e x)
  case holdOffFree =>
    exact closed_ite Iff.rfl rfl
      (closes_evaluate (f := fun u => setParams { s.service.params with holdOffFree := v } u) (fun _ _ _ => rfl) s e x)
  case memTimeout => unfold writeMemTimeout; split <;> rfl
  case fullWait => unfold writeFullWait; split <;> rfl
  case holdTime => unfold writeHoldTime; split <;> rfl
  case refillWait => unfold writeRefillWait; split <;> rfl
  case restoreAhead => unfold writeRestoreAhead; split <;> rfl

theorem closes_cmdParamWrite (p : List Byte) : closes (cmdParamWrite p) := by
  intro s e x
  unfold cmdParamWrite
  split
  · rfl
  · exact closes_writeParam _ _ s e x

/-! ### Core reset, whatever the exchange -/

theorem settleCaptures_withExchange (x : Exchange) (w : Option Work) (s : State) :
    settleCaptures (s.withExchange x w) = (settleCaptures s).withExchange x w := by
  unfold settleCaptures
  rw [← issueAll_withExchange]
  rfl

theorem clearHolds_withExchange (x : Exchange) (w : Option Work) (s : State) :
    clearHolds (s.withExchange x w) = (clearHolds s).withExchange x w := by
  simp only [clearHolds, withExchange_space, setSpace_withExchange, evaluateAuto_withExchange, announceHold_withExchange]

theorem journalStep_withExchange (x : Exchange) (w : Option Work) (s : State) :
    journalStep (s.withExchange x w) = (journalStep s).withExchange x w := by
  simp only [journalStep, discardJournal_withExchange, withExchange_journal, setJournal_withExchange,
    setController_withExchange, setStack_withExchange, settleCaptures_withExchange, clearHolds_withExchange]
  rfl

theorem settleJournalStep_withExchange (x : Exchange) (w : Option Work) (s : State) :
    settleJournalStep (s.withExchange x w) = (settleJournalStep s).withExchange x w := by
  unfold settleJournalStep
  have due : (s.withExchange x w).journalStepDue = s.journalStepDue := rfl
  rw [due, journalStep_withExchange]
  split <;> rfl

/-- R172: the end of a core reset before its answer. -/
def coreResetEmptied (r : CoreReset) (s : State) : State :=
  let released := releaseParked (setContext none (s.setService { s.service with coreReset := none }))
  post r.top (.coreResetDone r.controller r.command r.depth)
    (postDiscard none r.discarded (released.setService { released.service with events := [], dropped := 0 }))

theorem coreResetEmptied_withExchange (r : CoreReset) (x : Exchange) (w : Option Work) (s : State) :
    coreResetEmptied r (s.withExchange x w) = (coreResetEmptied r s).withExchange x w := by
  have start : ∀ u : State, setContext none ((State.withExchange x w u).setService
      { (State.withExchange x w u).service with coreReset := none }) =
        (setContext none (u.setService { u.service with coreReset := none })).withExchange x w := fun _ => rfl
  have emptied : ∀ u : State, (State.withExchange x w u).setService
      { (State.withExchange x w u).service with events := [], dropped := 0 } =
        (u.setService { u.service with events := [], dropped := 0 }).withExchange x w := fun _ => rfl
  unfold coreResetEmptied
  simp only
  rw [start, releaseParked_withExchange, emptied, postDiscard_withExchange, post_withExchange]

theorem closes_endCoreReset (r : CoreReset) : closes (endCoreReset r) :=
  closes_respond (f := coreResetEmptied r) (.done []) (coreResetEmptied_withExchange r)

theorem closes_settleCoreResetEnd : closes settleCoreResetEnd := by
  intro s e x
  have due : ∀ w y, (State.withExchange y w s).coreResetEndDue = s.coreResetEndDue := fun _ _ => rfl
  unfold settleCoreResetEnd
  simp only [due, withExchange_coreReset]
  split
  · split
    · rfl
    · exact closes_endCoreReset _ s e x
  · rfl

theorem closes_cmdCoreReset (p : List Byte) : closes (cmdCoreReset p) := by
  intro s e x
  have begins : ∀ y w, beginCoreReset (State.withExchange y w s) = (beginCoreReset s).withExchange y w := fun _ _ => rfl
  unfold cmdCoreReset settleCoreReset
  simp only [begins, settleJournalStep_withExchange]
  exact closes_settleCoreResetEnd _ e x

/-! ### The other commands -/

theorem closes_startDrain (c : PendingCommand) : closes (startDrain c) :=
  closes_respond .started fun x w s => by rw [setController_withExchange, settleDrain_withExchange]

theorem closes_cmdAbandon (p : List Byte) : closes (cmdAbandon p) := by
  intro s e x
  unfold cmdAbandon
  simp only [withExchange_epochs]
  split
  · exact closed_ite Iff.rfl rfl (closes_respond _ (fun y w u => breakTop_withExchange y w .abandoned u) s e x)
  · refine closed_ite Iff.rfl rfl (closes_respond _ (fun y w u => ?_) s e x)
    unfold abandonStopped
    rw [breakTop_withExchange, setContext_withExchange, setController_withExchange, releaseParked_withExchange]
  · rfl

theorem closes_cmdRollback (p : List Byte) : closes (cmdRollback p) := by
  intro s e x
  unfold cmdRollback
  simp only [withExchange_epochs, withExchange_top]
  split
  · rfl
  · rfl
  · split
    · exact closes_startDrain _ s e x
    · rfl
  · split
    · refine closes_respond .started (f := resumeRollback _) (fun y w u => ?_) s e x
      unfold resumeRollback
      rw [withExchange_replay, startWalk_withExchange, settleRollback_withExchange]
    · rfl
  · rfl

theorem closes_cmdSpillDone (p : List Byte) : closes (cmdSpillDone p) := by
  intro s e x
  unfold cmdSpillDone
  simp only [withExchange_segmentIn]
  split
  · rfl
  · refine closes_respond _ (f := spill _) (fun y w u => ?_) s e x
    unfold spill
    rw [updateSegment_withExchange, freeSegments_withExchange, takeRefillSegment_withExchange]

theorem chooseLent_withExchange (x : Exchange) (w : Option Work) (s : State) (es : List Segment) (n : Nat) :
    chooseLent (s.withExchange x w) n es = chooseLent s n es := by
  induction es generalizing n with
  | nil => cases n <;> rfl
  | cons e rest ih => cases n <;> simp only [chooseLent, withExchange_lendable, ih]

/-- R157: every command does the same where SSN has closed its exchange, but for the response. -/
theorem closes_runCommand (code : Byte) (p : List Byte) : closes (runCommand code p) := by
  suffices all : ∀ g, runCommand code = g → closes (g p) from all _ rfl
  intro g hg
  unfold runCommand at hg
  split at hg <;> subst hg
  · intro s e x; unfold cmdParamRead; split <;> rfl
  · exact closes_cmdParamWrite p
  · exact fun _ _ _ => rfl
  · intro s e x
    unfold cmdEventPop
    simp only [withExchange_events]
    split <;> rfl
  · exact fun _ _ _ => rfl
  · intro s e x
    exact closed_ite Iff.rfl rfl rfl
  · exact closes_cmdCoreReset p
  · intro s e x
    unfold cmdMtagRelease
    simp only [withExchange_quarantineCount]
    exact closes_respond _ (fun y w u => releaseQuarantine_withExchange y w u) s e x
  · intro s e x
    refine closed_ite Iff.rfl rfl ?_
    split
    · rfl
    · split <;> rfl
  · intro s e x; unfold cmdWindowRead; split <;> rfl
  · intro s e x
    exact closed_ite Iff.rfl rfl (closed_ite Iff.rfl rfl (closed_ite Iff.rfl rfl (closes_startDrain _ s e x)))
  · intro s e x
    exact closed_ite Iff.rfl rfl (closed_ite Iff.rfl rfl (closes_startDrain _ s e x))
  · exact closes_cmdAbandon p
  · exact closes_cmdRollback p
  · intro s e x; unfold cmdMarkQuery; split <;> rfl
  · exact fun _ _ _ => rfl
  · exact fun _ _ _ => rfl
  · intro s e x
    unfold cmdLend
    simp only [chooseLent_withExchange]
    split <;> rfl
  · intro s e x
    unfold cmdLendCancel
    simp only [withExchange_segmentIn]
    split <;> rfl
  · exact closes_cmdSpillDone p
  · intro s e x
    unfold cmdRefillDone
    simp only [withExchange_segmentIn]
    split <;> rfl
  · intro s e x
    unfold cmdSegQuery
    simp only [withExchange_journal]
    split
    · rfl
    · split <;> rfl
  · exact fun _ _ _ => rfl
  · exact fun _ _ _ => rfl
  · exact closes_answer .unknown

/-- R157: a frame of a closed exchange is checked and its command taken, as that of an open one is, but for the response. -/
theorem takeFrame_closed (code : Byte) (f : Frame) (x : Exchange) (s : State) :
    takeFrame code f false (runCommand code) (s.withExchange x none) =
      (takeFrame code f true (runCommand code) (s.withExchange .working none)).closed x := by
  unfold takeFrame
  simp only
  split
  · rfl
  · exact closes_runCommand code f.payload s f.exchange x

/-! ### A row of the link -/

/-- A command leaves the held frame as it is. -/
theorem runCommand_held (code : Byte) (p : List Byte) (s : State) : (runCommand code p s).service.held = s.service.held := by
  by_cases reset : code = 0x16
  · subst reset
    change (settleCoreReset (beginCoreReset s)).service.held = s.service.held
    have answered : ∀ (a : Answer) (u : State), (respond a u).service.held = u.service.held := fun a u =>
      (moves_respond (hold := false) (config := true) a u).sameHold.held
    have step : ∀ u : State, (settleJournalStep u).service.held = u.service.held := by
      intro u
      unfold settleJournalStep
      split
      · unfold journalStep
        simp only
        change (clearHolds _).service.held = _
        unfold clearHolds
        rw [(announceHold_sameCount _).2, (evaluateAuto_frame _).2.1]
        change (settleCaptures _).service.held = _
        unfold settleCaptures
        rw [(issueAll_path _ _).service]
        exact (moves_discardJournal (hold := false) (config := true) u).sameHold.held
      · rfl
    have ended : ∀ u : State, (settleCoreResetEnd u).service.held = u.service.held := by
      intro u
      unfold settleCoreResetEnd
      split
      · split
        · rfl
        · unfold endCoreReset
          simp only
          rw [answered, post_held]
          have discard : ∀ (n : Option EpochNo) (d : Option (SegNo × SegNo)) (w : State),
              (postDiscard n d w).service.held = w.service.held := fun n d w =>
            (moves_postDiscard (hold := false) (config := true) n d w).sameHold.held
          rw [discard]
          change (releaseParked _).service.held = _
          rw [(releaseParked_path _).service]
          rfl
      · rfl
    unfold settleCoreReset
    rw [ended, step]
    rfl
  · exact (runCommand_sameTold reset p s).held

/-- A step that leaves what the hold is told by, and the free count, ends with nothing to announce. -/
theorem frameComplete_plain {code : Byte} (h : changesSpace code = false) (f : Frame) {s : State} (told : s.holdSettled) :
    settleHold s (frameComplete code f (runCommand code) s) = frameComplete code f (runCommand code) s := by
  have taken : ∀ u : State, SameHold u (takeFrame code f true (runCommand code) u) ∧
      (takeFrame code f true (runCommand code) u).freeCount = u.freeCount := by
    intro u
    have set : ∀ v : ServiceIf, v.params = u.service.params → v.coreReset = u.service.coreReset → v.held = u.service.held →
        SameHold u (u.setService v) := fun v p c e =>
      ⟨⟨rfl, congrArg Params.holdOnFree p, congrArg Params.holdOffFree p⟩, rfl, rfl, c, e⟩
    have start := set { u.service with work := some { exchange := f.exchange, attached := true } } rfl rfl rfl
    unfold takeFrame
    simp only
    split
    · exact ⟨start.trans (moves_respond (config := true) _ _).sameHold, (respond_sameCount _ _).count⟩
    · obtain ⟨same, count⟩ := runCommand_plain h f.payload
        (u.setService { u.service with work := some { exchange := f.exchange, attached := true } })
      exact ⟨start.trans same, count⟩
  unfold frameComplete
  split
  · simp only
    split
    · exact settleHold_of_same told rfl rfl rfl
    · obtain ⟨same, count⟩ := taken (s.setService { s.service with exchange := .working })
      refine settleHold_of_same told count same.told ?_
      unfold State.holdInForce
      rw [same.auto, same.manual]
      rfl
  · exact settleHold_of_same told rfl rfl rfl

theorem cmdParamWriteOf_eq {p : Param} {own : Nat → State → State} (same : own = writeParam p) :
    cmdParamWriteOf p own = cmdParamWrite := by
  funext payload s
  unfold cmdParamWriteOf cmdParamWrite
  split
  · rename_i h
    rw [h, same]
  · rfl

/-- R158, R102, R106: a row of the service link completes its frame, whose command is the one its command byte names, and the step
ends with the hold. -/
theorem exec_frame {c : Instr} {code : Byte} {f : Frame} (h : frameOf c = some (code, f)) {s : State}
    (running : s.inReset = false) (told : s.holdSettled) :
    exec c s = .next (settleHold s (frameComplete code f (runCommand code) s)) := by
  have spaced : ∀ run : List Byte → State → State, run = runCommand code →
      whenRunningSpaced (frameComplete code f run) s = .next (settleHold s (frameComplete code f (runCommand code) s)) := by
    intro run same
    rw [whenRunningSpaced, whenRunning, if_neg (by rw [running]; decide), same]
  have plain : changesSpace code = false → ∀ run : List Byte → State → State, run = runCommand code →
      whenRunning (frameComplete code f run) s = .next (settleHold s (frameComplete code f (runCommand code) s)) := by
    intro kept run same
    rw [frameComplete_plain kept f told, whenRunning, if_neg (by rw [running]; decide), same]
  cases c <;> cases h
  case paramWriteDefaultAction => exact spaced _ (cmdParamWriteOf_eq rfl)
  case paramWriteNseg => exact spaced _ (cmdParamWriteOf_eq rfl)
  case paramWriteMemTimeout => exact spaced _ (cmdParamWriteOf_eq rfl)
  case paramWriteFullWait => exact spaced _ (cmdParamWriteOf_eq rfl)
  case paramWriteHoldTime => exact spaced _ (cmdParamWriteOf_eq rfl)
  case paramWriteHoldOnFree => exact spaced _ (cmdParamWriteOf_eq rfl)
  case paramWriteHoldOffFree => exact spaced _ (cmdParamWriteOf_eq rfl)
  case paramWriteRefillWait => exact spaced _ (cmdParamWriteOf_eq rfl)
  case paramWriteRestoreAhead => exact spaced _ (cmdParamWriteOf_eq rfl)
  all_goals first
    | exact spaced _ rfl
    | exact plain rfl _ rfl

/-! ### A held frame -/

theorem settleHold_closed (s t : State) (x : Exchange) : settleHold s (t.closed x) = (settleHold s t).closed x := by
  have kept := exchange_kept (f := settleHold s) (fun y w u => settleHold_withExchange_right y w s u) t
  unfold State.closed
  rw [settleHold_withExchange_right, kept.2]

theorem settleHold_service_held (s t : State) : (settleHold s t).service.held = t.service.held := by
  unfold settleHold
  rw [(announceHold_sameCount _).2]
  split
  · rfl
  · rw [(evaluateAuto_frame t).2.1]

/-- R157: the step of a row that ends the command at work and leaves `u`, the hold as it was, before a held frame is taken: the frame
is taken as its row takes it there. -/
theorem takesHeld_of {i c : Instr} {s u v : State}
    (step : exec i s = .next (takeHeldWhen true (settleHold s (takeHeldWhen false u))))
    (told : s.holdSettled) (running : u.inReset = false) (held : u.service.held = s.service.held)
    (work : u.service.work = none) (exchange : u.service.exchange = s.service.exchange)
    (unread : u.service.unread = s.service.unread) (count : u.freeCount = s.freeCount)
    (toldAs : u.host.holdTold = s.host.holdTold) (force : u.holdInForce = s.holdInForce)
    (same : v.setService { v.service with exchange := .receiving, work := none, held := none } =
      u.setService { u.service with exchange := .receiving, work := none, held := none }) : s.takesHeld i c v := by
  intro code f attached row read holds exchangeAs
  generalize hB : u.setService { u.service with held := none } = B
  generalize hbase : u.setService { u.service with exchange := .receiving, work := none, held := none } = base at same
  have baseIs : base = B.withExchange .receiving none := by rw [← hbase, ← hB]; rfl
  generalize hT : takeFrame code f true (runCommand code) (B.withExchange .working none) = T
  have settled : base.holdSettled := by
    rw [← hbase]
    exact toldAs.trans (told.trans force.symm)
  have completes : frameComplete code f (runCommand code) base = T := by
    have reads : base.service.exchange = .receiving ∧ base.service.unread = false := by
      rw [← hbase]; exact ⟨rfl, unread.trans read⟩
    have idle : base.service.work = none := by rw [← hbase]; rfl
    unfold frameComplete
    rw [if_pos reads]
    simp only
    rw [show (base.setService { base.service with exchange := .working }).service.work = none from idle, ← hT, baseIs]
    rfl
  have baseCount : base.freeCount = s.freeCount := by rw [← hbase]; exact count
  have ends : ∀ w, settleHold s w = settleHold base w := by
    intro w
    unfold settleHold
    rw [baseCount]
  have taken : takeFrame code f attached (runCommand code) B = if attached then T else T.closed s.service.exchange := by
    have B' : B = B.withExchange s.service.exchange none := by rw [← hB, ← exchange, ← work]; rfl
    cases attached
    · have := takeFrame_closed code f s.service.exchange B
      rw [← B', hT] at this
      exact this
    · rw [exchangeAs rfl] at B'
      rw [B', hT]
      rfl
  have heldNone : T.service.held = none := by
    rw [← hT]
    unfold takeFrame
    simp only
    split
    · rw [(moves_respond (hold := false) (config := true) _ _).sameHold.held, ← hB]; rfl
    · rw [runCommand_held, ← hB]; rfl
  have takes : ∀ last, answersLast code = last → takeHeldWhen last u = takeFrame code f attached (runCommand code) B := by
    intro last kind
    unfold takeHeldWhen takeHeld
    rw [held, holds, work, ← hB]
    simp only
    rw [if_pos kind]
  have skips : ∀ last, answersLast code ≠ last → takeHeldWhen last u = u := by
    intro last kind
    unfold takeHeldWhen
    rw [held, holds]
    simp only
    rw [if_neg kind]
  refine ⟨settleHold base T, ?_, ?_⟩
  · rw [same, exec_frame row (by rw [← hbase]; exact running) settled, completes]
  · rw [step]
    have closes : settleHold s (if attached then T else T.closed s.service.exchange) =
        if attached then settleHold base T else s.unanswered (settleHold base T) := by
      rw [ends]
      cases attached
      · exact settleHold_closed base T s.service.exchange
      · rfl
    rw [← closes, ← taken]
    cases last : answersLast code
    · rw [takes false last]
      have none' : (settleHold s (takeFrame code f attached (runCommand code) B)).service.held = none := by
        rw [settleHold_service_held, taken]
        cases attached <;> exact heldNone
      rw [takeHeldWhen_notDue true (.inl none')]
    · have plain : changesSpace code = false := by
        simp only [answersLast, Bool.or_eq_true, beq_iff_eq] at last
        rcases last with h | h <;> (rw [h]; rfl)
      rw [skips false (by rw [last]; decide), settleHold_of_same told count toldAs force, takes true last, taken, closes]
      have kept : settleHold base T = T := by rw [← completes]; exact frameComplete_plain plain f settled
      rw [kept]
      cases attached <;> rfl

end Sys2Proof.Machine
end

