-- ==== Sys2Proof/Laws/Lawful.lean ====
section
/-! SUPPORT. The laws of the part over the operations that leave the journal map and the epochs as they are. -/

namespace Sys2Proof.Machine

/-! ### What the laws speak of -/

/-- What the laws speak of. -/
def State.parts (s : State) :=
  ((s.host.table, s.host.sendQueue.filterMap HostMessage.responds, s.capture, s.memIf),
    (s.epochs, s.replay.context, s.service.coreReset, s.service.mode, s.service.params.nseg),
    (s.journal.map, s.journal.free, s.journal.nextSeq, s.journal.nextQ),
    (s.journal.waiting, s.journal.engineQueue, s.journal.outstanding))

theorem State.mapLaw.same {k : Nat} {s t : State} (h : s.mapLaw k) (map : t.journal.map = s.journal.map)
    (free : t.journal.free = s.journal.free) (nextQ : t.journal.nextQ = s.journal.nextQ)
    (nseg : t.service.params.nseg = s.service.params.nseg) : t.mapLaw k := by
  have age : ∀ q, t.age q = s.age q := fun q => by simp only [State.age, nextQ]
  refine ⟨?_, ?_, ?_, ?_, ?_, ?_⟩
  · rw [free, map, nseg]; exact h.pool
  · rw [map]; exact h.present
  · rw [map]; exact h.entries
  · rw [map]; exact h.newest
  · rw [map]; simp only [age]; exact h.rising
  · rw [map]; simp only [age]; exact h.ages

theorem State.spanLaw.same {s t : State} (h : s.spanLaw) (map : t.journal.map = s.journal.map)
    (nextSeq : t.journal.nextSeq = s.journal.nextSeq) (epochs : t.epochs = s.epochs)
    (context : t.replay.context = s.replay.context) : t.spanLaw := by
  intro b hb
  rw [epochs] at hb
  obtain ⟨e, span, out, walk⟩ := h b hb
  refine ⟨e, ⟨?_, ?_, ?_, ?_, ?_⟩, ?_, ?_⟩
  · rw [map]; exact span.runs
  · rw [nextSeq]; exact span.ends
  · rw [nextSeq]; exact span.room
  · rw [epochs, nextSeq]; exact span.starts
  · rw [epochs]; exact span.nested
  · rw [epochs, nextSeq]; exact out
  · rw [epochs, context]
    intro w
    obtain ⟨c, top, rest, a, b', d, e'⟩ := walk w
    refine ⟨c, top, rest, a, b', d, ⟨e'.start, e'.next, e'.read, e'.held, e'.restores, e'.failure, ?_, epochs ▸ e'.waits, ?_,
      e'.refills⟩⟩
    · have segment : ∀ q, t.segment q = s.segment q := fun q => by simp only [State.segment, map]
      simp only [segment]; exact e'.refill
    · simp only [State.segmentOf, map]; exact e'.current

theorem State.lawful.congr {k : Nat} {s t : State} (h : s.lawful k) (same : t.parts = s.parts) : t.lawful k := by
  simp only [State.parts, Prod.mk.injEq] at same
  obtain ⟨⟨table, sent, capture, memIf⟩, ⟨epochs, context, coreReset, mode, nseg⟩, ⟨map, free, nextSeq, nextQ⟩,
    waiting, queue, outstanding⟩ := same
  have ops : t.journal.ops = s.journal.ops := by simp only [JournalUnit.ops, queue, outstanding]
  have stopped : t.portStopped = s.portStopped := by simp only [State.portStopped, coreReset]
  have state : ∀ id, t.stateOf id = s.stateOf id := fun id => by simp only [State.stateOf, State.entry, table]
  refine ⟨h.path.congr table sent (by rw [capture]) (by rw [capture]) memIf waiting (by rw [ops]), h.map.same map free nextQ nseg,
    fun p => (h.spans (stopped ▸ p)).same map nextSeq epochs context, fun p => ?_, fun p => ?_, ?_, ?_, ?_, ?_, ?_⟩
  · have := h.reads (stopped ▸ p)
    simp only [State.readsLaw, ops, epochs, context] at this ⊢; exact this
  · have := h.refills (stopped ▸ p)
    simp only [State.refillLaw, map, epochs, context] at this ⊢; exact this
  · have := h.gate
    simp only [State.gateLaw, State.gateClosed, epochs, coreReset, state, capture] at this ⊢; exact this
  · have := h.zero
    simp only [State.zeroLaw, epochs, map, capture] at this ⊢; exact this
  · have := h.stop
    simp only [State.stopLaw, stopped, queue, waiting, capture] at this ⊢; exact this
  · have := h.bypass
    simp only [State.bypassLaw, mode, epochs] at this ⊢; exact this
  · have := h.still
    simp only [State.stillLaw, epochs, coreReset, context] at this ⊢; exact this

/-- Moves of entries on their paths keep the laws where no entry passes a closed gate and no slot begins to read in a stopped
part. -/
theorem State.lawful.carried {k : Nat} {s t : State} (h : s.lawful k) (c : Carried s t) (law : t.pathLaw)
    (gate : (s.epochs.walks ∨ s.epochs.controller = .stopped) → s.service.coreReset = none → t.gateClosed)
    (stop : s.portStopped = true → ∀ (i : Fin 8) (sl : Slot), t.capture.slots[i] = some sl → sl.stage ≠ .read) :
    t.lawful k := by
  have p := c.path
  have stopped : t.portStopped = s.portStopped := by simp only [State.portStopped, p.service]
  refine ⟨law, h.map.same (by rw [p.journal]) (by rw [p.journal]) (by rw [p.journal]) (by rw [p.service]),
    fun q => (h.spans (stopped ▸ q)).same (by rw [p.journal]) (by rw [p.journal]) p.epochs (by rw [p.replay]),
    fun q => ?_, fun q => ?_, ?_, ?_, ?_, ?_, ?_⟩
  · have := h.reads (stopped ▸ q)
    simp only [State.readsLaw, p.journal, p.epochs, p.replay] at this ⊢; exact this
  · have := h.refills (stopped ▸ q)
    simp only [State.refillLaw, p.journal, p.epochs, p.replay] at this ⊢; exact this
  · intro w
    rw [p.epochs] at w
    obtain ⟨a, b⟩ := h.gate w
    refine ⟨fun n => ?_, fun r hr => b r (by rw [← p.service]; exact hr)⟩
    rw [p.service] at n
    exact ⟨gate w n, by rw [p.marks]; exact (a n).2.1, by rw [p.epochs]; exact (a n).2.2⟩
  · intro z
    rw [p.epochs] at z
    obtain ⟨m, marks, queue, slots⟩ := h.zero z
    have closed : s.topOpen = false := by simp [State.topOpen, State.top, z]
    refine ⟨by rw [p.journal]; exact m, by rw [p.marks]; exact marks, ?_, fun i sl hi => ?_⟩
    · rw [List.eq_nil_iff_forall_not_mem]
      intro id hid
      rcases c.queue id hid with a | ⟨-, a⟩
      · rw [queue] at a; cases a
      · rw [closed] at a; cases a
    · rcases c.slots i sl hi with a | ⟨-, ⟨-, a⟩ | a⟩
      · exact slots i sl a
      · rw [closed] at a; cases a
      · rw [queue] at a; cases a
  · intro z
    rw [stopped] at z
    obtain ⟨a, b, -⟩ := h.stop z
    exact ⟨by rw [p.journal]; exact a, by rw [p.journal]; exact b, stop z⟩
  · have := h.bypass
    simp only [State.bypassLaw, p.service, p.epochs] at this ⊢; exact this
  · have := h.still
    simp only [State.stillLaw, p.service, p.epochs, p.replay] at this ⊢; exact this

/-! ### Changes the laws do not speak of -/

@[simp] theorem parts_post (n : Option EpochNo) (k : EventKind) (s : State) : (post n k s).parts = s.parts := by
  unfold post; split <;> rfl
@[simp] theorem parts_advanceTo (e : Tick) (s : State) : (advanceTo e s).parts = s.parts := by unfold advanceTo; split <;> rfl
@[simp] theorem parts_nextFresh (s : State) : (nextFresh s).parts = s.parts := rfl
@[simp] theorem parts_useFresh (a b : Nat) (s : State) : (useFresh a b s).parts = s.parts := by unfold useFresh; split <;> rfl
@[simp] theorem parts_usePortFresh (n : Nat) (d : PortData) (s : State) : (usePortFresh n d s).parts = s.parts := by
  unfold usePortFresh; split
  · rfl
  · split <;> rfl
@[simp] theorem parts_landWrite (a : Nat) (b : List Byte) (st : Status) (s : State) : (landWrite a b st s).parts = s.parts := by
  unfold landWrite; split <;> rfl
@[simp] theorem parts_respond (a : Answer) (s : State) : (respond a s).parts = s.parts := by unfold respond; split <;> rfl
@[simp] theorem parts_setSpace (v : SpaceMonitor) (s : State) : (s.setSpace v).parts = s.parts := rfl
@[simp] theorem parts_setRefillTimer (t : Option Tick) (s : State) : (setRefillTimer t s).parts = s.parts := rfl
@[simp] theorem parts_evaluateAuto (s : State) : (evaluateAuto s).parts = s.parts := by
  unfold evaluateAuto; split
  · rfl
  · split <;> rfl
theorem parts_send {m : HostMessage} (h : m.responds = none) (s : State) : (send m s).parts = s.parts := by
  simp [State.parts, send, h]
@[simp] theorem parts_announceHold (s : State) : (announceHold s).parts = s.parts := by
  unfold announceHold; split
  · rfl
  · split
    · simp only [holdComes, parts_post, parts_setSpace]; rw [parts_send rfl]; rfl
    · simp only [holdLeaves, parts_post, parts_setSpace]; rw [parts_send rfl]; rfl
@[simp] theorem parts_settleHold (s t : State) : (settleHold s t).parts = t.parts := by
  unfold settleHold
  rw [parts_announceHold]
  split
  · rfl
  · rw [parts_evaluateAuto]
@[simp] theorem parts_countClassified (l : Line) (m : Fin 4) (s : State) : (countClassified l m s).parts = s.parts := by
  unfold countClassified; split
  · rfl
  · split <;> rfl
@[simp] theorem parts_stopFullWait (id : HostId) (s : State) : (stopFullWait id s).parts = s.parts := rfl
theorem parts_setService {s : State} {v : ServiceIf} (coreReset : v.coreReset = s.service.coreReset)
    (mode : v.mode = s.service.mode) (nseg : v.params.nseg = s.service.params.nseg) : (s.setService v).parts = s.parts := by
  simp [State.parts, coreReset, mode, nseg]

variable {k : Nat}

theorem State.lawful.of {s t : State} (h : s.lawful k) (same : t.parts = s.parts) : t.lawful k := h.congr same

/-- A change beside the journal's map, the epochs and the walk. -/
theorem State.lawful.beside {s t : State} (h : s.lawful k) (path : t.pathLaw) (epochs : t.epochs = s.epochs)
    (context : t.replay.context = s.replay.context) (coreReset : t.service.coreReset = s.service.coreReset)
    (mode : t.service.mode = s.service.mode) (nseg : t.service.params.nseg = s.service.params.nseg)
    (map : t.journal.map = s.journal.map) (free : t.journal.free = s.journal.free)
    (nextSeq : t.journal.nextSeq = s.journal.nextSeq) (nextQ : t.journal.nextQ = s.journal.nextQ)
    (reads : t.journal.ops.filterMap PortOp.readSeq = s.journal.ops.filterMap PortOp.readSeq)
    (gate : t.gateLaw) (zero : t.zeroLaw) (stop : t.stopLaw) : t.lawful k := by
  have stopped : t.portStopped = s.portStopped := by simp only [State.portStopped, coreReset]
  refine ⟨path, h.map.same map free nextQ nseg, fun p => (h.spans (stopped ▸ p)).same map nextSeq epochs context,
    fun p => ?_, fun p => ?_, gate, zero, stop, ?_, ?_⟩
  · have := h.reads (stopped ▸ p)
    simp only [State.readsLaw, reads, epochs, context] at this ⊢; exact this
  · have := h.refills (stopped ▸ p)
    simp only [State.refillLaw, map, epochs, context] at this ⊢; exact this
  · have := h.bypass
    simp only [State.bypassLaw, mode, epochs] at this ⊢; exact this
  · have := h.still
    simp only [State.stillLaw, epochs, coreReset, context] at this ⊢; exact this

/-- A change of the host interface. -/
theorem State.lawful.host {s : State} {x : HostIf} (h : s.lawful k) (path : (s.setHost x).pathLaw)
    (gate : s.gateClosed → (s.setHost x).gateClosed) : (s.setHost x).lawful k :=
  h.beside path rfl rfl rfl rfl rfl rfl rfl rfl rfl rfl
    (fun w => ⟨fun n => by obtain ⟨a, b, c⟩ := (h.gate w).1 n; exact ⟨gate a, b, c⟩, (h.gate w).2⟩) h.zero h.stop

/-- A change of the memory interface. -/
theorem State.lawful.memIf {s : State} {x : MemoryIf} (h : s.lawful k) (path : (s.setMemIf x).pathLaw) :
    (s.setMemIf x).lawful k :=
  h.beside path rfl rfl rfl rfl rfl rfl rfl rfl rfl rfl h.gate h.zero h.stop

/-! ### Entries -/

theorem gateOpen_closed {s : State} {w : Bool}
    (h : s.service.coreReset ≠ none ∨ s.epochs.walks ∨ s.epochs.controller = .stopped) : s.gateOpen w = false := by
  unfold State.gateOpen
  rcases h with h | (h | h) | h
  · cases hr : s.service.coreReset with
    | none => exact absurd hr h
    | some r => rfl
  all_goals simp [h]

theorem setEntryState_lawful {st : EntryState} {id : HostId} {s : State} (h : s.lawful k) (n : s.nowhere id)
    (st' : st = .parked) : (setEntryState st id s).lawful k := by
  refine h.host ((setEntryState_carried st id s).pathLaw h.path ((setEntryState_carries st id s).1 h.path.path n)) ?_
  intro closed x
  change (setEntryState st id s).stateOf x = none ∨ (setEntryState st id s).stateOf x = _ ∨ (setEntryState st id s).stateOf x = _
  rw [stateOf_setEntryState]
  split
  · cases s.stateOf id with
    | none => exact .inl rfl
    | some y => exact .inr (.inr (by rw [st']; rfl))
  · exact closed x

theorem portStopped_coreReset {s : State} (h : s.portStopped = true) : s.service.coreReset ≠ none := fun n => by
  simp [State.portStopped, n] at h

theorem coreReset_none_running {s : State} (h : s.service.coreReset = none) : s.portStopped = false := by
  simp [State.portStopped, h]

theorem reachGate_lawful {id : HostId} {s : State} (h : s.lawful k) (n : s.nowhere id) : (reachGate id s).lawful k := by
  by_cases closed : s.service.coreReset ≠ none ∨ s.epochs.walks ∨ s.epochs.controller = .stopped
  · unfold reachGate
    split
    · exact h
    · rw [gateOpen_closed closed]
      exact setEntryState_lawful h n rfl
  · refine h.carried (reachGate_carried id s) (reachGate_pathLaw h.path n) (fun w => ?_) fun w => ?_
    · exact absurd (.inr w) closed
    · exact absurd (.inl (portStopped_coreReset w)) closed

theorem goToIssue_lawful {id : HostId} {s : State} (h : s.lawful k) (n : s.nowhere id)
    (there : ¬ (s.epochs.walks ∨ s.epochs.controller = .stopped) ∨ s.service.coreReset ≠ none) : (goToIssue id s).lawful k := by
  refine h.carried (goToIssue_carried id s) (goToIssue_pathLaw h.path n) (fun w c => ?_) fun w i sl hi => ?_
  · rcases there with a | a
    · exact absurd w a
    · exact absurd c a
  · rw [goToIssue_capture] at hi; exact (h.stop w).2.2 i sl hi

theorem passAll_capture {ids : List HostId} {s : State} (h : s.topOpen = false) : (passAll ids s).capture = s.capture := by
  induction ids generalizing s with
  | nil => rfl
  | cons id rest ih =>
    have one : (passGate id s).capture = s.capture := by
      unfold passGate
      split
      · rfl
      · split
        · unfold captureCheck
          rw [if_neg (by simp [h])]
          exact goToIssue_capture _ _
        · exact goToIssue_capture _ _
    change (passAll rest (passGate id s)).capture = _
    rw [ih (by rw [(passGate_path id s).topOpen]; exact h), one]

theorem releaseParked_lawful {s : State} (h : s.lawful k) (out : ¬ (s.epochs.walks ∨ s.epochs.controller = .stopped))
    (running : s.portStopped = false ∨ s.topOpen = false) : (releaseParked s).lawful k := by
  refine h.carried (releaseParked_carried s) (releaseParked_pathLaw h.path) (fun w => absurd w out) fun w i sl hi => ?_
  rcases running with r | r
  · rw [r] at w; cases w
  · rw [releaseParked, passAll_capture r] at hi; exact (h.stop w).2.2 i sl hi

theorem gateClosed_nowhere {s : State} (h : s.onPath) (closed : s.gateClosed) (id : HostId) : s.nowhere id := h.outside (closed id)

theorem serveTagQueue_lawful {s : State} (h : s.lawful k) : (serveTagQueue s).lawful k := by
  refine h.carried (serveTagQueue_carried s) (serveTagQueue_pathLaw h.path) (fun w c => ?_) fun w i sl hi => ?_
  · have closed := ((h.gate w).1 c).1
    intro id
    rw [(serveTagQueue_nowhere (gateClosed_nowhere h.path.path closed id)).2]
    exact closed id
  · have : (serveTagQueue s).capture = s.capture := serveRequests_capture _ _
    rw [this] at hi; exact (h.stop w).2.2 i sl hi

theorem setTag_lawful {t : Fin 64} {v : TagState} {s : State} (h : s.lawful k) (none' : v.host = none) :
    (setTag t v s).lawful k := h.memIf (setTag_pathLaw h.path none')

theorem releaseQuarantine_lawful {s : State} (h : s.lawful k) : (releaseQuarantine s).lawful k := by
  apply serveTagQueue_lawful
  refine h.memIf ⟨h.path.names, fun x => ?_, h.path.writes, h.path.waits, h.path.appends⟩
  refine (h.path.path x).mono le_rfl le_rfl ?_
  have : (s.memIf.tags.map releaseTag).countP (fun y => y.host == some x) = s.memIf.tags.countP fun y => y.host == some x := by
    rw [Vector.countP_map]
    congr 1
    funext y
    cases y <;> rfl
  simp only [State.inLinks, State.setMemIf_memIf, State.setMemIf_host, this]
  exact le_rfl

theorem answer_lawful {id : HostId} {s : State} (h : s.lawful k) (n : s.nowhere id)
    (past : placesOf (s.stateOf id) = (0, 0, 1)) (w : Bool) (st : HostStatus) (d : List Word) : (answer id w st d s).lawful k := by
  refine h.host (answer_pathLaw h.path n past w st d) fun closed x => ?_
  change (answer id w st d s).stateOf x = _ ∨ (answer id w st d s).stateOf x = _ ∨ (answer id w st d s).stateOf x = _
  rw [stateOf_answer]; exact closed x

theorem lineGate_lawful {l : Line} {s : State} (h : s.lawful k) : (lineGate l s).lawful k := by
  unfold lineGate
  split
  · exact h
  · rename_i e he
    split
    · rename_i st
      have mem := List.mem_of_find?_eq_some he
      exact reachGate_lawful h (h.path.path.outside (.inr (.inl (by rw [stateOf_of_mem h.path.names mem, st]))))
    · exact h

theorem filterEntry_pathLaw {id : HostId} {s : State} (h : s.pathLaw) (n : s.nowhere id) :
    (s.setHost { s.host with table := s.host.table.filter fun y => decide (y.id ≠ id) }).pathLaw := by
  have write : ∀ x, s.writeAt x →
      (s.setHost { s.host with table := s.host.table.filter fun y => decide (y.id ≠ id) }).writeAt x := fun x hx e he => by
    rw [entry_filter] at he
    split at he
    · cases he
    · exact hx e he
  refine ⟨filter_ids_nodup h.names _, fun x => ?_, ⟨fun x hx => write x (h.writes.1 x hx), fun j sl hj => write _ (h.writes.2 j sl hj)⟩,
    h.waits, h.appends⟩
  by_cases hx : x = id
  · subst hx; exact State.nowhere.fitsAt (id := x) n
  · refine (State.fitsAt.congr (s := s)
      (t := s.setHost { s.host with table := s.host.table.filter fun y => decide (y.id ≠ id) }) ?_ rfl rfl rfl rfl).mpr (h.path x)
    unfold State.stateOf
    rw [entry_filter, if_neg hx]

theorem freeEntry_lawful {id : HostId} {s : State} (h : s.lawful k) (n : s.nowhere id) : (freeEntry id s).lawful k := by
  unfold freeEntry
  split
  · exact h
  · apply lineGate_lawful
    refine h.host (filterEntry_pathLaw h.path n) fun closed x => ?_
    simp only [State.stateOf, entry_filter]
    split
    · exact .inl rfl
    · exact closed x

theorem sendHead_lawful {s : State} (h : s.lawful k) : (sendHead s).lawful k := by
  unfold sendHead
  split
  · exact h
  · rename_i m rest hq
    have links : ∀ x, s.inLinks x = (s.setHost { s.host with sendQueue := rest, lastSent := some m }).inLinks x +
        if m.responds = some x then 1 else 0 := fun x => by
      simp only [State.inLinks, State.setHost_host, State.setHost_memIf, hq, List.countP_cons, beq_iff_eq]
      omega
    have law : (s.setHost { s.host with sendQueue := rest, lastSent := some m }).lawful k := by
      refine h.host ⟨h.path.names, fun x => (h.path.path x).mono le_rfl le_rfl ?_, h.path.writes, h.path.waits, h.path.appends⟩
        fun closed => closed
      have := links x
      change s.inSlots false x + _ ≤ _
      omega
    simp only
    split
    · rename_i id w st d
      refine freeEntry_lawful law ?_
      have l := links id
      simp only [HostMessage.responds, if_true] at l
      obtain ⟨a, b, c, -⟩ := (h.path.path id).other (by omega)
      exact ⟨a, b, by change s.inSlots false id = 0; omega, by omega⟩
    · exact law

/-! ### Requests -/

theorem createEntry_lawful {e : Entry} {s : State} (h : s.lawful k) (new : s.entry e.id = none) (st : e.state = .lineWait) :
    (createEntry e s).lawful k := by
  have entry : ∀ x, (s.setHost { s.host with table := s.host.table ++ [e] }).entry x =
      if x = e.id then some e else s.entry x := fun x => by
    split
    · rename_i hx; subst hx; exact entry_append new rfl
    · rename_i hx
      simp only [State.entry, State.setHost_host, List.find?_append]
      cases hs : s.host.table.find? fun y => y.id == x with
      | some y => rfl
      | none =>
        have ne : ¬ e.id = x := fun h => hx h.symm
        simp [ne]
  have nowhere : s.nowhere e.id := h.path.path.outside (.inl (by simp [State.stateOf, new]))
  have write : ∀ x, s.writeAt x → x ≠ e.id → (s.setHost { s.host with table := s.host.table ++ [e] }).writeAt x :=
    fun x hx ne y hy => by rw [entry, if_neg ne] at hy; exact hx y hy
  have queued : ∀ x ∈ s.capture.slotQueue, x ≠ e.id := fun x hx eq => by
    have := nowhere.1
    rw [State.inSlotQueue, List.count_eq_zero] at this
    exact this (eq ▸ hx)
  have held : ∀ (j : Fin 8) (sl : Slot), s.capture.slots[j] = some sl → sl.entry ≠ e.id := fun j sl hj eq => by
    have a := inSlots_setSlot true e.id j none s
    have b := inSlots_setSlot false e.id j none s
    simp only [hj, Option.any_some, eq, beq_self_eq_true, Bool.true_and, Option.any_none, Bool.false_eq_true, if_false,
      Nat.add_zero, nowhere.2.1, nowhere.2.2.1] at a b
    cases hst : (sl.stage == SlotStage.space) <;> simp [hst] at a b
  have law : (s.setHost { s.host with table := s.host.table ++ [e] }).lawful k := by
    refine h.host ⟨?_, fun x => ?_, ⟨fun x hx => write x (h.path.writes.1 x hx) (queued x hx),
      fun j sl hj => write _ (h.path.writes.2 j sl hj) (held j sl hj)⟩, h.path.waits, h.path.appends⟩ fun closed x => ?_
    · simp only [State.setHost_host, List.map_append, List.map_cons, List.map_nil]
      rw [List.nodup_append]
      refine ⟨h.path.names, by simp, fun a ha b hb eq => ?_⟩
      simp only [List.mem_cons, List.not_mem_nil, or_false] at hb
      subst hb
      rw [List.mem_map] at ha
      obtain ⟨y, hy, he⟩ := ha
      have := List.find?_eq_none.mp new y hy
      rw [he, eq] at this
      simp at this
    · by_cases hx : x = e.id
      · subst hx; exact State.nowhere.fitsAt (id := e.id) nowhere
      · refine (State.fitsAt.congr (s := s) (t := s.setHost { s.host with table := s.host.table ++ [e] }) ?_ rfl rfl rfl rfl).mpr
          (h.path.path x)
        unfold State.stateOf
        rw [entry, if_neg hx]
    · unfold State.stateOf
      rw [entry]
      split
      · exact .inr (.inl (by rw [Option.map_some, st]))
      · exact closed x
  unfold createEntry
  simp only
  split
  · exact law
  · exact reachGate_lawful law nowhere

theorem takeRequest_lawful {r : Request} {s : State} (h : s.lawful k) : (takeRequest r s).lawful k := by
  unfold takeRequest
  split
  · split
    · exact h.of (parts_post _ _ _)
    · rename_i new
      split
      · exact h.of (parts_send rfl _)
      · split
        · exact h.of (parts_send rfl _)
        · unfold classifyRequest
          simp only
          have counted := h.of (parts_countClassified (lineOf r.address) r.id.master s)
          split
          · exact counted.of (parts_send rfl _)
          · exact createEntry_lawful counted
              (by rw [State.entry, countClassified_host]; exact Option.not_isSome_iff_eq_none.mp new) rfl
  · exact h

/-! ### Slots -/

/-- R27, R29: while a slot is held and the part has not stopped, no gate is closed for a walk. -/
theorem slot_out {i : Fin 8} {sl : Slot} {s : State} (h : s.lawful k) (hs : s.capture.slots[i] = some sl)
    (running : s.portStopped = false) : ¬ (s.epochs.walks ∨ s.epochs.controller = .stopped) := by
  intro w
  cases hr : s.service.coreReset with
  | none =>
    have closed := ((h.gate w).1 hr).1
    have n := gateClosed_nowhere h.path.path closed sl.entry
    have a := inSlots_setSlot true sl.entry i none s
    have b := inSlots_setSlot false sl.entry i none s
    simp only [hs, Option.any_some, beq_self_eq_true, Bool.true_and, Option.any_none, Bool.false_eq_true, if_false,
      Nat.add_zero, n.2.1, n.2.2.1] at a b
    cases hst : (sl.stage == SlotStage.space) <;> simp [hst] at a b
  | some r =>
    have := (h.gate w).2 r hr
    simp [State.portStopped, hr, this] at running

theorem setSlot_none_lawful {i : Fin 8} {s : State} (h : s.lawful k) (path : (setSlot i none s).pathLaw) :
    (setSlot i none s).lawful k := by
  have slots : ∀ {j : Fin 8} {x : Slot}, (setSlot i none s).capture.slots[j] = some x → s.capture.slots[j] = some x := fun h => by
    rcases slots_set h with ⟨-, h⟩ | ⟨-, h⟩
    · cases h
    · exact h
  refine h.beside path rfl rfl rfl rfl rfl rfl rfl rfl rfl rfl h.gate ?_ ?_
  · intro z
    obtain ⟨a, b, c, d⟩ := h.zero z
    exact ⟨a, b, c, fun j x hj => d j x (slots hj)⟩
  · intro z
    obtain ⟨a, b, c⟩ := h.stop z
    exact ⟨a, b, fun j x hj => c j x (slots hj)⟩

/-- R46: a slot becomes free in a part that has not stopped, outside a walk. -/
theorem freeSlot_lawful {i : Fin 8} {s : State} (h : (setSlot i none s).lawful k) (running : s.portStopped = false)
    (out : ¬ (s.epochs.walks ∨ s.epochs.controller = .stopped)) : (freeSlot i s).lawful k := by
  refine h.carried (freeSlot_carried i s) (freeSlot_pathLaw h.path) (fun w => absurd w out) fun w => ?_
  change s.portStopped = true at w
  rw [running] at w; cases w

/-! ### The stack and breaks -/

theorem setStack_lawful {st : List Epoch} {s : State} (h : s.lawful k)
    (same : st.map (·.start) = s.epochs.stack.map (·.start)) : (setStack st s).lawful k := by
  have empty : st = [] ↔ s.epochs.stack = [] := by
    have := congrArg List.length same
    simp only [List.length_map] at this
    rw [← List.length_eq_zero_iff, ← List.length_eq_zero_iff, this]
  have mem : ∀ x ∈ st, ∃ y ∈ s.epochs.stack, y.start = x.start := fun x hx => by
    have : x.start ∈ s.epochs.stack.map (·.start) := same ▸ List.mem_map_of_mem hx
    rw [List.mem_map] at this; exact this
  have last : st.getLast?.map (·.start) = s.epochs.stack.getLast?.map (·.start) := by
    rw [← List.getLast?_map, ← List.getLast?_map, same]
  have head : st.head?.map (·.start) = s.epochs.stack.head?.map (·.start) := by
    rw [← List.head?_map, ← List.head?_map, same]
  refine ⟨setStack_pathLaw h.path, ⟨h.map.pool, h.map.present, h.map.entries, h.map.newest, h.map.rising, h.map.ages⟩, fun p => ?_, h.reads, h.refills, fun w => ?_, fun z => h.zero (empty.mp z), h.stop,
    fun m => ⟨empty.mpr (h.bypass m).1, (h.bypass m).2⟩, h.still⟩
  · intro b hb
    change st.getLast? = some b at hb
    rw [hb] at last
    cases hl : s.epochs.stack.getLast? with
    | none => rw [hl] at last; cases last
    | some b' =>
      rw [hl] at last
      have eq : b.start = b'.start := Option.some.inj last
      obtain ⟨e, span, out, walk⟩ := h.spans p b' hl
      rw [← eq] at span walk
      refine ⟨e, ⟨span.runs, span.ends, span.room, fun x hx => ?_, ?_⟩, out, fun w => ?_⟩
      · obtain ⟨y, hy, e⟩ := mem x hx
        rw [← e]; exact span.starts y hy
      · have := span.nested
        have := (List.pairwise_map (f := fun x : Epoch => x.start)
          (R := fun newer older => Seq.after b.start older ≤ Seq.after b.start newer)).mpr this
        rw [← same] at this
        exact List.pairwise_map.mp this
      · obtain ⟨c, top, rest, a, b, d, f⟩ := walk w
        rw [b] at head
        cases hst : st with
        | nil => rw [hst] at head; cases head
        | cons x xs =>
          rw [hst] at head
          exact ⟨c, x, xs, a, rfl, d.trans (Option.some.inj head).symm, ⟨f.start, f.next, f.read, f.held, f.restores, f.failure, f.refill, f.waits, f.current, f.refills⟩⟩
  · obtain ⟨a, b⟩ := h.gate w
    exact ⟨fun n => ⟨(a n).1, (a n).2.1, fun e => (a n).2.2 (empty.mp e)⟩, b⟩

theorem captureWaiters_closed {s : State} (names : (s.host.table.map (·.id)).Nodup) (closed : s.gateClosed) :
    s.captureWaiters = [] := by
  unfold State.captureWaiters
  rw [List.map_eq_nil_iff, List.filter_eq_nil_iff]
  intro e he
  have := closed e.id
  rw [stateOf_of_mem names he] at this
  rcases this with h | h | h
  · cases h
  all_goals
    have := Option.some.inj h
    simp [this]

theorem brokenNotice_lawful {s : State} (h : s.lawful k) : (brokenNotice s).lawful k := by
  have path := brokenNotice_pathLaw h.path
  have p := brokenNotice_path s
  have cap := brokenNotice_capture s
  have jn : (brokenNotice s).journal = { s.journal with waiting := [] } := by rw [p.journal]; rfl
  have slot : ∀ {j : Fin 8} {x : Slot}, (brokenNotice s).capture.slots[j] = some x →
      x.stage ≠ .read ∧ ∃ y, s.capture.slots[j] = some y ∧ (y.stage = .discard → x.stage = .discard) := fun {j} {x} hj => by
    rw [cap] at hj
    simp only [Fin.getElem_fin, Vector.getElem_map] at hj ⊢
    cases hs : s.capture.slots[j.val] with
    | none => rw [hs] at hj; cases hj
    | some y =>
      rw [hs] at hj
      have hj' : noticeSlot (some y) = some x := hj
      cases hst : y.stage <;> simp [noticeSlot, hst] at hj'
      all_goals
        subst hj'
        first
          | exact ⟨by simp, y, rfl, fun _ => rfl⟩
          | exact ⟨by rw [hst]; decide, y, rfl, id⟩
  refine h.beside path p.epochs (by rw [p.replay]; rfl) (by rw [p.service]; rfl) (by rw [p.service]; rfl)
    (by rw [p.service]; rfl) (by rw [jn]) (by rw [jn]) (by rw [jn]) (by rw [jn]) (by rw [jn]; rfl) ?_ ?_ ?_
  · intro w
    rw [p.epochs] at w
    obtain ⟨a, b⟩ := h.gate w
    refine ⟨fun n => ?_, fun r hr => b r (by rw [p.service] at hr; exact hr)⟩
    rw [p.service] at n
    obtain ⟨closed, marks, stack⟩ := a n
    refine ⟨?_, by rw [cap]; exact marks, by rw [p.epochs]; exact stack⟩
    unfold brokenNotice
    rw [captureWaiters_closed h.path.names closed]
    exact closed
  · intro z
    rw [p.epochs] at z
    obtain ⟨a, b, c, d⟩ := h.zero z
    refine ⟨by rw [jn]; exact a, by rw [cap]; exact b, by rw [cap], fun j x hj => ?_⟩
    obtain ⟨-, y, hy, st⟩ := slot hj
    exact st (d j y hy)
  · intro z
    simp only [State.portStopped, p.service] at z
    obtain ⟨a, -, -⟩ := h.stop z
    exact ⟨by rw [jn]; exact a, by rw [jn], fun j x hj => (slot hj).1⟩

theorem breakTop_lawful {r : BrokenReason} {s : State} (h : s.lawful k) : (breakTop r s).lawful k := by
  cases hst : s.epochs.stack with
  | nil => simp only [breakTop, hst]; exact h
  | cons e rest =>
    by_cases opened : e.broken = none
    · rw [breakTop_open hst opened]
      refine brokenNotice_lawful ((setStack_lawful h ?_).of (parts_post _ _ _))
      rw [hst]; rfl
    · simp only [breakTop, hst, if_neg opened]; exact h

/-- R14: a request of a slot in stage READ waits for space. -/
theorem waitForSpace_lawful {r : AppendRequest} {s : State} {sl : Slot} (h : s.lawful k)
    (hs : s.capture.slots[r.slot] = some sl) (entry : sl.entry = r.entry) (stage : sl.stage = .read) :
    (waitForSpace r s).lawful k := by
  have running : s.portStopped = false := by
    cases hp : s.portStopped with
    | false => rfl
    | true => exact absurd stage ((h.stop hp).2.2 _ sl hs)
  have out := slot_out h hs running
  have open' : s.epochs.stack ≠ [] := fun z => by
    have := (h.zero z).2.2.2 _ sl hs
    rw [stage] at this; cases this
  have path := waitForSpace_pathLaw h.path hs entry stage
  unfold waitForSpace at path ⊢
  simp only at path ⊢
  generalize hu : setEntryState .spaceWait r.entry _ = u at path ⊢
  have law : u.pathLaw → u.lawful k := fun path => by
    subst hu
    exact h.beside path rfl rfl rfl rfl rfl rfl rfl rfl rfl rfl (fun w => absurd w out) (fun z => absurd z open')
      fun z => by change s.portStopped = true at z; rw [running] at z; cases z
  split
  · rename_i zero'
    rw [if_pos zero'] at path
    refine breakTop_lawful (law ?_)
    have := waitForSpace_waiting h.path hs entry stage
    rw [hu] at this; exact this
  · rename_i zero'
    rw [if_neg zero'] at path
    exact law path

end Sys2Proof.Machine
end

