-- ==== Sys2Proof/Laws/Positions.lean ====
section
/-! SUPPORT. The laws of the part over positions, waiting requests, the ends of captures and the journal port. -/

namespace Sys2Proof.Machine

variable {k : Nat}

/-! ### Sequence numbers within a span -/

theorem after_self (b : Seq) : Seq.after b b = 0 := by simp [Seq.after]

theorem after_add {b n : Seq} {m : Nat} (h : Seq.after b n + m < 2 ^ 32) :
    Seq.after b (n + BitVec.ofNat 32 m) = Seq.after b n + m := by
  unfold Seq.after at h ⊢
  have : n + BitVec.ofNat 32 m - b = (n - b) + BitVec.ofNat 32 m := by
    rw [BitVec.sub_eq_add_neg, BitVec.sub_eq_add_neg, BitVec.add_assoc, BitVec.add_comm (BitVec.ofNat 32 m), BitVec.add_assoc]
  rw [this, BitVec.toNat_add, BitVec.toNat_ofNat, Nat.mod_eq_of_lt (a := m) (by omega), Nat.mod_eq_of_lt h]

theorem after_pred {b n : Seq} (h : 1 ≤ Seq.after b n) : Seq.after b (n - 1) = Seq.after b n - 1 := by
  unfold Seq.after at h ⊢
  have : n - 1 - b = (n - b) - 1 := by
    rw [BitVec.sub_eq_add_neg, BitVec.sub_eq_add_neg, BitVec.sub_eq_add_neg, BitVec.sub_eq_add_neg, BitVec.add_assoc,
      BitVec.add_assoc, BitVec.add_comm (-1)]
  rw [this, BitVec.toNat_sub_of_le]
  · rfl
  · rw [BitVec.le_def]; exact h

theorem after_inj {b x y : Seq} (h : Seq.after b x = Seq.after b y) : x = y := by
  unfold Seq.after at h
  have := BitVec.eq_of_toNat_eq h
  have h2 := congrArg (· + b) this
  simpa [BitVec.sub_add_cancel] using h2

theorem sub_after (b x y : Seq) : (x - y).toNat = (2 ^ 32 - Seq.after b y + Seq.after b x) % 2 ^ 32 := by
  have : x - y = (x - b) - (y - b) := by
    have h1 := BitVec.sub_add_cancel x b
    have h2 := BitVec.sub_add_cancel y b
    generalize hp : x - b = p at h1 ⊢
    generalize hq : y - b = q at h2 ⊢
    rw [← h1, ← h2]
    rw [BitVec.sub_eq_iff_eq_add, BitVec.add_comm q b, ← BitVec.add_assoc, BitVec.add_assoc _ b q]
    rw [BitVec.add_comm b q, ← BitVec.add_assoc, BitVec.sub_add_cancel]
  rw [this, BitVec.toNat_sub]; rfl

theorem seqGe_after {b x y : Seq} (hx : Seq.after b x < 2 ^ 31) (hy : Seq.after b y < 2 ^ 31) :
    seqGe x y = true ↔ Seq.after b y ≤ Seq.after b x := by
  unfold seqGe
  rw [decide_eq_true_eq, sub_after b]
  omega

theorem seqNewer_after {b x y : Seq} (hx : Seq.after b x < 2 ^ 31) (hy : Seq.after b y < 2 ^ 31) :
    seqNewer x y = true ↔ Seq.after b y < Seq.after b x := by
  unfold seqNewer
  rw [Bool.and_eq_true, seqGe_after hx hy, decide_eq_true_eq]
  constructor
  · rintro ⟨ne, le⟩
    exact lt_of_le_of_ne le fun e => ne (after_inj e.symm)
  · intro lt
    exact ⟨fun e => by rw [e] at lt; exact absurd lt (lt_irrefl _), lt.le⟩

theorem holds_after {b : Seq} {e : Segment} {n : Seq} (hf : Seq.after b e.first < 2 ^ 31) (hn : Seq.after b n < 2 ^ 31)
    (hc : e.count < 2 ^ 31) :
    e.holds n = true ↔ Seq.after b e.first ≤ Seq.after b n ∧ Seq.after b n < Seq.after b e.first + e.count := by
  unfold Segment.holds
  rw [decide_eq_true_eq, sub_after b]
  omega

/-! ### Consecutive entries -/

/-- The records of several entries. -/
def recordsOf (m : List Segment) : Nat := (m.map (·.count)).sum

theorem covers_append {b e : Seq} {m m' : List Segment} :
    covers b (m ++ m') e ↔ ∃ c, covers b m c ∧ covers c m' e := by
  induction m generalizing b with
  | nil => simp [covers]
  | cons x rest ih =>
    simp only [List.cons_append, covers, ih]
    constructor
    · rintro ⟨a, d, f, c, g, h⟩; exact ⟨c, ⟨a, d, f, g⟩, h⟩
    · rintro ⟨c, ⟨a, d, f, g⟩, h⟩; exact ⟨a, d, f, c, g, h⟩

theorem covers_map {f : Segment → Segment} (keeps : ∀ x, (f x).first = x.first ∧ (f x).count = x.count) {b e : Seq}
    {m : List Segment} : covers b (m.map f) e ↔ covers b m e := by
  induction m generalizing b with
  | nil => rfl
  | cons x rest ih => simp only [List.map_cons, covers, (keeps x).1, (keeps x).2, ih]

theorem records_le {b e : Seq} {m : List Segment} (h : covers b m e) : recordsOf m ≤ 819 * m.length := by
  induction m generalizing b with
  | nil => simp [recordsOf]
  | cons y rest ih =>
    obtain ⟨-, -, c, d⟩ := h
    have := ih d
    simp only [recordsOf, List.map_cons, List.sum_cons, List.length_cons] at this ⊢
    omega

/-- The entries end as many records after their start as they hold. -/
theorem covers_after {b s e : Seq} {m : List Segment} (h : covers b m e) (small : Seq.after s b + recordsOf m < 2 ^ 32) :
    Seq.after s e = Seq.after s b + recordsOf m := by
  induction m generalizing b with
  | nil => rw [h]; simp [recordsOf]
  | cons y rest ih =>
    obtain ⟨-, -, -, d⟩ := h
    simp only [recordsOf, List.map_cons, List.sum_cons] at small ih ⊢
    have step := after_add (b := s) (n := b) (m := y.count) (by omega)
    have := ih d (by rw [step]; omega)
    rw [this, step]; omega

theorem covers_end {b e : Seq} {m : List Segment} (h : covers b m e) (len : m.length ≤ 1024) :
    Seq.after b e = recordsOf m ∧ recordsOf m ≤ 838656 := by
  have le := records_le h
  have := covers_after (s := b) h (by rw [after_self]; omega)
  rw [after_self, Nat.zero_add] at this
  exact ⟨this, by omega⟩

/-! ### Positions (R1, R12, R13) -/

theorem find_map_filling {l : List Segment} : (l.map closeSegment).find? (fun e => e.state == .filling) = none := by
  rw [List.find?_eq_none]
  intro x hx
  rw [List.mem_map] at hx
  obtain ⟨y, -, rfl⟩ := hx
  unfold closeSegment
  split
  · simp
  · rename_i h; simpa using h

/-- With rising logical numbers an entry's number is its own. -/
theorem q_ne_of_append {s : State} {others : List Segment} {e : Segment}
    (rising : (others ++ [e]).Pairwise fun a b => s.age b.q < s.age a.q) : ∀ x ∈ others, x.q ≠ e.q := fun x hx eq => by
  rw [List.pairwise_append] at rising
  have := rising.2.2 x hx e (List.mem_singleton.mpr rfl)
  rw [eq] at this; exact absurd this (lt_irrefl _)

theorem filling_last {s : State} {e : Segment} (newest : ∀ x ∈ s.journal.map.dropLast, x.state ≠ .filling)
    (h : s.filling = some e) : ∃ others, s.journal.map = others ++ [e] ∧ ∀ x ∈ others, x.state ≠ .filling := by
  have mem := List.mem_of_find?_eq_some h
  have st : e.state = .filling := by have := List.find?_some h; simpa using this
  have ne : s.journal.map ≠ [] := fun n => by rw [n] at mem; cases mem
  have split := List.dropLast_append_getLast ne
  rw [← split, List.mem_append, List.mem_singleton] at mem
  rcases mem with mem | mem
  · exact absurd st (newest e mem)
  · exact ⟨s.journal.map.dropLast, by rw [mem]; exact split.symm, newest⟩

theorem map_last {others : List Segment} {e : Segment} (f : Segment → Segment) (ne : ∀ x ∈ others, x.q ≠ e.q) :
    (others ++ [e]).map (fun x => if x.q = e.q then f x else x) = others ++ [f e] := by
  rw [List.map_append, List.map_cons, List.map_nil, if_pos rfl]
  congr 1
  conv_rhs => rw [← List.map_id others]
  exact List.map_congr_left fun x hx => if_neg (ne x hx)

/-- R1, R12, R13, R25, R110: what giving a position does. -/
theorem givePosition_gives {r : AppendRequest} {s : State} {top : Epoch} {rest : List Epoch}
    (h : s.mapLaw k) (positions : s.positionExists = true) (stack : s.epochs.stack = top :: rest) :
    s.gives r top rest (givePosition r s) := by
  have number : s.topNumber.getD 0 = top.number := by simp [State.topNumber, State.top, stack]
  cases room : s.fillingHasRoom with
  | true =>
    cases hf : s.filling with
    | none => simp [State.fillingHasRoom, hf] at room
    | some e =>
      obtain ⟨others, map, no⟩ := filling_last h.newest hf
      have st : e.state = .filling := by have := List.find?_some hf; simpa using this
      have count : e.count < 819 := by
        simp only [State.fillingHasRoom, hf, Config.recordsPerSegment] at room; exact of_decide_eq_true room
      have mem : e ∈ s.journal.map := by rw [map]; simp
      have present := h.present e mem
      obtain ⟨p, hp⟩ : ∃ p, e.physical = some p := by
        cases hp : e.physical with
        | none => rw [present.mp hp] at st; cases st
        | some p => exact ⟨p, rfl⟩
      have ne := q_ne_of_append (s := s) (map ▸ h.rising)
      refine ⟨others, e, p, s.journal.free, s.journal.nextQ, ⟨hp, st, count, ne⟩, .inl ⟨map, no, rfl, rfl⟩, stack, ?_⟩
      have eq : (s.journal.map.map fun x => if x.q = e.q then { x with count := x.count + 1 } else x) =
          others ++ [{ e with count := e.count + 1 }] := by rw [map, map_last _ ne]
      unfold givePosition
      simp only [room, if_true, hf, takePlace, eq, hp, number, Option.getD_some]
      simp only [countPosition, stopFullWait, setEntryState, updateEntry, setStage, setSlot, State.setSpace_epochs,
        State.setHost_epochs, State.setCapture_epochs, State.setJournal_epochs, stack]
      rfl
  | false =>
    have space : s.spaceExists = true := by simpa [State.positionExists, room] using positions
    simp only [State.spaceExists, Bool.and_eq_true, Bool.not_eq_true', List.isEmpty_eq_false_iff,
      Config.mapSize] at space
    obtain ⟨p, free, hfree⟩ := List.exists_cons_of_ne_nil space.1
    let e : Segment := { q := s.journal.nextQ, state := .filling, physical := some p, first := s.journal.nextSeq, count := 0 }
    have ne : ∀ x ∈ s.journal.map.map closeSegment, x.q ≠ e.q := fun x hx eq => by
      rw [List.mem_map] at hx
      obtain ⟨y, hy, rfl⟩ := hx
      have q : (closeSegment y).q = y.q := by unfold closeSegment; split <;> rfl
      rw [q] at eq
      have := (h.ages y hy).1
      rw [State.age, eq] at this
      simp [e] at this
    refine ⟨s.journal.map.map closeSegment, e, p, free, s.journal.nextQ + 1, ⟨rfl, rfl, by simp [e], ne⟩,
      .inr ⟨room, of_decide_eq_true space.2, hfree, rfl, rfl, rfl⟩, stack, ?_⟩
    have alloc : allocate s = s.setJournal { s.journal with
        map := s.journal.map.map closeSegment ++ [e], nextQ := s.journal.nextQ + 1, free := free } := by
      simp only [allocate, hfree, e]
    have found : (s.setJournal { s.journal with
        map := s.journal.map.map closeSegment ++ [e], nextQ := s.journal.nextQ + 1, free := free }).filling = some e := by
      unfold State.filling
      rw [State.setJournal_journal, List.find?_append, find_map_filling]
      simp [e]
    have eq : ((s.journal.map.map closeSegment ++ [e]).map fun x => if x.q = e.q then { x with count := x.count + 1 } else x) =
        s.journal.map.map closeSegment ++ [{ e with count := e.count + 1 }] := map_last _ ne
    unfold givePosition
    simp only [room, Bool.false_eq_true, if_false, alloc, found, takePlace, State.setJournal_journal, eq]
    have number' : ∀ j, (s.setJournal j).topNumber = s.topNumber := fun _ => rfl
    have depth' : ∀ j, (s.setJournal j).depth = s.depth := fun _ => rfl
    simp only [number', depth', number]
    simp only [countPosition, stopFullWait, setEntryState, updateEntry, setStage, setSlot, State.setSpace_epochs,
      State.setHost_epochs, State.setCapture_epochs, State.setJournal_epochs, stack]
    rfl

theorem age_next {q nextQ : SegNo} (h : (nextQ - q).toNat + 1 < 2 ^ 32) : (nextQ + 1 - q).toNat = (nextQ - q).toNat + 1 := by
  have := after_add (b := q) (n := nextQ) (m := 1) h
  exact this

/-- The map after a position is given: what R12 and R13 leave of R7, R9, R10 and R11. -/
theorem gives_mapLaw {r : AppendRequest} {s t : State} {top : Epoch} {rest : List Epoch} (h : s.mapLaw k) (small : k + 1 < 2 ^ 32)
    (g : s.gives r top rest t) : t.mapLaw (k + 1) := by
  obtain ⟨others, e, p, free, nextQ, ⟨hp, st, count, ne⟩, cases', stack, rfl⟩ := g
  rcases cases' with ⟨map, no, rfl, rfl⟩ | ⟨room, len, hfree, rfl, rfl, rfl⟩
  · have phys : (others ++ [{ e with count := e.count + 1 }]).filterMap Segment.physical = s.journal.map.filterMap Segment.physical := by
      rw [map]; simp [List.filterMap_append, List.filterMap_cons]
    refine ⟨?_, fun x hx => ?_, ?_, ?_, ?_, fun x hx => ?_⟩
    · change (s.journal.free ++ (others ++ [{ e with count := e.count + 1 }]).filterMap Segment.physical).Perm _
      rw [phys]; exact h.pool
    · change x ∈ others ++ [{ e with count := e.count + 1 }] at hx
      rcases List.mem_append.mp hx with hx | hx
      · exact h.present x (by rw [map]; exact List.mem_append_left _ hx)
      · rw [List.mem_singleton.mp hx]; exact h.present e (by rw [map]; simp)
    · change (others ++ [{ e with count := e.count + 1 }]).length ≤ 1024
      have := h.entries
      rw [map] at this; simpa using this
    · change ∀ x ∈ (others ++ [{ e with count := e.count + 1 }]).dropLast, _
      rw [List.dropLast_concat]; exact no
    · change (others ++ [{ e with count := e.count + 1 }]).Pairwise fun a b : Segment => s.age b.q < s.age a.q
      have := h.rising
      rw [map, List.pairwise_append] at this
      rw [List.pairwise_append]
      refine ⟨this.1, by simp, fun a ha b hb => ?_⟩
      rw [List.mem_singleton.mp hb]; exact this.2.2 a ha e (by simp)
    · change x ∈ others ++ [{ e with count := e.count + 1 }] at hx
      change 1 ≤ s.age x.q ∧ s.age x.q ≤ k + 1
      have : ∃ y ∈ s.journal.map, y.q = x.q := by
        rcases List.mem_append.mp hx with hx | hx
        · exact ⟨x, by rw [map]; exact List.mem_append_left _ hx, rfl⟩
        · rw [List.mem_singleton.mp hx]; exact ⟨e, by rw [map]; simp, rfl⟩
      obtain ⟨y, hy, eq⟩ := this
      have := h.ages y hy
      rw [eq] at this; omega
  · have close : ∀ x, (closeSegment x).physical = x.physical ∧ (closeSegment x).q = x.q := fun x => by
      unfold closeSegment; split <;> exact ⟨rfl, rfl⟩
    let e : Segment := { q := s.journal.nextQ, state := .filling, physical := some p, first := s.journal.nextSeq, count := 0 + 1 }
    have phys : (s.journal.map.map closeSegment ++ [e]).filterMap Segment.physical =
        s.journal.map.filterMap Segment.physical ++ [p] := by
      rw [List.filterMap_append, List.filterMap_map]
      have : (Segment.physical ∘ closeSegment) = Segment.physical := by funext x; exact (close x).1
      rw [this]; simp [e]
    have age : ∀ x ∈ s.journal.map, (s.journal.nextQ + 1 - x.q).toNat = s.age x.q + 1 := fun x hx => by
      have := (h.ages x hx).2
      exact age_next (by change s.age x.q + 1 < _; omega)
    have self : (s.journal.nextQ + 1 - s.journal.nextQ).toNat = 1 := by
      rw [age_next (by simp)]; simp
    have closed : (s.journal.map.map fun x => if x.state = .filling then { x with state := SegState.filled } else x) =
        s.journal.map.map closeSegment := rfl
    refine ⟨?_, fun x hx => ?_, ?_, ?_, ?_, fun x hx => ?_⟩
    · change (free ++ (s.journal.map.map closeSegment ++ [e]).filterMap Segment.physical).Perm _
      rw [phys]
      have := h.pool
      rw [hfree] at this
      refine List.Perm.trans ?_ this
      rw [← List.append_assoc]
      exact (List.perm_append_singleton p _)
    · change x ∈ s.journal.map.map closeSegment ++ [e] at hx
      rcases List.mem_append.mp hx with hx | hx
      · rw [List.mem_map] at hx
        obtain ⟨y, hy, rfl⟩ := hx
        rw [(close y).1, h.present y hy]
        unfold closeSegment; split
        · rename_i f; simp [f]
        · rfl
      · rw [List.mem_singleton.mp hx]; simp [e]
    · change (s.journal.map.map closeSegment ++ [e]).length ≤ 1024
      simp; omega
    · change ∀ x ∈ (s.journal.map.map closeSegment ++ [e]).dropLast, _
      rw [List.dropLast_concat]
      intro x hx
      rw [List.mem_map] at hx
      obtain ⟨y, -, rfl⟩ := hx
      unfold closeSegment; split
      · simp
      · assumption
    · change (s.journal.map.map closeSegment ++ [e]).Pairwise fun a b : Segment =>
        (s.journal.nextQ + 1 - b.q).toNat < (s.journal.nextQ + 1 - a.q).toNat
      rw [List.pairwise_append]
      refine ⟨?_, by simp, fun a ha b hb => ?_⟩
      · rw [List.pairwise_map]
        refine h.rising.imp_of_mem fun {a b} ha hb lt => ?_
        rw [(close a).2, (close b).2, age a ha, age b hb]; omega
      · rw [List.mem_singleton.mp hb]
        rw [List.mem_map] at ha
        obtain ⟨y, hy, rfl⟩ := ha
        rw [(close y).2, age y hy]
        change (s.journal.nextQ + 1 - s.journal.nextQ).toNat < _
        rw [self]
        have := (h.ages y hy).1; omega
    · change x ∈ s.journal.map.map closeSegment ++ [e] at hx
      change 1 ≤ (s.journal.nextQ + 1 - x.q).toNat ∧ (s.journal.nextQ + 1 - x.q).toNat ≤ k + 1
      rcases List.mem_append.mp hx with hx | hx
      · rw [List.mem_map] at hx
        obtain ⟨y, hy, rfl⟩ := hx
        rw [(close y).2, age y hy]
        have := h.ages y hy; omega
      · rw [List.mem_singleton.mp hx]
        change 1 ≤ (s.journal.nextQ + 1 - s.journal.nextQ).toNat ∧ (s.journal.nextQ + 1 - s.journal.nextQ).toNat ≤ k + 1
        rw [self]; omega

theorem closeSegment_keeps (x : Segment) : (closeSegment x).physical = x.physical ∧ (closeSegment x).q = x.q ∧
    (closeSegment x).first = x.first ∧ (closeSegment x).count = x.count ∧
    ((closeSegment x).state = .refilling ↔ x.state = .refilling) := by
  unfold closeSegment; split
  · rename_i h; simp [h]
  · simp

theorem filterMap_beside {α β : Type} {a b : List α} {x : α} {f : α → Option β} (h : f x = none) :
    ((a ++ [x]) ++ b).filterMap f = (a ++ b).filterMap f := by simp [List.filterMap_append, h]

/-- The laws after a position is given. -/
theorem gives_lawful {r : AppendRequest} {s t : State} {top : Epoch} {rest : List Epoch} (h : s.lawful k)
    (small : k + 1 < 2 ^ 32) (g : s.gives r top rest t) (path : t.pathLaw) (running : s.portStopped = false)
    (out : ¬ (s.epochs.walks ∨ s.epochs.controller = .stopped)) : t.lawful (k + 1) := by
  have map' := gives_mapLaw h.map small g
  obtain ⟨others, e, p, free, nextQ, ⟨hp, st, count, ne⟩, shape, stack, rfl⟩ := g
  refine ⟨path, map', fun _ => ?_, fun _ => ?_, fun _ => ?_, fun w => absurd w out, ?_, fun w => ?_, fun m => ?_, h.still⟩
  · intro b hb
    change ({ top with records := top.records + 1 } :: rest).getLast? = some b at hb
    have : ∃ b', s.epochs.stack.getLast? = some b' ∧ b'.start = b.start := by
      rw [stack]
      cases rest with
      | nil => rw [List.getLast?_singleton] at hb ⊢; exact ⟨top, rfl, by rw [← Option.some.inj hb]⟩
      | cons x xs => rw [List.getLast?_cons_cons] at hb ⊢; exact ⟨b, hb, rfl⟩
    obtain ⟨b', hb', eq⟩ := this
    obtain ⟨e', span, still, -⟩ := h.spans running b' hb'
    obtain rfl := still fun w => out (.inl w)
    rw [eq] at span
    have runs : covers b.start (others ++ [{ e with count := e.count + 1 }]) (s.journal.nextSeq + 1) := by
      rw [covers_append]
      rcases shape with ⟨map, -⟩ | ⟨-, -, -, -, others', rfl⟩
      · have := span.runs
        rw [map, covers_append] at this
        obtain ⟨c, a, f, lo, hi, n⟩ := this
        refine ⟨c, a, f, by simp, by simpa using count, ?_⟩
        change s.journal.nextSeq = c + BitVec.ofNat 32 e.count at n
        change s.journal.nextSeq + 1 = c + BitVec.ofNat 32 (e.count + 1)
        rw [n, BitVec.ofNat_add, BitVec.add_assoc]; rfl
      · refine ⟨s.journal.nextSeq, ?_, rfl, by simp, by simp, ?_⟩
        · rw [others']
          exact (covers_map (f := closeSegment) fun x => ⟨(closeSegment_keeps x).2.2.1, (closeSegment_keeps x).2.2.2.1⟩).mpr span.runs
        · rfl
    have old := covers_end span.runs h.map.entries
    have new := covers_end runs map'.entries
    have next : Seq.after b.start (s.journal.nextSeq + 1) = Seq.after b.start s.journal.nextSeq + 1 :=
      after_add (m := 1) (by omega)
    refine ⟨_, ⟨runs, le_rfl, by change Seq.after b.start (s.journal.nextSeq + 1) ≤ _; omega, fun x hx => ?_, ?_⟩, fun _ => rfl,
      fun w => absurd (.inl w) out⟩
    · change x ∈ { top with records := top.records + 1 } :: rest at hx
      change _ ≤ Seq.after b.start (s.journal.nextSeq + 1)
      have : ∃ y ∈ s.epochs.stack, y.start = x.start := by
        rw [stack]
        rcases List.mem_cons.mp hx with rfl | hx
        · exact ⟨top, List.mem_cons_self .., rfl⟩
        · exact ⟨x, List.mem_cons_of_mem _ hx, rfl⟩
      obtain ⟨y, hy, eq⟩ := this
      have := span.starts y hy
      rw [eq] at this; omega
    · have := span.nested
      rw [stack, List.pairwise_cons] at this
      exact List.pairwise_cons.mpr ⟨this.1, this.2⟩
  · have eq := filterMap_beside (a := s.journal.engineQueue) (b := s.journal.outstanding.map (·.2)) (f := PortOp.readSeq)
      (x := .recordWrite r.slot p e.count s.journal.nextSeq e.q
        (buildRecord r.line s.journal.nextSeq top.number r.entry.master s.depth r.data)) rfl
    have law := h.reads running
    simp only [State.readsLaw, JournalUnit.ops] at law ⊢
    rw [← eq] at law; exact law
  · intro x hx refill
    change x ∈ others ++ [{ e with count := e.count + 1 }] at hx
    have law := h.refills running
    rcases List.mem_append.mp hx with hx | hx
    · rcases shape with ⟨map, -⟩ | ⟨-, -, -, -, others', -⟩
      · exact law x (by rw [map]; exact List.mem_append_left _ hx) refill
      · rw [others'] at hx
        obtain ⟨y, hy, rfl⟩ := List.mem_map.mp hx
        change (closeSegment y).state = .refilling at refill
        have := law y hy ((closeSegment_keeps y).2.2.2.2.mp refill)
        change _ ∧ ∃ (c : ReplayContext) (r : Refill), _ ∧ _ ∧ r.q = (closeSegment y).q ∧ _
        rw [(closeSegment_keeps y).2.1]; exact this
    · rw [List.mem_singleton.mp hx] at refill
      change e.state = _ at refill
      rw [st] at refill; cases refill
  · intro z
    change { top with records := top.records + 1 } :: rest = [] at z
    cases z
  · change s.portStopped = true at w
    rw [running] at w; cases w
  · have := (h.bypass m).1
    rw [stack] at this; cases this

/-! ### Positions and waiting requests (R12 to R14) -/

theorem State.mapLaw.mono {k' : Nat} {s : State} (h : s.mapLaw k) (le : k ≤ k') : s.mapLaw k' :=
  ⟨h.pool, h.present, h.entries, h.newest, h.rising, fun e he => ⟨(h.ages e he).1, (h.ages e he).2.trans le⟩⟩

theorem State.lawful.mono {k' : Nat} {s : State} (h : s.lawful k) (le : k ≤ k') : s.lawful k' :=
  ⟨h.path, h.map.mono le, h.spans, h.reads, h.refills, h.gate, h.zero, h.stop, h.bypass, h.still⟩

/-- The stack is not empty, and the part runs outside a walk, while a slot is in a stage other than DISCARD and reads no more. -/
theorem slot_runs {i : Fin 8} {sl : Slot} {s : State} (h : s.lawful k) (hs : s.capture.slots[i] = some sl)
    (stage : sl.stage ≠ .discard) (running : s.portStopped = false) :
    (∃ top rest, s.epochs.stack = top :: rest) ∧ ¬ (s.epochs.walks ∨ s.epochs.controller = .stopped) := by
  refine ⟨?_, slot_out h hs running⟩
  cases hst : s.epochs.stack with
  | nil => exact absurd ((h.zero hst).2.2.2 _ sl hs) stage
  | cons top rest => exact ⟨top, rest, rfl⟩

theorem takePlace_withWaiting (r : AppendRequest) (e : Segment) (ws : List AppendRequest) (s : State) :
    takePlace r e (s.withWaiting ws) = (takePlace r e s).withWaiting ws := by
  unfold takePlace countPosition
  change (match s.epochs.stack with | [] => _ | e :: rest => _) = (match s.epochs.stack with | [] => _ | e :: rest => _ : State).withWaiting ws
  cases s.epochs.stack <;> rfl

theorem givePosition_withWaiting (r : AppendRequest) (ws : List AppendRequest) (s : State) :
    givePosition r (s.withWaiting ws) = (givePosition r s).withWaiting ws := by
  have alloc : allocate (s.withWaiting ws) = (allocate s).withWaiting ws := by
    unfold allocate
    change (match s.journal.free with | [] => _ | p :: rest => _) = (match s.journal.free with | [] => _ | p :: rest => _ : State).withWaiting ws
    cases s.journal.free <;> rfl
  have branch : (if (s.withWaiting ws).fillingHasRoom then s.withWaiting ws else allocate (s.withWaiting ws)) =
      (if s.fillingHasRoom then s else allocate s).withWaiting ws := by
    change (if s.fillingHasRoom = true then _ else _) = _
    rw [alloc]; split <;> rfl
  unfold givePosition
  simp only
  rw [branch]
  generalize (if s.fillingHasRoom = true then s else allocate s) = u
  change (match u.filling with | none => _ | some e => _) = (match u.filling with | none => _ | some e => _ : State).withWaiting ws
  cases u.filling with
  | none => rfl
  | some e => exact takePlace_withWaiting r e ws u

/-- R12, R13: a request of a slot that reads or waits is given a position. -/
theorem givePosition_lawful {r : AppendRequest} {s : State} {sl : Slot} (h : s.lawful k) (small : k + 1 < 2 ^ 32)
    (running : s.portStopped = false) (hs : s.capture.slots[r.slot] = some sl) (entry : sl.entry = r.entry)
    (stage : sl.stage = .read ∨ sl.stage = .space) (out : ∀ w ∈ s.journal.waiting, w.slot ≠ r.slot)
    (positions : s.positionExists = true) : (givePosition r s).lawful (k + 1) := by
  obtain ⟨⟨top, rest, stack⟩, outside⟩ := slot_runs h hs (by rcases stage with h | h <;> rw [h] <;> decide) running
  refine gives_lawful h small (givePosition_gives h.map positions stack) ?_ running outside
  have := givePosition_pathLaw (r := r) (ws := s.journal.waiting) (s := s) (h.path.congr rfl rfl rfl rfl rfl rfl rfl) hs entry
    (by rcases stage with h | h <;> rw [h] <;> decide) out
  exact this.congr rfl rfl rfl rfl rfl givePosition_waiting rfl

/-- A change of the waiting requests of a running part. -/
theorem withWaiting_lawful {s : State} {ws : List AppendRequest} (h : s.lawful k) (running : s.portStopped = false)
    (path : (s.withWaiting ws).pathLaw) : (s.withWaiting ws).lawful k :=
  h.beside path rfl rfl rfl rfl rfl rfl rfl rfl rfl rfl h.gate h.zero
    fun w => by change s.portStopped = true at w; rw [running] at w; cases w

theorem givePosition_service (r : AppendRequest) (s : State) : (givePosition r s).service = s.service := by
  unfold givePosition
  simp only
  generalize hu : (if s.fillingHasRoom = true then s else allocate s) = u
  have : u.service = s.service := by
    rw [← hu]; split
    · rfl
    · unfold allocate; split <;> rfl
  rw [← this]
  cases u.filling with
  | none => rfl
  | some e =>
    simp only [takePlace, countPosition]
    split <;> rfl

theorem portStopped_service {s t : State} (h : t.service = s.service) : t.portStopped = s.portStopped := by
  simp only [State.portStopped, h]

theorem serveAppends_lawful : ∀ (rs : List AppendRequest) (k : Nat) (s : State), (s.withWaiting rs).lawful k →
    k + rs.length < 2 ^ 32 → s.portStopped = false → (serveAppends rs s).lawful (k + rs.length) := by
  intro rs
  induction rs with
  | nil => intro k s h _ _; exact h
  | cons r rest ih =>
    intro k s h small running
    rw [List.length_cons] at small
    unfold serveAppends
    split
    · rename_i positions
      obtain ⟨nodup, all⟩ := h.path.waits
      change ((r :: rest).map (·.slot)).Nodup at nodup
      rw [List.map_cons, List.nodup_cons] at nodup
      have out : ∀ w ∈ rest, w.slot ≠ r.slot := fun w hw e => nodup.1 (e ▸ List.mem_map_of_mem hw)
      obtain ⟨sl, a, b, c⟩ := all r List.mem_cons_self
      have law : (s.withWaiting rest).lawful k := withWaiting_lawful (s := s.withWaiting (r :: rest)) (ws := rest) h running
        ⟨h.path.names, h.path.path, h.path.writes, ⟨nodup.2, fun w hw => all w (List.mem_cons_of_mem _ hw)⟩, h.path.appends⟩
      have next := givePosition_lawful (r := r) (s := s.withWaiting rest) law (by omega) running a c (.inr b) out positions
      rw [givePosition_withWaiting] at next
      have := ih (k + 1) (givePosition r s) next (by omega) ((portStopped_service (givePosition_service r s)).trans running)
      rw [show k + 1 + rest.length = k + (r :: rest).length by simp; omega] at this
      exact this
    · exact h.mono (by omega)

theorem waiting_le {s : State} (h : s.pathLaw) : s.journal.waiting.length ≤ 8 := by
  have := h.waits.1.length_le_card
  simpa using this

/-- R7, R14: what freeing segments does while no request waits. -/
theorem freeSegments_idle {ps : List Phys} {s : State} (h : s.journal.waiting = []) :
    freeSegments ps s = s.setJournal { s.journal with free := s.journal.free ++ ps } := by
  unfold freeSegments serveWaiting
  simp only [State.setJournal_journal, h, serveAppends]
  rfl

/-- R7, R14: segments join the free list. -/
theorem freeSegments_lawful {ps : List Phys} {s : State}
    (h : (s.setJournal { s.journal with free := s.journal.free ++ ps }).lawful k) (small : k + 8 < 2 ^ 32) :
    (freeSegments ps s).lawful (k + 8) := by
  have le := waiting_le h.path
  change s.journal.waiting.length ≤ 8 at le
  cases running : s.portStopped with
  | false =>
    have := serveAppends_lawful s.journal.waiting k (s.setJournal { s.journal with free := s.journal.free ++ ps }) h (by omega) running
    exact this.mono (by omega)
  | true =>
    have idle : s.journal.waiting = [] := (h.stop running).2.1
    rw [freeSegments_idle idle]
    exact h.mono (by omega)

/-- R12, R48: an append request of a slot in stage READ. -/
theorem appendRequest_lawful {r : AppendRequest} {s : State} {sl : Slot} (h : s.lawful k) (small : k + 1 < 2 ^ 32)
    (hs : s.capture.slots[r.slot] = some sl) (entry : sl.entry = r.entry) (stage : sl.stage = .read) :
    (appendRequest r s).lawful (k + 1) := by
  have running : s.portStopped = false := by
    cases hp : s.portStopped with
    | false => rfl
    | true => exact absurd stage ((h.stop hp).2.2 _ sl hs)
  unfold appendRequest
  split
  · rename_i free
    simp only [Bool.and_eq_true, List.isEmpty_iff] at free
    exact givePosition_lawful h small running hs entry (.inl stage) (by rw [free.1]; simp) free.2
  · exact (waitForSpace_lawful h hs entry stage).mono (by omega)

/-! ### The end of a capture read, and of a record write (R48 to R50, R56, R57, R59) -/

/-- A slot of another stage than SPACE and APPEND can be emptied. -/
theorem emptySlot_pathLaw {i : Fin 8} {sl : Slot} {s : State} (h : s.pathLaw) (hs : s.capture.slots[i] = some sl)
    (space : sl.stage ≠ .space) (append : sl.stage = .append → i ∉ s.journal.ops.filterMap PortOp.appendSlot) :
    (setSlot i none s).pathLaw := by
  refine setSlot_none_pathLaw h (fun r hr e => ?_) fun hi => ?_
  · obtain ⟨x, a, b, -⟩ := h.waits.2 r hr
    have a' : s.capture.slots[i] = some x := slots_at e a
    rw [hs] at a'; cases a'; exact space b
  · obtain ⟨x, a, b⟩ := h.appends.2 i hi
    rw [hs] at a; cases a; exact append b hi

theorem freeSlot_service (i : Fin 8) (s : State) : (freeSlot i s).service = s.service := (freeSlot_carried i s).path.service
theorem freeSlot_epochs (i : Fin 8) (s : State) : (freeSlot i s).epochs = s.epochs := (freeSlot_carried i s).path.epochs

/-- R50, R57, R59: a slot is freed and its entry goes to issue. -/
theorem freeAndIssue_lawful {i : Fin 8} {sl : Slot} {s : State} (h : s.lawful k) (running : s.portStopped = false)
    (hs : s.capture.slots[i] = some sl) (space : sl.stage ≠ .space)
    (append : sl.stage = .append → i ∉ s.journal.ops.filterMap PortOp.appendSlot) :
    (goToIssue sl.entry (freeSlot i s)).lawful k := by
  have out := slot_out h hs running
  have path := emptySlot_pathLaw h.path hs space append
  refine goToIssue_lawful (freeSlot_lawful (setSlot_none_lawful h path) running out)
    ((freeSlot_onPath path.path).2 _ (setSlot_none_nowhere h.path.path hs)) (.inl ?_)
  rw [freeSlot_epochs]; exact out

/-- R48, R56, R59: a capture read ends. -/
theorem captureReadEnds_lawful {i : Fin 8} {data : Option (List Word)} {s : State} (h : s.lawful k) (small : k + 1 < 2 ^ 32) :
    (captureReadEnds i data s).lawful (k + 1) := by
  unfold captureReadEnds
  split
  · exact h.mono (by omega)
  · rename_i sl hs
    split
    · rename_i ws stage
      unfold captureAppend
      generalize hu : useFresh Config.lineBytes (wordsBytes ws).length s = u
      have lawU : u.lawful k := by subst hu; exact h.of (parts_useFresh _ _ _)
      have slotU : u.capture.slots[i] = some sl := by
        have : u.capture = s.capture := by subst hu; unfold useFresh; split <;> rfl
        rw [this]; exact hs
      have running : u.portStopped = false := by
        cases hp : u.portStopped with
        | false => rfl
        | true => exact absurd stage ((lawU.stop hp).2.2 _ sl slotU)
      obtain ⟨⟨top, rest, stack⟩, -⟩ := slot_runs lawU slotU (by rw [stage]; decide) running
      let new : Slot := { sl with data := some (fitBytes Config.lineBytes (wordsBytes ws) s) }
      have path : (setSlot i (some new) u).pathLaw := storeData_pathLaw lawU.path slotU
      have law : (setSlot i (some new) u).lawful k :=
        lawU.beside path rfl rfl rfl rfl rfl rfl rfl rfl rfl rfl lawU.gate
          (fun z => by change u.epochs.stack = [] at z; rw [stack] at z; cases z)
          fun w => by change u.portStopped = true at w; rw [running] at w; cases w
      exact appendRequest_lawful (sl := new) law small (by simp [setSlot, new]) rfl stage
    · rename_i stage
      unfold captureFails
      have running : s.portStopped = false := by
        cases hp : s.portStopped with
        | false => rfl
        | true => exact absurd stage ((h.stop hp).2.2 _ sl hs)
      have path := emptySlot_pathLaw h.path hs (by rw [stage]; decide) (by rw [stage]; intro e; cases e)
      have nowhere := setSlot_none_nowhere h.path.path hs
      have past : placesOf ((setSlot i none s).stateOf sl.entry) = (0, 0, 1) :=
        (slot_places h.path.path hs (by rw [stage]; decide) : placesOf (s.stateOf sl.entry) = _)
      have law := answer_lawful (setSlot_none_lawful h path) nowhere past true .capFault []
      have out := slot_out h hs running
      exact (freeSlot_lawful (s := answer sl.entry true .capFault [] s) law running out).mono (by omega)
    · rename_i stage
      unfold discardEnds
      split
      · exact h.mono (by omega)
      · rename_i running
        exact (freeAndIssue_lawful h (by simpa using running) hs (by rw [stage]; decide) (by rw [stage]; intro e; cases e)).mono
          (by omega)
    · exact h.mono (by omega)

/-! ### The journal port (R15, R20, R50, R57, R89) -/

theorem dropPort_lawful {p : Fin 8} {s : State} (h : s.lawful k) : (dropPort p s).lawful k := by
  have sub : (dropPort p s).journal.ops.Sublist s.journal.ops :=
    List.Sublist.append (List.Sublist.refl _) ((List.filter_sublist).map _)
  refine ⟨dropPort_pathLaw h.path, ⟨h.map.pool, h.map.present, h.map.entries, h.map.newest, h.map.rising, h.map.ages⟩,
    fun run => (h.spans run).same rfl rfl rfl rfl,
    fun run => ?_, h.refills, h.gate, h.zero, h.stop, h.bypass, h.still⟩
  have law := h.reads run
  exact ⟨((sub.filterMap _).length_le).trans law.1, fun n hn => law.2 n ((sub.filterMap _).subset hn)⟩

theorem insertMark_lawful {l : Line} {s : State} (h : s.lawful k) (open' : s.epochs.stack ≠ [])
    (out : ¬ (s.epochs.walks ∨ s.epochs.controller = .stopped)) : (insertMark l s).lawful k := by
  have path := insertMark_pathLaw (l := l) h.path
  unfold insertMark at path ⊢
  split
  · exact h
  · rename_i new
    rw [if_neg new] at path
    split
    · rename_i room
      rw [if_pos room] at path
      exact h.beside path rfl rfl rfl rfl rfl rfl rfl rfl rfl rfl (fun w => absurd w out) (fun z => absurd z open') h.stop
    · rename_i room
      rw [if_neg room] at path
      exact h.beside path rfl rfl rfl rfl rfl rfl rfl rfl rfl rfl (fun w => absurd w out) (fun z => absurd z open') h.stop

theorem service_post (n : Option EpochNo) (kind : EventKind) (s : State) :
    (post n kind s).service.coreReset = s.service.coreReset := by unfold post; split <;> rfl

theorem breakTop_service (r : BrokenReason) (s : State) : (breakTop r s).portStopped = s.portStopped := by
  cases hst : s.epochs.stack with
  | nil => simp only [breakTop, hst]
  | cons e rest =>
    by_cases opened : e.broken = none
    · rw [breakTop_open hst opened]
      unfold State.portStopped
      rw [(brokenNotice_path _).service, State.setSpace_service, State.setJournal_service, service_post]
      rfl
    · simp only [breakTop, hst, if_neg opened]

/-- R15, R50, R57: a record write completes. -/
theorem recordWriteEnds_lawful {p : Fin 8} {st : Status} {s : State} (h : s.lawful k) : (recordWriteEnds p st s).lawful k := by
  unfold recordWriteEnds; split
  · rename_i i seg place n q record op
    obtain ⟨was, out⟩ := dropPort_ends h.path.appends op
    have law : (landWrite (recordAddress seg place) record st (dropPort p s)).lawful k :=
      (dropPort_lawful h).of (parts_landWrite _ _ _ _)
    generalize hu : landWrite (recordAddress seg place) record st (dropPort p s) = u at law ⊢
    have frame : u.capture = s.capture ∧ u.journal.ops = (dropPort p s).journal.ops ∧ u.portStopped = s.portStopped := by
      subst hu; cases st <;> exact ⟨rfl, rfl, rfl⟩
    obtain ⟨sl, held, stage⟩ := h.path.appends.2 i was
    have heldU : u.capture.slots[i] = some sl := by rw [frame.1]; exact held
    have outU : i ∉ u.journal.ops.filterMap PortOp.appendSlot := by rw [frame.2.1]; exact out
    simp only
    split
    · exact law
    · rename_i running
      have running : u.portStopped = false := by rw [frame.2.2]; simpa using running
      obtain ⟨⟨top, rest, stack⟩, outside⟩ := slot_runs law heldU (by rw [stage]; decide) running
      split
      · unfold appendOk
        rw [heldU]
        simp only
        have cap : (insertMark sl.line u).capture.slots = u.capture.slots ∧ (insertMark sl.line u).journal = u.journal ∧
            (insertMark sl.line u).portStopped = u.portStopped := by
          unfold insertMark; split
          · exact ⟨rfl, rfl, rfl⟩
          · split <;> exact ⟨rfl, rfl, rfl⟩
        exact freeAndIssue_lawful (insertMark_lawful law (by rw [stack]; simp) outside) (by rw [cap.2.2]; exact running)
          (by rw [cap.1]; exact heldU) (by rw [stage]; decide) (fun _ => by rw [cap.2.1]; exact outU)
      · unfold appendFault
        rw [heldU]
        simp only
        have lawV := law.of (parts_post u.topNumber (.journalFault n seg) u)
        refine freeAndIssue_lawful (breakTop_lawful lawV) (by
          rw [breakTop_service]; unfold State.portStopped; rw [service_post]; exact running)
          (breakTop_slot (by rw [post_capture]; exact heldU) stage) (by rw [stage]; decide) (fun _ => ?_)
        rw [breakTop_ops, post_journal]; exact outU
  · exact h

/-- R89: a block transfer ends. -/
theorem blockReadEnds_lawful {p : Fin 8} {st : Status} {d : PortData} {s : State} (h : s.lawful k) :
    (blockReadEnds p st d s).lawful k := by
  unfold blockReadEnds; split
  · have law := (dropPort_lawful (p := p) h).of (parts_usePortFresh Config.blockBytes d (dropPort p s))
    simp only
    split
    · exact law
    · exact law.of (parts_respond _ _)
  · exact h

theorem blockWriteEnds_lawful {p : Fin 8} {st : Status} {s : State} (h : s.lawful k) : (blockWriteEnds p st s).lawful k := by
  unfold blockWriteEnds; split
  · rename_i seg block data _
    have law := (dropPort_lawful (p := p) h).of (parts_landWrite (blockAddress seg block) data st (dropPort p s))
    simp only
    split
    · exact law
    · exact law.of (parts_respond _ _)
  · exact h

/-- A change of the service side and of what was granted last. -/
theorem State.lawful.port {s : State} {j : JournalUnit} (h : s.lawful k) (map : j.map = s.journal.map)
    (free : j.free = s.journal.free) (nextSeq : j.nextSeq = s.journal.nextSeq) (nextQ : j.nextQ = s.journal.nextQ)
    (waiting : j.waiting = s.journal.waiting) (ops : j.ops.Perm s.journal.ops)
    (queue : s.journal.engineQueue = [] → j.engineQueue = []) : (s.setJournal j).lawful k := by
  refine ⟨⟨h.path.names, h.path.path, h.path.writes, ?_, ?_⟩, h.map.same map free nextQ rfl,
    fun p => (h.spans p).same map nextSeq rfl rfl, fun p => ?_, fun p => ?_, h.gate, ?_, fun w => ?_, h.bypass, h.still⟩
  · have := h.path.waits
    simp only [State.waitsInSlots, State.setJournal_journal, State.setJournal_capture, waiting] at this ⊢; exact this
  · have law := h.path.appends
    refine ⟨(ops.filterMap _).nodup_iff.mpr law.1, fun i hi => law.2 i ((ops.filterMap _).mem_iff.mp hi)⟩
  · have law := h.reads p
    refine ⟨?_, fun n hn => law.2 n ((ops.filterMap _).mem_iff.mp hn)⟩
    have := (ops.filterMap PortOp.readSeq).length_eq
    rw [State.setJournal_journal, this]; exact law.1
  · have := h.refills p
    simp only [State.refillLaw, State.setJournal_journal, map] at this ⊢; exact this
  · have := h.zero
    simp only [State.zeroLaw, State.setJournal_journal, map] at this ⊢; exact this
  · obtain ⟨a, b, c⟩ := h.stop w
    exact ⟨queue a, waiting.trans b, c⟩

theorem ops_blocks {s : State} {j : JournalUnit} (h : s.lawful k) (map : j.map = s.journal.map)
    (free : j.free = s.journal.free) (nextSeq : j.nextSeq = s.journal.nextSeq) (nextQ : j.nextQ = s.journal.nextQ)
    (waiting : j.waiting = s.journal.waiting) (queue : j.engineQueue = s.journal.engineQueue)
    (appends : j.ops.filterMap PortOp.appendSlot = s.journal.ops.filterMap PortOp.appendSlot)
    (reads : j.ops.filterMap PortOp.readSeq = s.journal.ops.filterMap PortOp.readSeq) : (s.setJournal j).lawful k :=
  h.beside (setJournal_pathLaw h.path waiting appends) rfl rfl rfl rfl rfl map free nextSeq nextQ reads h.gate
    (fun z => by
      obtain ⟨a, b⟩ := h.zero z
      exact ⟨map.trans a, b⟩)
    fun w => by
      obtain ⟨a, b, c⟩ := h.stop w
      exact ⟨queue.trans a, waiting.trans b, c⟩

/-- R20, R21: the arbiter grants an operation. -/
theorem arbitrate_lawful {s : State} (h : s.lawful k) : (arbitrate s).lawful k := by
  have engine : ∀ p, (grantEngine p s).lawful k := fun p => by
    unfold grantEngine; split
    · exact h
    · rename_i op rest hq
      refine h.port (j := _) rfl rfl rfl rfl rfl ?_ fun e => by rw [hq] at e; cases e
      simp only [JournalUnit.ops, hq, State.setJournal_journal, List.map_append, List.map_cons, List.map_nil]
      rw [List.cons_append, ← List.append_assoc]
      exact (List.perm_append_singleton op _)
  have service : ∀ p, (grantService p s).lawful k := fun p => by
    unfold grantService; split
    · exact h
    · rename_i op _
      have taken : (s.setJournal { s.journal with serviceSide := none }).lawful k := h.of rfl
      simp only
      split
      · rename_i block
        have no : PortOp.appendSlot op = none ∧ PortOp.readSeq op = none := by
          cases op <;> simp [PortOp.blockSegment] at block <;> exact ⟨rfl, rfl⟩
        refine ops_blocks (s := s) h (j := _) rfl rfl rfl rfl rfl rfl ?_ ?_
        · simp [JournalUnit.ops, List.filterMap_append, no.1]
        · simp [JournalUnit.ops, List.filterMap_append, no.2]
      · exact taken.of (parts_respond _ _)
  unfold arbitrate
  split
  · exact h
  · split
    · exact h
    · rename_i p _
      split
      · exact service p
      · exact engine p
      · split
        · exact engine p
        · exact service p

end Sys2Proof.Machine
end

