-- ==== Sys2Proof/Laws/Walks.lean ====
section
/-! SUPPORT. The laws of the part inside a walk: recall, refill, record reads, restores and failure. -/

namespace Sys2Proof.Machine

variable {k : Nat}

/-! ### A lawful state in a walk -/

/-- What a closed gate leaves of the capture unit: nothing. -/
theorem closed_empty {s : State} (h : s.pathLaw) (closed : s.gateClosed) : s.journal.waiting = [] ∧ s.capture.slotQueue = [] ∧
    ∀ (i : Fin 8), s.capture.slots[i] = none := by
  have nowhere := gateClosed_nowhere h.path closed
  have slots : ∀ (i : Fin 8), s.capture.slots[i] = none := fun i => by
    cases hs : s.capture.slots[i] with
    | none => rfl
    | some sl =>
      have n := nowhere sl.entry
      have a := inSlots_setSlot true sl.entry i none s
      have b := inSlots_setSlot false sl.entry i none s
      simp only [hs, Option.any_some, beq_self_eq_true, Bool.true_and, Option.any_none, Bool.false_eq_true, if_false,
        Nat.add_zero, n.2.1, n.2.2.1] at a b
      cases hst : (sl.stage == SlotStage.space) <;> simp [hst] at a b
  refine ⟨?_, ?_, slots⟩
  · rw [List.eq_nil_iff_forall_not_mem]
    intro r hr
    obtain ⟨sl, a, -⟩ := h.waits.2 r hr
    rw [slots] at a; cases a
  · rw [List.eq_nil_iff_forall_not_mem]
    intro id hid
    have := (nowhere id).1
    rw [State.inSlotQueue, List.count_eq_zero] at this
    exact this hid

/-- A lawful state in a walk (R26), with its replay context `c`, the start `b` of the outermost epoch and the end `e` of the map. -/
structure Walk (k : Nat) (s : State) (c : ReplayContext) (b e : Seq) : Prop where
  law : s.lawful k
  walks : s.epochs.walks
  run : s.service.coreReset = none
  context : s.replay.context = some c
  last : s.epochs.stack.getLast?.map (·.start) = some b
  top : s.epochs.stack.head?.map (·.start) = some c.start
  span : s.spanTo b e
  walk : s.walkTo c b e

theorem State.lawful.inWalk {s : State} (h : s.lawful k) (w : s.epochs.walks) (run : s.service.coreReset = none) :
    ∃ c b e, Walk k s c b e := by
  obtain ⟨closed, -, stack⟩ := (h.gate (.inl w)).1 run
  obtain ⟨b, hb⟩ : ∃ b, s.epochs.stack.getLast? = some b := by
    cases hl : s.epochs.stack.getLast? with
    | none => rw [List.getLast?_eq_none_iff] at hl; exact absurd hl stack
    | some b => exact ⟨b, rfl⟩
  obtain ⟨e, span, -, walk⟩ := h.spans (coreReset_none_running run) b hb
  obtain ⟨c, top, rest, a, st, d, wk⟩ := walk w
  exact ⟨c, b.start, e, h, w, run, a, by rw [hb]; rfl, by rw [st, d]; rfl, span, wk⟩

namespace Walk

variable {s : State} {c : ReplayContext} {b e : Seq}

theorem closed (W : Walk k s c b e) : s.gateClosed := ((W.law.gate (.inl W.walks)).1 W.run).1
theorem marks (W : Walk k s c b e) : s.capture.marks = [] := ((W.law.gate (.inl W.walks)).1 W.run).2.1
theorem stack (W : Walk k s c b e) : s.epochs.stack ≠ [] := ((W.law.gate (.inl W.walks)).1 W.run).2.2
theorem running (W : Walk k s c b e) : s.portStopped = false := coreReset_none_running W.run
theorem idle (W : Walk k s c b e) : s.journal.waiting = [] := (closed_empty W.law.path W.closed).1
theorem active (W : Walk k s c b e) : s.service.mode ≠ .bypass := fun m => W.stack (W.law.bypass m).1

/-- What a change inside a walk keeps. -/
theorem of {t : State} {c' : ReplayContext} {k' : Nat} {e' : Seq} (W : Walk k s c b e) (path : t.pathLaw) (map : t.mapLaw k')
    (coreReset : t.service.coreReset = s.service.coreReset) (mode : t.service.mode = s.service.mode)
    (stack : t.epochs.stack = s.epochs.stack) (walks : t.epochs.walks) (capture : t.capture = s.capture)
    (table : t.host.table = s.host.table) (context : t.replay.context = some c') (start : c'.start = c.start)
    (span : t.spanTo b e') (walk : t.walkTo c' b e') (reads : t.readsLaw) (refills : t.refillLaw) : Walk k' t c' b e' := by
  have run : t.service.coreReset = none := coreReset.trans W.run
  have spans : t.spanLaw := fun o ho => by
    rw [stack] at ho
    have eq : o.start = b := by have := W.last; rw [ho] at this; exact Option.some.inj this
    rw [eq]
    refine ⟨e', span, fun n => absurd walks n, fun _ => ?_⟩
    have top := W.top
    cases hst : s.epochs.stack with
    | nil => exact absurd hst W.stack
    | cons x xs =>
      rw [hst] at top
      exact ⟨c', x, xs, context, stack.trans hst, start.trans (Option.some.inj top).symm, walk⟩
  have stop : t.portStopped = false := coreReset_none_running run
  refine ⟨⟨path, map, fun _ => spans, fun _ => reads, fun _ => refills, fun _ => ⟨fun _ => ⟨?_, ?_, ?_⟩, fun r hr => ?_⟩,
    fun z => ?_, fun w => ?_, fun m => ?_, fun n => absurd walks n⟩, walks, run, context, by rw [stack]; exact W.last,
    by rw [stack, start]; exact W.top, span, walk⟩
  · have := W.closed
    simp only [State.gateClosed, State.stateOf, State.entry, table] at this ⊢; exact this
  · rw [capture]; exact W.marks
  · rw [stack]; exact W.stack
  · rw [run] at hr; cases hr
  · rw [stack] at z; exact absurd z W.stack
  · rw [stop] at w; cases w
  · rw [mode] at m; exact absurd m W.active

/-- A change the laws do not speak of. -/
theorem congr {t : State} (W : Walk k s c b e) (same : t.parts = s.parts) : Walk k t c b e := by
  have law := W.law.of same
  simp only [State.parts, Prod.mk.injEq] at same
  obtain ⟨⟨table, sent, capture, memIf⟩, ⟨epochs, context, coreReset, mode, nseg⟩, ⟨map, free, nextSeq, nextQ⟩,
    waiting, queue, outstanding⟩ := same
  have segment : ∀ q, t.segment q = s.segment q := fun q => by simp only [State.segment, map]
  refine ⟨law, by rw [epochs]; exact W.walks, coreReset.trans W.run, context.trans W.context, by rw [epochs]; exact W.last,
    by rw [epochs]; exact W.top, ⟨?_, ?_, ?_, ?_, ?_⟩, ⟨W.walk.start, W.walk.next, W.walk.read, W.walk.held, W.walk.restores,
    W.walk.failure, ?_, ?_, ?_, W.walk.refills⟩⟩
  · rw [map]; exact W.span.runs
  · rw [nextSeq]; exact W.span.ends
  · rw [nextSeq]; exact W.span.room
  · rw [epochs, nextSeq]; exact W.span.starts
  · rw [epochs]; exact W.span.nested
  · simp only [segment]; exact W.walk.refill
  · rw [epochs]; exact W.walk.waits
  · simp only [State.segmentOf, map]; exact W.walk.current

/-- Another context. -/
theorem setContext {c' : ReplayContext} (W : Walk k s c b e) (start : c'.start = c.start) (walk : s.walkTo c' b e)
    (reads : ∀ n ∈ s.journal.ops.filterMap PortOp.readSeq, c'.read = some n)
    (refills : ∀ x ∈ s.journal.map, x.state = .refilling → ∃ r, c'.refill = some r ∧ r.q = x.q ∧ c'.failure = none) :
    Walk k (setContext (some c') s) c' b e := by
  refine W.of (setContext_pathLaw W.law.path) (W.law.map.same rfl rfl rfl rfl) rfl rfl rfl W.walks rfl rfl rfl start
    ⟨W.span.runs, W.span.ends, W.span.room, W.span.starts, W.span.nested⟩
    ⟨walk.start, walk.next, walk.read, walk.held, walk.restores, walk.failure, walk.refill, walk.waits, walk.current, walk.refills⟩
    ⟨(W.law.reads W.running).1, fun n hn => ⟨W.walks, c', rfl, reads n hn⟩⟩ fun x hx st => ?_
  obtain ⟨r, a, d, f⟩ := refills x hx st
  exact ⟨(W.law.refills W.running x hx st).1, c', r, rfl, a, d, f⟩

theorem reads (W : Walk k s c b e) : ∀ n ∈ s.journal.ops.filterMap PortOp.readSeq, c.read = some n := fun n hn => by
  obtain ⟨-, c', h, r⟩ := (W.law.reads W.running).2 n hn
  rw [W.context] at h
  rw [Option.some.inj h]; exact r

theorem refills (W : Walk k s c b e) : ∀ x ∈ s.journal.map, x.state = .refilling →
    s.epochs.controller = .refillWait ∧ ∃ r, c.refill = some r ∧ r.q = x.q ∧ c.failure = none := fun x hx st => by
  obtain ⟨w, c', r, h, a⟩ := W.law.refills W.running x hx st
  rw [W.context] at h
  rw [Option.some.inj h]; exact ⟨w, r, a⟩

/-- R27, R28: the walk is left with the gate closed, or opened at its release. -/
theorem small (W : Walk k s c b e) : Seq.after b e ≤ 838656 ∧ Seq.after b s.journal.nextSeq ≤ 838656 :=
  ⟨W.span.ends.trans W.span.room, W.span.room⟩

end Walk

/-! ### Entries of the map -/

/-- R9: the logical numbers tell the entries apart. -/
theorem map_split {s : State} {q : SegNo} {e : Segment} (h : s.mapLaw k) (he : s.segment q = some e) :
    ∃ l r, s.journal.map = l ++ e :: r ∧ e.q = q ∧ (∀ x ∈ l, x.q ≠ q) ∧ (∀ x ∈ r, x.q ≠ q) ∧
      ∀ f : Segment → Segment, (s.journal.map.map fun x => if x.q = q then f x else x) = l ++ f e :: r := by
  have mem := List.mem_of_find?_eq_some he
  have eq : e.q = q := by have := List.find?_some he; simpa using this
  obtain ⟨l, r, hm⟩ := List.append_of_mem mem
  have rising := h.rising
  rw [hm, List.pairwise_append, List.pairwise_cons] at rising
  have left : ∀ x ∈ l, x.q ≠ q := fun x hx c => by
    have := rising.2.2 x hx e List.mem_cons_self
    rw [c, eq] at this; exact absurd this (lt_irrefl _)
  have right : ∀ x ∈ r, x.q ≠ q := fun x hx c => by
    have := rising.2.1.1 x hx
    rw [c, eq] at this; exact absurd this (lt_irrefl _)
  refine ⟨l, r, hm, eq, left, right, fun f => ?_⟩
  rw [hm, List.map_append, List.map_cons, if_pos eq]
  congr 1
  · conv_rhs => rw [← List.map_id l]
    exact List.map_congr_left fun x hx => if_neg (left x hx)
  · congr 1
    conv_rhs => rw [← List.map_id r]
    exact List.map_congr_left fun x hx => if_neg (right x hx)

/-- The map under a change of its entries that keeps their logical numbers. -/
theorem mapLaw_map {s t : State} {F : Segment → Segment} (h : s.mapLaw k) (map : t.journal.map = s.journal.map.map F)
    (nextQ : t.journal.nextQ = s.journal.nextQ) (number : ∀ x, (F x).q = x.q)
    (present : ∀ x ∈ s.journal.map, (F x).physical = none ↔ (F x).state = .spilled)
    (filling : ∀ x ∈ s.journal.map.dropLast, (F x).state = .filling → x.state = .filling)
    (pool : (t.journal.free ++ (s.journal.map.map F).filterMap Segment.physical).Perm
      ((List.range t.service.params.nseg).map (BitVec.ofNat 8))) : t.mapLaw k := by
  have age : ∀ q, t.age q = s.age q := fun q => by simp only [State.age, nextQ]
  refine ⟨by rw [map]; exact pool, ?_, ?_, ?_, ?_, ?_⟩
  · rw [map]; intro x hx
    obtain ⟨y, hy, rfl⟩ := List.mem_map.mp hx
    exact present y hy
  · rw [map, List.length_map]; exact h.entries
  · rw [map, ← List.map_dropLast]; intro x hx
    obtain ⟨y, hy, rfl⟩ := List.mem_map.mp hx
    exact fun st => h.newest y hy (filling y hy st)
  · rw [map, List.pairwise_map]
    simp only [age, number]; exact h.rising
  · rw [map]; intro x hx
    obtain ⟨y, hy, rfl⟩ := List.mem_map.mp hx
    rw [age, number]; exact h.ages y hy

theorem segment_map {s t : State} {F : Segment → Segment} (map : t.journal.map = s.journal.map.map F)
    (number : ∀ x, (F x).q = x.q) (q : SegNo) : t.segment q = (s.segment q).map F := by
  simp only [State.segment, map, List.find?_map]
  congr 2
  funext x
  simp only [Function.comp_apply, number]

theorem segmentOf_map {s t : State} {F : Segment → Segment} (map : t.journal.map = s.journal.map.map F)
    (shape : ∀ x, (F x).first = x.first ∧ (F x).count = x.count) (n : Seq) : t.segmentOf n = (s.segmentOf n).map F := by
  simp only [State.segmentOf, map, List.find?_map]
  congr 2
  funext x
  simp only [Function.comp_apply, Segment.holds, shape]

/-- R65: entries that keep their numbers and records leave the current entry as it is. -/
theorem current_map {s t : State} {F : Segment → Segment} (map : t.journal.map = s.journal.map.map F)
    (number : ∀ x, (F x).q = x.q) (shape : ∀ x, (F x).first = x.first ∧ (F x).count = x.count) (next : Option Seq) :
    (next.bind fun n => t.segmentOf n).map (·.q) = (next.bind fun n => s.segmentOf n).map (·.q) := by
  cases next with
  | none => rfl
  | some n =>
    simp only [Option.bind_some, segmentOf_map map shape, Option.map_map]
    congr 1
    funext x
    exact number x

/-! ### Entries and what they cover -/

theorem segment_of_mem {s : State} {x : Segment} (h : s.mapLaw k) (hx : x ∈ s.journal.map) : s.segment x.q = some x := by
  cases hs : s.segment x.q with
  | none =>
    have := List.find?_eq_none.mp hs x hx
    simp at this
  | some y =>
    obtain ⟨l, r, hm, eq, left, right, -⟩ := map_split h hs
    rw [hm, List.mem_append, List.mem_cons] at hx
    rcases hx with hx | hx | hx
    · exact absurd rfl (left x hx)
    · rw [hx]
    · exact absurd rfl (right x hx)

theorem mem_of_segment {s : State} {q : SegNo} {x : Segment} (h : s.segment q = some x) : x ∈ s.journal.map ∧ x.q = q :=
  ⟨List.mem_of_find?_eq_some h, by have := List.find?_some h; simpa using this⟩

/-- R11: where an entry lies between the start and the end. -/
theorem covers_mem {b e : Seq} {m : List Segment} (h : covers b m e) (len : m.length ≤ 1024) {x : Segment} (hx : x ∈ m) :
    Seq.after b x.first + x.count ≤ Seq.after b e ∧ 1 ≤ x.count ∧ x.count ≤ 819 ∧
      Seq.after b x.last + 1 = Seq.after b x.first + x.count := by
  obtain ⟨l, r, rfl⟩ := List.append_of_mem hx
  have total := covers_end h len
  rw [covers_append] at h
  obtain ⟨c, a, first, lo, hi, d⟩ := h
  have sum : recordsOf (l ++ x :: r) = recordsOf l + (x.count + recordsOf r) := by
    simp [recordsOf, List.map_append, List.sum_append]
  have at' := covers_after (s := b) a (by rw [after_self]; omega)
  rw [after_self, Nat.zero_add, ← first] at at'
  refine ⟨by omega, lo, hi, ?_⟩
  have next := after_add (b := b) (n := x.first) (m := x.count - 1) (by omega)
  have last : x.last = x.first + BitVec.ofNat 32 (x.count - 1) := by
    unfold Segment.last
    have : x.count = (x.count - 1) + 1 := by omega
    conv_lhs => rw [this, BitVec.ofNat_add, ← BitVec.add_assoc]
    exact BitVec.add_sub_cancel _ _
  rw [last, next]; omega

/-- R11: an entry of the covered range holds `n` as its place says. -/
theorem covers_holds {b e : Seq} {m : List Segment} (h : covers b m e) (len : m.length ≤ 1024) {x : Segment} (hx : x ∈ m) {n : Seq}
    (hn : Seq.after b n ≤ 838656) :
    x.holds n = true ↔ Seq.after b x.first ≤ Seq.after b n ∧ Seq.after b n < Seq.after b x.first + x.count := by
  have mem := covers_mem h len hx
  have total := covers_end h len
  exact holds_after (by omega) (by omega) (by omega)

/-! ### A change of the states of entries -/

theorem State.lawful.mapped {s : State} {F : Segment → Segment} {fr : List Phys} (h : s.lawful k)
    (keeps : ∀ x, (F x).q = x.q ∧ (F x).first = x.first ∧ (F x).count = x.count)
    (present : ∀ x ∈ s.journal.map, (F x).physical = none ↔ (F x).state = .spilled)
    (filling : ∀ x ∈ s.journal.map, (F x).state = .filling → x.state = .filling)
    (refilling : ∀ x ∈ s.journal.map, (F x).state = .refilling → x.state = .refilling)
    (pool : (fr ++ (s.journal.map.map F).filterMap Segment.physical).Perm
      ((List.range s.service.params.nseg).map (BitVec.ofNat 8))) :
    (s.setJournal { s.journal with map := s.journal.map.map F, free := fr }).lawful k := by
  have number := fun x => (keeps x).1
  have segment := segment_map (s := s) (t := s.setJournal { s.journal with map := s.journal.map.map F, free := fr }) (F := F) rfl number
  refine ⟨setJournal_pathLaw h.path rfl rfl, mapLaw_map h.map (F := F) rfl rfl number present
    (fun x hx => filling x (List.mem_of_mem_dropLast hx)) pool, fun p o ho => ?_,
    h.reads, fun p x hx st => ?_, h.gate, fun z => ?_, h.stop, h.bypass, h.still⟩
  · obtain ⟨e, span, out, walk⟩ := h.spans p o ho
    refine ⟨e, ⟨(covers_map fun x => (keeps x).2).mpr span.runs, span.ends, span.room, span.starts, span.nested⟩, out, fun w => ?_⟩
    obtain ⟨c, top, rest, a, b', d, e'⟩ := walk w
    refine ⟨c, top, rest, a, b', d, ⟨e'.start, e'.next, e'.read, e'.held, e'.restores, e'.failure, fun r hr x hx => ?_, e'.waits,
      e'.current.trans (current_map (t := s.setJournal { s.journal with map := s.journal.map.map F, free := fr }) rfl number
        (fun x => (keeps x).2) _).symm, e'.refills⟩⟩
    rw [segment] at hx
    obtain ⟨y, hy, rfl⟩ := Option.map_eq_some_iff.mp hx
    have : (F y).last = y.last := by simp only [Segment.last, (keeps y).2]
    rw [this]; exact e'.refill r hr y hy
  · obtain ⟨y, hy, rfl⟩ := List.mem_map.mp hx
    have := h.refills p y hy (refilling y hy st)
    rw [number]; exact this
  · obtain ⟨a, rest⟩ := h.zero z
    exact ⟨by rw [State.setJournal_journal, a]; rfl, rest⟩

/-- Entries that keep their segments change their states. -/
theorem State.lawful.restated {s : State} {F : Segment → Segment} (h : s.lawful k)
    (keeps : ∀ x, (F x).q = x.q ∧ (F x).first = x.first ∧ (F x).count = x.count) (same : ∀ x, (F x).physical = x.physical)
    (spilled : ∀ x ∈ s.journal.map, (F x).state = .spilled ↔ x.state = .spilled)
    (filling : ∀ x ∈ s.journal.map, (F x).state = .filling → x.state = .filling)
    (refilling : ∀ x ∈ s.journal.map, (F x).state = .refilling → x.state = .refilling) :
    (setMap (s.journal.map.map F) s).lawful k := by
  refine h.mapped (fr := s.journal.free) keeps (fun x hx => ?_) filling refilling ?_
  · rw [same, spilled x hx]; exact h.map.present x hx
  · rw [List.filterMap_map]
    have : (Segment.physical ∘ F) = Segment.physical := by funext x; exact same x
    rw [this]; exact h.map.pool

/-- One entry takes a state that leaves it its segment. -/
theorem updateState_lawful {s : State} {q : SegNo} {x : Segment} {st : SegState} (h : s.lawful k) (hx : s.segment q = some x)
    (was : x.state ≠ .spilled) (now : st = .filled ∨ st = .lent) :
    (updateSegment q (fun y => { y with state := st }) s).lawful k := by
  have only : ∀ y ∈ s.journal.map, y.q = q → y = x := fun y hy e => by
    have := segment_of_mem h.map hy
    rw [e, hx] at this
    exact (Option.some.inj this).symm
  refine h.restated (F := fun y => if y.q = q then { y with state := st } else y) (fun y => ?_) (fun y => ?_) (fun y hy => ?_)
    (fun y hy => ?_) fun y hy => ?_
  · split <;> exact ⟨rfl, rfl, rfl⟩
  · split <;> rfl
  · split
    · rename_i e
      rw [only y hy e]
      rcases now with rfl | rfl <;> simp [was]
    · rfl
  · split
    · rcases now with rfl | rfl <;> intro e <;> cases e
    · exact id
  · split
    · rcases now with rfl | rfl <;> intro e <;> cases e
    · exact id

/-- An entry with a segment gives it up, to the free list's tail. -/
theorem spillEntry_lawful {s : State} {q : SegNo} {x : Segment} (h : s.lawful k) (hx : s.segment q = some x) :
    ((updateSegment q (fun y => { y with state := .spilled, physical := none }) s).setJournal {
      (updateSegment q (fun y => { y with state := .spilled, physical := none }) s).journal with
        free := s.journal.free ++ x.physical.toList }).lawful k := by
  obtain ⟨l, r, hm, eq, left, right, split'⟩ := map_split h.map hx
  refine h.mapped (F := fun y => if y.q = q then { y with state := .spilled, physical := none } else y)
    (fr := s.journal.free ++ x.physical.toList) (fun y => ?_) (fun y hy => ?_) (fun y hy => ?_) (fun y hy => ?_) ?_
  · split <;> exact ⟨rfl, rfl, rfl⟩
  · split
    · simp
    · exact h.map.present y hy
  · split
    · intro e; cases e
    · exact id
  · split
    · intro e; cases e
    · exact id
  · rw [split' fun y => { y with state := .spilled, physical := none }]
    refine List.Perm.trans ?_ h.map.pool
    rw [hm]
    simp only [List.filterMap_append, List.filterMap_cons]
    rw [List.append_assoc]
    refine List.Perm.append_left _ ?_
    cases x.physical with
    | none => simp
    | some p => simp only [Option.toList_some, List.singleton_append]; exact List.perm_middle.symm

/-! ### Recall and refill (R72 to R75) -/

theorem walking_some {s : State} {ctl : Controller} {c : ReplayContext} (h : s.walking ctl = some c) :
    s.epochs.controller = ctl ∧ s.service.coreReset = none ∧ s.replay.context = some c ∧ c.failure = none := by
  unfold State.walking at h
  split at h
  · rename_i g
    obtain ⟨hc, hf⟩ := Option.filter_eq_some_iff.mp h
    exact ⟨g.1, g.2, hc, Option.isNone_iff_eq_none.mp hf⟩
  · cases h

/-- R74: a refill takes its segment. -/
theorem takeRefillSegment_lawful {s : State} (h : s.lawful k) : (takeRefillSegment s).lawful k := by
  unfold takeRefillSegment
  split
  · exact h
  · rename_i c hc
    obtain ⟨ctl, run, context, fine⟩ := walking_some hc
    obtain ⟨c', b, e, W⟩ := h.inWalk (.inr ctl) run
    obtain rfl : c' = c := by have := W.context; rw [context] at this; exact (Option.some.inj this).symm
    split
    · rename_i r p rest hr hfree
      split
      · rename_i noSegment
        split
        · exact h
        · rename_i x hx
          split
          · rename_i st
            obtain ⟨l, rs, hm, eq, left, right, split'⟩ := map_split h.map hx
            refine State.lawful.of ?_ (parts_post _ _ _)
            let F : Segment → Segment := fun y => if y.q = r.q then { y with state := .refilling, physical := some p } else y
            have number : ∀ y, (F y).q = y.q := fun y => by simp only [F]; split <;> rfl
            have shape : ∀ y, (F y).first = y.first ∧ (F y).count = y.count := fun y => by
              simp only [F]; split <;> exact ⟨rfl, rfl⟩
            have W' : Walk k (setContext (some { c' with refill := some { r with physical := some p } })
                (updateSegment r.q (fun y => { y with state := .refilling, physical := some p })
                  (s.setJournal { s.journal with free := rest }))) { c' with refill := some { r with physical := some p } } b e := by
              refine W.of (setContext_pathLaw (setMap_pathLaw (setJournal_pathLaw h.path rfl rfl)))
                (mapLaw_map h.map (F := F) rfl rfl number (fun y hy => ?_) (fun y hy => ?_) ?_) rfl rfl rfl (.inr ctl) rfl rfl rfl
                rfl ⟨(covers_map shape).mpr W.span.runs, W.span.ends, W.span.room, W.span.starts, W.span.nested⟩
                ⟨W.walk.start, W.walk.next, W.walk.read, W.walk.held, W.walk.restores, W.walk.failure, fun r' hr' y hy => ?_,
                  W.walk.waits, W.walk.current.trans (current_map (F := F) rfl number shape _).symm,
                  fun r' hr' => by cases hr'; exact W.walk.refills r hr⟩
                ⟨(h.reads W.running).1, fun n hn => ⟨.inr ctl, _, rfl, W.reads n hn⟩⟩ fun y hy st' => ⟨ctl, _, _, rfl, rfl, ?_, fine⟩
              · simp only [F]; split
                · simp
                · exact h.map.present y hy
              · simp only [F]; split
                · intro e; cases e
                · exact id
              · rw [split' fun y => { y with state := .refilling, physical := some p }]
                refine List.Perm.trans ?_ h.map.pool
                have none' : x.physical = none := (h.map.present x (mem_of_segment hx).1).mpr st
                change (rest ++ _).Perm _
                rw [hm, hfree]
                simp only [List.filterMap_append, List.filterMap_cons, none']
                rw [← List.append_assoc, List.cons_append, ← List.append_assoc]
                exact List.perm_middle
              · cases hr'
                rw [segment_map (s := s) (F := F) rfl number] at hy
                obtain ⟨z, hz, rfl⟩ := Option.map_eq_some_iff.mp hy
                have : (F z).last = z.last := by simp only [Segment.last, shape]
                rw [this]; exact W.walk.refill r hr z hz
              · obtain ⟨z, hz, rfl⟩ := List.mem_map.mp hy
                by_cases hq : z.q = r.q
                · rw [number]; exact hq.symm
                · rw [if_neg hq] at st' ⊢
                  obtain ⟨-, r', a, b', -⟩ := W.refills z hz st'
                  rw [hr] at a; cases a; exact b'
            exact W'.law
          · exact h
      · exact h
    · exact h

/-- R66: the walk reaches an entry, in REPLAY with no read outstanding. -/
theorem reach_lawful {s : State} {c0 c : ReplayContext} {b e : Seq} {x : Segment} (W : Walk k s c0 b e)
    (replay : s.epochs.controller = .replay) (start : c.start = c0.start)
    (walk : s.walkTo { c with current := some x.q, refill := none } b e) (noRead : c.read = none)
    (reads : s.journal.ops.filterMap PortOp.readSeq = []) (hx : s.segment x.q = some x)
    (lo : Seq.after b c.start ≤ Seq.after b x.last) : (reach c x s).lawful k := by
  have none' : ∀ y ∈ s.journal.map, y.state ≠ .refilling := fun y hy st => by
    have := (W.refills y hy st).1
    rw [replay] at this; cases this
  have W1 : Walk k (setContext (some { c with current := some x.q, refill := none }) s)
      { c with current := some x.q, refill := none } b e := by
    refine W.setContext start walk ?_ ?_
    · intro n hn; rw [reads] at hn; cases hn
    · intro y hy st; exact absurd st (none' y hy)
  unfold reach
  simp only
  split
  · rename_i lent
    unfold recallSegment
    split
    · exact W1.law
    · refine State.lawful.of ?_ (parts_post _ _ _)
      exact updateState_lawful (x := x) W1.law hx (by rw [lent]; decide) (.inl rfl)
  · refine takeRefillSegment_lawful ?_
    unfold awaitRefill
    have W2 : Walk k (setContext (some { c with current := some x.q, refill := some { q := x.q, physical := none, refilled := false } })
        (setContext (some { c with current := some x.q, refill := none }) s))
        { c with current := some x.q, refill := some { q := x.q, physical := none, refilled := false } } b e := by
      refine W1.setContext rfl ⟨walk.start, walk.next, walk.read, walk.held, walk.restores, walk.failure, ?_, fun _ => noRead,
        walk.current, fun r hr => by cases hr; rfl⟩ ?_ ?_
      · intro r hr y hy; cases hr
        change s.segment x.q = some y at hy
        rw [hx] at hy; cases hy; exact lo
      · intro n hn; change n ∈ s.journal.ops.filterMap PortOp.readSeq at hn; rw [reads] at hn; cases hn
      · intro y hy st; exact absurd st (none' y hy)
    have W3 : Walk k (setController .refillWait none (setRefillTimer (some (s.timebase + BitVec.ofNat 32 (1000 * s.service.params.refillWait)))
        (setContext (some { c with current := some x.q, refill := some { q := x.q, physical := none, refilled := false } })
        (setContext (some { c with current := some x.q, refill := none }) s))))
        { c with current := some x.q, refill := some { q := x.q, physical := none, refilled := false } } b e :=
      W2.of (setController_pathLaw (setRefillTimer_pathLaw W2.law.path)) (W2.law.map.same rfl rfl rfl rfl) rfl rfl rfl (.inr rfl) rfl
        rfl rfl rfl ⟨W2.span.runs, W2.span.ends, W2.span.room, W2.span.starts, W2.span.nested⟩
        ⟨W2.walk.start, W2.walk.next, W2.walk.read, W2.walk.held, W2.walk.restores, W2.walk.failure, W2.walk.refill, fun _ => noRead,
          W2.walk.current, W2.walk.refills⟩
        ⟨(W2.law.reads W2.running).1, fun n hn => by
          change n ∈ s.journal.ops.filterMap PortOp.readSeq at hn; rw [reads] at hn; cases hn⟩
        fun y hy st => absurd st (none' y hy)
    exact W3.law
  · exact W1.law

/-! ### Failure (R78) -/

theorem seqMax_between {b lo hi x y : Seq} (hx : Seq.after b lo ≤ Seq.after b x ∧ Seq.after b x < Seq.after b hi)
    (hy : Seq.after b lo ≤ Seq.after b y ∧ Seq.after b y < Seq.after b hi) :
    Seq.after b lo ≤ Seq.after b (seqMax x y) ∧ Seq.after b (seqMax x y) < Seq.after b hi := by
  unfold seqMax; split
  · exact hy
  · exact hx

/-- R78: the rollback fails at a record of the walk. -/
theorem failRollback_lawful {s : State} {c : ReplayContext} {b e : Seq} {reason : FailReason} {n : Seq} (W : Walk k s c b e)
    (bound : Seq.after b c.start ≤ Seq.after b n ∧ Seq.after b n < Seq.after b e) : (failRollback c reason n s).lawful k := by
  have last : ∀ {r : Refill} {x : Segment}, c.refill = some r → s.segment r.q = some x →
      Seq.after b c.start ≤ Seq.after b x.last ∧ Seq.after b x.last < Seq.after b e := fun {r} {x} hr hx => by
    have mem := covers_mem W.span.runs W.law.map.entries (mem_of_segment hx).1
    exact ⟨W.walk.refill r hr x hx, by omega⟩
  have kept : Seq.after b c.start ≤ Seq.after b (s.keptPoint c reason n) ∧ Seq.after b (s.keptPoint c reason n) < Seq.after b e := by
    unfold State.keptPoint
    simp only
    have base : Seq.after b c.start ≤ Seq.after b (if c.badRefill reason then ((s.refillToSpill c reason).map Segment.last).getD n else n) ∧
        Seq.after b (if c.badRefill reason then ((s.refillToSpill c reason).map Segment.last).getD n else n) < Seq.after b e := by
      split
      · cases hs : s.refillToSpill c reason with
        | none => exact bound
        | some x =>
          unfold State.refillToSpill at hs
          split at hs
          · cases hs
          · rename_i r hr
            exact last hr (Option.filter_eq_some_iff.mp hs).1
      · exact bound
    split
    · rename_i h hh
      exact seqMax_between base (W.walk.held h hh)
    · exact base
  unfold failRollback
  simp only
  generalize hk : s.keptPoint c reason n = kp at kept
  cases hs : s.refillToSpill c reason with
  | none =>
    have W1 : Walk k (setRefillTimer none s) c b e := W.congr rfl
    dsimp only
    refine (W1.setContext (c' := { c with
        held := none, refill := c.refill.filter (·.refilled), failure := some { reason := reason, kept := kp, freed := none } }) rfl ⟨W.walk.start, W.walk.next, W.walk.read, (fun _ h => nomatch h), W.walk.restores, ?_,
      (fun r hr => W.walk.refill r (Option.filter_eq_some_iff.mp hr).1), W.walk.waits, W.walk.current,
      fun r hr => W.walk.refills r (Option.filter_eq_some_iff.mp hr).1⟩ W.reads ?_).law
    · intro f hf; cases hf; exact kept
    · intro x hx st
      obtain ⟨-, r, a, b', -⟩ := W.refills x hx st
      have := segment_of_mem W.law.map hx
      unfold State.refillToSpill at hs
      rw [a] at hs
      simp only [b', this] at hs
      rw [Option.filter_some] at hs
      simp [st] at hs
  | some x =>
    obtain ⟨r, hr, hx⟩ : ∃ r, c.refill = some r ∧ s.segment r.q = some x := by
      unfold State.refillToSpill at hs
      split at hs
      · cases hs
      · rename_i r hr
        exact ⟨r, hr, (Option.filter_eq_some_iff.mp hs).1⟩
    obtain ⟨l, rs, hm, eq, left, right, split'⟩ := map_split W.law.map hx
    have idle : (spillRefill x.q (setContext (some { c with
        held := none, refill := c.refill.filter (·.refilled), failure := some { reason := reason, kept := kp, freed := x.physical } })
        (setRefillTimer none s))).journal.waiting = [] := W.idle
    rw [Option.bind_some]
    dsimp only
    rw [freeSegments_idle idle]
    let F : Segment → Segment := fun y => if y.q = x.q then { y with state := .spilled, physical := none } else y
    have number : ∀ y, (F y).q = y.q := fun y => by simp only [F]; split <;> rfl
    have shape : ∀ y, (F y).first = y.first ∧ (F y).count = y.count := fun y => by
      simp only [F]; split <;> exact ⟨rfl, rfl⟩
    refine Walk.law (c := { c with
        held := none, refill := c.refill.filter (·.refilled), failure := some { reason := reason, kept := kp, freed := x.physical } }) (b := b) (e := e)
      (W.of (by exact setJournal_pathLaw (setMap_pathLaw (setContext_pathLaw (setRefillTimer_pathLaw W.law.path))) rfl rfl)
      (mapLaw_map W.law.map (F := F) rfl rfl number (fun y hy => ?_) (fun y hy => ?_) ?_) rfl rfl rfl W.walks rfl rfl rfl rfl
      ⟨(covers_map shape).mpr W.span.runs, W.span.ends, W.span.room, W.span.starts, W.span.nested⟩
      ⟨W.walk.start, W.walk.next, W.walk.read, (fun _ h => nomatch h), W.walk.restores, ?_, ?_, W.walk.waits,
        W.walk.current.trans (current_map (F := F) rfl number shape _).symm,
        fun r hr => W.walk.refills r (Option.filter_eq_some_iff.mp hr).1⟩
      ⟨(W.law.reads W.running).1, fun n hn => ⟨W.walks, { c with
        held := none, refill := c.refill.filter (·.refilled), failure := some { reason := reason, kept := kp, freed := x.physical } }, rfl,
        W.reads n hn⟩⟩ ?_)
    · simp only [F]; split
      · simp
      · exact W.law.map.present y hy
    · simp only [F]; split
      · intro e; cases e
      · exact id
    · have := split' fun y => { y with state := .spilled, physical := none }
      rw [← eq] at this
      change ((s.journal.free ++ x.physical.toList) ++ (s.journal.map.map F).filterMap Segment.physical).Perm _
      rw [this]
      refine List.Perm.trans ?_ W.law.map.pool
      rw [hm]
      simp only [List.filterMap_append, List.filterMap_cons]
      rw [List.append_assoc]
      refine List.Perm.append_left _ ?_
      cases x.physical with
      | none => simp
      | some p => simp only [Option.toList_some, List.singleton_append]; exact List.perm_middle.symm
    · intro f hf; cases hf; exact kept
    · intro r' hr' y hy
      rw [segment_map (F := F) rfl number] at hy
      obtain ⟨z, hz, rfl⟩ := Option.map_eq_some_iff.mp hy
      have := W.walk.refill r' (Option.filter_eq_some_iff.mp hr').1 z hz
      unfold Segment.last at this ⊢
      rwa [(shape z).1, (shape z).2]
    · intro y hy st
      obtain ⟨z, hz, rfl⟩ := List.mem_map.mp hy
      by_cases hq : z.q = x.q
      · simp only [hq, if_true] at st; cases st
      · simp only [hq, if_false] at st
        obtain ⟨-, r', a, b', -⟩ := W.refills z hz st
        rw [hr] at a; cases a
        rw [eq] at hq; exact absurd b'.symm hq

/-! ### Consumed entries (R71) -/

theorem removeConsumed_split (c : ReplayContext) : ∀ l : List Segment, ∃ gone older, l = gone ++ older ∧
    removeConsumed c l = (older, gone.filterMap Segment.physical) ∧ ∀ x ∈ gone, c.consumed x = true
  | [] => ⟨[], [], rfl, rfl, fun _ h => nomatch h⟩
  | x :: l => by
    unfold removeConsumed
    split
    · rename_i hx
      obtain ⟨gone, older, eq, res, all⟩ := removeConsumed_split c l
      refine ⟨x :: gone, older, by rw [eq]; rfl, ?_, fun y hy => ?_⟩
      · rw [res, List.filterMap_cons]
        cases x.physical <;> rfl
      · rcases List.mem_cons.mp hy with rfl | hy
        · exact hx
        · exact all y hy
    · exact ⟨[], x :: l, rfl, rfl, fun _ h => nomatch h⟩

/-- R11: a covered sequence number lies in an entry. -/
theorem covers_find {s b e n : Seq} {m : List Segment} (h : covers b m e) (small : Seq.after s b + recordsOf m < 2 ^ 32)
    (lo : Seq.after s b ≤ Seq.after s n) (hi : Seq.after s n < Seq.after s e) :
    ∃ x ∈ m, Seq.after s x.first ≤ Seq.after s n ∧ Seq.after s n < Seq.after s x.first + x.count := by
  induction m generalizing b with
  | nil => rw [h] at hi; omega
  | cons y rest ih =>
    obtain ⟨first, -, -, d⟩ := h
    simp only [recordsOf, List.map_cons, List.sum_cons] at small ih
    by_cases here : Seq.after s n < Seq.after s b + y.count
    · exact ⟨y, List.mem_cons_self, by rw [first]; exact lo, by rw [first]; exact here⟩
    · have step := after_add (b := s) (n := b) (m := y.count) (by omega)
      obtain ⟨x, hx, r⟩ := ih d (by rw [step]; omega) (by rw [step]; omega)
      exact ⟨x, List.mem_cons_of_mem _ hx, r⟩

/-- A map without its newest entries. -/
theorem mapLaw_older {s t : State} {older gone : List Segment} {freed : List Phys} (h : s.mapLaw k)
    (map : s.journal.map = older ++ gone) (map' : t.journal.map = older) (nextQ : t.journal.nextQ = s.journal.nextQ)
    (free : t.journal.free = s.journal.free ++ freed) (perm : freed.Perm (gone.filterMap Segment.physical))
    (nseg : t.service.params.nseg = s.service.params.nseg) : t.mapLaw k := by
  have age : ∀ q, t.age q = s.age q := fun q => by simp only [State.age, nextQ]
  refine ⟨?_, fun x hx => ?_, ?_, fun x hx => ?_, ?_, fun x hx => ?_⟩
  · rw [free, map', nseg]
    refine List.Perm.trans ?_ h.pool
    rw [map, List.filterMap_append, List.append_assoc]
    exact List.Perm.append_left _ ((perm.append_right _).trans List.perm_append_comm)
  · exact h.present x (by rw [map]; rw [map'] at hx; exact List.mem_append_left _ hx)
  · have := h.entries
    rw [map, List.length_append] at this
    rw [map']; omega
  · rw [map'] at hx
    refine h.newest x ?_
    rw [map]
    cases gone with
    | nil => rw [List.append_nil]; exact hx
    | cons y ys =>
      rw [List.dropLast_append_of_ne_nil (by simp)]
      exact List.mem_append_left _ (List.mem_of_mem_dropLast hx)
  · have := h.rising
    rw [map, List.pairwise_append] at this
    rw [map']; simp only [age]; exact this.1
  · rw [age]
    exact h.ages x (by rw [map]; rw [map'] at hx; exact List.mem_append_left _ hx)

/-- R71, R17: consumed entries leave the map. -/
theorem dropConsumed_lawful {s : State} {c c' : ReplayContext} {b e : Seq} (W : Walk k s c' b e) (start : c.start = c'.start)
    (next : c.next = c'.next) (held : c.held = c'.held) (restores : c.restores = c'.restores) (failure : c.failure = c'.failure) :
    (dropConsumed c s).lawful k := by
  obtain ⟨gone, older, eq, res, all⟩ := removeConsumed_split c s.journal.map.reverse
  have map : s.journal.map = older.reverse ++ gone.reverse := by
    have := congrArg List.reverse eq
    rwa [List.reverse_reverse, List.reverse_append] at this
  have idle : (setMap older.reverse s).journal.waiting = [] := W.idle
  unfold dropConsumed
  rw [res]
  dsimp only
  rw [freeSegments_idle idle]
  have total := covers_end W.span.runs W.law.map.entries
  have small := W.small
  have runs := W.span.runs
  rw [map, covers_append] at runs
  obtain ⟨m, runs, rest⟩ := runs
  have sum : recordsOf s.journal.map = recordsOf older.reverse + recordsOf gone.reverse := by
    rw [map]; simp [recordsOf, List.map_append, List.sum_append]
  have atM := covers_after (s := b) runs (by rw [after_self]; omega)
  rw [after_self, Nat.zero_add] at atM
  have le : Seq.after b m ≤ Seq.after b e := by omega
  have inside : ∀ n, Seq.after b n < Seq.after b e → (∀ x ∈ gone, Seq.after b n < Seq.after b x.first) ∨
      (∀ x ∈ gone, ¬ (Seq.after b x.first ≤ Seq.after b n ∧ Seq.after b n < Seq.after b x.first + x.count)) →
      Seq.after b n < Seq.after b m := fun n hn out => by
    by_contra no
    obtain ⟨x, hx, r⟩ := covers_find rest (s := b) (by omega) (by omega) hn
    rw [List.mem_reverse] at hx
    rcases out with out | out
    · have := out x hx; omega
    · exact out x hx r
  have mem : ∀ x ∈ gone, x ∈ s.journal.map := fun x hx => by
    rw [map]; exact List.mem_append_right _ (List.mem_reverse.mpr hx)
  have first : ∀ x ∈ gone, Seq.after b x.first ≤ 838656 := fun x hx => by
    have := covers_mem W.span.runs W.law.map.entries (mem x hx); omega
  have used : ∀ x ∈ gone, seqGe x.first c'.start = true ∧ (∀ n, c'.next = some n → seqNewer x.first n = true) ∧
      (∀ h, c'.held = some h → x.holds h.seq = false) ∧ (∀ r ∈ c'.restores, x.holds r.1 = false) ∧ ∀ f, c'.failure = some f → seqNewer x.first f.kept = true := fun x hx => by
    have := all x hx
    unfold ReplayContext.consumed at this
    rw [start, next, held, restores, failure] at this
    simp only [Bool.and_eq_true] at this
    obtain ⟨⟨⟨⟨a, b'⟩, d⟩, g⟩, f⟩ := this
    refine ⟨a, fun n hn => ?_, fun h hh => ?_, fun r hr => ?_, fun y hy => ?_⟩
    · rw [hn] at b'; exact b'
    · rw [hh] at d; simpa using d
    · have := List.all_eq_true.mp g r hr; simpa using this
    · rw [hy] at f; exact f
  have sub : ∀ x ∈ older.reverse, x ∈ s.journal.map := fun x hx => by rw [map]; exact List.mem_append_left _ hx
  have notRest : ∀ n, (c'.next = some n ∨ ∃ f, c'.failure = some f ∧ f.kept = n) → Seq.after b n < Seq.after b e →
      Seq.after b n < Seq.after b m := fun n hn lt => inside n lt (.inl fun x hx => by
    have a := first x hx
    have : seqNewer x.first n = true := by
      rcases hn with hn | ⟨f, hf, rfl⟩
      · exact (used x hx).2.1 n hn
      · exact (used x hx).2.2.2.2 f hf
    exact (seqNewer_after (by omega) (by omega)).mp this)
  have startLe : Seq.after b c'.start ≤ Seq.after b m := by
    cases hg : gone.reverse with
    | nil =>
      rw [hg] at rest
      have : e = m := rest
      rw [← this]; exact W.walk.start
    | cons x xs =>
      rw [hg] at rest
      have hx : x ∈ gone := List.mem_reverse.mp (hg ▸ List.mem_cons_self)
      rw [← rest.1]
      have := W.walk.start
      exact (seqGe_after (by have := first x hx; omega) (by omega)).mp (used x hx).1
  have notHeld : ∀ n, (∀ x ∈ gone, x.holds n = false) → Seq.after b n < Seq.after b e → Seq.after b n < Seq.after b m :=
    fun n hn lt => inside n lt (.inr fun x hx r => by
      have := (covers_holds W.span.runs W.law.map.entries (mem x hx) (n := n) (by omega)).mpr r
      rw [hn x hx] at this; cases this)
  refine Walk.law (c := c') (b := b) (e := m) (W.of (by exact setJournal_pathLaw (setMap_pathLaw W.law.path) rfl rfl)
    (mapLaw_older W.law.map map (by rfl) (by rfl) (by rfl) ?_ (by rfl)) (by rfl) (by rfl) (by rfl) W.walks (by rfl) (by rfl)
    W.context rfl
    ⟨runs, le.trans W.span.ends, W.span.room, W.span.starts, W.span.nested⟩
    ⟨startLe, fun n hn => ?_, W.walk.read, fun h hh => ?_, fun r hr => ?_, fun f hf => ?_, fun r hr x hx => ?_, W.walk.waits,
      W.walk.current.trans ?_, W.walk.refills⟩
    ⟨(W.law.reads W.running).1, fun n hn => ⟨W.walks, c', W.context, W.reads n hn⟩⟩
    fun x hx st => W.law.refills W.running x (sub x hx) st)
  · rw [List.filterMap_reverse]; exact (List.reverse_perm _).symm
  · have := W.walk.next n hn; exact ⟨this.1, notRest n (.inl hn) this.2⟩
  · have := W.walk.held h hh; exact ⟨this.1, notHeld _ (fun x hx => (used x hx).2.2.1 h hh) this.2⟩
  · have := W.walk.restores r hr; exact ⟨this.1, notHeld _ (fun x hx => (used x hx).2.2.2.1 r hr) this.2⟩
  · have := W.walk.failure f hf; exact ⟨this.1, notRest _ (.inr ⟨f, hf, rfl⟩) this.2⟩
  · obtain ⟨hm, eq⟩ := mem_of_segment hx
    have := segment_of_mem W.law.map (sub x hm)
    rw [eq] at this
    exact W.walk.refill r hr x this
  · cases hn : c'.next with
    | none => rfl
    | some n =>
      have below : ∀ x ∈ gone.reverse, ¬ x.holds n = true := fun x hx => by
        have hx := List.mem_reverse.mp hx
        have lt := (W.walk.next n hn).2
        have a := first x hx
        have := (seqNewer_after (b := b) (by omega) (by omega)).mp ((used x hx).2.1 n hn)
        rw [covers_holds W.span.runs W.law.map.entries (mem x hx) (by omega)]
        omega
      simp only [Option.bind_some, State.segmentOf, map, List.find?_append, List.find?_eq_none.mpr below, Option.or_none]
      rfl

/-! ### Restores (R69, R70, R78) -/

/-- In a core reset a context takes another content. -/
theorem setContext_reset {c : Option ReplayContext} {s : State} (h : s.lawful k) (reset : s.service.coreReset ≠ none) :
    (setContext c s).lawful k := by
  have out : s.portStopped = false → ¬ (s.epochs.walks ∨ s.epochs.controller = .stopped) := fun p w => by
    cases hr : s.service.coreReset with
    | none => exact reset hr
    | some r =>
      have := (h.gate w).2 r hr
      simp [State.portStopped, hr, this] at p
  refine ⟨setContext_pathLaw h.path, h.map.same rfl rfl rfl rfl, fun p o ho => ?_, fun p => ?_, fun p x hx st => ?_,
    fun w => ⟨fun n => absurd n reset, (h.gate w).2⟩, h.zero, h.stop, h.bypass, fun _ n => absurd n reset⟩
  · obtain ⟨e, span, still, -⟩ := h.spans p o ho
    exact ⟨e, ⟨span.runs, span.ends, span.room, span.starts, span.nested⟩, still, fun w => absurd (.inl w) (out p)⟩
  · have := h.reads p
    exact ⟨this.1, fun n hn => absurd (.inl (this.2 n hn).1) (out p)⟩
  · exact absurd (.inl (.inr (h.refills p x hx st).1)) (out p)

/-- R70, R78: a restore ends. -/
theorem restoreEnds_lawful {n : Seq} {ok : Bool} {s : State} (h : s.lawful k) : (restoreEnds n ok s).lawful k := by
  unfold restoreEnds
  split
  · exact h
  · rename_i c hc
    simp only
    split
    · exact h
    · rename_i listed
      split
      · rename_i reset
        exact setContext_reset h (by rw [← Option.isSome_iff_ne_none]; exact reset)
      · rename_i run
        have run : s.service.coreReset = none := Option.not_isSome_iff_eq_none.mp run
        obtain ⟨r, hr, eq⟩ : ∃ r ∈ c.restores, r.1 = n := by
          by_contra no
          push Not at no
          exact listed (List.all_eq_true.mpr fun r hr => by simpa using no r hr)
        have w : s.epochs.walks := by
          by_contra out
          have := h.still out run c hc
          rw [this] at hr; cases hr
        obtain ⟨c', b, e, W⟩ := h.inWalk w run
        obtain rfl : c' = c := by have := W.context; rw [hc] at this; exact (Option.some.inj this).symm
        have bound := W.walk.restores r hr
        rw [eq] at bound
        have fewer : ∀ x ∈ c'.restores.filter (fun r => decide (r.1 ≠ n)), x ∈ c'.restores := fun x hx => (List.mem_filter.mp hx).1
        have set : ∀ (d : ReplayContext), d.start = c'.start → d.next = c'.next → d.read = c'.read → d.held = c'.held →
            d.refill = c'.refill → d.current = c'.current → d.restores = c'.restores.filter (fun r => decide (r.1 ≠ n)) →
            (d.failure = c'.failure ∨ ∃ f, c'.failure = some f ∧ d.failure = some { f with kept := seqMax f.kept n }) →
            Walk k (setContext (some d) s) d b e := fun d start next read held refill current restores failure => by
          refine W.setContext start ⟨by rw [start]; exact W.walk.start, by rw [start, next]; exact W.walk.next,
            by rw [read, next]; exact W.walk.read, by rw [start, held]; exact W.walk.held, fun x hx => ?_, fun f hf => ?_,
            by rw [start, refill]; exact W.walk.refill, by rw [read]; exact W.walk.waits,
            by rw [current, next]; exact W.walk.current, by rw [refill, current]; exact W.walk.refills⟩ (by rw [read]; exact W.reads)
            fun x hx st => ?_
          · rw [restores] at hx; rw [start]; exact W.walk.restores x (fewer x hx)
          · rw [start]
            rcases failure with same | ⟨g, hg, new⟩
            · exact W.walk.failure f (same ▸ hf)
            · rw [new] at hf; cases hf
              exact seqMax_between (W.walk.failure g hg) bound
          · obtain ⟨-, r, a, b', f⟩ := W.refills x hx st
            refine ⟨r, refill.trans a, b', ?_⟩
            rcases failure with same | ⟨g, hg, -⟩
            · exact same.trans f
            · rw [f] at hg; cases hg
        split
        · rename_i fine
          exact dropConsumed_lawful (set _ rfl rfl rfl rfl rfl rfl rfl (.inl rfl)) rfl rfl rfl rfl rfl
        · exact dropConsumed_lawful (set _ rfl rfl rfl rfl rfl rfl rfl (.inl rfl)) rfl rfl rfl rfl rfl
        · exact failRollback_lawful (set _ rfl rfl rfl rfl rfl rfl rfl (.inl rfl)) bound
        · rename_i f hf
          exact (set { c' with
            restores := c'.restores.filter fun r => decide (r.1 ≠ n)
            failure := some { f with kept := seqMax f.kept n } } rfl rfl rfl rfl rfl rfl rfl (.inr ⟨f, hf, rfl⟩)).law

/-- R69: a restore is handed to the memory interface. -/
theorem handOverRequest_lawful {r : MemRequest} {s : State} (h : s.lawful k) (none' : r.host = none) :
    (handOver r s).lawful k := by
  have links : ∀ x, (handOver r s).inLinks x = s.inLinks x := fun x => by
    rw [handOver_links, MemRequest.counts, none']; simp
  have mark : ∀ u, markIssued r u = u := fun u => by cases r <;> first | rfl | cases none'
  have shape : ∃ x, handOver r s = s.setMemIf x := by
    unfold handOver issue queueForTag
    split
    · split
      · rw [mark]; exact ⟨_, rfl⟩
      · exact ⟨_, rfl⟩
    · exact ⟨_, rfl⟩
  obtain ⟨x, hx⟩ := shape
  rw [hx] at links ⊢
  exact h.memIf ⟨h.path.names, fun y => (h.path.path y).mono le_rfl le_rfl (by
    change s.inSlots false y + _ ≤ _
    rw [links]), h.path.writes, h.path.waits, h.path.appends⟩

theorem handOverHeld_lawful {s : State} (h : s.lawful k) : (handOverHeld s).lawful k := by
  unfold handOverHeld State.nextRestore
  split
  · exact h
  · rename_i c held eq
    split at eq
    · rename_i walks
      split at eq
      · cases eq
      · rename_i c' hc
        split at eq
        · cases eq
        · rename_i hd hheld
          split at eq
          · cases eq
            obtain ⟨-, run, context, -⟩ := walking_some hc
            obtain ⟨d, b, e, W⟩ := h.inWalk walks run
            obtain rfl : d = c := by have := W.context; rw [context] at this; exact (Option.some.inj this).symm
            refine handOverRequest_lawful (W.setContext (c' := { d with
                held := none, restores := d.restores ++ [(held.seq, held.line)] }) rfl ⟨W.walk.start, W.walk.next, W.walk.read,
              (fun _ h => nomatch h), fun r hr => ?_, W.walk.failure, W.walk.refill, W.walk.waits,
              W.walk.current, W.walk.refills⟩ W.reads
              fun x hx st => (W.refills x hx st).2).law rfl
            rcases List.mem_append.mp hr with hr | hr
            · exact W.walk.restores r hr
            · rw [List.mem_singleton.mp hr]; exact W.walk.held held hheld
          · cases eq
    · cases eq

/-! ### The record reads of a walk (R67, R68) -/

/-- R68: a record is held, and the walk may reach an older entry. -/
theorem holdRecord_lawful {s : State} {c : ReplayContext} {b e n : Seq} {record : List Byte} (W : Walk k s c b e)
    (replay : s.epochs.controller = .replay) (noRead : c.read = none)
    (reads : s.journal.ops.filterMap PortOp.readSeq = []) (next : c.next = some n) : (holdRecord c n record s).lawful k := by
  have bound := W.walk.next n next
  have small := W.small
  have none' : ∀ y ∈ s.journal.map, y.state ≠ .refilling := fun y hy st => by
    have := (W.refills y hy st).1
    rw [replay] at this; cases this
  have held : ∀ h : HeldRecord, some ({ seq := n, line := recordLine record, data := recordData record } : HeldRecord) = some h →
      Seq.after b c.start ≤ Seq.after b h.seq ∧ Seq.after b h.seq < Seq.after b e := fun h hh => by cases hh; exact bound
  have set : ∀ (d : ReplayContext), d.start = c.start → d.read = none →
      d.held = some { seq := n, line := recordLine record, data := recordData record } →
      d.restores = c.restores → d.failure = c.failure →
      (∀ r, d.refill = some r → c.refill = some r ∧ d.current = c.current) →
      d.current = (d.next.bind fun n => s.segmentOf n).map (·.q) →
      (∀ m, d.next = some m → Seq.after b c.start ≤ Seq.after b m ∧ Seq.after b m < Seq.after b e) →
      s.walkTo d b e := fun d start read hold restores failure refill current next =>
    ⟨by rw [start]; exact W.walk.start, by rw [start]; exact next, (by rw [read]; exact fun _ h => nomatch h),
      by rw [start, hold]; exact held, by rw [start, restores]; exact W.walk.restores, by rw [start, failure]; exact W.walk.failure,
      (by rw [start]; exact fun r hr => W.walk.refill r (refill r hr).1), fun _ => read, current,
      fun r hr => (refill r hr).2.trans (W.walk.refills r (refill r hr).1)⟩
  have keep : ∀ (d : ReplayContext), d.start = c.start → s.walkTo d b e → (setContext (some d) s).lawful k := fun d start walk =>
    (W.setContext start walk (fun m hm => by rw [reads] at hm; cases hm) fun y hy st => absurd st (none' y hy)).law
  unfold holdRecord
  simp only
  split
  · exact keep _ rfl (set _ rfl noRead rfl rfl rfl (fun _ h => nomatch h) rfl fun _ h => nomatch h)
  · rename_i ne
    have older : Seq.after b (n - 1) + 1 = Seq.after b n ∧ Seq.after b c.start ≤ Seq.after b (n - 1) := by
      have pos : Seq.after b c.start < Seq.after b n := lt_of_le_of_ne bound.1 fun e => ne (after_inj e).symm
      have : Seq.after b (n - 1) = Seq.after b n - 1 := after_pred (by omega)
      omega
    have walk : ∀ (d : ReplayContext), d.start = c.start → d.read = none →
        d.held = some { seq := n, line := recordLine record, data := recordData record } →
        d.restores = c.restores → d.failure = c.failure →
        (∀ r, d.refill = some r → c.refill = some r ∧ d.current = c.current) → d.next = some (n - 1) →
        d.current = (s.segmentOf (n - 1)).map (·.q) → s.walkTo d b e :=
      fun d start read hold restores failure refill next current =>
        set d start read hold restores failure refill (by rw [next]; exact current) fun m hm => by
          rw [next] at hm; cases hm; omega
    split
    · rename_i hx
      exact keep _ rfl (walk _ rfl noRead rfl rfl rfl (fun _ h => nomatch h) rfl (by rw [hx]; rfl))
    · rename_i x hx
      split
      · rename_i cur
        exact keep _ rfl (walk _ rfl noRead rfl rfl rfl (fun _ h => ⟨h, rfl⟩) rfl (by rw [hx]; exact cur))
      · have mem := List.mem_of_find?_eq_some hx
        have holds : x.holds (n - 1) = true := by
          have := List.find?_some (p := fun e : Segment => e.holds (n - 1)) (by unfold State.segmentOf at hx; exact hx); exact this
        have cov := covers_mem W.span.runs W.law.map.entries mem
        rw [covers_holds W.span.runs W.law.map.entries mem (by omega)] at holds
        refine reach_lawful W replay rfl (walk _ rfl noRead rfl rfl rfl (fun _ h => nomatch h) rfl (by rw [hx]; rfl)) noRead reads
          (segment_of_mem W.law.map mem) ?_
        change Seq.after b c.start ≤ _
        omega

/-- R67: the record read that completes is outstanding no more. -/
theorem dropPort_read {p : Fin 8} {seg : Phys} {place : Nat} {n : Seq} {s : State}
    (h : (s.journal.ops.filterMap PortOp.readSeq).length ≤ 1) (op : s.portOp p = some (.recordRead seg place n)) :
    n ∈ s.journal.ops.filterMap PortOp.readSeq ∧ (dropPort p s).journal.ops.filterMap PortOp.readSeq = [] := by
  unfold State.portOp at op
  obtain ⟨o, ho, eq⟩ := Option.map_eq_some_iff.mp op
  have mem := List.mem_of_find?_eq_some ho
  have tag : (o.1 == p) = true := by have := List.find?_some ho; exact this
  have seq : PortOp.readSeq o.2 = some n := by rw [eq]; rfl
  refine ⟨?_, ?_⟩
  · rw [List.mem_filterMap]
    exact ⟨o.2, List.mem_append_right _ (List.mem_map_of_mem mem), seq⟩
  · have perm : ((s.journal.outstanding.filter fun o => decide (o.1 ≠ p)) ++
        s.journal.outstanding.filter fun o => !decide (o.1 ≠ p)).Perm s.journal.outstanding := List.filter_append_perm _ _
    have perm' : ((dropPort p s).journal.ops ++ (s.journal.outstanding.filter fun o => !decide (o.1 ≠ p)).map (·.2)).Perm
        s.journal.ops := by
      simp only [JournalUnit.ops, dropPort, State.setJournal_journal, List.append_assoc, ← List.map_append]
      exact List.Perm.append_left _ (perm.map _)
    have len := (perm'.filterMap PortOp.readSeq).length_eq
    rw [List.filterMap_append, List.length_append] at len
    have pos : 0 < (((s.journal.outstanding.filter fun o => !decide (o.1 ≠ p)).map (·.2)).filterMap PortOp.readSeq).length := by
      apply List.length_pos_of_mem (a := n)
      rw [List.mem_filterMap]
      refine ⟨o.2, List.mem_map_of_mem (List.mem_filter.mpr ⟨mem, ?_⟩), seq⟩
      simpa using tag
    rw [← List.length_eq_zero_iff]; omega

/-- R67, R68: a record read completes. -/
theorem recordReadEnds_lawful {p : Fin 8} {st : Status} {d : PortData} {s : State} (h : s.lawful k) :
    (recordReadEnds p st d s).lawful k := by
  unfold recordReadEnds; split
  · rename_i seg place n op
    have law := (dropPort_lawful (p := p) h).of (parts_usePortFresh Config.recordBytes d (dropPort p s))
    have frame : (usePortFresh Config.recordBytes d (dropPort p s)).parts = (dropPort p s).parts := parts_usePortFresh _ _ _
    generalize usePortFresh Config.recordBytes d (dropPort p s) = u at law frame ⊢
    generalize portBytes (recordAddress seg place) Config.recordBytes d s = record
    simp only [State.parts, Prod.mk.injEq] at frame
    obtain ⟨-, ⟨epochs, context, coreReset, -, -⟩, -, -, queue, outstanding⟩ := frame
    simp only
    split
    · exact law
    · rename_i running
      have running : s.portStopped = false := by simpa using running
      have old := h.reads running
      obtain ⟨was, dropped⟩ := dropPort_read old.1 op
      obtain ⟨walks, c, hc, read⟩ := old.2 n was
      have run : s.service.coreReset = none := by
        cases hr : s.service.coreReset with
        | none => rfl
        | some r =>
          have := (h.gate (.inl walks)).2 r hr
          simp [State.portStopped, hr, this] at running
      obtain ⟨c', b, e, W⟩ := law.inWalk (by rw [epochs]; exact walks) (coreReset.trans run)
      have reads : u.journal.ops.filterMap PortOp.readSeq = [] := by
        simp only [JournalUnit.ops, queue, outstanding]; exact dropped
      have hc' : u.replay.context = some c := context.trans hc
      obtain rfl : c' = c := by have := W.context; rw [hc'] at this; exact (Option.some.inj this).symm
      have replay : u.epochs.controller = .replay := by
        rcases W.walks with w | w
        · exact w
        · have := W.walk.waits w; rw [read] at this; cases this
      have next := W.walk.read n read
      have W1 : Walk k (setContext (some { c' with read := none }) u) { c' with read := none } b e :=
        W.setContext rfl ⟨W.walk.start, W.walk.next, (fun _ h => nomatch h), W.walk.held, W.walk.restores, W.walk.failure,
          W.walk.refill, fun _ => rfl, W.walk.current, W.walk.refills⟩ (fun m hm => by rw [reads] at hm; cases hm) fun y hy st' => (W.refills y hy st').2
      unfold replayRead
      rw [W.context]
      simp only
      split
      · exact W1.law
      · split
        · exact failRollback_lawful W1 (W.walk.next n next)
        · unfold checkRecord
          split
          · split
            · exact holdRecord_lawful W1 replay rfl reads next
            · exact failRollback_lawful W1 (W.walk.next n next)
          · exact failRollback_lawful W1 (W.walk.next n next)
  · exact h

/-- R67: a record read joins the engine queue. -/
theorem issueRecordRead_lawful {s : State} {c : ReplayContext} {x : Segment} {n : Seq} (h : s.lawful k)
    (hn : s.nextRead = some (c, x, n)) : (issueRecordRead c x n s).lawful k := by
  unfold State.nextRead at hn
  split at hn
  · cases hn
  · rename_i c' hc
    split at hn
    · rename_i n' x' hnext hcur
      obtain ⟨cond, eq⟩ := Option.ite_none_right_eq_some.mp hn
      · cases eq
        obtain ⟨ctl, run, context, -⟩ := walking_some hc
        obtain ⟨d, b, e, W⟩ := h.inWalk (.inl ctl) run
        obtain rfl : d = c := by have := W.context; rw [context] at this; exact (Option.some.inj this).symm
        simp only [Bool.and_eq_true, Option.isNone_iff_eq_none] at cond
        have noRead : d.read = none := cond.1.1.1
        have reads : s.journal.ops.filterMap PortOp.readSeq = [] := by
          rw [List.eq_nil_iff_forall_not_mem]
          intro m hm
          have := W.reads m hm
          rw [noRead] at this; cases this
        have appends := filterMap_beside (a := s.journal.engineQueue) (b := s.journal.outstanding.map (·.2))
          (f := PortOp.appendSlot) (x := .recordRead (x.physical.getD 0) (n - x.first).toNat n) rfl
        have one : ((s.journal.engineQueue ++ [PortOp.recordRead (x.physical.getD 0) (n - x.first).toNat n]) ++
            s.journal.outstanding.map fun o => o.2).filterMap PortOp.readSeq = [n] := by
          simp only [JournalUnit.ops, List.filterMap_append, List.append_eq_nil_iff] at reads
          simp only [List.filterMap_append, reads.1, reads.2]
          rfl
        refine Walk.law (c := { d with read := some n }) (b := b) (e := e)
          (W.of (by exact setContext_pathLaw (setJournal_pathLaw h.path rfl appends)) (W.law.map.same (by rfl) (by rfl) (by rfl) (by rfl))
            (by rfl) (by rfl) (by rfl) W.walks (by rfl) (by rfl) (by rfl) (by rfl)
            ⟨W.span.runs, W.span.ends, W.span.room, W.span.starts, W.span.nested⟩
            ⟨W.walk.start, W.walk.next, fun m hm => ?_, W.walk.held, W.walk.restores, W.walk.failure, W.walk.refill, fun w => ?_,
              W.walk.current, W.walk.refills⟩
            ⟨by rw [show (issueRecordRead d x n s).journal.ops.filterMap PortOp.readSeq = [n] from one]; exact le_rfl, fun m hm => ?_⟩
            fun y hy st => ?_)
        · cases hm; exact hnext
        · change s.epochs.controller = _ at w
          rw [ctl] at w; cases w
        · rw [show (issueRecordRead d x n s).journal.ops.filterMap PortOp.readSeq = [n] from one, List.mem_singleton] at hm
          exact ⟨W.walks, _, rfl, by rw [hm]⟩
        · have := (W.refills y hy st).1
          rw [ctl] at this; cases this
    · cases hn

end Sys2Proof.Machine
end

