-- ==== Sys2Proof/Laws/Rollbacks.lean ====
section
/-! SUPPORT. The laws of the part over truncation, the ends of a rollback, the start of a walk and the drains. -/

namespace Sys2Proof.Machine

variable {k : Nat}

/-! ### Truncation (R16, R17) -/

theorem covers_ge {s b e : Seq} {m : List Segment} (h : covers b m e) (small : Seq.after s b + recordsOf m < 2 ^ 32) :
    ∀ x ∈ m, Seq.after s b ≤ Seq.after s x.first ∧ Seq.after s x.first ≤ Seq.after s b + recordsOf m := by
  induction m generalizing b with
  | nil => exact fun x hx => nomatch hx
  | cons y rest ih =>
    obtain ⟨first, -, -, d⟩ := h
    simp only [recordsOf, List.map_cons, List.sum_cons] at small ih ⊢
    have step := after_add (b := s) (n := b) (m := y.count) (by omega)
    intro x hx
    rcases List.mem_cons.mp hx with rfl | hx
    · rw [first]; omega
    · have := ih d (by rw [step]; omega) x hx
      omega

theorem covers_cut {s b e c : Seq} {m : List Segment} (h : covers b m e) (small : Seq.after s b + recordsOf m < 2 ^ 31)
    (lo : Seq.after s b ≤ Seq.after s c) (hi : Seq.after s c ≤ Seq.after s b + recordsOf m) :
    ∃ pre gone, m = pre ++ gone ∧ (m.filter fun x => !seqGe x.first c) = pre ∧ (m.filter fun x => seqGe x.first c) = gone ∧
      covers b (pre.map (cutSegment c)) c ∧ ∀ x ∈ pre.dropLast, cutSegment c x = x := by
  have old : ∀ (l : List Segment), (∀ x ∈ l, Seq.after s c ≤ Seq.after s x.first ∧ Seq.after s x.first < 2 ^ 31) →
      (l.filter fun x => !seqGe x.first c) = [] ∧ (l.filter fun x => seqGe x.first c) = l := fun l hl => by
    constructor
    · rw [List.filter_eq_nil_iff]
      intro x hx
      have := hl x hx
      simp [(seqGe_after (b := s) (x := x.first) (y := c) this.2 (by omega)).mpr this.1]
    · rw [List.filter_eq_self]
      intro x hx
      have := hl x hx
      exact (seqGe_after (b := s) this.2 (by omega)).mpr this.1
  induction m generalizing b with
  | nil =>
    simp only [recordsOf, List.map_nil, List.sum_nil] at hi
    have : c = b := after_inj (b := s) (by omega)
    exact ⟨[], [], rfl, rfl, rfl, this, fun x hx => nomatch hx⟩
  | cons y rest ih =>
    have ge := covers_ge (s := s) h (by omega)
    obtain ⟨first, one, most, d⟩ := h
    simp only [recordsOf, List.map_cons, List.sum_cons] at small ih hi ge
    have step := after_add (b := s) (n := b) (m := y.count) (by omega)
    by_cases at' : Seq.after s c = Seq.after s b
    · obtain ⟨a, a'⟩ := old (y :: rest) fun x hx => by have := ge x hx; omega
      exact ⟨[], y :: rest, rfl, a, a', after_inj (b := s) at', fun x hx => nomatch hx⟩
    · have notGe : seqGe y.first c = false := by
        rw [Bool.eq_false_iff, Ne, seqGe_after (b := s) (by rw [first]; omega) (by omega), first]
        omega
      have pred := after_pred (b := s) (n := c) (by omega)
      have holds : y.holds (c - 1) = true ↔ Seq.after s c ≤ Seq.after s b + y.count := by
        rw [holds_after (b := s) (by rw [first]; omega) (by omega) (by omega), first]; omega
      by_cases inside : Seq.after s c ≤ Seq.after s b + y.count
      · have geRest := covers_ge (s := s) d (by rw [step]; simp only [recordsOf]; omega)
        obtain ⟨a, a'⟩ := old rest fun x hx => by
          have := geRest x hx
          simp only [recordsOf] at this
          rw [step] at this; omega
        refine ⟨[y], rest, rfl, ?_, ?_, ?_, fun x hx => nomatch hx⟩
        · rw [List.filter_cons, if_pos (by rw [notGe]; rfl), a]
        · rw [List.filter_cons, if_neg (by rw [notGe]; decide), a']
        · have cut : (c - b).toNat = Seq.after s c - Seq.after s b := by rw [sub_after s]; omega
          have eq : cutSegment c y = { y with count := (c - b).toNat, state := if y.resident then .filling else y.state } := by
            unfold cutSegment
            rw [if_pos (holds.mpr inside), first]
          rw [List.map_cons, List.map_nil, eq]
          refine ⟨first, ?_, ?_, ?_⟩
          · change 1 ≤ (c - b).toNat; omega
          · change (c - b).toNat ≤ 819; omega
          · change c = b + BitVec.ofNat 32 (c - b).toNat
            rw [BitVec.ofNat_toNat, BitVec.setWidth_eq, BitVec.add_comm, BitVec.sub_add_cancel]
      · obtain ⟨pre, gone, a, f, g, cov, keep⟩ := ih d (by rw [step]; omega) (by rw [step]; omega) (by rw [step]; omega)
        have same : cutSegment c y = y := by
          unfold cutSegment
          rw [if_neg (fun e => inside (holds.mp e))]
        refine ⟨y :: pre, gone, by rw [a]; rfl, ?_, ?_, ?_, fun x hx => ?_⟩
        · rw [List.filter_cons, if_pos (by rw [notGe]; rfl), f]
        · rw [List.filter_cons, if_neg (by rw [notGe]; decide), g]
        · rw [List.map_cons, same]; exact ⟨first, one, most, cov⟩
        · cases pre with
          | nil => cases hx
          | cons z zs =>
            rw [List.dropLast_cons_of_ne_nil (by simp)] at hx
            rcases List.mem_cons.mp hx with rfl | hx
            · exact same
            · exact keep x hx

theorem cutSegment_keeps (c : Seq) (x : Segment) : (cutSegment c x).q = x.q ∧ (cutSegment c x).physical = x.physical ∧
    ((cutSegment c x).state = .spilled ↔ x.state = .spilled) ∧ ((cutSegment c x).state = .refilling → x.state = .refilling) := by
  unfold cutSegment
  split
  · obtain ⟨q, st, p, f, n⟩ := x
    refine ⟨rfl, rfl, ?_, ?_⟩ <;> cases st <;> simp [Segment.resident]
  · exact ⟨rfl, rfl, .rfl, id⟩

/-- R16, R17: what truncation at a covered number leaves. -/
theorem truncate_map {s : State} {b e c : Seq} (h : s.mapLaw k) (runs : covers b s.journal.map e) (idle : s.journal.waiting = [])
    (hi : Seq.after b c ≤ Seq.after b e) :
    (∃ m fr, truncate c s = s.setJournal { s.journal with map := m, free := fr, nextSeq := c }) ∧ (truncate c s).mapLaw k ∧
      covers b (truncate c s).journal.map c ∧
      (∀ x ∈ (truncate c s).journal.map, x.state = .refilling → ∃ y ∈ s.journal.map, y.state = .refilling) ∧
      (c = b → (truncate c s).journal.map = []) := by
  have total := covers_end runs h.entries
  obtain ⟨pre, gone, map, f, g, cov, keep⟩ := covers_cut (s := b) (c := c) runs (by rw [after_self]; omega) (by rw [after_self]; omega)
    (by rw [after_self]; omega)
  have eq : truncate c s = s.setJournal { s.journal with
      map := pre.map (cutSegment c), free := s.journal.free ++ gone.filterMap Segment.physical, nextSeq := c } := by
    unfold truncate
    rw [f, g]
    exact freeSegments_idle (s := s.setJournal { s.journal with map := pre.map (cutSegment c), nextSeq := c }) idle
  have law : (s.setJournal { s.journal with map := pre, free := s.journal.free ++ gone.filterMap Segment.physical }).mapLaw k :=
    mapLaw_older h map rfl rfl rfl (.refl _) rfl
  refine ⟨⟨_, _, eq⟩, ?_, by rw [eq]; exact cov, ?_, fun at' => ?_⟩
  · rw [eq]
    refine mapLaw_map (F := cutSegment c) law rfl rfl (fun x => (cutSegment_keeps c x).1) (fun x hx => ?_) (fun x hx => ?_) ?_
    · rw [(cutSegment_keeps c x).2.1, (cutSegment_keeps c x).2.2.1]; exact law.present x hx
    · rw [keep x hx]; exact id
    · have : (pre.map (cutSegment c)).filterMap Segment.physical = pre.filterMap Segment.physical := by
        rw [List.filterMap_map]
        congr 1
        funext x; exact (cutSegment_keeps c x).2.1
      change (s.journal.free ++ gone.filterMap Segment.physical ++ (pre.map (cutSegment c)).filterMap Segment.physical).Perm _
      rw [this]; exact law.pool
  · rw [eq]; intro x hx st
    obtain ⟨y, hy, rfl⟩ := List.mem_map.mp hx
    exact ⟨y, by rw [map]; exact List.mem_append_left _ hy, (cutSegment_keeps c y).2.2.2 st⟩
  · rw [eq]
    subst at'
    cases hp : pre with
    | nil => rfl
    | cons x xs =>
      rw [hp, List.map_cons] at cov
      exfalso
      have full := covers_end (b := c) (m := cutSegment c x :: xs.map (cutSegment c)) cov (by
        have := h.entries
        rw [map, hp] at this
        simp only [List.length_append, List.length_cons, List.length_map] at this ⊢; omega)
      obtain ⟨-, one, -⟩ := cov
      simp only [recordsOf, List.map_cons, List.sum_cons, after_self] at full
      omega

/-! ### The two ends of a rollback (R77, R79) -/

theorem starts_le_top {s : State} {b : Seq} {top : Epoch} {rest : List Epoch} (stack : s.epochs.stack = top :: rest)
    (nested : s.epochs.stack.Pairwise fun newer older => Seq.after b older.start ≤ Seq.after b newer.start) :
    ∀ x ∈ s.epochs.stack, Seq.after b x.start ≤ Seq.after b top.start := by
  rw [stack, List.pairwise_cons] at nested
  rw [stack]
  intro x hx
  rcases List.mem_cons.mp hx with rfl | hx
  · exact le_rfl
  · exact nested.1 x hx

theorem Walk.noReads {s : State} {c : ReplayContext} {b e : Seq} (W : Walk k s c b e) (none' : c.read = none) :
    s.journal.ops.filterMap PortOp.readSeq = [] := by
  rw [List.eq_nil_iff_forall_not_mem]
  intro m hm
  have := W.reads m hm
  rw [none'] at this; cases this

theorem parts_setController {ctl : Controller} {cmd : Option PendingCommand} {s t : State} (h : t.parts = s.parts) :
    (setController ctl cmd t).parts = (setController ctl cmd s).parts := by
  simp only [State.parts, Prod.mk.injEq] at h
  simp [State.parts, setController, h]

theorem parts_setContext {c : Option ReplayContext} {s t : State} (h : t.parts = s.parts) :
    (setContext c t).parts = (setContext c s).parts := by
  simp only [State.parts, Prod.mk.injEq] at h
  simp [State.parts, setContext, h]

theorem portStopped_post (n : Option EpochNo) (kind : EventKind) (s : State) : (post n kind s).portStopped = s.portStopped := by
  unfold State.portStopped; rw [service_post]

/-- R77: a rollback succeeds. -/
theorem completeSuccess_lawful {s : State} (h : s.lawful k) : (completeSuccess s).lawful k := by
  unfold completeSuccess
  split
  · rename_i succeeds
    unfold State.rollbackSucceeds at succeeds
    split at succeeds
    · rename_i c hc
      obtain ⟨ctl, run, context, -⟩ := walking_some hc
      obtain ⟨c', b, e, W⟩ := h.inWalk (.inl ctl) run
      obtain rfl : c' = c := by have := W.context; rw [context] at this; exact (Option.some.inj this).symm
      rw [context]
      simp only [Bool.and_eq_true, Option.isNone_iff_eq_none] at succeeds
      have reads := W.noReads succeeds.1.2
      obtain ⟨⟨m, fr, eq⟩, map, cov, refilling, empty⟩ := truncate_map (c := c'.start) h.map W.span.runs W.idle W.walk.start
      dsimp only
      rw [eq] at map cov refilling empty ⊢
      obtain ⟨top, rest, stack, start⟩ : ∃ top rest, s.epochs.stack = top :: rest ∧ top.start = c'.start := by
        have := W.top
        cases hst : s.epochs.stack with
        | nil => exact absurd hst W.stack
        | cons x xs => rw [hst] at this; exact ⟨x, xs, rfl, Option.some.inj this⟩
      have last : ∀ o, rest.getLast? = some o → o.start = b := fun o ho => by
        have := W.last
        cases rest with
        | nil => cases ho
        | cons y ys => rw [stack, List.getLast?_cons_cons, ho] at this; exact Option.some.inj this
      have nested := W.span.nested
      have le := starts_le_top stack nested
      rw [stack, List.pairwise_cons] at nested
      have idle := closed_empty h.path W.closed
      refine releaseParked_lawful (s := setController .idle none (setContext none (post (some c'.epoch) _ _))) ?_
        (fun w => by rcases w with (w | w) | w <;> cases w) (.inl ?_)
      · refine State.lawful.of (s := setController .idle none (setContext none (setStack rest
          (s.setJournal { s.journal with map := m, free := fr, nextSeq := c'.start })))) ?_ ?_
        · refine ⟨setController_pathLaw (setContext_pathLaw (setStack_pathLaw (setJournal_pathLaw h.path rfl rfl))),
            map.same rfl rfl rfl rfl, fun _ o ho => ?_, fun _ => ?_, fun _ x hx st => ?_, fun w => ?_, fun z => ?_, fun w => ?_,
            fun m => absurd m W.active, fun _ _ c hc => nomatch hc⟩
          · have ho' := last o ho
            rw [ho']
            refine ⟨c'.start, ⟨cov, le_rfl, W.walk.start.trans W.small.1, fun x hx => ?_, nested.2⟩, fun _ => rfl,
              fun w => by rcases w with w | w <;> cases w⟩
            have := le x (by rw [stack]; exact List.mem_cons_of_mem _ hx)
            rw [start] at this; exact this
          · change (s.journal.ops.filterMap PortOp.readSeq).length ≤ 1 ∧ ∀ n ∈ s.journal.ops.filterMap PortOp.readSeq, _
            rw [reads]; exact ⟨by simp, fun n hn => nomatch hn⟩
          · obtain ⟨y, hy, st'⟩ := refilling x hx st
            have := (W.refills y hy st').1
            rw [ctl] at this; cases this
          · rcases w with (w | w) | w <;> cases w
          · have bs : c'.start = b := by
              have := W.last
              change rest = [] at z
              rw [stack, z, List.getLast?_singleton] at this
              rw [← start]; exact Option.some.inj this
            refine ⟨empty bs, W.marks, idle.2.1, fun i sl hi => ?_⟩
            have := idle.2.2 i
            change s.capture.slots[i] = some sl at hi
            rw [this] at hi; cases hi
          · change s.portStopped = true at w
            rw [W.running] at w; cases w
        · have tail : (s.setJournal { s.journal with map := m, free := fr, nextSeq := c'.start }).epochs.stack.tail = rest := by
            change s.epochs.stack.tail = rest
            rw [stack]; rfl
          rw [tail]
          exact parts_setController (parts_setContext (parts_post _ _ _))
      · exact (portStopped_post _ _ _).trans W.running
    · cases succeeds
  · exact h

/-- R79: a failure completes. -/
theorem completeFailure_lawful {s : State} (h : s.lawful k) : (completeFailure s).lawful k := by
  unfold completeFailure
  split
  · rename_i completes
    unfold State.failureCompletes at completes
    simp only [Bool.and_eq_true, Bool.or_eq_true, decide_eq_true_eq, Option.isNone_iff_eq_none] at completes
    obtain ⟨⟨walks, run⟩, completes⟩ := completes
    obtain ⟨c', b, e, W⟩ := h.inWalk walks run
    simp only [W.context] at completes ⊢
    cases hf : c'.failure with
    | none => rw [hf] at completes; cases completes
    | some f =>
        simp only [hf, Bool.and_eq_true, Option.isNone_iff_eq_none] at completes
        have reads := W.noReads completes.1.1
        have bound := W.walk.failure f hf
        have small := W.small
        have next : Seq.after b (f.kept + 1) = Seq.after b f.kept + 1 := after_add (m := 1) (by omega)
        obtain ⟨⟨m, fr, eq⟩, map, cov, refilling, -⟩ := truncate_map (c := f.kept + 1) h.map W.span.runs W.idle (by omega)
        simp only
        rw [eq] at map cov refilling ⊢
        obtain ⟨top, rest, stack, start⟩ : ∃ top rest, s.epochs.stack = top :: rest ∧ top.start = c'.start := by
          have := W.top
          cases hst : s.epochs.stack with
          | nil => exact absurd hst W.stack
          | cons x xs => rw [hst] at this; exact ⟨x, xs, rfl, Option.some.inj this⟩
        have le := starts_le_top stack W.span.nested
        rw [start] at le
        have law : (setContext (some c'.stopped) (setController .stopped none
            (s.setJournal { s.journal with map := m, free := fr, nextSeq := f.kept + 1 }))).lawful k := by
          refine ⟨setContext_pathLaw (setController_pathLaw (setJournal_pathLaw h.path rfl rfl)),
            map.same rfl rfl rfl rfl, fun _ o ho => ?_, fun _ => ?_, fun _ x hx st => ?_,
            fun w => ⟨fun _ => ⟨W.closed, W.marks, W.stack⟩, fun r hr => ?_⟩, fun z => absurd z W.stack, fun w => ?_,
            fun m => absurd m W.active, fun _ _ c hc => by cases hc; rfl⟩
          · have eqb : o.start = b := by
              have := W.last
              change s.epochs.stack.getLast? = some o at ho
              rw [ho] at this; exact Option.some.inj this
            rw [eqb]
            refine ⟨f.kept + 1, ⟨cov, le_rfl, by change Seq.after b (f.kept + 1) ≤ _; omega, fun x hx => ?_, W.span.nested⟩,
              fun _ => rfl, fun w => by rcases w with w | w <;> cases w⟩
            have := le x hx
            change _ ≤ Seq.after b (f.kept + 1)
            omega
          · change (s.journal.ops.filterMap PortOp.readSeq).length ≤ 1 ∧ ∀ n ∈ s.journal.ops.filterMap PortOp.readSeq, _
            rw [reads]; exact ⟨by simp, fun n hn => nomatch hn⟩
          · obtain ⟨y, hy, st'⟩ := refilling x hx st
            obtain ⟨-, r, -, -, none'⟩ := W.refills y hy st'
            rw [hf] at none'; cases none'
          · change s.service.coreReset = some r at hr
            rw [run] at hr; cases hr
          · change s.portStopped = true at w
            rw [W.running] at w; cases w
        refine State.lawful.of ?_ (parts_post _ _ _)
        have recount : recountTop (s.setJournal { s.journal with map := m, free := fr, nextSeq := f.kept + 1 }) =
            setStack ({ top with records := ((f.kept + 1) - top.start).toNat } :: rest)
              (s.setJournal { s.journal with map := m, free := fr, nextSeq := f.kept + 1 }) := by
          unfold recountTop
          change (match s.epochs.stack with | [] => _ | e :: rest => _ : State) = _
          rw [stack]; rfl
        rw [recount]
        exact setStack_lawful (st := { top with records := ((f.kept + 1) - top.start).toNat } :: rest) law
          (by change _ = s.epochs.stack.map (·.start); rw [stack]; rfl)
  · exact h

theorem settleRollback_lawful {s : State} (h : s.lawful k) : (settleRollback s).lawful k :=
  completeSuccess_lawful (completeFailure_lawful (takeRefillSegment_lawful h))

/-! ### The start of a walk (R64, R81) -/

/-- R64: a walk starts with the gate closed. -/
theorem startWalk_lawful {s : State} {top : Epoch} {rest : List Epoch} {n : BitVec 32} (h : s.lawful k)
    (stack : s.epochs.stack = top :: rest) (out : ¬ s.epochs.walks) (running : s.service.coreReset = none)
    (closed : s.gateClosed) : (startWalk top n s).lawful k := by
  obtain ⟨o, ho⟩ : ∃ o, s.epochs.stack.getLast? = some o := by
    cases hl : s.epochs.stack.getLast? with
    | none => rw [List.getLast?_eq_none_iff] at hl; rw [stack] at hl; cases hl
    | some o => exact ⟨o, rfl⟩
  have stopped := coreReset_none_running running
  obtain ⟨e, span, still, -⟩ := h.spans stopped o ho
  obtain rfl := still out
  have reads : s.journal.ops.filterMap PortOp.readSeq = [] := by
    rw [List.eq_nil_iff_forall_not_mem]
    intro m hm
    exact out ((h.reads stopped).2 m hm).1
  have none' : ∀ y ∈ s.journal.map, y.state ≠ .refilling := fun y hy st => out (.inr (h.refills stopped y hy st).1)
  have small := span.room
  have startLe : Seq.after o.start top.start ≤ Seq.after o.start s.journal.nextSeq := span.starts top (by rw [stack]; simp)
  let c : ReplayContext :=
    { epoch := top.number, start := top.start, next := if decide (s.journal.nextSeq = top.start) then none else some (s.journal.nextSeq - 1),
      current := none, read := none, held := none, restores := [], refill := none, replayed := n, failure := none }
  have nextIs : ∀ m, c.next = some m → s.journal.nextSeq ≠ top.start ∧ m = s.journal.nextSeq - 1 := fun m hm => by
    simp only [c] at hm
    split at hm
    · cases hm
    · rename_i ne
      exact ⟨by simpa using ne, (Option.some.inj hm).symm⟩
  have bound : s.journal.nextSeq ≠ top.start → Seq.after o.start top.start ≤ Seq.after o.start (s.journal.nextSeq - 1) ∧
      Seq.after o.start (s.journal.nextSeq - 1) + 1 = Seq.after o.start s.journal.nextSeq := fun ne => by
    have lt : Seq.after o.start top.start < Seq.after o.start s.journal.nextSeq :=
      lt_of_le_of_ne startLe fun e => ne (after_inj e).symm
    have := after_pred (b := o.start) (n := s.journal.nextSeq) (by omega)
    omega
  let c0 : ReplayContext := { c with next := none }
  have walk : ∀ u : State, u.walkTo c0 o.start s.journal.nextSeq := fun u =>
    ⟨startLe, (fun _ h => nomatch h), (fun _ h => nomatch h), (fun _ h => nomatch h), (fun _ h => nomatch h), (fun _ h => nomatch h),
      (fun _ h => nomatch h), (fun _ => rfl), rfl, fun _ h => nomatch h⟩
  have law : (setContext (some c0) (clearMarks (setController .replay none s))).lawful k := by
    refine ⟨setContext_pathLaw (clearMarks_pathLaw (setController_pathLaw h.path)), h.map.same rfl rfl rfl rfl, fun _ o' ho' => ?_,
      fun _ => ?_, fun _ x hx st => absurd st (none' x hx),
      fun _ => ⟨fun _ => ⟨closed, rfl, by change s.epochs.stack ≠ []; rw [stack]; simp⟩, fun r hr => ?_⟩, fun z => ?_, fun w => ?_,
      fun m => ?_, fun n => absurd (.inl rfl) n⟩
    · change s.epochs.stack.getLast? = some o' at ho'
      rw [ho] at ho'; cases ho'
      exact ⟨s.journal.nextSeq, ⟨span.runs, span.ends, span.room, span.starts, span.nested⟩, fun n => absurd (.inl rfl) n,
        fun _ => ⟨c0, top, rest, rfl, stack, rfl, walk _⟩⟩
    · change (s.journal.ops.filterMap PortOp.readSeq).length ≤ 1 ∧ ∀ n ∈ s.journal.ops.filterMap PortOp.readSeq, _
      rw [reads]; exact ⟨by simp, fun n hn => nomatch hn⟩
    · change s.service.coreReset = some r at hr
      rw [running] at hr; cases hr
    · change s.epochs.stack = [] at z
      rw [stack] at z; cases z
    · change s.portStopped = true at w
      rw [stopped] at w; cases w
    · have := (h.bypass m).1
      rw [stack] at this; cases this
  obtain ⟨c', b, e, W⟩ := law.inWalk (.inl rfl) running
  obtain rfl : c' = c0 := (Option.some.inj W.context).symm
  have hb : b = o.start := by
    have := W.last
    change s.epochs.stack.getLast?.map (·.start) = some b at this
    rw [ho] at this; exact (Option.some.inj this).symm
  subst hb
  have he : e = s.journal.nextSeq := by
    have a := covers_end W.span.runs h.map.entries
    have b := covers_end span.runs h.map.entries
    exact after_inj (b := o.start) (a.1.trans b.1.symm)
  subst he
  have eq : startWalk top n s = if decide (s.journal.nextSeq = top.start) = true then
        setContext (some c) (clearMarks (setController .replay none s))
      else match s.journal.map.getLast? with
        | none => setContext (some c) (clearMarks (setController .replay none s))
        | some seg => reach c seg (setContext (some c) (clearMarks (setController .replay none s))) := rfl
  rw [eq]
  by_cases ne : s.journal.nextSeq = top.start
  · rw [if_pos (by simpa using ne)]
    have : c = c0 := by simp only [c, c0, ne, decide_true, if_true]
    rw [this]; exact law
  · rw [if_neg (by simpa using ne)]
    have bd := bound ne
    split
    · rename_i empty
      have runs := span.runs
      rw [List.getLast?_eq_none_iff.mp empty] at runs
      have : s.journal.nextSeq = o.start := runs
      rw [this, after_self] at bd
      omega
    · rename_i seg hseg
      have mem : seg ∈ s.journal.map := List.mem_of_getLast? hseg
      obtain ⟨l, hl⟩ : ∃ l, s.journal.map = l ++ [seg] := by
        have := List.getLast?_eq_some_iff.mp hseg; exact this
      have runs := span.runs
      have total := covers_end span.runs h.map.entries
      have cov := covers_mem span.runs h.map.entries mem
      rw [hl, covers_append] at runs
      obtain ⟨p, a, first, -, -, d⟩ := runs
      have atEnd : Seq.after o.start s.journal.nextSeq = Seq.after o.start seg.first + seg.count := by
        have sum : recordsOf s.journal.map = recordsOf l + seg.count := by
          rw [hl]; simp [recordsOf, List.map_append, List.sum_append]
        have := covers_after (s := o.start) a (by rw [after_self]; omega)
        rw [after_self] at this
        rw [first]; omega
      have holds : s.segmentOf (s.journal.nextSeq - 1) = some seg := by
        unfold State.segmentOf
        rw [hl, List.find?_append, List.find?_eq_none.mpr ?_, Option.none_or]
        · have := (covers_holds span.runs h.map.entries mem (n := s.journal.nextSeq - 1) (by omega)).mpr (by omega)
          exact List.find?_cons_of_pos this
        · intro x hx
          rw [covers_holds span.runs h.map.entries (by rw [hl]; exact List.mem_append_left _ hx) (by omega)]
          have := (covers_mem a (by have := h.map.entries; rw [hl, List.length_append] at this; omega) hx).1
          rw [first] at atEnd
          omega
      have current : ({ c with current := some seg.q, refill := none } : ReplayContext).next = some (s.journal.nextSeq - 1) := by
        simp only [c, ne, decide_false, Bool.false_eq_true, if_false]
      change (reach c seg (setContext (some c0) (clearMarks (setController .replay none s)))).lawful k
      refine reach_lawful (c := c) W rfl rfl ⟨startLe, fun m hm => ?_, (fun _ h => nomatch h), (fun _ h => nomatch h),
        (fun _ h => nomatch h), (fun _ h => nomatch h), (fun _ h => nomatch h), (fun _ => rfl), ?_, fun _ h => nomatch h⟩ rfl reads
        (segment_of_mem law.map mem) ?_
      · obtain ⟨-, rfl⟩ := nextIs m hm; exact ⟨bd.1, by omega⟩
      · rw [current]
        change _ = (s.segmentOf (s.journal.nextSeq - 1)).map (·.q)
        rw [holds]; rfl
      · change Seq.after o.start top.start ≤ Seq.after o.start seg.last
        omega

theorem portStopped_same {s t : State} (h : t.service.coreReset = s.service.coreReset) : t.portStopped = s.portStopped := by
  simp only [State.portStopped, h]

/-! ### The controller outside a walk (R26, R29) -/

theorem setController_lawful {ctl : Controller} {cmd : Option PendingCommand} {s : State} (h : s.lawful k)
    (out : ¬ s.epochs.walks) (now : ctl = .idle ∨ ctl = .draining) (mode : s.service.mode = .bypass → ctl = .idle) :
    (setController ctl cmd s).lawful k := by
  have out' : ∀ w : (setController ctl cmd s).epochs.walks ∨ (setController ctl cmd s).epochs.controller = .stopped, False := by
    rintro ((w | w) | w) <;> (change ctl = _ at w; rw [w] at now; rcases now with n | n <;> cases n)
  refine ⟨setController_pathLaw h.path, h.map.same rfl rfl rfl rfl, fun p o ho => ?_, fun p => ?_, fun p x hx st => ?_,
    fun w => (out' w).elim, h.zero, h.stop, fun m => ⟨(h.bypass m).1, mode m⟩, fun _ => h.still out⟩
  · obtain ⟨e, span, still, -⟩ := h.spans p o ho
    exact ⟨e, ⟨span.runs, span.ends, span.room, span.starts, span.nested⟩, fun _ => still out, fun w => (out' (.inl w)).elim⟩
  · have := h.reads p
    exact ⟨this.1, fun n hn => absurd (this.2 n hn).1 out⟩
  · exact absurd (.inr (h.refills p x hx st).1) out

theorem setContext_none_lawful {s : State} (h : s.lawful k) (out : ¬ s.epochs.walks) : (setContext none s).lawful k := by
  refine ⟨setContext_pathLaw h.path, h.map.same rfl rfl rfl rfl, fun p o ho => ?_, fun p => ?_, fun p x hx st => ?_,
    h.gate, h.zero, h.stop, h.bypass, fun _ _ c hc => nomatch hc⟩
  · obtain ⟨e, span, still, -⟩ := h.spans p o ho
    exact ⟨e, ⟨span.runs, span.ends, span.room, span.starts, span.nested⟩, still, fun w => absurd w out⟩
  · have := h.reads p
    exact ⟨this.1, fun n hn => absurd (this.2 n hn).1 out⟩
  · exact absurd (.inr (h.refills p x hx st).1) out

theorem clearMarks_lawful {s : State} (h : s.lawful k) : (clearMarks s).lawful k :=
  h.beside (clearMarks_pathLaw h.path) rfl rfl rfl rfl rfl rfl rfl rfl rfl rfl
    (fun w => ⟨fun n => by obtain ⟨a, -, c⟩ := (h.gate w).1 n; exact ⟨a, rfl, c⟩, (h.gate w).2⟩)
    (fun z => by obtain ⟨a, -, c⟩ := h.zero z; exact ⟨a, rfl, c⟩) h.stop

theorem postDiscard_parts (n : Option EpochNo) (r : Option (SegNo × SegNo)) (s : State) : (postDiscard n r s).parts = s.parts := by
  unfold postDiscard; split
  · rfl
  · exact parts_post _ _ _

theorem parts_clearMarks {s t : State} (h : t.parts = s.parts) : (clearMarks t).parts = (clearMarks s).parts := by
  simp only [State.parts, Prod.mk.injEq] at h
  simp [State.parts, clearMarks, h]

/-! ### The drains (R29, R32, R34, R35, R64) -/

/-- R29: what a complete drain says. -/
theorem drainComplete_says {s : State} {c : PendingCommand} (h : s.drainComplete = true) (cmd : s.epochs.command = some c) :
    s.epochs.controller = .draining ∧ s.service.coreReset = none ∧ ∀ e ∈ s.host.table, e.counts c = false := by
  unfold State.drainComplete at h
  rw [cmd] at h
  simp only [Bool.and_eq_true, decide_eq_true_eq, Option.isNone_iff_eq_none] at h
  refine ⟨h.1.1, h.1.2, fun e he => ?_⟩
  have := h.2.1
  unfold State.drainCount at this
  rw [List.length_eq_zero_iff, List.filter_eq_nil_iff] at this
  simpa using this e he

theorem closed_of_past {s : State} (h : ∀ e ∈ s.host.table, e.pastGate = false) : s.gateClosed := fun id => by
  unfold State.stateOf
  cases he : s.entry id with
  | none => exact .inl rfl
  | some e =>
    right
    have := h e (List.mem_of_find?_eq_some he)
    unfold Entry.pastGate at this
    split at this
    · rename_i st; exact .inl (by rw [Option.map_some, st])
    · rename_i st; exact .inr (by rw [Option.map_some, st])
    · cases this

/-- R29: with no write past the gate, the capture unit is empty. -/
theorem writes_empty {s : State} (h : s.pathLaw) (none' : ∀ e ∈ s.host.table, (e.pastGate && e.isWrite) = false) :
    s.journal.waiting = [] ∧ s.capture.slotQueue = [] ∧ ∀ (i : Fin 8), s.capture.slots[i] = none := by
  have nowhere : ∀ id, s.writeAt id → s.nowhere id := fun id w => by
    apply h.path.outside
    unfold State.stateOf
    cases he : s.entry id with
    | none => exact .inl rfl
    | some e =>
      right
      have := none' e (List.mem_of_find?_eq_some he)
      have write : e.isWrite = true := by
        unfold Entry.isWrite
        exact Option.isSome_iff_ne_none.mpr (w e he)
      rw [write, Bool.and_true] at this
      unfold Entry.pastGate at this
      split at this
      · rename_i st; exact .inl (by rw [Option.map_some, st])
      · rename_i st; exact .inr (by rw [Option.map_some, st])
      · cases this
  have slots : ∀ (i : Fin 8), s.capture.slots[i] = none := fun i => by
    cases hs : s.capture.slots[i] with
    | none => rfl
    | some sl =>
      have n := nowhere sl.entry (h.writes.2 i sl hs)
      have a := inSlots_setSlot true sl.entry i none s
      have b := inSlots_setSlot false sl.entry i none s
      simp only [hs, Option.any_some, beq_self_eq_true, Bool.true_and, Option.any_none, Bool.false_eq_true, if_false,
        Nat.add_zero, n.2.1, n.2.2.1] at a b
      cases hst : (sl.stage == SlotStage.space) <;> simp [hst] at a b
  refine ⟨?_, ?_, slots⟩
  · rw [List.eq_nil_iff_forall_not_mem]
    intro r hr
    obtain ⟨sl, a, -⟩ := h.waits.2 r hr
    rw [slots] at a; cases a
  · rw [List.eq_nil_iff_forall_not_mem]
    intro id hid
    have := (nowhere id (h.writes.1 id hid)).1
    rw [State.inSlotQueue, List.count_eq_zero] at this
    exact this hid

/-- R32: a CHECKPOINT takes effect. -/
theorem checkpointEffect_lawful {s : State} (h : s.lawful k) (draining : s.epochs.controller = .draining)
    (run : s.service.coreReset = none) : (checkpointEffect s).lawful k := by
  have running := coreReset_none_running run
  have out : ¬ s.epochs.walks := by rintro (w | w) <;> (rw [draining] at w; cases w)
  have active : s.service.mode ≠ .bypass := fun m => by
    have := (h.bypass m).2
    rw [draining] at this; cases this
  let new : Epoch := { number := s.newEpochNumber, start := s.journal.nextSeq, broken := none, records := 0 }
  have law : (s.setEpochs {
      stack := new :: s.epochs.stack
      nextEpoch := followingEpoch s.newEpochNumber
      controller := .idle
      command := none }).lawful k := by
    refine ⟨h.path.congr rfl rfl rfl rfl rfl rfl rfl, h.map.same rfl rfl rfl rfl, fun _ o ho => ?_, fun _ => ?_, fun _ x hx st => ?_,
      (by rintro ((w | w) | w) <;> cases w), fun z => (nomatch z), h.stop, fun m => absurd m active, fun _ => h.still out⟩
    · change (new :: s.epochs.stack).getLast? = some o at ho
      cases hst : s.epochs.stack with
      | nil =>
        rw [hst, List.getLast?_singleton] at ho
        cases ho
        obtain ⟨map, -⟩ := h.zero hst
        refine ⟨s.journal.nextSeq, ⟨?_, le_rfl, ?_, fun x hx => ?_, ?_⟩, fun _ => rfl, by rintro (w | w) <;> cases w⟩
        · change covers _ s.journal.map _
          rw [map]; rfl
        · change Seq.after s.journal.nextSeq s.journal.nextSeq ≤ _
          rw [after_self]; omega
        · rw [List.mem_singleton.mp hx]; exact le_rfl
        · exact List.pairwise_singleton _ _
      | cons x xs =>
        rw [hst, List.getLast?_cons_cons, ← hst] at ho
        obtain ⟨e, span, still, -⟩ := h.spans running o ho
        obtain rfl := still out
        refine ⟨_, ⟨span.runs, span.ends, span.room, fun y hy => ?_, ?_⟩, fun _ => rfl, by rintro (w | w) <;> cases w⟩
        · rcases List.mem_cons.mp hy with rfl | hy
          · exact le_rfl
          · exact span.starts y (hst ▸ hy)
        · exact List.pairwise_cons.mpr ⟨fun a ha => span.starts a (hst ▸ ha), hst ▸ span.nested⟩
    · have := h.reads running
      exact ⟨this.1, fun n hn => absurd (this.2 n hn).1 out⟩
    · exact absurd (.inr (h.refills running x hx st).1) out
  unfold checkpointEffect
  simp only
  refine releaseParked_lawful ((clearMarks_lawful law).of (parts_post _ _ _)) ?_ (.inl ?_)
  · rw [post_epochs]; rintro ((w | w) | w) <;> cases w
  · rw [portStopped_post]; exact running

/-- R34: a COMMIT takes effect at depth 2 or more. -/
theorem commitNested_lawful {s : State} {child parent : Epoch} {rest : List Epoch} (h : s.lawful k)
    (stack : s.epochs.stack = child :: parent :: rest) (draining : s.epochs.controller = .draining)
    (run : s.service.coreReset = none) : (commitNested child parent rest s).lawful k := by
  have running := coreReset_none_running run
  have out : ¬ s.epochs.walks := by rintro (w | w) <;> (rw [draining] at w; cases w)
  have start : (mergeChild child parent).start = parent.start := rfl
  have law : (setStack (mergeChild child parent :: rest) s).lawful k := by
    refine ⟨setStack_pathLaw h.path, h.map.same rfl rfl rfl rfl, fun _ o ho => ?_, h.reads, h.refills, fun w => ?_, fun z => (nomatch z),
      h.stop, fun m => ?_, h.still⟩
    · have : ∃ o', s.epochs.stack.getLast? = some o' ∧ o'.start = o.start := by
        change (mergeChild child parent :: rest).getLast? = some o at ho
        rw [stack, List.getLast?_cons_cons]
        cases rest with
        | nil => rw [List.getLast?_singleton] at ho ⊢; exact ⟨parent, rfl, by rw [← Option.some.inj ho]; rfl⟩
        | cons x xs => rw [List.getLast?_cons_cons] at ho ⊢; exact ⟨o, ho, rfl⟩
      obtain ⟨o', ho', eq⟩ := this
      obtain ⟨e, span, still, -⟩ := h.spans running o' ho'
      rw [eq] at span
      have nested := span.nested
      rw [stack, List.pairwise_cons, List.pairwise_cons] at nested
      refine ⟨e, ⟨span.runs, span.ends, span.room, fun x hx => ?_, List.pairwise_cons.mpr ⟨nested.2.1, nested.2.2⟩⟩, still,
        fun w => absurd w out⟩
      rcases List.mem_cons.mp hx with rfl | hx
      · exact span.starts parent (by rw [stack]; simp)
      · exact span.starts x (by rw [stack]; simp [hx])
    · rcases w with w | w
      · exact absurd w out
      · change s.epochs.controller = _ at w
        rw [draining] at w; cases w
    · have := (h.bypass m).1
      rw [stack] at this; cases this
  have told := law.of (parts_post (some child.number) (.epochCommitted child.records
    (setStack (mergeChild child parent :: rest) s).depth) (setStack (mergeChild child parent :: rest) s))
  have broke : (if (child.broken.isSome && parent.broken.isNone) = true then
      post (some parent.number) (.epochBroken .inherited (setStack (mergeChild child parent :: rest) s).depth)
        (post (some child.number) (.epochCommitted child.records (setStack (mergeChild child parent :: rest) s).depth)
          (setStack (mergeChild child parent :: rest) s))
      else post (some child.number) (.epochCommitted child.records (setStack (mergeChild child parent :: rest) s).depth)
          (setStack (mergeChild child parent :: rest) s)).parts = (setStack (mergeChild child parent :: rest) s).parts := by
    split
    · rw [parts_post, parts_post]
    · rw [parts_post]
  unfold commitNested
  dsimp only
  refine releaseParked_lawful (State.lawful.of ?_ (parts_setController broke)) ?_ (.inl ?_)
  · exact setController_lawful law out (.inl rfl) fun _ => rfl
  · rintro ((w | w) | w) <;> cases w
  · have : ∀ u : State, u.parts = (setStack (mergeChild child parent :: rest) s).parts →
        (setController .idle none u).portStopped = false := fun u hu => by
      simp only [State.parts, Prod.mk.injEq] at hu
      exact (portStopped_same hu.2.1.2.2.1).trans running
    exact this _ broke

/-- R17, R18: a journal discard while no request waits. -/
theorem discardJournal_idle {s : State} (idle : s.journal.waiting = []) : discardJournal s =
    s.setJournal { s.journal with map := [], free := s.journal.free ++ s.journal.map.filterMap (·.physical) } :=
  freeSegments_idle (s := setMap [] s) idle

theorem mapLaw_empty {s t : State} (h : s.mapLaw k) (map : t.journal.map = [])
    (free : t.journal.free = s.journal.free ++ s.journal.map.filterMap (·.physical))
    (nseg : t.service.params.nseg = s.service.params.nseg) : t.mapLaw k := by
  refine ⟨?_, ?_, ?_, ?_, ?_, ?_⟩ <;> rw [map]
  · rw [free, nseg, List.filterMap_nil, List.append_nil]; exact h.pool
  · exact fun _ h => nomatch h
  · exact Nat.zero_le _
  · exact fun _ h => nomatch h
  · exact List.Pairwise.nil
  · exact fun _ h => nomatch h

/-- R35: a COMMIT takes effect at depth 1. -/
theorem commitOutermost_lawful {s : State} {e : Epoch} (h : s.lawful k) (draining : s.epochs.controller = .draining)
    (run : s.service.coreReset = none) (none' : ∀ e ∈ s.host.table, (e.pastGate && e.isWrite) = false) :
    (commitOutermost e s).lawful k := by
  have running := coreReset_none_running run
  have out : ¬ s.epochs.walks := by rintro (w | w) <;> (rw [draining] at w; cases w)
  obtain ⟨idle, queue, slots⟩ := writes_empty h.path none'
  have law : (setController .idle none (clearMarks ((setStack [] s).setJournal { s.journal with
      map := [], free := s.journal.free ++ s.journal.map.filterMap (·.physical) }))).lawful k := by
    refine ⟨setController_pathLaw (clearMarks_pathLaw (setJournal_pathLaw (setStack_pathLaw h.path) rfl rfl)),
      mapLaw_empty h.map rfl rfl rfl, fun _ o ho => (nomatch ho), fun _ => ?_, fun _ x hx => (nomatch hx),
      (by rintro ((w | w) | w) <;> cases w), fun _ => ⟨rfl, rfl, queue, fun i sl hi => ?_⟩, h.stop, fun _ => ⟨rfl, rfl⟩,
      fun _ => h.still out⟩
    · have := h.reads running
      exact ⟨this.1, fun n hn => absurd (this.2 n hn).1 out⟩
    · change s.capture.slots[i] = some sl at hi
      rw [slots] at hi; cases hi
  unfold commitOutermost
  rw [discardJournal_idle (s := setStack [] s) idle]
  dsimp only
  have parts : ∀ n kind r, (setController .idle none (post n kind (clearMarks (postDiscard (some e.number) r
      ((setStack [] s).setJournal { (setStack [] s).journal with
        map := [], free := (setStack [] s).journal.free ++ (setStack [] s).journal.map.filterMap (·.physical) }))))).parts =
      (setController .idle none (clearMarks ((setStack [] s).setJournal { s.journal with
      map := [], free := s.journal.free ++ s.journal.map.filterMap (·.physical) }))).parts := fun n kind r => by
    exact parts_setController ((parts_post _ _ _).trans (parts_clearMarks (postDiscard_parts _ _ _)))
  refine releaseParked_lawful (law.of (parts _ _ _)) ?_ (.inl ?_)
  · rintro ((w | w) | w) <;> cases w
  · have := parts (some e.number) (.epochCommitted e.records 0) s.segmentRange
    simp only [State.parts, Prod.mk.injEq] at this
    exact (portStopped_same this.2.1.2.2.1).trans running

/-- R34, R35: a COMMIT takes effect. -/
theorem commitEffect_lawful {s : State} (h : s.lawful k) (draining : s.epochs.controller = .draining)
    (run : s.service.coreReset = none) (none' : ∀ e ∈ s.host.table, (e.pastGate && e.isWrite) = false) :
    (commitEffect s).lawful k := by
  unfold commitEffect
  split
  · rename_i stack; exact commitNested_lawful h stack draining run
  · exact commitOutermost_lawful h draining run none'
  · exact releaseParked_lawful (setController_lawful h (by rintro (w | w) <;> (rw [draining] at w; cases w)) (.inl rfl) fun _ => rfl)
      (by rintro ((w | w) | w) <;> cases w) (.inl (coreReset_none_running run))

/-- R64: the drain of a ROLLBACK is complete. -/
theorem rollbackEffect_lawful {s : State} (h : s.lawful k) (draining : s.epochs.controller = .draining)
    (run : s.service.coreReset = none) (closed : s.gateClosed) : (rollbackEffect s).lawful k := by
  have out : ¬ s.epochs.walks := by rintro (w | w) <;> (rw [draining] at w; cases w)
  have released : (releaseParked (setController .idle none s)).lawful k :=
    releaseParked_lawful (setController_lawful h out (.inl rfl) fun _ => rfl)
      (by rintro ((w | w) | w) <;> cases w) (.inl (coreReset_none_running run))
  unfold rollbackEffect
  split
  · exact released
  · rename_i e he
    split
    · obtain ⟨rest, stack⟩ : ∃ rest, s.epochs.stack = e :: rest := by
        unfold State.top at he
        cases hst : s.epochs.stack with
        | nil => rw [hst] at he; cases he
        | cons x xs => rw [hst] at he; cases he; exact ⟨xs, rfl⟩
      exact settleRollback_lawful (startWalk_lawful h stack out run closed)
    · exact released.of (parts_post _ _ _)

/-- R29: a drain that is complete takes effect. -/
theorem completeDrain_lawful {s : State} {c : PendingCommand} (h : s.lawful k) : (completeDrain c s).lawful k := by
  unfold completeDrain
  split
  · rename_i cond
    obtain ⟨draining, run, counts⟩ := drainComplete_says cond.2 cond.1
    unfold drainEffect
    split
    · exact checkpointEffect_lawful h draining run
    · exact commitEffect_lawful h draining run counts
    · exact rollbackEffect_lawful h draining run (closed_of_past counts)
  · exact h

theorem settleDrain_lawful {s : State} (h : s.lawful k) : (settleDrain s).lawful k := by
  unfold settleDrain
  split
  · exact h
  · exact completeDrain_lawful h

end Sys2Proof.Machine
end

