-- ==== Sys2Proof/Laws/Kept.lean ====
section
/-! SUPPORT. The laws of the part over core reset, the memory link, the timers and the service commands. -/

namespace Sys2Proof.Machine

variable {k : Nat}

/-! ### Core reset (R170 to R172) -/

theorem portStopped_done {s : State} {r : CoreReset} (h : s.portStopped = true) (hr : s.service.coreReset = some r) :
    r.journalDone = false := by simpa [State.portStopped, hr] using h

/-- R170: CORE_RESET is taken. -/
theorem beginCoreReset_lawful {s : State} (h : s.lawful k) : (beginCoreReset s).lawful k := by
  have slot : ∀ j : Fin 8, (beginCoreReset s).capture.slots[j] = coreResetSlot s.capture.slots[j] := fun j => by
    simp [beginCoreReset, setRefillTimer, setContext, setController]
  have kept : ∀ {j : Fin 8} {x : Slot}, (beginCoreReset s).capture.slots[j] = some x →
      x.stage ≠ .read ∧ ∃ y, s.capture.slots[j] = some y ∧ y.entry = x.entry ∧ (y.stage = .discard → x.stage = .discard) :=
    fun {j} {x} hj => by
      rw [slot] at hj
      cases hs : s.capture.slots[j] with
      | none => rw [hs] at hj; cases hj
      | some y =>
        rw [hs] at hj
        unfold coreResetSlot at hj
        by_cases st : y.stage = .read
        · simp only [st, if_true] at hj; cases hj
          exact ⟨by simp, y, rfl, rfl, fun _ => rfl⟩
        · dsimp only at hj; rw [if_neg st] at hj; cases hj
          exact ⟨st, x, rfl, rfl, id⟩
  have count : ∀ b x, (beginCoreReset s).inSlots b x = s.inSlots b x := fun b x => by
    unfold State.inSlots
    rw [countP_slots, countP_slots]
    congr 1
    funext j
    rw [slot]
    cases hs : s.capture.slots[j] with
    | none => rfl
    | some y =>
      unfold coreResetSlot
      by_cases st : y.stage = .read
      · simp only [st, if_true, Option.any_some]; rfl
      · simp [st]
  have path : (beginCoreReset s).pathLaw := by
    refine ⟨h.path.names, fun x => ?_, ⟨h.path.writes.1, fun j x hj => ?_⟩, ⟨List.nodup_nil, fun r hr => nomatch hr⟩, ?_⟩
    · refine (h.path.path x).mono le_rfl (count true x).le ?_
      change (beginCoreReset s).inSlots false x + s.inLinks x ≤ _
      rw [count]
    · obtain ⟨-, y, hy, e, -⟩ := kept hj
      rw [← e]; exact h.path.writes.2 j y hy
    · have sub : (beginCoreReset s).journal.ops.Sublist s.journal.ops := List.sublist_append_right _ _
      refine ⟨h.path.appends.1.sublist (sub.filterMap _), fun i hi => ?_⟩
      obtain ⟨x, a, b⟩ := h.path.appends.2 i ((sub.filterMap _).subset hi)
      refine ⟨x, ?_, b⟩
      rw [slot, a]
      simp [coreResetSlot, b]
  have stopped : (beginCoreReset s).portStopped = true := rfl
  refine ⟨path, h.map.same rfl rfl rfl rfl, fun p => ?_, fun p => ?_, fun p => ?_, fun _ => ⟨fun n => (nomatch n), fun r hr => ?_⟩,
    fun z => ?_, fun _ => ⟨rfl, rfl, fun i x hi => (kept hi).1⟩, h.bypass, fun _ n => (nomatch n)⟩
  · rw [stopped] at p; cases p
  · rw [stopped] at p; cases p
  · rw [stopped] at p; cases p
  · exact portStopped_done stopped hr
  · obtain ⟨a, b, c, d⟩ := h.zero z
    refine ⟨a, b, c, fun i x hi => ?_⟩
    obtain ⟨-, y, hy, -, st⟩ := kept hi
    exact st (d i y hy)

/-- R60, R171: the journal step's captures. -/
theorem settleCaptures_pathLaw {s : State} (h : s.pathLaw) (idle : s.journal.waiting = []) (ops : s.journal.ops = []) :
    (settleCaptures s).pathLaw := by
  generalize hu : s.setCapture { slots := Vector.ofFn s.slotAfterJournalStep, slotQueue := [], marks := [], markSpills := 0 } = u
  have eq : settleCaptures s = issueAll s.journalStepIssues u := by subst hu; rfl
  have slot : ∀ j : Fin 8, u.capture.slots[j] = s.slotAfterJournalStep j := fun j => by subst hu; simp
  have kept : ∀ {j : Fin 8} {x : Slot}, u.capture.slots[j] = some x → s.capture.slots[j] = some x ∧ x.stage = .discard :=
    fun {j} {x} hj => by
      rw [slot] at hj
      unfold State.slotAfterJournalStep at hj
      split at hj
      · cases hj
      · rename_i y hy
        split at hj
        · rename_i st; cases hj; exact ⟨hy, st.1⟩
        · cases hj
  have sub : ∀ b x (j : Fin 8), (u.capture.slots[j].any fun sl => sl.entry == x && (sl.stage == .space) == b) = true →
      (s.capture.slots[j].any fun sl => sl.entry == x && (sl.stage == .space) == b) = true := fun b x j hj => by
    cases hs : u.capture.slots[j] with
    | none => rw [hs] at hj; cases hj
    | some y => rw [(kept hs).1]; rw [hs] at hj; exact hj
  have le : ∀ b x, u.inSlots b x ≤ s.inSlots b x := fun b x => countP_slots_le (sub b x)
  have space : ∀ x, u.inSlots true x = 0 := fun x => by
    unfold State.inSlots
    rw [countP_slots, List.countP_eq_zero]
    intro j _ hj
    cases hs : u.capture.slots[j] with
    | none => rw [hs] at hj; cases hj
    | some y =>
      rw [hs] at hj
      simp [(kept hs).2] at hj
  have queue : ∀ x, u.inSlotQueue x = 0 := fun x => by subst hu; simp [State.inSlotQueue]
  have links : ∀ x, u.inLinks x = s.inLinks x := fun x => by subst hu; rfl
  have st : ∀ x, u.stateOf x = s.stateOf x := fun x => by subst hu; rfl
  have law : u.pathLaw := by
    refine ⟨by subst hu; exact h.names, fun x => ?_, ⟨fun x hx => ?_, fun j x hj => ?_⟩, ?_, ?_⟩
    · unfold State.fitsAt
      rw [st, links, queue, space]
      exact (h.path x).mono (Nat.zero_le _) (Nat.zero_le _) (Nat.add_le_add_right (le false x) _)
    · subst hu; cases hx
    · have := h.writes.2 j x (kept hj).1
      subst hu; exact this
    · subst hu
      refine ⟨?_, fun r hr => ?_⟩
      · change (s.journal.waiting.map _).Nodup; rw [idle]; exact List.nodup_nil
      · change r ∈ s.journal.waiting at hr; rw [idle] at hr; cases hr
    · subst hu
      refine ⟨?_, fun i hi => ?_⟩
      · change (s.journal.ops.filterMap _).Nodup; rw [ops]; exact List.nodup_nil
      · change i ∈ s.journal.ops.filterMap _ at hi; rw [ops] at hi; cases hi
  rw [eq]
  refine (issueAll_carried _ u).pathLaw law (issueAll_onPath (filter_ids_nodup h.names _) law.path fun id hid => ?_)
  simp only [State.journalStepIssues, List.mem_map, List.mem_filter, Bool.or_eq_true, decide_eq_true_eq, List.any_eq_true,
    Bool.and_eq_true, Option.isNone_iff_eq_none] at hid
  obtain ⟨e, ⟨mem, why⟩, rfl⟩ := hid
  have fit := h.path e.id
  have l := links e.id
  have lf := le false e.id
  refine ⟨queue _, space _, ?_⟩
  rcases why with w | ⟨i, -, held, gone⟩
  · have state := stateOf_of_mem h.names mem
    unfold State.fitsAt at fit
    rw [state, w] at fit
    obtain ⟨-, -, c⟩ := fit
    simp only [placesOf] at c
    omega
  · rw [Option.any_eq_true] at held
    obtain ⟨sl, hs, eqid⟩ := held
    have eqid : sl.entry = e.id := by simpa using eqid
    by_cases sp : sl.stage = .space
    · have one : 1 ≤ s.inSlots true e.id := by
        unfold State.inSlots
        rw [countP_slots]
        exact List.countP_pos_iff.mpr ⟨i, List.mem_finRange i, by rw [hs]; simp [eqid, sp]⟩
      obtain ⟨-, -, c, -⟩ := fit.spaced one
      omega
    · have lt : u.inSlots false e.id < s.inSlots false e.id := by
        refine countP_slots_lt (sub false e.id) rfl (i := i) ?_ ?_
        · rw [hs]
          simp [eqid, sp]
        · rw [slot, gone]; rfl
      obtain ⟨-, -, c, -⟩ := fit.other (by omega)
      omega

/-- R171: the journal step. -/
theorem journalStep_lawful {s : State} (h : s.lawful k) (due : s.journalStepDue = true) : (journalStep s).lawful k := by
  obtain ⟨r, hr, done, outstanding⟩ : ∃ r, s.service.coreReset = some r ∧ r.journalDone = false ∧ s.journal.outstanding = [] := by
    unfold State.journalStepDue at due
    split at due
    · rename_i r hr
      simp only [Bool.and_eq_true, Bool.not_eq_true', List.isEmpty_iff] at due
      exact ⟨r, hr, due.1, due.2⟩
    · cases due
  have stopped : s.portStopped = true := by simp [State.portStopped, hr, done]
  obtain ⟨queue, idle, -⟩ := h.stop stopped
  have ops : s.journal.ops = [] := by simp [JournalUnit.ops, queue, outstanding]
  unfold journalStep
  rw [discardJournal_idle idle]
  dsimp only
  generalize hu : setStack [] (setController .idle none ((s.setJournal { s.journal with
    map := [], free := s.journal.free ++ s.journal.map.filterMap (·.physical) }).setJournal { (s.setJournal { s.journal with
    map := [], free := s.journal.free ++ s.journal.map.filterMap (·.physical) }).journal with lastGranted := .service })) = u
  have map : u.mapLaw k := by subst hu; exact mapLaw_empty h.map rfl rfl rfl
  have path : u.pathLaw := by
    subst hu
    exact setStack_pathLaw (setController_pathLaw (setJournal_pathLaw (setJournal_pathLaw h.path rfl rfl) rfl rfl))
  have frame : u.journal.map = [] ∧ u.journal.waiting = [] ∧ u.journal.ops = [] ∧ u.epochs.stack = [] ∧
      u.epochs.controller = .idle ∧ u.service = s.service := by
    subst hu; exact ⟨rfl, idle, ops, rfl, rfl, rfl⟩
  obtain ⟨map0, idle0, ops0, stack0, ctl0, service0⟩ := frame
  have pathV := settleCaptures_pathLaw path idle0 ops0
  have c : Carried (u.setCapture { slots := Vector.ofFn u.slotAfterJournalStep, slotQueue := [], marks := [], markSpills := 0 })
      (settleCaptures u) := issueAll_carried _ _
  have cap : (settleCaptures u).capture =
      { slots := Vector.ofFn u.slotAfterJournalStep, slotQueue := [], marks := [], markSpills := 0 } := issueAll_capture _ _
  have p := c.path
  generalize settleCaptures u = v at pathV p cap
  have hold : (clearHolds v).parts = v.parts := by
    unfold clearHolds
    rw [parts_announceHold, parts_evaluateAuto]; rfl
  simp only [State.parts, Prod.mk.injEq] at hold
  obtain ⟨⟨a1, a2, a3, a4⟩, ⟨b1, b2, b3, b4, b5⟩, ⟨c1, c2, c3, c4⟩, d1, d2, d3⟩ := hold
  have jn : v.journal = u.journal := p.journal
  have ep : v.epochs = u.epochs := p.epochs
  have sv : v.service = s.service := p.service.trans service0
  generalize clearHolds v = w at *
  have opsW : w.journal.ops = [] := by simp only [JournalUnit.ops, d2, d3, jn]; exact ops0
  refine ⟨(pathV.congr a1 a2 (by rw [a3]) (by rw [a3]) a4 d1 (by simp only [JournalUnit.ops, d2, d3])).congr rfl rfl rfl rfl rfl rfl rfl,
    map.same (by change w.journal.map = _; rw [c1, jn]) (by change w.journal.free = _; rw [c2, jn])
      (by change w.journal.nextQ = _; rw [c4, jn])
      (by change w.service.params.nseg = _; rw [b5, sv, service0]),
    fun _ o ho => ?_, fun _ => ?_, fun _ x hx => ?_, fun g => ?_, fun _ => ⟨?_, ?_, ?_, fun i sl hi => ?_⟩, fun q => ?_, fun _ => ⟨?_, ?_⟩,
    fun _ n => ?_⟩
  · change w.epochs.stack.getLast? = some o at ho
    rw [b1, ep, stack0] at ho; cases ho
  · change (w.journal.ops.filterMap PortOp.readSeq).length ≤ 1 ∧ ∀ n ∈ w.journal.ops.filterMap PortOp.readSeq, _
    rw [opsW]; exact ⟨by simp, fun n hn => nomatch hn⟩
  · change x ∈ w.journal.map at hx
    rw [c1, jn, map0] at hx; cases hx
  · change (w.epochs.walks ∨ w.epochs.controller = .stopped) at g
    rw [b1, ep] at g
    rcases g with (g | g) | g <;> (rw [ctl0] at g; cases g)
  · change w.journal.map = []; rw [c1, jn, map0]
  · change w.capture.marks = []; rw [a3, cap]
  · change w.capture.slotQueue = []; rw [a3, cap]
  · change w.capture.slots[i] = some sl at hi
    rw [a3, cap] at hi
    simp only [Fin.getElem_fin, Vector.getElem_ofFn] at hi
    unfold State.slotAfterJournalStep at hi
    split at hi
    · cases hi
    · split at hi
      · rename_i st; cases hi; exact st.1
      · cases hi
  · unfold State.portStopped at q
    rw [State.setService_service, b3, sv, hr] at q; cases q
  · change w.epochs.stack = []; rw [b1, ep, stack0]
  · change w.epochs.controller = .idle; rw [b1, ep, ctl0]
  · rw [State.setService_service, b3, sv, hr] at n; cases n

/-- R172: the end of a core reset. -/
theorem settleCoreResetEnd_lawful {s : State} (h : s.lawful k) : (settleCoreResetEnd s).lawful k := by
  unfold settleCoreResetEnd
  split
  · rename_i due
    split
    · exact h
    · rename_i r hr
      have done : r.journalDone = true := by
        unfold State.coreResetEndDue at due
        rw [hr] at due
        simp only [Bool.and_eq_true] at due
        exact due.1
      have running : s.portStopped = false := by simp [State.portStopped, hr, done]
      have out : ¬ (s.epochs.walks ∨ s.epochs.controller = .stopped) := fun w => by
        have := (h.gate w).2 r hr
        rw [done] at this; cases this
      have law : (setContext none (s.setService { s.service with coreReset := none })).lawful k := by
        refine ⟨setContext_pathLaw (setService_pathLaw h.path), h.map.same rfl rfl rfl rfl, fun _ o ho => ?_, fun _ => ?_,
          fun _ x hx st => ?_, fun w => absurd w out, h.zero, fun q => (nomatch q), h.bypass, fun _ _ c hc => nomatch hc⟩
        · obtain ⟨e, span, still, -⟩ := h.spans running o ho
          exact ⟨e, ⟨span.runs, span.ends, span.room, span.starts, span.nested⟩, still, fun w => absurd (.inl w) out⟩
        · have := h.reads running
          exact ⟨this.1, fun n hn => absurd (.inl (this.2 n hn).1) out⟩
        · exact absurd (.inl (.inr (h.refills running x hx st).1)) out
      have released := releaseParked_lawful law out (.inl rfl)
      unfold endCoreReset
      dsimp only
      refine State.lawful.of (s := releaseParked (setContext none (s.setService { s.service with coreReset := none }))) released ?_
      rw [parts_respond, parts_post, postDiscard_parts]
      rfl
  · exact h

theorem settleJournalStep_lawful {s : State} (h : s.lawful k) : (settleJournalStep s).lawful k := by
  unfold settleJournalStep
  split
  · rename_i due; exact journalStep_lawful h due
  · exact h

theorem settleCoreReset_lawful {s : State} (h : s.lawful k) : (settleCoreReset s).lawful k :=
  settleCoreResetEnd_lawful (settleJournalStep_lawful h)

/-! ### Completions and timeouts of the memory link (R125, R149 to R151) -/

theorem readEnds_lawful {id : HostId} {n : Nat} {d : Option (List Word)} {s : State} (h : s.lawful k) (nw : s.nowhere id)
    (past : placesOf (s.stateOf id) = (0, 0, 1)) : (readEnds id n d s).lawful k := by
  unfold readEnds; split
  · unfold useFresh; split
    · exact answer_lawful (s := nextFresh s) (h.of (parts_nextFresh s)) nw past _ _ _
    · exact answer_lawful h nw past _ _ _
  · exact answer_lawful h nw past _ _ _

theorem handOutcome_lawful {r : MemRequest} {d : Option (List Word)} {s : State} (h : s.lawful k) (small : k + 1 < 2 ^ 32)
    (host : ∀ id, r.host = some id → s.nowhere id ∧ placesOf (s.stateOf id) = (0, 0, 1)) :
    (handOutcome r d s).lawful (k + 1) := by
  unfold handOutcome; split
  · obtain ⟨a, b⟩ := host _ rfl; exact (readEnds_lawful h a b).mono (by omega)
  · obtain ⟨a, b⟩ := host _ rfl; exact (answer_lawful h a b _ _ _).mono (by omega)
  · exact captureReadEnds_lawful h small
  · exact (restoreEnds_lawful h).mono (by omega)

theorem takeCompletion_lawful {t : Fin 64} {st : Status} {d : List Word} {s : State} (h : s.lawful k) (small : k + 1 < 2 ^ 32) :
    (takeCompletion t st d s).lawful (k + 1) := by
  unfold takeCompletion; split
  · rename_i r e hr
    have law := serveTagQueue_lawful (setTag_lawful (t := t) (v := .free) h rfl)
    have host : ∀ id, r.host = some id → (serveTagQueue (setTag t .free s)).nowhere id ∧
        placesOf ((serveTagQueue (setTag t .free s)).stateOf id) = (0, 0, 1) := fun id hid => by
      obtain ⟨a, b⟩ := setTag_nowhere (t := t) (v := .free) h.path.path rfl (id := id) (by rw [hr]; exact hid)
      obtain ⟨c, d⟩ := serveTagQueue_nowhere a
      exact ⟨c, by rw [d]; exact b⟩
    unfold completeRequest
    simp only
    split
    · exact handOutcome_lawful law small host
    · exact (handOutcome_lawful law small host).of (parts_post _ _ _)
  · exact ((serveTagQueue_lawful (setTag_lawful h rfl)).of (parts_post _ _ _)).mono (by omega)
  · exact (h.of (parts_post _ _ _)).mono (by omega)

theorem takeTimeout_lawful {t : Fin 64} {s : State} (h : s.lawful k) (small : k + 1 < 2 ^ 32) :
    (takeTimeout t s).lawful (k + 1) := by
  unfold takeTimeout; split
  · rename_i r e hr
    have law := h.of (parts_advanceTo e s)
    have memIf : (advanceTo e s).memIf = s.memIf := by unfold advanceTo; split <;> rfl
    refine State.lawful.of (handOutcome_lawful (setTag_lawful law rfl) small fun id hid => ?_) (parts_post _ _ _)
    exact setTag_nowhere law.path.path rfl (by rw [memIf, hr]; exact hid)
  · exact h.mono (by omega)

/-! ### Timers -/

theorem fullWaitExpires_lawful {id : HostId} {s : State} (h : s.lawful k) : (fullWaitExpires id s).lawful k := by
  unfold fullWaitExpires; split
  · exact h
  · exact breakTop_lawful ((h.of (parts_advanceTo _ s)).of (parts_stopFullWait _ _))

theorem refreshExpires_lawful {s : State} (h : s.lawful k) : (refreshExpires s).lawful k := by
  unfold refreshExpires; split
  · exact h
  · split
    · exact State.lawful.of (State.lawful.of (h.of (parts_advanceTo _ s)) (parts_send rfl _)) (parts_setSpace _ _)
    · exact h

/-- R76: the refill timer expires. -/
theorem refillExpires_lawful {s : State} (h : s.lawful k) : (refillExpires s).lawful k := by
  unfold refillExpires; split
  · rename_i c expiry hc _
    obtain ⟨ctl, run, context, fine⟩ := walking_some hc
    split
    · rename_i x hx
      obtain ⟨c', b, e, W⟩ := h.inWalk (.inr ctl) run
      obtain rfl : c' = c := by have := W.context; rw [context] at this; exact (Option.some.inj this).symm
      obtain ⟨r, hr, hx⟩ := Option.bind_eq_some_iff.mp hx
      have mem := covers_mem W.span.runs W.law.map.entries (mem_of_segment hx).1
      have lo := W.walk.refill r hr x hx
      exact failRollback_lawful (W.congr (parts_advanceTo _ _)) ⟨lo, by omega⟩
    · exact h
  · exact h

/-! ### Commands (R158, R176) -/

theorem respond_lawful {a : Answer} {s : State} (h : s.lawful k) : (respond a s).lawful k := h.of (parts_respond _ _)

theorem setParams_lawful {p : Params} {s : State} (h : s.lawful k) (nseg : p.nseg = s.service.params.nseg) :
    (setParams p s).lawful k := h.of (parts_setService rfl rfl nseg)

theorem writeDefaultAction_lawful {v : Nat} {s : State} (h : s.lawful k) : (writeDefaultAction v s).lawful k := by
  unfold writeDefaultAction; split
  · exact respond_lawful h
  · split
    · exact respond_lawful h
    · exact respond_lawful (setParams_lawful h rfl)

/-- R8: in BYPASS the map is empty, and the free list is rebuilt. -/
theorem writeNseg_lawful {v : Nat} {s : State} (h : s.lawful k) : (writeNseg v s).lawful k := by
  unfold writeNseg; split
  · exact respond_lawful h
  · rename_i mode
    split
    · exact respond_lawful h
    · have bypass : s.service.mode = .bypass := by
        cases hm : s.service.mode with
        | bypass => rfl
        | active => exact absurd hm mode
      obtain ⟨stack, -⟩ := h.bypass bypass
      obtain ⟨map, -⟩ := h.zero stack
      have law : (rebuildFree v (setParams { s.service.params with nseg := v } s)).lawful k := by
        refine ⟨setJournal_pathLaw (setService_pathLaw h.path) rfl rfl, ⟨?_, ?_, ?_, ?_, ?_, ?_⟩,
          fun p => (h.spans p).same rfl rfl rfl rfl, h.reads, h.refills, h.gate, h.zero, h.stop, h.bypass, h.still⟩
        · change ((List.range v).map (BitVec.ofNat 8) ++ s.journal.map.filterMap _).Perm _
          rw [map, List.filterMap_nil, List.append_nil]; exact List.Perm.refl _
        · exact h.map.present
        · exact h.map.entries
        · exact h.map.newest
        · exact h.map.rising
        · exact h.map.ages
      exact respond_lawful (law.of (parts_evaluateAuto _))

theorem writeMemTimeout_lawful {v : Nat} {s : State} (h : s.lawful k) : (writeMemTimeout v s).lawful k := by
  unfold writeMemTimeout; split
  · exact respond_lawful h
  · exact respond_lawful (setParams_lawful h rfl)

theorem writeFullWait_lawful {v : Nat} {s : State} (h : s.lawful k) : (writeFullWait v s).lawful k := by
  unfold writeFullWait; split
  · exact respond_lawful h
  · exact respond_lawful (setParams_lawful h rfl)

theorem writeHoldTime_lawful {v : Nat} {s : State} (h : s.lawful k) : (writeHoldTime v s).lawful k := by
  unfold writeHoldTime; split
  · exact respond_lawful h
  · exact respond_lawful (setParams_lawful h rfl)

theorem writeHoldOnFree_lawful {v : Nat} {s : State} (h : s.lawful k) : (writeHoldOnFree v s).lawful k := by
  unfold writeHoldOnFree; split
  · exact respond_lawful h
  · exact respond_lawful ((setParams_lawful h rfl).of (parts_evaluateAuto _))

theorem writeHoldOffFree_lawful {v : Nat} {s : State} (h : s.lawful k) : (writeHoldOffFree v s).lawful k := by
  unfold writeHoldOffFree; split
  · exact respond_lawful h
  · exact respond_lawful ((setParams_lawful h rfl).of (parts_evaluateAuto _))

theorem writeRefillWait_lawful {v : Nat} {s : State} (h : s.lawful k) : (writeRefillWait v s).lawful k := by
  unfold writeRefillWait; split
  · exact respond_lawful h
  · exact respond_lawful (setParams_lawful h rfl)

theorem writeRestoreAhead_lawful {v : Nat} {s : State} (h : s.lawful k) : (writeRestoreAhead v s).lawful k := by
  unfold writeRestoreAhead; split
  · exact respond_lawful h
  · exact respond_lawful (setParams_lawful h rfl)

theorem writeParam_lawful {p : Param} {v : Nat} {s : State} (h : s.lawful k) : (writeParam p v s).lawful k := by
  unfold writeParam; split
  · exact writeDefaultAction_lawful h
  · exact writeNseg_lawful h
  · exact writeMemTimeout_lawful h
  · exact writeFullWait_lawful h
  · exact writeHoldTime_lawful h
  · exact writeHoldOnFree_lawful h
  · exact writeHoldOffFree_lawful h
  · exact writeRefillWait_lawful h
  · exact writeRestoreAhead_lawful h

theorem cmdParamWrite_lawful {bs : List Byte} {s : State} (h : s.lawful k) : (cmdParamWrite bs s).lawful k := by
  unfold cmdParamWrite; split
  · exact respond_lawful h
  · exact writeParam_lawful h

theorem cmdParamWriteOf_lawful {p : Param} {own : Nat → State → State} (keeps : ∀ {v : Nat} {s : State}, s.lawful k → (own v s).lawful k)
    {bs : List Byte} {s : State} (h : s.lawful k) : (cmdParamWriteOf p own bs s).lawful k := by
  unfold cmdParamWriteOf; split
  · exact keeps h
  · exact cmdParamWrite_lawful h

theorem cmdParamRead_lawful {bs : List Byte} {s : State} (h : s.lawful k) : (cmdParamRead bs s).lawful k := by
  unfold cmdParamRead; split <;> exact respond_lawful h

theorem cmdEventPop_lawful {bs : List Byte} {s : State} (h : s.lawful k) : (cmdEventPop bs s).lawful k := by
  unfold cmdEventPop; split
  · exact respond_lawful h
  · exact respond_lawful (h.of (parts_setService rfl rfl rfl))

/-- R168: the mode changes where the epochs allow it. -/
theorem setMode_lawful {m : Mode} {s : State} (h : s.lawful k)
    (may : m = .bypass → s.epochs.stack = [] ∧ s.epochs.controller = .idle) :
    (s.setService { s.service with mode := m }).lawful k :=
  ⟨setService_pathLaw h.path, h.map.same rfl rfl rfl rfl, fun p => (h.spans p).same rfl rfl rfl rfl, h.reads, h.refills, h.gate, h.zero,
    h.stop, fun e => may e, h.still⟩

theorem cmdDisable_lawful {bs : List Byte} {s : State} (h : s.lawful k) : (cmdDisable bs s).lawful k := by
  unfold cmdDisable; split
  · rename_i cond
    exact respond_lawful (setMode_lawful h fun _ => ⟨List.length_eq_zero_iff.mp cond.1, cond.2⟩)
  · exact respond_lawful h

theorem cmdWindowWrite_lawful {bs : List Byte} {s : State} (h : s.lawful k) : (cmdWindowWrite bs s).lawful k := by
  unfold cmdWindowWrite; split
  · exact respond_lawful h
  · split
    · exact respond_lawful h
    · split
      · exact respond_lawful h
      · exact respond_lawful (h.of rfl)

theorem cmdWindowRead_lawful {bs : List Byte} {s : State} (h : s.lawful k) : (cmdWindowRead bs s).lawful k := by
  unfold cmdWindowRead; split <;> exact respond_lawful h

/-- R29, R30: a drain begins. -/
theorem startDrain_lawful {c : PendingCommand} {s : State} (h : s.lawful k) (idle : s.epochs.controller = .idle)
    (active : s.service.mode ≠ .bypass) : (startDrain c s).lawful k :=
  respond_lawful (settleDrain_lawful (setController_lawful h (by rintro (w | w) <;> (rw [idle] at w; cases w)) (.inr rfl)
    fun m => absurd m active))

theorem active_of_stack {s : State} (h : s.lawful k) (stack : s.epochs.stack ≠ []) : s.service.mode ≠ .bypass :=
  fun m => stack (h.bypass m).1

theorem cmdCheckpoint_lawful {bs : List Byte} {s : State} (h : s.lawful k) : (cmdCheckpoint bs s).lawful k := by
  unfold cmdCheckpoint; split
  · exact respond_lawful h
  · rename_i idle
    split
    · exact respond_lawful h
    · rename_i active
      split
      · exact respond_lawful h
      · exact startDrain_lawful h (not_not.mp idle) active

theorem cmdCommit_lawful {bs : List Byte} {s : State} (h : s.lawful k) : (cmdCommit bs s).lawful k := by
  unfold cmdCommit; split
  · exact respond_lawful h
  · rename_i idle
    split
    · exact respond_lawful h
    · rename_i depth
      exact startDrain_lawful h (not_not.mp idle) (active_of_stack h fun z => depth (by rw [State.depth, z]; rfl))

theorem breakTop_epochs_stack {r : BrokenReason} {s : State} : (breakTop r s).epochs.controller = s.epochs.controller ∧
    (s.epochs.stack ≠ [] → (breakTop r s).topOpen = false) := by
  cases hst : s.epochs.stack with
  | nil => simp [breakTop, hst]
  | cons e rest =>
    by_cases opened : e.broken = none
    · rw [breakTop_open hst opened]
      have p := (brokenNotice_path (post (some e.number) (.epochBroken r s.depth) (setStack ({ e with broken := some r } :: rest) s))).epochs
      refine ⟨by rw [p]; simp; rfl, fun _ => ?_⟩
      unfold State.topOpen State.top
      rw [p]
      simp [setStack]
    · simp only [breakTop, hst, if_neg opened]
      refine ⟨trivial, fun _ => ?_⟩
      unfold State.topOpen State.top
      rw [hst]
      dsimp only [List.head?_cons]
      cases hb : e.broken with
      | none => exact absurd hb opened
      | some x => rfl

/-- R38, R82: ABANDON in STOPPED. -/
theorem abandonStopped_lawful {s : State} (h : s.lawful k) (stopped : s.epochs.controller = .stopped) (stack : s.epochs.stack ≠ []) :
    (abandonStopped s).lawful k := by
  obtain ⟨ctl, broke⟩ := breakTop_epochs_stack (r := .abandoned) (s := s)
  have out : ¬ (breakTop .abandoned s).epochs.walks := by rintro (w | w) <;> (rw [ctl, stopped] at w; cases w)
  have law := setController_lawful (ctl := .idle) (cmd := none) (setContext_none_lawful (breakTop_lawful (r := .abandoned) h) out)
    (by exact out) (.inl rfl) fun _ => rfl
  exact releaseParked_lawful law (by rintro ((w | w) | w) <;> cases w) (.inr (broke stack))

theorem cmdAbandon_lawful {bs : List Byte} {s : State} (h : s.lawful k) : (cmdAbandon bs s).lawful k := by
  unfold cmdAbandon; split
  · split
    · exact respond_lawful h
    · exact respond_lawful (breakTop_lawful h)
  · rename_i stopped
    split
    · exact respond_lawful h
    · rename_i depth
      exact respond_lawful (abandonStopped_lawful h stopped fun z => depth (by rw [State.depth, z]; rfl))
  · exact respond_lawful h

/-- In a stopped part the controller may take any state. -/
theorem setController_stopped {ctl : Controller} {cmd : Option PendingCommand} {s : State} (h : s.lawful k)
    (stopped : s.portStopped = true) (stack : s.epochs.stack ≠ []) : (setController ctl cmd s).lawful k := by
  have reset := portStopped_coreReset stopped
  have no : ∀ {p : Prop}, (setController ctl cmd s).portStopped = false → p := fun q => by
    change s.portStopped = false at q
    rw [stopped] at q; cases q
  exact ⟨setController_pathLaw h.path, h.map.same rfl rfl rfl rfl, fun p => no p, fun p => no p, fun p => no p,
    fun _ => ⟨fun n => absurd n reset, fun r hr => portStopped_done stopped hr⟩, h.zero, h.stop, fun m => absurd (h.bypass m).1 stack,
    fun _ n => absurd n reset⟩

/-- R64 in a stopped part. -/
theorem startWalk_stopped {s : State} {top : Epoch} {n : BitVec 32} (h : s.lawful k) (stack : s.epochs.stack ≠ [])
    (stopped : s.portStopped = true) : (startWalk top n s).lawful k := by
  have law : ∀ c, (setContext (some c) (clearMarks (setController .replay none s))).lawful k := fun c =>
    setContext_reset (clearMarks_lawful (setController_stopped h stopped stack)) (portStopped_coreReset stopped)
  have stopped' : (setContext none (clearMarks (setController .replay none s))).portStopped = true := stopped
  unfold startWalk
  simp only
  split
  · exact law _
  · change State.lawful k (match s.journal.map.getLast? with | none => _ | some seg => _)
    split
    · exact law _
    · rename_i seg hseg
      have mem : seg ∈ s.journal.map := List.mem_of_getLast? hseg
      unfold reach
      simp only
      split
      · rename_i lent
        unfold recallSegment
        split
        · exact setContext_reset (law _) (portStopped_coreReset stopped)
        · refine State.lawful.of ?_ (parts_post _ _ _)
          have base := setContext_reset (c := some { epoch := top.number, start := top.start, next := some (s.journal.nextSeq - 1), current := some seg.q, read := none, held := none, restores := [], refill := none, replayed := n, failure := none }) (law
            { epoch := top.number, start := top.start, next := some (s.journal.nextSeq - 1), current := none, read := none, held := none, restores := [], refill := none, replayed := n, failure := none }) (portStopped_coreReset stopped)
          exact updateState_lawful (x := seg) base (segment_of_mem base.map mem) (by rw [lent]; decide) (.inl rfl)
      · refine takeRefillSegment_lawful ?_
        unfold awaitRefill
        refine setController_stopped (State.lawful.of ?_ (parts_setRefillTimer _ _)) stopped stack
        exact setContext_reset (setContext_reset (law _) (portStopped_coreReset stopped)) (portStopped_coreReset stopped)
      · exact setContext_reset (law _) (portStopped_coreReset stopped)

/-- R81: ROLLBACK in STOPPED. -/
theorem resumeRollback_lawful {s : State} {e : Epoch} (h : s.lawful k) (stopped : s.epochs.controller = .stopped)
    (top : s.top = some e) : (resumeRollback e s).lawful k := by
  obtain ⟨rest, stack⟩ : ∃ rest, s.epochs.stack = e :: rest := by
    unfold State.top at top
    cases hst : s.epochs.stack with
    | nil => rw [hst] at top; cases top
    | cons x xs => rw [hst] at top; cases top; exact ⟨xs, rfl⟩
  refine settleRollback_lawful ?_
  cases hr : s.service.coreReset with
  | none =>
    exact startWalk_lawful h stack (by rintro (w | w) <;> (rw [stopped] at w; cases w)) hr ((h.gate (.inr stopped)).1 hr).1
  | some r =>
    have done := (h.gate (.inr stopped)).2 r hr
    exact startWalk_stopped h (by rw [stack]; simp) (by simp [State.portStopped, hr, done])

theorem cmdRollback_lawful {bs : List Byte} {s : State} (h : s.lawful k) : (cmdRollback bs s).lawful k := by
  unfold cmdRollback; split
  · exact respond_lawful h
  · exact respond_lawful h
  · rename_i e idle top
    split
    · refine startDrain_lawful h idle (active_of_stack h fun z => ?_)
      unfold State.top at top
      rw [z] at top; cases top
    · exact respond_lawful h
  · rename_i e stopped top
    split
    · exact respond_lawful (resumeRollback_lawful h stopped top)
    · exact respond_lawful h
  · exact respond_lawful h

theorem cmdMarkQuery_lawful {bs : List Byte} {s : State} (h : s.lawful k) : (cmdMarkQuery bs s).lawful k := by
  unfold cmdMarkQuery; split <;> exact respond_lawful h

/-! ### Lending (R86, R91, R92, R94) -/

theorem chooseLent_mem {s : State} : ∀ (l : List Segment) (n : Nat), ∀ x ∈ chooseLent s n l, x ∈ l ∧ x.state = .filled
  | [], _, x, hx => by simp [chooseLent] at hx
  | y :: rest, 0, x, hx => by simp [chooseLent] at hx
  | y :: rest, n + 1, x, hx => by
    unfold chooseLent at hx
    split at hx
    · rename_i lend
      rcases List.mem_cons.mp hx with rfl | hx
      · unfold State.lendable at lend
        simp only [Bool.and_eq_true, decide_eq_true_eq] at lend
        exact ⟨List.mem_cons_self, lend.1.1⟩
      · have := chooseLent_mem rest n x hx
        exact ⟨List.mem_cons_of_mem _ this.1, this.2⟩
    · have := chooseLent_mem rest (n + 1) x hx
      exact ⟨List.mem_cons_of_mem _ this.1, this.2⟩

theorem cmdLend_lawful {bs : List Byte} {s : State} (h : s.lawful k) : (cmdLend bs s).lawful k := by
  unfold cmdLend
  simp only
  split
  · exact respond_lawful h
  · refine respond_lawful (s := lendAll (chooseLent s (leValue bs) s.journal.map) s) ?_
    have only : ∀ x ∈ s.journal.map, (chooseLent s (leValue bs) s.journal.map).any (fun y => y.q == x.q) = true → x.state = .filled :=
      fun x hx any => by
        rw [List.any_eq_true] at any
        obtain ⟨y, hy, eq⟩ := any
        obtain ⟨mem, st⟩ := chooseLent_mem _ _ y hy
        have a := segment_of_mem h.map hx
        have b := segment_of_mem h.map mem
        rw [beq_iff_eq.mp eq, a] at b
        rw [Option.some.inj b]; exact st
    refine h.restated (F := fun x => if (chooseLent s (leValue bs) s.journal.map).any (fun y => y.q == x.q) then
      { x with state := .lent } else x) (fun x => ?_) (fun x => ?_) (fun x hx => ?_) (fun x hx => ?_) fun x hx => ?_
    · split <;> exact ⟨rfl, rfl, rfl⟩
    · split <;> rfl
    · split
      · rename_i c; rw [only x hx c]; simp
      · rfl
    · split
      · intro e; cases e
      · exact id
    · split
      · intro e; cases e
      · exact id

theorem segmentIn_some {s : State} {q : SegNo} {st : SegState} {x : Segment} (h : s.segmentIn q st = some x) :
    s.segment x.q = some x ∧ x.state = st := by
  obtain ⟨a, b⟩ := Option.filter_eq_some_iff.mp h
  rw [(mem_of_segment a).2]
  exact ⟨a, by simpa using b⟩

theorem cmdLendCancel_lawful {bs : List Byte} {s : State} (h : s.lawful k) : (cmdLendCancel bs s).lawful k := by
  unfold cmdLendCancel; split
  · exact respond_lawful h
  · rename_i x hx
    obtain ⟨a, st⟩ := segmentIn_some hx
    exact respond_lawful (updateState_lawful h a (by rw [st]; decide) (.inl rfl))

theorem cmdSpillDone_lawful {bs : List Byte} {s : State} (h : s.lawful k) (small : k + 8 < 2 ^ 32) :
    (cmdSpillDone bs s).lawful (k + 8) := by
  unfold cmdSpillDone; split
  · exact (respond_lawful h).mono (by omega)
  · rename_i x hx
    obtain ⟨a, -⟩ := segmentIn_some hx
    exact respond_lawful (takeRefillSegment_lawful (freeSegments_lawful (spillEntry_lawful h a) small))

/-- R75: a refill is done. -/
theorem finishRefill_lawful {x : Segment} {s : State} (h : s.lawful k) (hx : s.segment x.q = some x) (st : x.state = .refilling) :
    (finishRefill x s).lawful k := by
  have mem := (mem_of_segment hx).1
  have stack : s.epochs.stack ≠ [] := fun z => by
    have := (h.zero z).1
    rw [this] at mem; cases mem
  have law := updateState_lawful (st := .filled) h hx (by rw [st]; decide) (.inl rfl)
  cases stopped : s.portStopped with
  | true =>
    exact setController_stopped ((setContext_reset law (portStopped_coreReset stopped)).of (parts_setRefillTimer _ _)) stopped stack
  | false =>
    obtain ⟨ctl, c, r, context, refill, eq, fine⟩ := h.refills stopped x mem st
    have run : s.service.coreReset = none := by
      cases hr : s.service.coreReset with
      | none => rfl
      | some r =>
        have := (h.gate (.inl (.inr ctl))).2 r hr
        simp [State.portStopped, hr, this] at stopped
    obtain ⟨c', b, e, W⟩ := law.inWalk (.inr ctl) run
    obtain rfl : c' = c := by
      have := W.context
      change s.replay.context = some c' at this
      rw [context] at this; exact (Option.some.inj this).symm
    unfold finishRefill
    change (setController .replay none (setRefillTimer none (setContext (s.replay.context.map _) _))).lawful k
    rw [context, Option.map_some]
    refine Walk.law (c := { c' with refill := c'.refill.map fun r => { r with refilled := true } }) (b := b) (e := e)
      (W.of (by exact setController_pathLaw (setRefillTimer_pathLaw (setContext_pathLaw law.path)))
        (W.law.map.same (by rfl) (by rfl) (by rfl) (by rfl)) (by rfl) (by rfl) (by rfl) (.inl rfl) (by rfl) (by rfl) (by rfl) (by rfl)
        ⟨W.span.runs, W.span.ends, W.span.room, W.span.starts, W.span.nested⟩
        ⟨W.walk.start, W.walk.next, W.walk.read, W.walk.held, W.walk.restores, W.walk.failure, fun r' hr' y hy => ?_,
          fun w => (nomatch w), W.walk.current, fun r' hr' => ?_⟩
        ⟨(W.law.reads W.running).1, fun n hn => ⟨.inl rfl, { c' with refill := c'.refill.map fun r => { r with refilled := true } },
          rfl, W.reads n hn⟩⟩ fun y hy st' => ?_)
    · change (c'.refill.map fun r => { r with refilled := true }) = some r' at hr'
      rw [refill] at hr'
      cases hr'
      exact W.walk.refill r refill y hy
    · change (c'.refill.map fun r => { r with refilled := true }) = some r' at hr'
      rw [refill] at hr'
      cases hr'
      exact W.walk.refills r refill
    · obtain ⟨z, hz, rfl⟩ := List.mem_map.mp hy
      by_cases hq : z.q = x.q
      · simp only [hq, if_true] at st'; cases st'
      · simp only [hq, if_false] at st'
        obtain ⟨-, c2, r2, h2, hr2, eq2, -⟩ := h.refills stopped z hz st'
        rw [context] at h2; cases h2
        rw [refill] at hr2; cases hr2
        exact absurd (eq2.symm.trans eq) hq

theorem cmdRefillDone_lawful {bs : List Byte} {s : State} (h : s.lawful k) : (cmdRefillDone bs s).lawful k := by
  unfold cmdRefillDone; split
  · exact respond_lawful h
  · rename_i x hx
    obtain ⟨a, st⟩ := segmentIn_some hx
    exact respond_lawful (finishRefill_lawful h a st)

theorem cmdSegQuery_lawful {bs : List Byte} {s : State} (h : s.lawful k) : (cmdSegQuery bs s).lawful k := by
  unfold cmdSegQuery; split
  · exact respond_lawful h
  · split <;> exact respond_lawful h

theorem placeTransfer_lawful {op : PortOp} {s : State} (h : s.lawful k) : (placeTransfer op s).lawful k := h.of rfl

theorem cmdCoreReset_lawful {bs : List Byte} {s : State} (h : s.lawful k) : (cmdCoreReset bs s).lawful k :=
  settleCoreReset_lawful (beginCoreReset_lawful h)

/-- R158: the command of a frame. -/
theorem runCommand_lawful {code : Byte} {bs : List Byte} {s : State} (h : s.lawful k) (small : k + 8 < 2 ^ 32) :
    (runCommand code bs s).lawful (k + 8) := by
  have le : k ≤ k + 8 := by omega
  suffices all : ∀ g, runCommand code = g → (g bs s).lawful (k + 8) from all _ rfl
  intro g hg
  unfold runCommand at hg
  split at hg <;> subst hg
  · exact (cmdParamRead_lawful h).mono le
  · exact (cmdParamWrite_lawful h).mono le
  · exact (respond_lawful h).mono le
  · exact (cmdEventPop_lawful h).mono le
  · exact (respond_lawful (setMode_lawful (m := .active) h fun e => nomatch e)).mono le
  · exact (cmdDisable_lawful h).mono le
  · exact (cmdCoreReset_lawful (bs := bs) h).mono le
  · exact (respond_lawful (releaseQuarantine_lawful h)).mono le
  · exact (cmdWindowWrite_lawful h).mono le
  · exact (cmdWindowRead_lawful h).mono le
  · exact (cmdCheckpoint_lawful h).mono le
  · exact (cmdCommit_lawful h).mono le
  · exact (cmdAbandon_lawful h).mono le
  · exact (cmdRollback_lawful h).mono le
  · exact (cmdMarkQuery_lawful h).mono le
  · exact (respond_lawful (h.of (parts_setSpace _ _))).mono le
  · exact (respond_lawful (h.of (parts_setSpace _ _))).mono le
  · exact (cmdLend_lawful h).mono le
  · exact (cmdLendCancel_lawful h).mono le
  · exact cmdSpillDone_lawful h small
  · exact (cmdRefillDone_lawful h).mono le
  · exact (cmdSegQuery_lawful h).mono le
  · exact (placeTransfer_lawful h).mono le
  · exact (placeTransfer_lawful h).mono le
  · exact (respond_lawful h).mono le

theorem takeFrame_lawful {code : Byte} {f : Frame} {a : Bool} {run : List Byte → State → State} {k' : Nat} {s : State}
    (h : s.lawful k) (le : k ≤ k') (keeps : ∀ {bs : List Byte} {s : State}, s.lawful k → (run bs s).lawful k') :
    (takeFrame code f a run s).lawful k' := by
  have law : (s.setService { s.service with work := some { exchange := f.exchange, attached := a } }).lawful k :=
    h.of (parts_setService rfl rfl rfl)
  unfold takeFrame
  simp only
  split
  · exact (respond_lawful law).mono le
  · exact keeps law

theorem takeHeld_lawful {s : State} (h : s.lawful k) (small : k + 8 < 2 ^ 32) : (takeHeld s).lawful (k + 8) := by
  unfold takeHeld; split
  · exact takeFrame_lawful (h.of (parts_setService rfl rfl rfl)) (by omega) fun l => runCommand_lawful l small
  · exact h.mono (by omega)

theorem takeHeldWhen_lawful {b : Bool} {s : State} (h : s.lawful k) (small : k + 8 < 2 ^ 32) : (takeHeldWhen b s).lawful (k + 8) := by
  unfold takeHeldWhen; split
  · exact h.mono (by omega)
  · split
    · exact takeHeld_lawful h small
    · exact h.mono (by omega)

theorem frameComplete_lawful {code : Byte} {f : Frame} {run : List Byte → State → State} {k' : Nat} {s : State}
    (h : s.lawful k) (le : k ≤ k') (keeps : ∀ {bs : List Byte} {s : State}, s.lawful k → (run bs s).lawful k') :
    (frameComplete code f run s).lawful k' := by
  unfold frameComplete; split
  · have law : (s.setService { s.service with exchange := .working }).lawful k := h.of (parts_setService rfl rfl rfl)
    simp only
    split
    · exact State.lawful.mono (law.of (by exact parts_setService rfl rfl rfl)) le
    · exact takeFrame_lawful law le keeps
  · exact h.mono le

theorem whenRunning_lawful {f : State → State} {k' : Nat} {s t : State} (e : whenRunning f s = .next t) (h : s.lawful k)
    (le : k ≤ k') (keeps : ∀ {u : State}, u.lawful k → (f u).lawful k') : t.lawful k' := by
  unfold whenRunning at e
  split at e
  · cases e; exact h.mono le
  · cases e; exact keeps h

theorem settled_lawful {f : State → State} {k' : Nat} {s t : State} (e : whenRunningSpaced f s = .next t) (h : s.lawful k)
    (le : k ≤ k') (keeps : ∀ {u : State}, u.lawful k → (f u).lawful k') : t.lawful k' :=
  whenRunning_lawful e h le fun l => (keeps l).of (parts_settleHold _ _)

theorem held_lawful {f : State → State} {s t : State} (e : whenRunningHeld f s = .next t) (h : s.lawful k)
    (small : k + 17 < 2 ^ 32) (keeps : ∀ {u : State}, u.lawful k → (f u).lawful (k + 1)) : t.lawful (k + 17) :=
  whenRunning_lawful e h (by omega) fun l => by
    exact takeHeldWhen_lawful (State.lawful.of (takeHeldWhen_lawful (keeps l) (by omega)) (parts_settleHold _ _)) (by omega)

theorem afterOutcome_lawful {s : State} (h : s.lawful k) : (afterOutcome s).lawful k :=
  settleCoreReset_lawful (settleRollback_lawful h)

theorem afterBlockTransfer_lawful {s : State} (h : s.lawful k) : (afterBlockTransfer s).lawful k :=
  settleCoreReset_lawful (settleRollback_lawful (settleDrain_lawful h))

end Sys2Proof.Machine
end

