-- ==== Sys2Proof/Laws/Memory.lean ====
section
/-! SUPPORT. The journal memory: every write keeps the canonical form, and a read after a write sees it and nothing else. -/

namespace Sys2Proof.Machine

theorem Memory.mem_write {a : Nat} {x : Byte} {m : Memory} {d : Host.Cell} (h : d ∈ Memory.write a x m) :
    d.1 = a ∨ d ∈ m := by
  induction m with
  | nil => unfold Memory.write at h; split at h <;> simp_all
  | cons c m ih =>
    unfold Memory.write at h
    split at h
    · split at h
      · exact .inr h
      · rcases List.mem_cons.mp h with rfl | h
        · exact .inl rfl
        · exact .inr h
    · split at h
      · split at h
        · exact .inr (List.mem_cons_of_mem _ h)
        · rcases List.mem_cons.mp h with rfl | h
          · exact .inl rfl
          · exact .inr (List.mem_cons_of_mem _ h)
      · rcases List.mem_cons.mp h with rfl | h
        · exact .inr (List.mem_cons_self ..)
        · rcases ih h with h | h
          · exact .inl h
          · exact .inr (List.mem_cons_of_mem _ h)

/-- Every write keeps the canonical form. -/
theorem Memory.write_wf (a : Nat) (x : Byte) (m : Memory) (h : Memory.wf m = true) :
    Memory.wf (Memory.write a x m) = true := by
  induction m with
  | nil => unfold Memory.write; split <;> simp_all [Memory.wf]
  | cons c m ih =>
    simp only [Memory.wf, Bool.and_eq_true, decide_eq_true_eq, List.all_eq_true] at h
    obtain ⟨⟨hc, hr⟩, hm⟩ := h
    unfold Memory.write
    split
    · rename_i lt
      split
      · simp only [Memory.wf, Bool.and_eq_true, decide_eq_true_eq, List.all_eq_true]
        exact ⟨⟨hc, hr⟩, hm⟩
      · rename_i hx
        simp only [Memory.wf, Bool.and_eq_true, decide_eq_true_eq, List.all_eq_true]
        refine ⟨⟨hx, ?_⟩, ⟨hc, hr⟩, hm⟩
        intro d hd
        rcases List.mem_cons.mp hd with rfl | hd
        · exact lt
        · exact Nat.lt_trans lt (hr d hd)
    · split
      · rename_i _ eq
        split
        · exact hm
        · rename_i hx
          simp only [Memory.wf, Bool.and_eq_true, decide_eq_true_eq, List.all_eq_true]
          exact ⟨⟨hx, fun d hd => eq ▸ hr d hd⟩, hm⟩
      · rename_i nlt ne
        simp only [Memory.wf, Bool.and_eq_true, decide_eq_true_eq, List.all_eq_true]
        refine ⟨⟨hc, ?_⟩, ih hm⟩
        intro d hd
        rcases Memory.mem_write hd with h | h
        · omega
        · exact hr d h

theorem Memory.writeBytes_wf (m : Memory) (a : Nat) (bs : List Byte) (h : Memory.wf m = true) :
    Memory.wf (Memory.writeBytes m a bs) = true := by
  induction bs generalizing m a with
  | nil => exact h
  | cons b bs ih => exact ih _ _ (Memory.write_wf _ _ _ h)

/-- An address below every listed one reads as an unlisted one. -/
theorem Memory.read_of_lt {a : Nat} {m : Memory} (h : ∀ d ∈ m, a < d.1) : Memory.read m a = Memory.unlisted := by
  induction m with
  | nil => rfl
  | cons c m ih =>
    have hc := h c (List.mem_cons_self ..)
    unfold Memory.read
    rw [if_neg (by omega)]
    exact ih fun d hd => h d (List.mem_cons_of_mem _ hd)

/-- A read after a write of one byte. -/
theorem Memory.read_write (a : Nat) (x : Byte) (m : Memory) (b : Nat) (h : Memory.wf m = true) :
    Memory.read (Memory.write a x m) b = if b = a then x else Memory.read m b := by
  induction m with
  | nil =>
    unfold Memory.write
    split
    · rename_i hx
      split <;> simp_all [Memory.read]
    · simp only [Memory.read, eq_comm]
  | cons c m ih =>
    simp only [Memory.wf, Bool.and_eq_true, decide_eq_true_eq, List.all_eq_true] at h
    obtain ⟨⟨hc, hr⟩, hm⟩ := h
    unfold Memory.write
    split
    · rename_i lt
      split
      · rename_i hx
        split
        · rename_i eq
          subst eq; subst hx
          refine Memory.read_of_lt fun d hd => ?_
          rcases List.mem_cons.mp hd with rfl | hd
          · exact lt
          · exact Nat.lt_trans lt (hr d hd)
        · rfl
      · rw [Memory.read]
        simp only [eq_comm]
    · split
      · rename_i _ eq
        subst eq
        split
        · rename_i hx
          split
          · rename_i eq
            subst eq; subst hx
            exact Memory.read_of_lt fun d hd => hr d hd
          · rename_i ne
            rw [Memory.read, if_neg (by omega)]
        · split
          · rename_i eq; rw [Memory.read, if_pos eq.symm]
          · rename_i ne
            rw [Memory.read, if_neg (by simpa [eq_comm] using ne), Memory.read, if_neg (by omega)]
      · rename_i nlt ne
        rw [Memory.read, Memory.read, ih hm]
        split
        · rename_i eq
          rw [if_neg (by omega)]
        · rfl

/-- A read after a write of several bytes. -/
theorem Memory.read_writeBytes (m : Memory) (a : Nat) (bs : List Byte) (b : Nat) (h : Memory.wf m = true) :
    Memory.read (Memory.writeBytes m a bs) b =
      if a ≤ b ∧ b < a + bs.length then bs.getD (b - a) 0 else Memory.read m b := by
  induction bs generalizing m a with
  | nil => rw [if_neg (by simp)]; rfl
  | cons x bs ih =>
    rw [Memory.writeBytes, ih _ _ (Memory.write_wf _ _ _ h), Memory.read_write _ _ _ _ h]
    by_cases h1 : b = a
    · subst h1
      rw [if_neg (by omega), if_pos rfl, if_pos (by simp)]
      simp
    · by_cases h2 : a ≤ b ∧ b < a + (x :: bs).length
      · rw [if_pos (by simp only [List.length_cons] at h2; omega), if_pos h2]
        have : b - a = (b - (a + 1)) + 1 := by omega
        rw [this, List.getD_cons_succ]
      · rw [if_neg (by simp only [List.length_cons] at h2; omega), if_neg h1, if_neg h2]

theorem Memory.readBytes_length (m : Memory) (a n : Nat) : (Memory.readBytes m a n).length = n := by
  induction n generalizing a with
  | zero => rfl
  | succ n ih => simp [Memory.readBytes, ih]

end Sys2Proof.Machine
end

