-- ==== Sys2Proof/Tests/Slice0.lean ====
section
/-! SUPPORT. Tests of the model against the manual's own worked values, ill-formed commands that WellFormed refuses, and for each
statement a state and operands that meet its hypotheses. -/

namespace Sys2Proof.Tests

open Machine

set_option maxRecDepth 4000

/-! ### Builders -/

/-- R175: a request header. -/
def header (kind master tag address beats : Nat) : Word :=
  BitVec.ofNat 64 (kind + 16 * master + 256 * tag + 65536 * address + 2 ^ 56 * beats)

/-- R176: a request frame with the CRC that its bytes have. -/
def frame (code exchange : Byte) (payload : List Byte) : Frame :=
  { exchange := exchange, payload := payload, crc := crc (frameBody code exchange payload) }

/-- An exchange is open and no command is at work. -/
def ready (s : State) : State :=
  s.setService { s.service with exchange := .receiving, unread := false, work := none, held := none }

/-- ACTIVE with one OPEN epoch, number 1, that starts at sequence 0. -/
def opened : State :=
  (State.reset.setEpochs { State.reset.epochs with
    stack := [{ number := 1, start := 0, broken := none, records := 0 }], nextEpoch := 2 }).setService
      { State.reset.service with mode := .active }

/-- ACTIVE with one BROKEN epoch. -/
def broken : State := setStack [{ number := 1, start := 0, broken := some .full, records := 0 }] opened

/-- `s` with the given entries in its table. -/
def withTable (table : List Entry) (s : State) : State := s.setHost { s.host with table := table }

/-- `s` with the given requests outstanding on M-tag `t` until tick 7. -/
def withTag (t : Fin 64) (r : MemRequest) (s : State) : State := setTag t (.outstanding r 7) s

/-- Every M-tag is QUARANTINED. -/
def noTags (s : State) : State := s.setMemIf { s.memIf with tags := Vector.replicate 64 .quarantined }

/-- `s` with one operation outstanding on the journal port, with port tag 3. -/
def withPort (op : PortOp) (s : State) : State := s.setJournal { s.journal with outstanding := [(3, op)] }

/-- A command with exchange number 9 is at work, its exchange open. -/
def working (s : State) : State :=
  s.setService { s.service with exchange := .working, work := some { exchange := 9, attached := true } }

/-- A map entry of physical segment 5 with `count` records from sequence 0 on. -/
def segment (state : SegState) (count : Nat) : Segment :=
  { q := 0, state := state, physical := some 5, first := 0, count := count }

/-- A replay context of epoch 1 at next 1 in entry 0. -/
def context : ReplayContext :=
  { epoch := 1, start := 0, next := some 1, current := some 0, read := none, held := none, restores := [], refill := none,
    replayed := 0, failure := none }

/-- Epoch 1 is rolling back in entry 0, with a FILLED entry of 2 records. -/
def replaying (c : ReplayContext) : State :=
  setContext (some c) (setController .replay none (setMap [segment .filled 2] opened))

/-- A write of one beat to line 1, in the given state. -/
def writeEntry (state : EntryState) : Entry :=
  { id := ⟨0, 0⟩, address := 64, beats := 1, write := some ⟨0xFF, [0xAB]⟩, action := .journal, state := state, response := none }

/-- A read of one beat of line 1 by master 1, in the given state. -/
def readEntry (state : EntryState) : Entry :=
  { id := ⟨1, 0⟩, address := 64, beats := 1, write := none, action := .pass, state := state, response := none }

/-- A frame with the CRC of its bytes and the length of its command is taken. -/
theorem takes_ready (s : State) (code exchange : Byte) (payload : List Byte) (hr : s.inReset = false)
    (hl : requestLength code = some payload.length) : (ready s).takes code (frame code exchange payload) := by
  refine ⟨hr, rfl, rfl, rfl, ?_⟩
  simp [frameCheck, crcPasses, frame, hl]

/-! ### Worked values of the manual -/

/-- 11.1, "Worked checksum". -/
theorem test_worked_checksum :
    checksum (recordLayout 0x12345 9013 77 0 1 0
      ([1, 2, 3, 4, 5, 6, 7, 8] ++ List.replicate 48 0 ++ List.replicate 8 0xFF)) = 0xA427 := by decide

/-- 11.1: byte 12 of that record holds 0x27, byte 13 holds 0xA4, and the record passes when it is read back. -/
theorem test_worked_record :
    let r := buildRecord 0x12345 9013 77 0 1 ([1, 2, 3, 4, 5, 6, 7, 8] ++ List.replicate 48 0 ++ List.replicate 8 0xFF)
    r[12]? = some 0x27 ∧ r[13]? = some 0xA4 ∧ checksumPasses r = true := by decide

/-- R3: a changed byte fails the check. -/
theorem test_changed_record_fails :
    checksumPasses ((buildRecord 0x12345 9013 77 0 1 (List.replicate 64 0)).set 20 1) = false := by decide

/-- R65: after the epoch's first record no map entry holds next, and there is no current entry. -/
theorem test_first_record_leaves_no_current :
    (holdRecord { context with next := some 0 } 0 [] (replaying context)).replay.context.map (·.current) = some none := by decide

/-- R65, R78: a failure leaves the refill field of an entry that has been refilled. -/
theorem test_failure_keeps_refilled :
    (failRollback { context with refill := some ⟨0, some 5, true⟩ } .restoreFault 1 (replaying context)).replay.context.bind
      (·.refill) = some ⟨0, some 5, true⟩ := by decide

/-- R176, the two worked CRC values. -/
theorem test_crc_worked :
    crc [0x31, 0x32, 0x33, 0x34, 0x35, 0x36, 0x37, 0x38, 0x39] = 0x29B1 ∧ crc [0x00] = 0xE1F0 := by decide

/-- 3.5, the first worked example: line 0x12345 lies in set 0x30D. -/
theorem test_set_index : setIndex 0x12345 = 0x30D := by decide

/-- R5: comparison wraps. -/
theorem test_sequence_wraps : seqNewer 0 0xFFFFFFFF = true ∧ seqNewer 0xFFFFFFFF 0 = false ∧ seqGe 5 5 = true := by decide

/-- 7.2: a READ at line offset 48 with 2 beats is well formed, with 3 it is not, and offset 4 is malformed. -/
theorem test_malformed_request :
    (readRequest (header 1 0 7 48 2)).malformed = false ∧ (readRequest (header 1 0 7 48 3)).malformed = true ∧
      (readRequest (header 1 0 7 4 1)).malformed = true := by decide

/-- R175: the fields of a header. -/
theorem test_header_fields :
    headerId (header 2 3 9 0x10000 8) = ⟨3, 9⟩ ∧ (readRequest (header 1 3 9 0x10000 8)).address = 0x10000 ∧
      lineOf 0x10000 = 0x400 ∧ headerBeats (header 2 3 9 0x10000 8) = 8 := by decide

/-- 8, "A table with overlapping windows", two of its windows. -/
def overlapping : State :=
  (opened.setWindows ((opened.windows.set 0
    { valid := true, base := 0x1000, limit := 0x10FF, masters := 0b1000, action := .pass, hits := 0 }).set 2
    { valid := true, base := 0x1000, limit := 0x1FFF, masters := 0b1111, action := .journal, hits := 0 }))

/-- 8, the same table: master 3 is decided by entry 0, master 1 by entry 2, and line 0x100 by no entry. -/
theorem test_deciding_window :
    overlapping.decidingWindow 0x1020 3 = some 0 ∧ overlapping.decidingWindow 0x1020 1 = some 2 ∧
      overlapping.decidingWindow 0x100 1 = none := by decide

/-- Section 10.5, "An overflow": the third answer of EVENT_POP is EVENTS_LOST(3), with 1 record left. -/
theorem test_events_lost :
    (Event.payload { kind := .eventsLost 3, time := 0, epoch := none } 1).take 12 = [15, 0, 0, 0, 0, 0, 0, 1, 3, 0, 0, 0] := by
  decide

/-- R149: a READ of master 1 that is answered leaves READ_DATA OK in the send queue. -/
theorem test_done_answers_read :
    (match exec (.done 5 .ok [0xAB]) (withTag 5 (.read ⟨1, 0⟩ 64 1) (withTable [readEntry .issued] opened)) with
      | .next t => t.host.sendQueue
      | _ => []) = [.response ⟨1, 0⟩ false .ok [0xAB]] := by decide

/-- R36: ABANDON breaks the top epoch. -/
theorem test_abandon_breaks :
    (match exec (.abandon (frame 0x32 1 [])) (ready opened) with
      | .next t => t.epochs.stack.map (·.broken)
      | _ => []) = [some .abandoned] := by decide

/-- R23: CHECKPOINT with nothing to drain opens an epoch in its own step. -/
theorem test_checkpoint_opens :
    (match exec (.checkpoint (frame 0x30 1 [])) (ready opened) with
      | .next t => t.epochs.stack.map (·.number)
      | _ => []) = [2, 1] := by decide

/-! ### Ill-formed commands -/

theorem test_wf_read_kind : Instr.wellFormed (.read (header 2 0 0 0 1)) = false := by decide
theorem test_wf_write_kind : Instr.wellFormed (.write (header 1 0 0 0 0) 0 []) = false := by decide
theorem test_wf_write_length : Instr.wellFormed (.write (header 2 0 0 0 2) 0 [1]) = false := by decide
theorem test_wf_done_words : Instr.wellFormed (.done 0 .ok (List.replicate 9 0)) = false := by decide
theorem test_wf_record_bytes : Instr.wellFormed (.recordReadCompletion 0 .ok (.returned [1])) = false := by decide
theorem test_wf_block_bytes : Instr.wellFormed (.blockReadCompletion 0 .ok (.returned [1])) = false := by decide
theorem test_wf_unknown_code : Instr.wellFormed (.unknown 0x10 (frame 0x10 0 [])) = false := by decide
theorem test_wf_param_name : Instr.wellFormed (.paramWriteNseg (frame 0x11 0 [1, 0, 0, 0, 0])) = false := by decide
theorem test_wf_frame_length (f : Frame) (h : f.payload.length = 65536) : Instr.wellFormed (.statusRead f) = false := by
  simp [Instr.wellFormed, Frame.lengthOk, h]

/-! ### What the hypotheses of the statements ask for

Each theorem is named after its statement and gives concrete values that meet its hypotheses, clause by clause. -/

theorem witness_StepTakesFrontCommand : (opened.setPending [.ssnAsserted]).pending = .ssnAsserted :: [] := rfl

theorem witness_EmptyQueueTicks : opened.pending = [] := rfl

theorem witness_PinResetValues :
    (opened.setInReset true).inReset = true ∧ Instr.ssnAsserted ≠ .pinReset ∧ Instr.ssnAsserted ≠ .resetnRelease := by decide

/-- For JournalMemoryAndPortKept, QueueLimitsKept, ParameterAndWindowRangesKept, EpochStackAndMarksKept and HoldToldKept: a step
from a state that meets every law's premise. -/
theorem witness_laws :
    step opened = .next (opened.setTimebase 1) ∧ Memory.wf opened.journal.memory = true ∧ opened.journal.portValid ∧
      opened.service.events.length ≤ 32 ∧ opened.host.table.length ≤ 32 ∧ opened.tagsServed ∧ opened.service.params.valid ∧
      (∀ i : Fin 16, opened.windows[i].valid') ∧ opened.epochs.valid ∧ opened.epochs.pendingInDraining ∧
      opened.holdSettled := by
  refine ⟨rfl, ?_⟩
  simp only [JournalUnit.portValid, State.tagsServed, Params.valid, Window.valid', EpochCtl.valid,
    EpochCtl.pendingInDraining, State.holdSettled]
  decide

/-- Four lines of set 0. -/
def fourLines : List Line := [0, 0x401, 0x802, 0xC03]

/-- For EpochStackAndMarksKept: a full set of the mark table. -/
theorem witness_laws_marks : marksValid fourLines :=
  ⟨by decide, fun l => List.length_filter_le (fun m => setIndex m == setIndex l) fourLines⟩

theorem witness_WindowsLockedInEpochs :
    exec .ssnAsserted opened = .next (opened.setService { opened.service with exchange := .receiving }) ∧ opened.depth ≠ 0 :=
  ⟨rfl, by decide⟩

/-- `n` records in the queue, and a dropped count. -/
def eventful (n : Nat) (dropped : BitVec 32) : State :=
  opened.setService { opened.service with
    events := List.replicate n { kind := .eventsLost 1, time := 0, epoch := none }, dropped := dropped }

/-- 31 records; 32 with the dropped count below its end; and 32 with it at its end. -/
theorem witness_EventPosted :
    (eventful 31 0).service.events.length < 32 ∧
      (32 ≤ (eventful 32 0xFFFFFFFE).service.events.length ∧ (eventful 32 0xFFFFFFFE).service.dropped.toNat < 2 ^ 32 - 1) ∧
      (32 ≤ (eventful 32 0xFFFFFFFF).service.events.length ∧ (eventful 32 0xFFFFFFFF).service.dropped.toNat = 2 ^ 32 - 1) := by
  decide

theorem witness_BreakRequest :
    State.reset.epochs.stack = [] ∧ opened.epochs.stack = [{ number := 1, start := 0, broken := none, records := 0 }] ∧
      broken.epochs.stack = [{ number := 1, start := 0, broken := some .full, records := 0 }] := by decide

/-- The given lines are marked. -/
def marking (lines : List Line) : State := opened.setCapture { opened.capture with marks := lines }

/-- A held line, a set of 3 lines and a full set, for a line of the same set. -/
theorem witness_MarkInserted :
    0x401 ∈ (marking fourLines).capture.marks ∧
      ((0x1004 : Line) ∉ (marking (fourLines.take 3)).capture.marks ∧
        ((marking (fourLines.take 3)).capture.marks.filter fun m => setIndex m == setIndex 0x1004).length < 4) ∧
      ((0x1004 : Line) ∉ (marking fourLines).capture.marks ∧
        4 ≤ ((marking fourLines).capture.marks.filter fun m => setIndex m == setIndex 0x1004).length) := by decide

/-- The first and last line of entry 2 for master 0, and the lines just outside it. -/
theorem witness_RequestsClassified :
    overlapping.service.mode = .active ∧ overlapping.windows[(2 : Fin 16)].valid = true ∧
      overlapping.windows[(2 : Fin 16)].base.toNat = 0x1000 ∧ overlapping.windows[(2 : Fin 16)].limit.toNat = 0x1FFF ∧
      overlapping.windows[(2 : Fin 16)].masters.getLsbD 0 = true ∧
      (∀ j : Fin 16, j < 2 → overlapping.windows[j].matches 0x1000 0 = false ∧ overlapping.windows[j].matches 0x1FFF 0 = false) ∧
      (∀ i : Fin 16, overlapping.windows[i].valid = false ∨ (0x2000 : Line).toNat < overlapping.windows[i].base.toNat ∨
        overlapping.windows[i].limit.toNat < (0x2000 : Line).toNat ∨ overlapping.windows[i].masters.getLsbD 0 = false) ∧
      (∀ i : Fin 16, overlapping.windows[i].valid = false ∨ (0xFFF : Line).toNat < overlapping.windows[i].base.toNat ∨
        overlapping.windows[i].limit.toNat < (0xFFF : Line).toNat ∨ overlapping.windows[i].masters.getLsbD 0 = false) ∧
      State.reset.service.mode = .bypass := by decide

theorem witness_BuiltRecordReadsBack : (List.replicate 64 (0xFF : Byte)).length = 64 := by decide

/-- What folding a sum comes to (R2, step 4). -/
def folded (n : Nat) : Nat := if n = 0 then 0 else if n % 65535 = 0 then 65535 else n % 65535

/-- A fold and the words of a record. -/
theorem witness_BuiltRecordReadsBack_sum :
    (∀ n, folded n = if n < 65536 then n else folded (n % 65536 + n / 65536)) ∧
      ∃ (record : List Byte) (word : Nat → Nat), record = buildRecord 0x12345 9013 77 0 1 (List.replicate 64 0xFF) ∧
        ∀ k, word k = (record.getD (2 * k) 0).toNat + 256 * (record.getD (2 * k + 1) 0).toNat := by
  refine ⟨fun n => ?_, _, _, rfl, fun _ => rfl⟩
  unfold folded
  repeat' split
  all_goals omega

/-! #### Host link -/

theorem witness_DuplicateTagDiscarded :
    requestOf (.read (header 1 1 0 64 1)) = some (readRequest (header 1 1 0 64 1)) ∧
      (withTable [readEntry .issued] opened).acceptLine = true ∧
      ∃ e ∈ (withTable [readEntry .issued] opened).host.table, e.id = (readRequest (header 1 1 0 64 1)).id := by decide

/-- Each way in which a request is malformed, at the edge of its range, for commands of a free master and tag. -/
theorem witness_MalformedAnswered :
    (opened.acceptLine = true ∧ opened.host.table = []) ∧
      ((Instr.read (header 3 0 0 0 1)).wellFormed = true ∧ ((header 3 0 0 0 1).extractLsb' 0 4).toNat ≠ 1) ∧
      ((Instr.read (header 1 0 0 0 0)).wellFormed = true ∧ ((header 1 0 0 0 0).extractLsb' 56 4).toNat < 1) ∧
      ((Instr.read (header 1 0 0 0 9)).wellFormed = true ∧ 8 < ((header 1 0 0 0 9).extractLsb' 56 4).toNat) ∧
      ((Instr.read (header 1 0 0 4 1)).wellFormed = true ∧ ((header 1 0 0 4 1).extractLsb' 16 36).toNat % 8 ≠ 0) ∧
      ((Instr.read (header 1 0 0 48 3)).wellFormed = true ∧
        8 < ((header 1 0 0 48 3).extractLsb' 16 36).toNat % 64 / 8 + ((header 1 0 0 48 3).extractLsb' 56 4).toNat) ∧
      ((Instr.write (header 2 0 0 0 0) 0 []).wellFormed = true ∧ ((header 2 0 0 0 0).extractLsb' 56 4).toNat < 1) ∧
      ((Instr.write (header 2 0 0 0 9) 0 [1, 2, 3, 4, 5, 6, 7, 8, 9]).wellFormed = true ∧
        8 < ((header 2 0 0 0 9).extractLsb' 56 4).toNat) ∧
      ((Instr.write (header 2 0 0 4 1) 0 [1]).wellFormed = true ∧ ((header 2 0 0 4 1).extractLsb' 16 36).toNat % 8 ≠ 0) ∧
      ((Instr.write (header 2 0 0 0x38 2) 0 [1, 2]).wellFormed = true ∧
        8 < ((header 2 0 0 0x38 2).extractLsb' 16 36).toNat % 64 / 8 + ((header 2 0 0 0x38 2).extractLsb' 56 4).toNat) := by
  decide

/-- A READ and a WRITE that are not malformed, at the edges of their ranges. -/
theorem witness_MalformedAnswered_wellFormed :
    (((header 1 0 0 0 8).extractLsb' 0 4).toNat = 1 ∧ 1 ≤ ((header 1 0 0 0 8).extractLsb' 56 4).toNat ∧
      ((header 1 0 0 0 8).extractLsb' 56 4).toNat ≤ 8 ∧ ((header 1 0 0 0 8).extractLsb' 16 36).toNat % 8 = 0 ∧
      ((header 1 0 0 0 8).extractLsb' 16 36).toNat % 64 / 8 + ((header 1 0 0 0 8).extractLsb' 56 4).toNat ≤ 8) ∧
    (((header 2 0 0 56 1).extractLsb' 0 4).toNat = 2 ∧ 1 ≤ ((header 2 0 0 56 1).extractLsb' 56 4).toNat ∧
      ((header 2 0 0 56 1).extractLsb' 56 4).toNat ≤ 8 ∧ ((header 2 0 0 56 1).extractLsb' 16 36).toNat % 8 = 0 ∧
      ((header 2 0 0 56 1).extractLsb' 16 36).toNat % 64 / 8 + ((header 2 0 0 56 1).extractLsb' 56 4).toNat ≤ 8) ∧
    requestOf (.read (header 1 0 0 0 8)) = some (readRequest (header 1 0 0 0 8)) ∧
    requestOf (.write (header 2 0 0 56 1) 0 []) = some (writeRequest (header 2 0 0 56 1) 0 []) :=
  ⟨by decide, by decide, rfl, rfl⟩

/-- Line 1 lies in a GUARD window. -/
def guarded : State :=
  opened.setWindows (opened.windows.set 0
    { valid := true, base := 0, limit := 1, masters := 0b1111, action := .guard, hits := 0 })

/-- A WRITE under the hold; a READ that DEFAULT_ACTION DENY refuses; and a WRITE to a GUARD window. -/
theorem witness_RequestRefusedAtIntake :
    (∃ (s : State) (r : Request), s = tellHold true opened ∧ r = writeRequest (header 2 0 0 64 1) 0xFF [1] ∧
      s.acceptLine = true ∧ s.entry r.id = none ∧ r.malformed = false ∧ r.write ≠ none ∧ s.host.holdTold = true) ∧
    (∃ (s : State) (r : Request), s = setParams { opened.service.params with defaultAction := .deny } opened ∧
      r = readRequest (header 1 0 0 64 1) ∧ s.acceptLine = true ∧ s.entry r.id = none ∧ r.malformed = false ∧
      r.write = none ∧ s.classify (lineOf r.address) r.id.master = .deny) ∧
    ∃ (s : State) (r : Request), s = guarded ∧ r = writeRequest (header 2 0 0 64 1) 0xFF [1] ∧
      s.acceptLine = true ∧ s.entry r.id = none ∧ r.malformed = false ∧ s.host.holdTold = false ∧
      s.classify (lineOf r.address) r.id.master = .guard ∧ r.write ≠ none := by
  refine ⟨⟨_, _, rfl, rfl, ?_⟩, ⟨_, _, rfl, rfl, ?_⟩, ⟨_, _, rfl, rfl, ?_⟩⟩ <;> decide

/-- The controller states of the gate, an older entry of the line, and a gate that holds the request. -/
theorem witness_RequestHeld :
    opened.service.coreReset = none ∧
      (withTable [writeEntry .issued] opened).admits (readRequest (header 1 1 0 72 1)) ∧
      (∃ x ∈ (withTable [writeEntry .issued] opened).host.table, lineOf x.address = lineOf 72) ∧
      (setController .stopped none opened).admits (readRequest (header 1 1 0 72 1)) ∧
      (∀ x ∈ (setController .stopped none opened).host.table, lineOf x.address ≠ lineOf 72) ∧
      (setController .stopped none opened).gateOpen false = false := by
  simp only [State.admits]
  decide

/-- ACTIVE with an OPEN epoch and every line in a JOURNAL window. -/
def journalled : State :=
  opened.setWindows (opened.windows.set 0
    { valid := true, base := 0, limit := 0x3FFFFFFF, masters := 0b1111, action := .journal, hits := 0 })

/-- A READ, and each reason for which a WRITE needs no record; the lowest tag FREE, the highest alone, and none. -/
theorem witness_RequestGoesToIssue :
    (∃ (s : State) (r : Request), s = opened ∧ r = readRequest (header 1 0 0 64 1) ∧ s.admits r ∧
      (∀ x ∈ s.host.table, lineOf x.address ≠ lineOf r.address) ∧ s.gateOpen r.write.isSome = true ∧ r.write = none ∧
      s.tagReady 0) ∧
    (∃ (s : State) (r : Request), s = setTag 63 .free (noTags opened) ∧ r = writeRequest (header 2 0 0 64 1) 0xFF [1] ∧
      s.admits r ∧ (∀ x ∈ s.host.table, lineOf x.address ≠ lineOf r.address) ∧ s.gateOpen r.write.isSome = true ∧
      s.classify (lineOf r.address) r.id.master ≠ .journal ∧ s.tagReady 63) ∧
    (∃ (s : State) (r : Request), s = noTags (setStack broken.epochs.stack journalled) ∧
      r = writeRequest (header 2 0 0 64 1) 0xFF [1] ∧ s.admits r ∧
      (∀ x ∈ s.host.table, lineOf x.address ≠ lineOf r.address) ∧ s.gateOpen r.write.isSome = true ∧ s.topOpen = false ∧
      s.tagWait) ∧
    ∃ (s : State) (r : Request), s = insertMark 1 journalled ∧ r = writeRequest (header 2 0 0 64 1) 0xFF [1] ∧ s.admits r ∧
      (∀ x ∈ s.host.table, lineOf x.address ≠ lineOf r.address) ∧ s.gateOpen r.write.isSome = true ∧
      lineOf r.address ∈ s.capture.marks ∧ s.tagReady 0 := by
  refine ⟨⟨_, _, rfl, rfl, ?_⟩, ⟨_, _, rfl, rfl, ?_⟩, ⟨_, _, rfl, rfl, ?_⟩, ⟨_, _, rfl, rfl, ?_⟩⟩ <;>
    simp only [State.admits, State.tagReady, State.tagWait] <;> decide

/-- Every capture slot is held. -/
def slotsHeld (s : State) : State :=
  s.setCapture { s.capture with
    slots := Vector.replicate 8 (some { entry := ⟨3, 3⟩, line := 9, stage := .append, data := some [] }) }

/-- All slots free with a tag and without; slot 7 alone free; and none free. -/
theorem witness_CaptureBegins :
    (∀ s ∈ [journalled, noTags journalled, setSlot 7 none (slotsHeld journalled), slotsHeld journalled],
      s.admits (writeRequest (header 2 0 0 64 1) 0xFF [1]) ∧ (∀ x ∈ s.host.table, lineOf x.address ≠ lineOf 64) ∧
        s.gateOpen true = true ∧ s.classify (lineOf 64) 0 = .journal ∧ s.topOpen = true ∧ lineOf 64 ∉ s.capture.marks) ∧
      (journalled.capture.slotQueue = [] ∧ journalled.capture.slots[(0 : Fin 8)] = none ∧ journalled.tagReady 0) ∧
      ((noTags journalled).capture.slotQueue = [] ∧ (noTags journalled).capture.slots[(0 : Fin 8)] = none ∧
        (noTags journalled).tagWait) ∧
      ((setSlot 7 none (slotsHeld journalled)).capture.slots[(7 : Fin 8)] = none ∧
        (∀ j : Fin 8, j < 7 → (setSlot 7 none (slotsHeld journalled)).capture.slots[j] ≠ none) ∧
        (setSlot 7 none (slotsHeld journalled)).tagReady 0) ∧
      ∀ i : Fin 8, (slotsHeld journalled).capture.slots[i] ≠ none := by
  simp only [State.admits, State.tagReady, State.tagWait]
  decide

/-- A notice in front; a response in front with no entry of its line left; and one with an entry left that the gate holds. -/
theorem witness_MessageSent :
    (∃ s : State, s = send (.hold 0) opened ∧ s.inReset = false ∧ s.holdSettled ∧ s.host.sendQueue = [.hold 0] ∧
      s.drainComplete = false) ∧
    (∃ s : State, s = send (.response ⟨1, 0⟩ false .ok [1]) (withTable [readEntry .issued] opened) ∧ s.inReset = false ∧
      s.holdSettled ∧ s.host.sendQueue = [.response ⟨1, 0⟩ false .ok [1]] ∧ s.entry ⟨1, 0⟩ = some (readEntry .issued) ∧
      (s.setHost { s.host with sendQueue := [], lastSent := some (.response ⟨1, 0⟩ false .ok [1]), table := [] }).drainComplete
        = false) ∧
    ∃ s u : State, s = send (.response ⟨1, 0⟩ false .ok [1]) (withTable [readEntry .issued, writeEntry .lineWait]
        (setController .stopped none opened)) ∧
      u = s.setHost { s.host with
        sendQueue := [], lastSent := some (.response ⟨1, 0⟩ false .ok [1]), table := [writeEntry .lineWait] } ∧
      s.inReset = false ∧ s.holdSettled ∧ s.host.sendQueue = [.response ⟨1, 0⟩ false .ok [1]] ∧
      s.entry ⟨1, 0⟩ = some (readEntry .issued) ∧
      [writeEntry .lineWait] = s.host.table.filter (fun x => decide (x.id ≠ ⟨1, 0⟩)) ∧
      u.host.table.find? (fun y => lineOf y.address == lineOf (readEntry .issued).address) = some (writeEntry .lineWait) ∧
      u.gateOpen (writeEntry .lineWait).write.isSome = false ∧ (setEntryState .parked ⟨0, 0⟩ u).drainComplete = false := by
  refine ⟨⟨_, rfl, ?_⟩, ⟨_, rfl, ?_⟩, ⟨_, _, rfl, rfl, ?_⟩⟩ <;> simp only [State.holdSettled] <;> decide

/-! #### Memory link -/

/-- `s` is quiet, as a decidable proposition. -/
theorem quiet_opened : opened.quiet := by
  simp only [State.quiet, State.holdSettled]
  decide

/-- A READ of no beat and of one, a WRITE, and their fault. -/
theorem witness_HostRequestCompletes :
    (withTag 63 (.read ⟨1, 0⟩ 64 1) opened).quiet ∧ (withTag 63 (.read ⟨1, 0⟩ 64 1) opened).memIf.tagQueue = [] ∧
      (withTag 63 (.read ⟨1, 0⟩ 64 1) opened).memIf.tags[(63 : Fin 64)] = .outstanding (.read ⟨1, 0⟩ 64 1) 7 ∧
      [(0xAB : Word)].length = 1 ∧ (withTag 0 (.write ⟨0, 0⟩ 64 1 ⟨0xFF, [1]⟩) opened).quiet ∧
      (withTag 0 (.write ⟨0, 0⟩ 64 1 ⟨0xFF, [1]⟩) opened).memIf.tags[(0 : Fin 64)]
        = .outstanding (.write ⟨0, 0⟩ 64 1 ⟨0xFF, [1]⟩) 7 := by
  simp only [State.quiet, State.holdSettled]
  decide

/-- A write to line 1 in CAPTURE_READ, in slot 0, with M-tag 0. -/
def capturing (s : State) : State :=
  withTag 0 (.readLine 0 1) (setSlot 0 (some { entry := ⟨0, 0⟩, line := 1, stage := .read, data := none })
    (withTable [writeEntry .captureRead] s))

/-- What the three clauses share. -/
def captureReads (s : State) : Prop :=
  s.quiet ∧ s.memIf.tagQueue = [] ∧ s.memIf.tags[(0 : Fin 64)] = .outstanding (.readLine 0 1) 7 ∧
    s.capture.slots[(0 : Fin 8)] = some { entry := ⟨0, 0⟩, line := 1, stage := .read, data := none } ∧
    s.epochs.stack = [{ number := 1, start := 0, broken := none, records := 0 }]

/-- A FILLING entry with one place left; none with room and a free segment; and neither, with FULL_WAIT above 0 and at 0. -/
theorem witness_CaptureReadCompletes :
    (∃ s : State, s = capturing (setMap [segment .filling 818] opened) ∧ captureReads s ∧ s.journal.waiting = [] ∧
      s.journal.map = [] ++ [segment .filling 818] ∧ (segment .filling 818).state = .filling ∧
      (segment .filling 818).physical = some 5 ∧ (segment .filling 818).count < 819) ∧
    (∃ s : State, s = capturing opened ∧ captureReads s ∧ s.journal.waiting = [] ∧
      s.journal.free = 0 :: opened.journal.free.tail ∧ s.journal.map.length < 1024 ∧ s.fillingHasRoom = false ∧
      (∀ x ∈ s.journal.map, x.q ≠ s.journal.nextQ) ∧ s.autoKept opened.journal.free.tail.length) ∧
    (∃ s : State, s = capturing ((setMap [segment .filling 819] opened).setJournal {
        opened.journal with map := [segment .filling 819], free := [] }) ∧ captureReads s ∧ s.fillingHasRoom = false ∧
      s.journal.free = [] ∧ s.service.params.fullWait ≠ 0) ∧
    ∃ s : State, s = capturing (setParams { opened.service.params with fullWait := 0 } (opened.setJournal {
        opened.journal with free := [] })) ∧ captureReads s ∧ s.fillingHasRoom = false ∧ s.journal.free = [] ∧
      s.service.params.fullWait = 0 := by
  refine ⟨⟨_, rfl, ?_⟩, ⟨_, rfl, ?_⟩, ⟨_, rfl, ?_⟩, ⟨_, rfl, ?_⟩⟩ <;>
    simp only [captureReads, State.quiet, State.holdSettled, State.autoKept] <;> decide

theorem witness_MemoryRequestFails :
    (capturing opened).quiet ∧ (capturing opened).memIf.tags[(0 : Fin 64)] = .outstanding (.readLine 0 1) 7 ∧
      (capturing opened).capture.slots[(0 : Fin 8)] = some { entry := ⟨0, 0⟩, line := 1, stage := .read, data := none } ∧
      (capturing opened).capture.slotQueue = [] ∧ (capturing opened).memIf.tagQueue = [] ∧
      (withTag 63 (.read ⟨1, 0⟩ 64 1) opened).quiet ∧
      (withTag 63 (.read ⟨1, 0⟩ 64 1) opened).memIf.tags[(63 : Fin 64)] = .outstanding (.read ⟨1, 0⟩ 64 1) 7 := by
  simp only [State.quiet, State.holdSettled]
  decide

/-- Two restores in flight, the completing one on M-tag 0. -/
def restoring (c : ReplayContext) : State := withTag 0 (.restore 5 1 (List.replicate 64 0)) (replaying c)

theorem witness_RestoreCompletes :
    (restoring { context with restores := [(5, 1), (4, 2)] }).quiet ∧
      (restoring { context with restores := [(5, 1), (4, 2)] }).memIf.tagQueue = [] ∧
      (restoring { context with restores := [(5, 1), (4, 2)] }).service.coreReset = none ∧
      (restoring { context with restores := [(5, 1), (4, 2)] }).epochs.controller = .replay ∧
      (restoring { context with restores := [(5, 1), (4, 2)] }).memIf.tags[(0 : Fin 64)]
        = .outstanding (.restore 5 1 (List.replicate 64 0)) 7 ∧
      (restoring { context with restores := [(5, 1), (4, 2)] }).replay.context
        = some { context with restores := [(5, 1), (4, 2)] } ∧
      [((4 : Seq), (2 : Line))] = [((5 : Seq), (1 : Line)), (4, 2)].filter (fun r => decide (r.1 ≠ 5)) ∧
      context.replayed.toNat < 2 ^ 32 - 1 ∧
      (restoring { context with restores := [(5, 1), (4, 2)] }).journal.waiting = [] ∧
      ((restoring { context with restores := [(5, 1), (4, 2)] }).journal.map.getLast?.all fun e =>
        !({ context with restores := [(4, 2)] } : ReplayContext).consumed e) = true := by
  simp only [State.quiet, State.holdSettled]
  decide

theorem witness_LateAndStrayCompletions :
    (noTags opened).quiet ∧ (noTags opened).memIf.tags[(63 : Fin 64)] = .quarantined ∧ (noTags opened).memIf.tagQueue = [] ∧
      (queueForTag (.readLine 0 1) (noTags opened)).quiet ∧
      (queueForTag (.readLine 0 1) (noTags opened)).memIf.tagQueue = [.readLine 0 1] ∧
      (∀ u : Fin 64, (queueForTag (.readLine 0 1) (noTags opened)).memIf.tags[u] ≠ .free) ∧
      opened.memIf.tags[(0 : Fin 64)] = .free := by
  simp only [State.quiet, State.holdSettled]
  decide

/-! #### Journal port -/

/-- What the clauses share. -/
def grants (s : State) : Prop :=
  s.inReset = false ∧ s.holdSettled ∧ s.portStopped = false ∧ s.journal.outstanding.length < 8 ∧ s.service.held = none

/-- Seven operations outstanding and both sides waiting, the given entry in the map, the given side granted last. -/
def bothWait (e : Segment) (last : Side) : State :=
  working (opened.setJournal { opened.journal with
    map := [e], engineQueue := [.recordRead 5 0 0], serviceSide := some (.blockRead 5 1), lastGranted := last,
    outstanding := [(0, .recordRead 5 1 1), (1, .recordRead 5 1 1), (2, .recordRead 5 1 1), (3, .recordRead 5 1 1),
      (4, .recordRead 5 1 1), (5, .recordRead 5 1 1), (6, .recordRead 5 1 1)] })

/-- The engine side after a service grant; the service side after an engine grant, of a segment it owns and of one it does not. -/
theorem witness_PortGranted :
    (∃ s : State, s = bothWait (segment .lent 2) .service ∧ grants s ∧ s.journal.engineQueue = [.recordRead 5 0 0] ∧
      s.journal.lastGranted = .service) ∧
    (∃ s : State, s = bothWait (segment .lent 2) .engine ∧ grants s ∧ s.journal.serviceSide = some (.blockRead 5 1) ∧
      (PortOp.blockRead 5 1).blockSegment = some 5 ∧ s.journal.lastGranted = .engine ∧
      ∃ e ∈ s.journal.map, e.physical = some 5 ∧ (e.state = .lent ∨ e.state = .refilling)) ∧
    ∃ s : State, s = bothWait (segment .filled 2) .engine ∧ grants s ∧ s.journal.serviceSide = some (.blockRead 5 1) ∧
      s.journal.lastGranted = .engine ∧ s.service.work = some { exchange := 9, attached := true } ∧
      ∀ e ∈ s.journal.map, e.physical = some 5 → e.state ≠ .lent ∧ e.state ≠ .refilling := by
  refine ⟨⟨_, rfl, ?_⟩, ⟨_, rfl, ?_⟩, ⟨_, rfl, ?_⟩⟩ <;> simp only [grants, State.holdSettled] <;> decide

/-- A frame is held behind the command at work: the engine side, and the service side, are granted. -/
theorem witness_PortGranted_held :
    ∀ last ∈ [Side.service, .engine], ∃ s : State, s = (bothWait (segment .lent 2) last).setService {
        (bothWait (segment .lent 2) last).service with
          work := some { exchange := 9, attached := false }
          held := some { code := 0x12, frame := frame 0x12 1 [], attached := true } } ∧
      s.inReset = false ∧ s.holdSettled ∧ s.portStopped = false ∧ s.journal.outstanding.length < 8 ∧
      s.service.work ≠ none ∧ s.service.held ≠ none ∧ s.journal.lastGranted = last := by
  intro last m
  refine ⟨_, rfl, ?_⟩
  simp only [State.holdSettled]
  revert last; decide

/-- A write to line 1 in CAPTURE_APPEND, its record write outstanding at the last place of segment 255. -/
def appending (s : State) : State :=
  withPort (.recordWrite 0 255 818 817 0 (List.replicate 80 0x5A))
    (setSlot 0 (some { entry := ⟨0, 0⟩, line := 1, stage := .append, data := some (List.replicate 64 0) })
      (withTable [writeEntry .captureAppend] s))

theorem witness_RecordWriteCompletes :
    (appending opened).quiet ∧ (appending opened).service.coreReset = none ∧ (appending opened).capture.slotQueue = [] ∧
      (appending opened).portOp 3 = some (.recordWrite 0 255 818 817 0 (List.replicate 80 0x5A)) ∧
      (appending opened).capture.slots[(0 : Fin 8)]
        = some { entry := ⟨0, 0⟩, line := 1, stage := .append, data := some (List.replicate 64 0) } ∧
      (appending opened).entry ⟨0, 0⟩ = some (writeEntry .captureAppend) ∧
      Memory.wf (appending opened).journal.memory = true ∧ (appending opened).tagReady 0 ∧
      (appending (noTags opened)).quiet ∧ (appending (noTags opened)).tagWait := by
  simp only [State.quiet, State.holdSettled, State.tagReady, State.tagWait]
  decide

/-- The next read at slots 818 and 819 of its segment. -/
theorem witness_ReplayReads :
    (∀ n : Seq, ∃ s : State, s = replaying { context with next := some n } ∧ s.inReset = false ∧
      s.service.coreReset = none ∧ s.replay.context = some { context with next := some n } ∧ s.epochs.controller = .replay ∧
      s.segment 0 = some (segment .filled 2) ∧ s.blockOutstanding 5 = false) ∧
    context.failure = none ∧ context.current = some 0 ∧ context.read = none ∧ context.held = none ∧
    (segment .filled 2).state = .filled ∧ (segment .filled 2).physical = some 5 ∧
    ((818 : Seq) - (segment .filled 2).first).toNat < 819 ∧ 819 ≤ ((819 : Seq) - (segment .filled 2).first).toNat :=
  ⟨fun _ => ⟨_, rfl, rfl, rfl, rfl, rfl, rfl, rfl⟩, rfl, rfl, rfl, rfl, rfl, rfl, by simp [segment], by simp [segment]⟩

/-- A held record with 3 of 4 restores out, with a FREE tag and without. -/
def restoresOut : ReplayContext := { context with held := some ⟨2, 4, [1]⟩, restores := [(5, 1), (4, 2), (3, 3)] }

theorem witness_ReplayReadsAndRestores :
    (∀ r ∈ restoresOut.restores, r.2 ≠ (4 : Line)) ∧ ∀ s ∈ [replaying restoresOut, noTags (replaying restoresOut)],
      s.inReset = false ∧ s.service.coreReset = none ∧ s.replay.context = some restoresOut ∧ restoresOut.failure = none ∧
      s.epochs.controller = .replay ∧ restoresOut.held = some ⟨2, 4, [1]⟩ ∧
      restoresOut.restores.length < s.service.params.restoreAhead ∧ (s.tagReady 0 ∨ s.tagWait) := by
  refine ⟨by simp [restoresOut], ?_⟩
  simp only [State.tagReady, State.tagWait]
  decide

/-- The read of record `n` of line 1 is outstanding. -/
def reading (n : Seq) (c : ReplayContext) : State :=
  withPort (.recordRead 5 n.toNat n) (replaying { c with next := some n, read := some n })

/-- What the clauses share, for record `n` at place `n`. -/
def recordReads (s : State) (n : Seq) (c : ReplayContext) (record : List Byte) : Prop :=
  s.quiet ∧ s.service.coreReset = none ∧ s.epochs.controller = .replay ∧ s.portOp 3 = some (.recordRead 5 n.toNat n) ∧
    s.replay.context = some c ∧ c.failure = none ∧ c.held = none ∧ record.length = 80

/-- The epoch's first record; one with another before it in the same segment; and a record for each failed check. -/
theorem witness_RecordReadCompletes :
    (∃ c record, c = { context with next := some 0, read := some 0 } ∧ record = buildRecord 1 0 1 0 1 (List.replicate 64 7) ∧
      recordReads (reading 0 context) 0 c record ∧ checksumPasses record = true ∧ recordSeq record = 0 ∧ 0 = c.start) ∧
    (∃ c record, c = { context with next := some 1, read := some 1 } ∧ record = buildRecord 1 1 1 0 1 (List.replicate 64 7) ∧
      recordReads (reading 1 context) 1 c record ∧ checksumPasses record = true ∧ recordSeq record = 1 ∧ 1 ≠ c.start ∧
      (reading 1 context).segmentOf (1 - 1) = some (segment .filled 2) ∧ c.current = some (segment .filled 2).q) ∧
    ∃ c bad other, c = { context with next := some 1, read := some 1, restores := [(2, 2)] } ∧
      bad = List.replicate 80 (1 : Byte) ∧ other = buildRecord 1 9 1 0 1 (List.replicate 64 7) ∧
      recordReads (reading 1 { context with restores := [(2, 2)] }) 1 c bad ∧
      recordReads (reading 1 { context with restores := [(2, 2)] }) 1 c other ∧ c.refill = none ∧ c.restores ≠ [] ∧
      checksumPasses bad = false ∧ checksumPasses other = true ∧ recordSeq other ≠ 1 := by
  refine ⟨⟨_, _, rfl, rfl, ?_⟩, ⟨_, _, rfl, rfl, ?_⟩, ⟨_, _, _, rfl, rfl, rfl, ?_⟩⟩ <;>
    simp only [recordReads, State.quiet, State.holdSettled] <;> decide

/-- A read arrives while a failure is present: with nothing else out, with a restore out, and with a block transfer out to the
segment that the failure freed. -/
theorem witness_RecordReadCompletes_failure :
    ∀ x ∈ [(([] : List (Seq × Line)), ([] : List (Fin 8 × PortOp))), ([(5, 1)], []), ([], [(4, .blockRead 5 0)])],
      ∃ (s : State) (c : ReplayContext) (f : Failure), f = { reason := .checksum, kept := 1, freed := some 5 } ∧
        c = { context with read := some 1, restores := x.1, failure := some f } ∧
        s = (replaying c).setJournal { (replaying c).journal with outstanding := (3, .recordRead 5 1 1) :: x.2 } ∧ s.quiet ∧
        s.service.coreReset = none ∧ s.epochs.controller = .replay ∧ s.portOp 3 = some (.recordRead 5 1 1) ∧
        (List.replicate 80 (0x5A : Byte)).length = 80 ∧ s.replay.context = some c ∧ c.failure = some f ∧
        x.2 = s.journal.outstanding.filter (fun o => decide (o.1 ≠ 3)) := by
  intro x m
  refine ⟨_, _, _, rfl, rfl, rfl, ?_⟩
  simp only [State.quiet, State.holdSettled]
  revert x; decide

/-- A block transfer is outstanding with port tag 3, its exchange open or closed, and no frame is held. -/
def transferring (op : PortOp) (attached : Bool) (s : State) : State :=
  withPort op (s.setService { s.service with
    exchange := if attached then .working else .closed, work := some { exchange := 9, attached := attached } })

/-- The last block of a segment is read, and written, the exchange open and closed. -/
theorem witness_BlockTransferCompletes :
    (∀ op ∈ [PortOp.blockRead 5 255, .blockWrite 5 255 [1, 2]], ∀ attached, ∃ s u : State, s = transferring op attached opened ∧
      s.quiet ∧ s.portStopped = false ∧ s.service.held = none ∧
      s.service.work = some { exchange := 9, attached := attached } ∧ Memory.wf s.journal.memory = true ∧
      s.portOp 3 = some op ∧
      u = s.setJournal { s.journal with outstanding := s.journal.outstanding.filter fun o => decide (o.1 ≠ 3) } ∧
      u.drainComplete = false ∧ u.failureCompletes = false) ∧
    (Memory.readBytes opened.journal.memory (5 * 65536 + 256 * 255) 256).length = 256 := by
  refine ⟨fun op m attached => ⟨_, _, rfl, ?_, rfl, rfl, rfl, rfl, rfl, rfl, ?_⟩, by decide⟩
  · simp only [State.quiet, State.holdSettled]
    revert op attached; decide
  · revert op attached; decide

/-- The transfer is what the drain of a COMMIT at depth 1 still waits for. -/
theorem witness_BlockTransferCompletes_drain :
    ∀ op ∈ [PortOp.blockRead 5 255, .blockWrite 5 255 [1, 2]], ∃ s u : State,
      s = transferring op false (setController .draining (some .commit) (setMap [segment .lent 2] opened)) ∧ s.quiet ∧
      s.portStopped = false ∧ s.service.held = none ∧ s.portOp 3 = some op ∧
      u = s.setJournal { s.journal with outstanding := s.journal.outstanding.filter fun o => decide (o.1 ≠ 3) } ∧
      u.drainComplete = true := by
  intro op m
  refine ⟨_, _, rfl, ?_, rfl, rfl, rfl, rfl, ?_⟩
  · simp only [State.quiet, State.holdSettled]
    revert op; decide
  · revert op; decide

theorem witness_RowsWithoutTheirEvent :
    opened.quiet ∧ opened.host.sendQueue = [] ∧ opened.memIf.tags[(0 : Fin 64)] = .free ∧
      opened.journal.engineQueue = [] ∧ opened.journal.serviceSide = none ∧ opened.replay.context = none ∧
      opened.epochs.controller ≠ .refillWait ∧ (∀ w ∈ opened.space.fullWaits, w.1 ≠ ⟨0, 0⟩) ∧
      opened.space.refreshTimer = none := ⟨quiet_opened, by decide⟩

/-! #### Rollback and epochs -/

/-- A refill of a SPILLED entry waits for a segment. -/
def refilling (c : ReplayContext) (e : Segment) : State :=
  setRefillTimer (some 7) (setContext (some c) (setController .refillWait none (setMap [e] opened)))

/-- A context whose refill has taken no segment, and one with a restore in flight. -/
def refillContext (restores : List (Seq × Line)) (physical : Option Phys) : ReplayContext :=
  { context with refill := some { q := 0, physical := physical, refilled := false }, restores := restores }

theorem witness_RefillTakesSegment :
    ∃ s : State, s = refilling (refillContext [] none) { segment .spilled 2 with physical := none } ∧ s.inReset = false ∧
      s.holdSettled ∧ s.service.coreReset = none ∧ s.epochs.controller = .refillWait ∧
      s.replay.context = some (refillContext [] none) ∧ (refillContext [] none).failure = none ∧
      (refillContext [] none).refill = some { q := 0, physical := none, refilled := false } ∧
      s.journal.free = 0 :: opened.journal.free.tail ∧
      s.segment 0 = some { segment .spilled 2 with physical := none } ∧ s.autoKept opened.journal.free.tail.length := by
  refine ⟨_, rfl, ?_⟩
  simp only [State.holdSettled, State.autoKept]
  decide

/-- A SPILLED entry for which no segment was free, and one in REFILLING. -/
theorem witness_RefillTimerExpires :
    (∃ s : State, s = (refilling (refillContext [(5, 1)] none) { segment .spilled 2 with physical := none }).setJournal
        { opened.journal with map := [{ segment .spilled 2 with physical := none }], free := [] } ∧
      s.quiet ∧ s.service.coreReset = none ∧ s.epochs.controller = .refillWait ∧
      s.replay.context = some (refillContext [(5, 1)] none) ∧ s.replay.refillTimer = some 7 ∧
      s.segment 0 = some { segment .spilled 2 with physical := none } ∧ (refillContext [(5, 1)] none).restores ≠ []) ∧
    ∃ s : State, s = refilling (refillContext [(5, 1)] (some 5)) (segment .refilling 2) ∧ s.quiet ∧
      s.service.coreReset = none ∧ s.epochs.controller = .refillWait ∧
      s.replay.context = some (refillContext [(5, 1)] (some 5)) ∧ s.replay.refillTimer = some 7 ∧
      s.segment 0 = some (segment .refilling 2) ∧ (refillContext [(5, 1)] (some 5)).restores ≠ [] ∧
      (segment .refilling 2).state = .refilling ∧ (segment .refilling 2).physical = some 5 ∧ s.journal.waiting = [] ∧
      s.autoKept (s.journal.free.length + 1) := by
  refine ⟨⟨_, rfl, ?_⟩, ⟨_, rfl, ?_⟩⟩ <;> simp only [State.quiet, State.holdSettled, State.autoKept] <;> decide

theorem witness_RollbackSucceeds :
    ∃ (s : State) (c : ReplayContext), s = replaying { context with next := none } ∧ c = { context with next := none } ∧
      s.inReset = false ∧ s.holdSettled ∧ s.service.coreReset = none ∧ s.epochs.controller = .replay ∧
      s.replay.context = some c ∧ c.failure = none ∧ c.next = none ∧ c.held = none ∧ c.read = none ∧ c.restores = [] ∧
      s.epochs.stack = [{ number := 1, start := 0, broken := none, records := 0 }] ∧ s.journal.waiting = [] ∧
      s.autoKept (s.journal.free ++ (s.journal.map.filter fun e => seqGe e.first c.start).filterMap (·.physical)).length := by
  refine ⟨_, _, rfl, rfl, ?_⟩
  simp only [State.holdSettled, State.autoKept]
  decide

/-- A context whose failure keeps record 1 and has freed segment 5. -/
def failing : ReplayContext := { context with failure := some { reason := .checksum, kept := 1, freed := some 5 } }

theorem witness_RollbackFails :
    ∃ s : State, s = replaying failing ∧ s.inReset = false ∧ s.holdSettled ∧ s.service.coreReset = none ∧
      s.epochs.controller = .replay ∧ s.replay.context = some failing ∧
      failing.failure = some { reason := .checksum, kept := 1, freed := some 5 } ∧ failing.read = none ∧
      failing.restores = [] ∧ s.blockOutstanding 5 = false ∧
      s.epochs.stack = [{ number := 1, start := 0, broken := none, records := 0 }] ∧ s.journal.waiting = [] ∧
      s.autoKept (s.journal.free ++ (s.journal.map.filter fun e => seqGe e.first (1 + 1)).filterMap (·.physical)).length := by
  refine ⟨_, rfl, ?_⟩
  simp only [State.holdSettled, State.autoKept]
  decide

/-- A number that no epoch holds, and one that an epoch holds. -/
theorem witness_CheckpointTakesEffect :
    (∃ s : State, s = setController .draining (some .checkpoint) opened ∧ s.inReset = false ∧
      s.epochs.command = some .checkpoint ∧ s.drainComplete = true ∧ s.epochs.valid ∧
      ∀ e ∈ s.epochs.stack, e.number ≠ s.epochs.nextEpoch) ∧
    ∃ s : State, s = opened.setEpochs { opened.epochs with
        nextEpoch := 1, controller := .draining, command := some .checkpoint } ∧ s.inReset = false ∧
      s.epochs.command = some .checkpoint ∧ s.drainComplete = true ∧ s.epochs.valid := by
  refine ⟨⟨_, rfl, ?_⟩, ⟨_, rfl, ?_⟩⟩ <;> simp only [EpochCtl.valid] <;> decide

/-- Two epochs; one with the journal empty; and one with an entry in the map. -/
theorem witness_CommitTakesEffect :
    (∀ s ∈ [setController .draining (some .commit) (setStack [{ number := 2, start := 0, broken := some .full, records := 4 },
        { number := 1, start := 0, broken := none, records := 3 }] opened), setController .draining (some .commit) opened,
        setController .draining (some .commit) (setMap [segment .filled 2] opened)],
      s.inReset = false ∧ s.epochs.command = some .commit ∧ s.drainComplete = true ∧ s.holdSettled) ∧
    (∀ s ∈ [setController .draining (some .commit) opened,
        setController .draining (some .commit) (setMap [segment .filled 2] opened)],
      s.epochs.stack = [{ number := 1, start := 0, broken := none, records := 0 }] ∧ s.journal.waiting = [] ∧
      s.autoKept (s.journal.free ++ s.journal.map.filterMap (·.physical)).length) ∧
    (setController .draining (some .commit) opened).journal.map = [] ∧
    (setController .draining (some .commit) (setMap [segment .filled 2] opened)).journal.map.head? = some (segment .filled 2) ∧
    (setController .draining (some .commit) (setMap [segment .filled 2] opened)).journal.map.getLast?
      = some (segment .filled 2) := by
  simp only [State.holdSettled, State.autoKept]
  decide

/-- Two records in a FILLING entry. -/
def recorded : State := opened.setJournal { opened.journal with map := [segment .filling 2], nextSeq := 2 }

/-- A rollback that has drained; one that is taken in STOPPED; and one of a BROKEN epoch. -/
theorem witness_WalkStarts :
    (∀ s ∈ [setController .draining (some .rollback) recorded,
        ready (setController .stopped none (setContext (some failing) recorded))],
      s.epochs.stack = [{ number := 1, start := 0, broken := none, records := 0 }] ∧ s.service.coreReset = none ∧
      s.holdSettled ∧ s.journal.nextSeq ≠ 0 ∧ s.journal.map.getLast? = some (segment .filling 2) ∧
      (segment .filling 2).state = .filling) ∧
    (∀ s ∈ [setController .draining (some .rollback) recorded, setController .draining (some .rollback) broken],
      s.inReset = false ∧ s.epochs.command = some .rollback ∧ s.drainComplete = true ∧ s.service.coreReset = none ∧
      s.holdSettled) ∧
    (setController .draining (some .rollback) broken).epochs.stack
      = [{ number := 1, start := 0, broken := some .full, records := 0 }] ∧
    (ready (setController .stopped none (setContext (some failing) recorded))).epochs.controller = .stopped ∧
    (ready (setController .stopped none (setContext (some failing) recorded))).replay.context = some failing ∧
    (ready (setController .stopped none (setContext (some failing) recorded))).takes 0x33 (frame 0x33 1 []) := by
  simp only [← and_assoc]
  refine ⟨?_, takes_ready _ _ _ _ rfl rfl⟩
  simp only [State.holdSettled]
  decide

/-! #### Space and the hold -/

theorem witness_FullWaitExpires :
    ∃ s : State, s = opened.setSpace { opened.space with fullWaits := [(⟨0, 0⟩, 7)] } ∧ s.inReset = false ∧
      s.space.fullWaits.find? (fun w => decide (w.1 = ⟨0, 0⟩)) = some (⟨0, 0⟩, 7) ∧
      s.epochs.stack = [{ number := 1, start := 0, broken := none, records := 0 }] := ⟨_, rfl, by decide⟩

/-- The manual hold set, with its notice told and its refresh timer running. -/
def held (s : State) : State := (tellHold true s).setSpace { s.space with manual := true, refreshTimer := some 7 }

/-- Each command with the hold in force and not, and the refresh timer running. -/
theorem witness_ManualHold :
    ((ready (held opened)).takes 0x40 (frame 0x40 1 []) ∧ (ready (held opened)).takes 0x41 (frame 0x41 1 []) ∧
      (ready opened).takes 0x40 (frame 0x40 1 []) ∧ (ready opened).takes 0x41 (frame 0x41 1 [])) ∧
      ((ready (held opened)).holdSettled ∧ (ready (held opened)).holdInForce = true ∧
        (ready (held opened)).space.auto = false ∧ (ready (held opened)).space.manual = true) ∧
      ((ready opened).holdSettled ∧ (ready opened).holdInForce = false ∧ (ready opened).space.manual = false) ∧
      ((held opened).inReset = false ∧ (held opened).space.refreshTimer = some 7 ∧ (held opened).holdInForce = true) := by
  refine ⟨⟨takes_ready _ _ _ _ rfl rfl, takes_ready _ _ _ _ rfl rfl, takes_ready _ _ _ _ rfl rfl,
    takes_ready _ _ _ _ rfl rfl⟩, ?_⟩
  simp only [State.holdSettled]
  decide

/-- The payload of a PARAM_WRITE. -/
def paramPayload (code v : Nat) : List Byte := leBytes 1 code ++ leBytes 4 v

/-- Five segments free, the automatic hold off. -/
def scarce : State := opened.setJournal { opened.journal with free := [1, 2, 3, 4, 5] }

/-- Five segments free, the automatic hold on and told. -/
def autoHeld : State := (tellHold true scarce).setSpace { scarce.space with auto := true, refreshTimer := some 7 }

/-- Every PARAM_WRITE is taken from a state that has told its hold; the last values accepted and the first refused of each
threshold at the reset parameters; and states in which the hold stays, comes and leaves. -/
theorem witness_ThresholdAndNsegWrites :
    (∀ (s : State) (code v : Nat), s.inReset = false → (ready s).takes 0x11 (frame 0x11 1 (paramPayload code v))) ∧
      (∀ s ∈ [opened, State.reset, held opened, held State.reset, scarce], s.inReset = false ∧ (ready s).holdSettled ∧
        (ready s).service.params = Params.reset) ∧
      (∀ v ∈ [7, 8, 256], leValue ((paramPayload 6 v).drop 1) = v ∧ (paramPayload 6 v).take 1 = [6]) ∧
      (∀ v ∈ [0, 4, 5, 256, 257], leValue ((paramPayload 7 v).drop 1) = v ∧ (paramPayload 7 v).take 1 = [7]) ∧
      (∀ v ∈ [15, 16, 256, 257], leValue ((paramPayload 2 v).drop 1) = v ∧ (paramPayload 2 v).take 1 = [2]) ∧
      (ready opened).host.holdTold = (false || (ready opened).space.manual) ∧
      ((ready scarce).host.holdTold = false ∧ (ready scarce).journal.free.length ≤ 7) ∧
      ((ready autoHeld).holdSettled ∧ (ready autoHeld).host.holdTold = true ∧ (ready autoHeld).space.manual = false ∧
        4 < (ready autoHeld).journal.free.length ∧ 5 ≤ (ready autoHeld).journal.free.length) ∧
      (ready State.reset).service.mode = .bypass ∧ (ready opened).service.mode = .active ∧
      ((ready (held State.reset)).host.holdTold = (ready (held State.reset)).space.manual) := by
  refine ⟨fun s code v h => takes_ready _ _ _ _ h rfl, ?_⟩
  simp only [State.holdSettled]
  decide

/-! #### Service link -/

/-- Each identifier, the ends of each range, and identifiers that name no parameter. -/
theorem witness_ParameterWrites :
    (∀ code v : Nat, (ready State.reset).takes 0x11 (frame 0x11 1 (paramPayload code v))) ∧ (ready State.reset).holdSettled ∧
      (∀ code : Fin 10, (paramPayload code 0).take 1 = [BitVec.ofNat 8 code]) ∧
      leValue ((paramPayload 3 65535).drop 1) = 65535 ∧ leValue ((paramPayload 3 65536).drop 1) = 65536 ∧
      State.reset.depth = 0 ∧ opened.depth ≠ 0 ∧ leValue ((paramPayload 0 1).take 1) = 0 ∧
      9 < leValue ((paramPayload 10 1).take 1) := by
  refine ⟨fun code v => takes_ready _ _ _ _ rfl rfl, ?_⟩
  simp only [State.holdSettled]
  decide

theorem witness_StatusAndParametersRead :
    (∀ code : Byte, (ready opened).takes 0x10 (frame 0x10 1 [code])) ∧ (ready opened).takes 0x12 (frame 0x12 1 []) ∧
      (ready opened).service.params.valid ∧ leValue [9] = 9 ∧ leValue [0] = 0 ∧ 9 < leValue [10] := by
  refine ⟨fun code => takes_ready _ _ _ _ rfl rfl, takes_ready _ _ _ _ rfl rfl, ?_⟩
  simp only [Params.valid]
  decide

/-- The ends of each query's range. -/
theorem witness_TablesQueried :
    (∀ a b c d : Byte, (ready opened).takes 0x34 (frame 0x34 1 [a, b, c, d])) ∧
      (∀ a : Byte, (ready opened).takes 0x21 (frame 0x21 1 [a])) ∧
      (∀ a b : Byte, (ready opened).takes 0x54 (frame 0x54 1 [a, b])) ∧ leValue [0, 0, 0, 0x40] = 2 ^ 30 ∧
      leValue [0xFF, 0xFF, 0xFF, 0x3F] = (0x3FFFFFFF : Line).toNat ∧ leValue [16] = 16 ∧ leValue [15] = (15 : Fin 16).val ∧
      1023 < leValue [0, 4] ∧ leValue [0xFF, 3] = 1023 ∧ (ready opened).journal.map.length ≤ leValue [0, 0] ∧
      (setMap [segment .lent 819] opened).journal.map[leValue [0, 0]]? = some (segment .lent 819) := by
  refine ⟨fun a b c d => takes_ready _ _ _ _ rfl rfl, fun a => takes_ready _ _ _ _ rfl rfl,
    fun a b => takes_ready _ _ _ _ rfl rfl, ?_⟩
  decide

/-- An empty queue; a record with nothing dropped; and a record with a dropped count. -/
theorem witness_EventPopped :
    ((ready opened).takes 0x13 (frame 0x13 1 []) ∧ (ready opened).service.events = []) ∧
      ((ready (eventful 1 0)).takes 0x13 (frame 0x13 1 []) ∧
        (ready (eventful 1 0)).service.events = [{ kind := .eventsLost 1, time := 0, epoch := none }] ∧
        (ready (eventful 1 0)).service.dropped = 0) ∧
      ((ready (eventful 1 3)).takes 0x13 (frame 0x13 1 []) ∧
        (ready (eventful 1 3)).service.events = [{ kind := .eventsLost 1, time := 0, epoch := none }] ∧
        (ready (eventful 1 3)).service.dropped ≠ 0) :=
  ⟨⟨takes_ready _ _ _ _ rfl rfl, rfl⟩, ⟨takes_ready _ _ _ _ rfl rfl, by decide⟩, ⟨takes_ready _ _ _ _ rfl rfl, by decide⟩⟩

theorem witness_ModeSet :
    (ready State.reset).takes 0x14 (frame 0x14 1 []) ∧ (ready State.reset).takes 0x15 (frame 0x15 1 []) ∧
      ((ready State.reset).epochs.stack = [] ∧ (ready State.reset).epochs.controller = .idle) ∧
      ((ready opened).takes 0x15 (frame 0x15 1 []) ∧ (ready opened).epochs.stack ≠ []) :=
  ⟨takes_ready _ _ _ _ rfl rfl, takes_ready _ _ _ _ rfl rfl, by decide, takes_ready _ _ _ _ rfl rfl, by decide⟩

theorem witness_QuarantineReleased :
    (ready (noTags opened)).takes 0x17 (frame 0x17 1 []) ∧ (ready (noTags opened)).memIf.tagQueue = [] :=
  ⟨takes_ready _ _ _ _ rfl rfl, by decide⟩

/-- The first and last window, the ends of each field, and an empty master set. -/
theorem witness_WindowWritten :
    (∀ index valid base limit masters action : Nat, (ready State.reset).takes 0x20 (frame 0x20 1
      (leBytes 1 index ++ leBytes 1 valid ++ leBytes 4 base ++ leBytes 4 limit ++ leBytes 1 masters ++ leBytes 1 action))) ∧
      (ready State.reset).depth = 0 ∧ (ready opened).depth ≠ 0 ∧ (15 : Nat) = (15 : Fin 16).val ∧
      (4, Action.deny) ∈ [(1, Action.pass), (2, .journal), (3, .guard), (4, .deny)] ∧
      (1, Action.pass) ∈ [(1, Action.pass), (2, .journal), (3, .guard), (4, .deny)] :=
  ⟨fun index valid base limit masters action => takes_ready _ _ _ _ rfl rfl, by decide⟩

/-- Seven and eight epochs, all in IDLE and ACTIVE. -/
def epochs (n : Nat) : State := setStack (List.replicate n { number := 1, start := 0, broken := none, records := 0 }) opened

/-- Each refusal, a drain that waits for an entry, and one that is complete at once. -/
theorem witness_EpochCommandsTaken :
    (∀ (s : State) (code : Byte), s.inReset = false → code ∈ [0x30, 0x31, 0x33] → (ready s).takes code (frame code 1 [])) ∧
      (∀ s ∈ [opened, broken, State.reset, epochs 7, epochs 8, setController .stopped none broken,
        setController .stopped none State.reset, setController .replay none opened, withTable [writeEntry .issued] opened,
        withTable [readEntry .issued] opened], s.inReset = false ∧ (ready s).holdSettled) ∧
      ((ready State.reset).epochs.controller = .idle ∧ (ready State.reset).service.mode = .bypass ∧
        (ready State.reset).depth = 0 ∧ (ready State.reset).epochs.stack = []) ∧
      ((ready (epochs 8)).service.mode = .active ∧ 8 ≤ (ready (epochs 8)).depth ∧ (ready (epochs 7)).depth < 8) ∧
      ((ready opened).epochs.controller = .idle ∧ (ready opened).service.mode = .active ∧ (ready opened).depth ≠ 0 ∧
        (ready opened).epochs.stack = [{ number := 1, start := 0, broken := none, records := 0 }]) ∧
      (∀ c ∈ [PendingCommand.checkpoint, .commit, .rollback],
        (setController .draining (some c) (ready opened)).drainComplete = true ∧
        (setController .draining (some c) (ready (withTable [writeEntry .issued] opened))).drainComplete = false) ∧
      (ready (setController .replay none opened)).epochs.controller ≠ .idle ∧
      (ready (setController .stopped none broken)).epochs.stack
        = [{ number := 1, start := 0, broken := some .full, records := 0 }] := by
  constructor
  · intro s code h hc
    simp only [List.mem_cons, List.not_mem_nil, or_false] at hc
    rcases hc with rfl | rfl | rfl <;> exact takes_ready _ _ _ _ h rfl
  · simp only [State.holdSettled]
    decide

theorem witness_EpochAbandoned :
    (∀ s : State, s.inReset = false → (ready s).takes 0x32 (frame 0x32 1 [])) ∧
      (∀ s ∈ [opened, State.reset, setController .stopped none opened, setController .replay none opened], s.inReset = false) ∧
      (ready (setController .replay none opened)).epochs.controller = .replay ∧
      ((ready State.reset).epochs.controller = .idle ∧ (ready State.reset).epochs.stack = []) ∧
      ((ready opened).epochs.controller = .idle ∧
        (ready opened).epochs.stack = [{ number := 1, start := 0, broken := none, records := 0 }]) ∧
      ((ready (setController .stopped none opened)).epochs.controller = .stopped ∧
        (ready (setController .stopped none opened)).epochs.stack
          = [{ number := 1, start := 0, broken := none, records := 0 }]) :=
  ⟨fun s h => takes_ready _ _ _ _ h rfl, by decide⟩

/-- 0, 1, 16 and 17 segments, outside a walk and during one. -/
theorem witness_SegmentsLent :
    (∀ (s : State) (n : Byte), s.inReset = false → (ready s).takes 0x50 (frame 0x50 1 [n])) ∧
      (∀ n : Fin 18, leValue [BitVec.ofNat 8 n] = n) ∧ opened.inReset = false ∧ (replaying context).inReset = false ∧
      (ready (setMap [segment .filled 2] opened)).settled (segment .filled 2) = true ∧
      ((ready (replaying context)).epochs.controller = .replay ∧ (ready (replaying context)).replay.context = some context ∧
        context.current = some 0 ∧ seqOlder 0xFFFFFFFF 0 = true) :=
  ⟨fun s n h => takes_ready _ _ _ _ h rfl, by decide⟩

/-- Entry 0 in the state that each command asks for, and in another. -/
theorem witness_LentSegmentsReturned :
    (∀ (s : State) (code : Byte), s.inReset = false → code ∈ [0x51, 0x52, 0x53] →
      (ready s).takes code (frame code 1 [0, 0, 0, 0])) ∧ leValue [0, 0, 0, 0] = (0 : SegNo).toNat ∧
      (∃ s : State, s = ready (setMap [segment .lent 2] opened) ∧ s.inReset = false ∧ s.holdSettled ∧
        s.segment 0 = some (segment .lent 2) ∧ (segment .lent 2).state = .lent ∧ (segment .lent 2).physical = some 5 ∧
        s.journal.waiting = [] ∧ s.walking .refillWait = none ∧ s.autoKept (s.journal.free.length + 1)) ∧
      (∃ s : State, s = ready (refilling (refillContext [] (some 5)) (segment .refilling 2)) ∧ s.inReset = false ∧
        s.holdSettled ∧ s.segment 0 = some (segment .refilling 2) ∧ (segment .refilling 2).state = .refilling ∧
        s.replay.context = some (refillContext [] (some 5)) ∧
        (refillContext [] (some 5)).refill = some { q := 0, physical := some 5, refilled := false }) ∧
      ∃ s : State, s = ready (setMap [segment .filled 2] opened) ∧ s.inReset = false ∧ s.holdSettled ∧
        s.segment 0 = some (segment .filled 2) ∧ (segment .filled 2).state ≠ .lent ∧
        (segment .filled 2).state ≠ .refilling := by
  refine ⟨?_, by decide, ⟨_, rfl, ?_⟩, ⟨_, rfl, ?_⟩, ⟨_, rfl, ?_⟩⟩
  · intro s code h hc
    simp only [List.mem_cons, List.not_mem_nil, or_false] at hc
    rcases hc with rfl | rfl | rfl <;> exact takes_ready _ _ _ _ h rfl
  all_goals simp only [State.holdSettled, State.autoKept]
  all_goals decide

theorem witness_BlockTransferPlaced :
    (ready opened).takes 0x55 (frame 0x55 1 [5, 255]) ∧
      (ready opened).takes 0x56 (frame 0x56 1 (5 :: 255 :: List.replicate 256 0xAA)) :=
  ⟨takes_ready _ _ _ _ rfl rfl, takes_ready _ _ _ _ rfl (by rw [List.length_cons, List.length_cons, List.length_replicate]; rfl)⟩

/-- A frame with a wrong CRC, one of no command, one of a wrong length, one behind a command at work, and one outside RECEIVING. -/
theorem witness_FramesCheckedAndHeld :
    (⟨1, [], 0⟩ : Frame).crc ≠ crc (0x12 :: 1 :: (leBytes 2 0 ++ [])) ∧ requestLength 0x99 = none ∧
      (frame 0x99 1 []).crc = crc (0x99 :: 1 :: (leBytes 2 0 ++ [])) ∧ requestLength 0x12 = some 0 ∧
      (frame 0x12 1 [7]).crc = crc (0x12 :: 1 :: (leBytes 2 1 ++ [7])) ∧
      frameOf (.statusRead (frame 0x12 1 [7])) = some (0x12, frame 0x12 1 [7]) ∧
      frameCheck 0x12 (frame 0x12 1 [7]) = some .badFrame ∧ (ready opened).inReset = false ∧ (ready opened).holdSettled ∧
      (ready opened).service.exchange = .receiving ∧ (ready opened).service.unread = false ∧
      (ready opened).service.work = none ∧
      ((ready opened).setService { (ready opened).service with work := some ⟨9, false⟩ }).service.work ≠ none ∧
      (working opened).service.exchange ≠ .receiving := by
  simp only [State.holdSettled]
  decide

theorem witness_ExchangeOpensAndCloses :
    opened.inReset = false ∧ opened.service.exchange = .closed ∧ (ready opened).service.exchange ≠ .closed ∧
      (State.answers (frame 0x14 1 []) (.done []) opened).service.exchange = .answering ((Answer.done []).frame 1) := by decide

/-! #### Core reset -/

theorem witness_CoreResetBegins :
    (ready (withPort (.recordRead 5 0 0) opened)).takes 0x16 (frame 0x16 1 []) ∧
      (ready (withPort (.recordRead 5 0 0) opened)).holdSettled ∧
      (ready (withPort (.recordRead 5 0 0) opened)).journal.outstanding ≠ [] := by
  refine ⟨takes_ready _ _ _ _ rfl rfl, ?_⟩
  simp only [State.holdSettled]
  decide

/-- A core reset in progress that found epoch 1. -/
def resetting (done : Bool) (restores : List (Seq × Line)) : State :=
  setContext (some { context with restores := restores }) (working (opened.setService { opened.service with
    coreReset := some {
      controller := .replay, command := none, top := some 1, depth := 1, journalDone := done, discarded := some (0, 0) } }))

/-- Nothing on the port, a restore still out. -/
theorem witness_JournalStepTaken :
    (resetting false [(5, 1)]).inReset = false ∧ (resetting false [(5, 1)]).holdSettled ∧
      (resetting false [(5, 1)]).service.coreReset = some {
        controller := .replay, command := none, top := some 1, depth := 1, journalDone := false, discarded := some (0, 0) } ∧
      (resetting false [(5, 1)]).journal.outstanding = [] ∧
      (resetting false [(5, 1)]).replay.context = some { context with restores := [(5, 1)] } ∧
      (resetting false [(5, 1)]).journal.waiting = [] ∧ (resetting false [(5, 1)]).service.work ≠ none ∧
      (resetting false [(5, 1)]).service.params.holdOnFree < (resetting false [(5, 1)]).service.params.holdOffFree ∧
      (resetting false [(5, 1)]).service.params.holdOffFree ≤ ((resetting false [(5, 1)]).journal.free ++
        (resetting false [(5, 1)]).journal.map.filterMap (·.physical)).length := by
  simp only [State.holdSettled]
  decide

theorem witness_CoreResetEnds :
    (resetting true []).inReset = false ∧ (resetting true []).holdSettled ∧
      (resetting true []).service.coreReset = some {
        controller := .replay, command := none, top := some 1, depth := 1, journalDone := true, discarded := some (0, 0) } ∧
      (resetting true []).replay.context = some context ∧ context.restores = [] ∧
      (resetting true []).service.work = some { exchange := 9, attached := true } ∧
      (resetting true []).service.held = none := by
  simp only [State.holdSettled]
  decide

/-! ### Where something waits: the wider clauses -/

/-! #### Tags and slots that become free -/

/-- A tag becomes free with no request waiting. -/
theorem tagFreed_idle {g : Fin 64} {s : State} (h : s.memIf.tagQueue = []) : ∃ v, s.tagFreed g v ∧ v.capture = s.capture ∧
    v.host = s.host ∧ v.memIf.tagQueue = [] ∧ v.memIf.tags = s.memIf.tags.set g .free :=
  ⟨_, .inl ⟨h, rfl⟩, rfl, rfl, h, rfl⟩

/-- A tag becomes free with a request waiting for it. -/
theorem tagFreed_waited {g : Fin 64} {s : State} {r : MemRequest} {rest : List MemRequest} (h : s.memIf.tagQueue = r :: rest)
    (none : ∀ u : Fin 64, s.memIf.tags[u] ≠ .free) : ∃ v, s.tagFreed g v := ⟨_, .inr ⟨r, rest, h, none, rfl⟩⟩

/-- A slot becomes free with no write waiting for it, and the entry `e` goes to issue with tag `g`. -/
theorem slotFreed_idle {i : Fin 8} {g : Fin 64} {e : Entry} {s : State} (h : s.capture.slotQueue = []) (ready : s.tagReady g) :
    ∃ w x, s.slotFreed i w ∧ w.issues e x := ⟨_, _, .inl ⟨h, rfl⟩, .inl ⟨g, ready, rfl⟩⟩

/-- A slot becomes free with a write waiting for it, and the entry `e` goes to issue, both with no tag FREE. -/
theorem slotFreed_waited {i : Fin 8} {id : HostId} {rest : List HostId} {y e : Entry} {s : State}
    (h : s.capture.slotQueue = id :: rest) (entry : s.entry id = some y) (none : ∀ u : Fin 64, s.memIf.tags[u] ≠ .free) :
    ∃ w x, s.slotFreed i w ∧ w.issues e x :=
  ⟨_, _, .inr ⟨id, rest, y, h, entry, .inr ⟨.inr none, rfl⟩⟩, .inr ⟨.inr none, rfl⟩⟩

/-- A write to line 2 in SLOT_WAIT. -/
def waiter : Entry := { writeEntry .slotWait with id := ⟨2, 0⟩, address := 128 }

/-- `s` with that write at the head of the slot queue. -/
def slotWaited (s : State) : State :=
  withTable (waiter :: s.host.table) (s.setCapture { s.capture with slotQueue := [⟨2, 0⟩] })

/-- One epoch with two records in a FILLING entry of segment 0. -/
def journalling : State :=
  opened.setJournal { opened.journal with
    map := [{ q := 0, state := .filling, physical := some 0, first := 0, count := 2 }]
    nextSeq := 2, nextQ := 1, free := opened.journal.free.tail }

/-- Every law of JournalMemoryAndPortKept holds of a state with records. -/
theorem witness_JournalMemoryAndPortKept :
    step journalling = .next (journalling.setTimebase 1) ∧ Memory.wf journalling.journal.memory = true ∧
      journalling.journal.portValid ∧ 1 + 17 < 2 ^ 32 ∧ journalling.lawful 1 := by
  refine ⟨rfl, rfl, ⟨Nat.zero_le _, List.nodup_nil⟩, by decide, ?_⟩
  refine ⟨⟨List.nodup_nil, fun id => ?_, ⟨fun _ h => (nomatch h), fun i sl h => ?_⟩, ⟨List.nodup_nil, fun _ h => nomatch h⟩,
    ⟨List.nodup_nil, fun _ h => nomatch h⟩⟩,
    ⟨?_, by decide, by decide, fun _ h => (nomatch h), List.pairwise_singleton _ _, by decide⟩,
    fun _ b h => ?_, fun _ => ⟨Nat.zero_le _, fun _ h => nomatch h⟩, fun _ e m h => ?_,
    (by rintro ((w | w) | w) <;> cases w), fun h => (nomatch h), fun h => (nomatch h), fun h => (nomatch h), fun _ _ _ h => nomatch h⟩
  · have slots : ∀ b, journalling.inSlots b id = 0 := fun b => by
      change State.reset.inSlots b id = 0
      simp [State.inSlots, State.reset, CaptureUnit.reset]
    have links : journalling.inLinks id = 0 := by
      change State.reset.inLinks id = 0
      simp [State.inLinks, State.reset, MemoryIf.reset, HostIf.reset, TagState.host]
    have queue : journalling.inSlotQueue id = 0 := rfl
    simp [State.fitsAt, fits, slots, links, queue]
  · exact nomatch h.symm.trans ((by decide : ∀ i : Fin 8, journalling.capture.slots[i] = none) i)
  · exact List.perm_append_singleton _ _
  · cases h
    refine ⟨2, ⟨⟨rfl, by decide, by decide, rfl⟩, by decide, by decide, by decide, List.pairwise_singleton _ _⟩, fun _ => rfl, ?_⟩
    rintro (w | w) <;> cases w
  · exact absurd h ((by decide : ∀ e ∈ journalling.journal.map, e.state ≠ .refilling) e m)

/-! #### Breaks, intake and the host link -/

/-- Captures in stage READ and SPACE, with a write in SLOT_WAIT. -/
theorem witness_BreakRequest_captures :
    ((withTable [waiter, writeEntry .spaceWait] opened).host.table.map (·.id)).Nodup ∧
      (withTable [waiter, writeEntry .spaceWait] opened).epochs.stack
        = [{ number := 1, start := 0, broken := none, records := 0 }] := by decide

/-- Each reason for which the accept line is withdrawn, for a request. -/
theorem witness_RequestRefusedAtIntake_withdrawn :
    requestOf (.read (header 1 0 0 64 1)) = some (readRequest (header 1 0 0 64 1)) ∧
      (withTable (List.replicate 32 (readEntry .issued)) opened).acceptLine = false ∧
      (opened.setHost { opened.host with sendQueue := List.replicate 4 (.intake ⟨0, 0⟩ false .malformed) }).acceptLine
        = false ∧
      (opened.setInReset true).acceptLine = false := by decide

/-- A read and a write of different lines are PARKED. -/
theorem witness_RequestHeld_released :
    ((withTable [readEntry .parked, { writeEntry .parked with address := 128 }] opened).host.table.map (·.id)).Nodup ∧
      (withTable [readEntry .parked] opened).host.table.filter (fun e => decide (e.state = .parked)) = [readEntry .parked] := by
  decide

/-- What the clauses of a response share. -/
def responds (s u : State) (e : Entry) : Prop :=
  s.inReset = false ∧ s.holdSettled ∧ s.host.sendQueue = [.response e.id e.write.isSome .ok [1]] ∧ s.entry e.id = some e ∧
    (s.host.table.map (·.id)).Nodup ∧
    u = s.setHost { s.host with
      sendQueue := [], lastSent := some (.response e.id e.write.isSome .ok [1]),
      table := s.host.table.filter fun x => decide (x.id ≠ e.id) }

/-- The entry `y` is left in LINE_WAIT behind the answered entry `e`. -/
def behind (y e : Entry) : State := send (.response e.id e.write.isSome .ok [1]) (withTable [e, y] opened)

/-- The next entry of the line meets an open gate: a write that needs a record, with a slot free; and a read. -/
theorem witness_MessageSent_passes :
    (∃ s u v, s = behind (writeEntry .lineWait) (readEntry .issued) ∧ responds s u (readEntry .issued) ∧
      u.host.table.find? (fun y => lineOf y.address == lineOf (readEntry .issued).address) = some (writeEntry .lineWait) ∧
      u.gateOpen (writeEntry .lineWait).write.isSome = true ∧ u.passes (writeEntry .lineWait) v ∧ v.drainComplete = false) ∧
    ∃ s u v, s = behind (readEntry .lineWait) (writeEntry .issued) ∧ responds s u (writeEntry .issued) ∧
      u.host.table.find? (fun y => lineOf y.address == lineOf (writeEntry .issued).address) = some (readEntry .lineWait) ∧
      u.gateOpen (readEntry .lineWait).write.isSome = true ∧ u.passes (readEntry .lineWait) v ∧ v.drainComplete = false := by
  constructor
  · refine ⟨_, _, _, rfl, ⟨by decide, by simp only [State.holdSettled]; decide, by decide, by decide, by decide, rfl⟩,
      by decide, by decide, .inr (.inl ⟨?_, rfl, 0, rfl, by decide, .inl ⟨0, ?_, rfl⟩⟩), rfl⟩
    · simp only [State.needsRecord]
      decide
    · simp only [State.tagReady]
      decide
  · refine ⟨_, _, _, rfl, ⟨by decide, by simp only [State.holdSettled]; decide, by decide, by decide, by decide, rfl⟩,
      by decide, by decide, .inl ⟨?_, .inl ⟨0, ?_, rfl⟩⟩, rfl⟩
    · simp only [State.needsRecord]
      decide
    · simp only [State.tagReady]
      decide

/-- The response frees the last entry that each drain waits for. -/
theorem witness_MessageSent_drains :
    ∀ c ∈ [PendingCommand.checkpoint, .commit, .rollback], ∃ s u,
      s = setController .draining (some c)
        (send (.response ⟨0, 0⟩ true .ok [1]) (withTable [writeEntry .issued] opened)) ∧
      responds s u (writeEntry .issued) ∧ s.drainComplete = false ∧
      (∀ x, u.host.table.find? (fun y => lineOf y.address == lineOf (writeEntry .issued).address) = some x →
        x.state ≠ .lineWait) ∧ u.drainComplete = true ∧ u.epochs.command = some c := by
  intro c hc
  simp only [List.mem_cons, List.not_mem_nil, or_false] at hc
  rcases hc with rfl | rfl | rfl <;>
    exact ⟨_, _, rfl, ⟨rfl, rfl, rfl, rfl, by decide, rfl⟩, by decide, fun _ h => (nomatch h), by decide, rfl⟩

/-! #### Memory link, with requests and writes that wait -/

/-- Every tag but `t` is QUARANTINED, `r` is outstanding on `t`, and a capture read waits for a tag. -/
def tagWaited (t : Fin 64) (r : MemRequest) (s : State) : State :=
  withTag t r (queueForTag (.readLine 5 1) (noTags s))

/-- The tag freed serves nobody, and it serves the head of the tag queue. -/
theorem witness_HostRequestCompletes_tag :
    (∃ v, (withTag 63 (.read ⟨1, 0⟩ 64 1) opened).tagFreed 63 v) ∧
      (tagWaited 63 (.read ⟨1, 0⟩ 64 1) opened).quiet ∧ ∃ v, (tagWaited 63 (.read ⟨1, 0⟩ 64 1) opened).tagFreed 63 v := by
  refine ⟨⟨_, .inl ⟨rfl, rfl⟩⟩, ?_, tagFreed_waited (r := .readLine 5 1) (rest := []) rfl (by decide)⟩
  simp only [State.quiet, State.holdSettled]
  decide

/-- The tag of a capture read is freed, with no request waiting and with one; and an append request that waits already. -/
theorem witness_CaptureReadCompletes_tag :
    (∀ s, captureReads s → ∃ v, s.tagFreed 0 v) ∧
      (∃ v, (capturing (queueForTag (.readLine 5 1) (noTags opened))).tagFreed 0 v) ∧
      ∃ s v, s = capturing (opened.setJournal { opened.journal with
          waiting := [{ slot := 3, entry := ⟨3, 3⟩, line := 9, data := [] }] }) ∧ captureReads s ∧ s.journal.waiting ≠ [] ∧
        s.tagFreed 0 v := by
  refine ⟨fun s h => ⟨_, .inl ⟨h.2.1, rfl⟩⟩, tagFreed_waited (r := .readLine 5 1) (rest := []) rfl (by decide), _, _, rfl, ?_,
    by decide, .inl ⟨rfl, rfl⟩⟩
  simp only [captureReads, State.quiet, State.holdSettled]
  decide

/-- A capture read in stage DISCARD, in slot 0, with M-tag 0. -/
def discarding (s : State) : State :=
  setSlot 0 (some { entry := ⟨0, 0⟩, line := 1, stage := .discard, data := none }) (capturing s)

/-- That read with a core reset before its journal step, a record read still on the port. -/
def discardingInReset : State :=
  withPort (.recordRead 5 0 0) (working ((discarding opened).setService { (discarding opened).service with
    coreReset := some { controller := .idle, command := none, top := none, depth := 1, journalDone := false, discarded := none }
    }))

/-- FAULT and the timer; a slot freed with no write waiting and with one; stage DISCARD, whatever its result; and the port
stopped. -/
theorem witness_MemoryRequestFails_ends :
    (∃ v, (capturing opened).endsBadly 0 7 (.done 0 .fault []) .fault v) ∧
      (∃ v, (capturing opened).endsBadly 0 7 (.memoryTimeoutExpiry 0) .timeout v) ∧
      (∀ v : State, v.capture.slotQueue = [] → ∃ w, v.slotFreed 0 w) ∧
      ((slotWaited (capturing (noTags opened))).quiet ∧ ∃ v w,
        (slotWaited (capturing (noTags opened))).endsBadly 0 7 (.memoryTimeoutExpiry 0) .timeout v ∧ v.slotFreed 0 w) ∧
      ((discarding opened).quiet ∧ (discarding opened).portStopped = false ∧
        (discarding opened).entry ⟨0, 0⟩ = some (writeEntry .captureRead) ∧ ∃ v w x,
          (discarding opened).endsBadly 0 7 (.memoryTimeoutExpiry 0) .timeout v ∧ v.slotFreed 0 w ∧
            w.issues (writeEntry .captureRead) x) ∧
      (∃ v w x, (discarding opened).tagFreed 0 v ∧ v.slotFreed 0 w ∧ w.issues (writeEntry .captureRead) x) ∧
      (discardingInReset.quiet ∧ discardingInReset.portStopped = true ∧
        discardingInReset.memIf.tags[(0 : Fin 64)] = .outstanding (.readLine 0 1) 7 ∧ ∃ v, discardingInReset.tagFreed 0 v) := by
  refine ⟨⟨_, .inl ⟨rfl, ⟨_, rfl⟩, .inl ⟨rfl, rfl⟩⟩⟩, ⟨_, .inr ⟨rfl, rfl, rfl⟩⟩, fun v h => ⟨_, .inl ⟨h, rfl⟩⟩,
    ⟨?_, _, _, .inr ⟨rfl, rfl, rfl⟩, .inr ⟨⟨2, 0⟩, [], waiter, rfl, rfl, .inr ⟨.inr (by decide), rfl⟩⟩⟩,
    ⟨?_, rfl, rfl, _, _, _, .inr ⟨rfl, rfl, rfl⟩, .inl ⟨rfl, rfl⟩, .inl ⟨1, ?_, rfl⟩⟩,
    ⟨_, _, _, .inl ⟨rfl, rfl⟩, .inl ⟨rfl, rfl⟩, .inl ⟨0, ?_, rfl⟩⟩, ?_, rfl, rfl, _, .inl ⟨rfl, rfl⟩⟩ <;>
    simp only [State.quiet, State.holdSettled, State.tagReady] <;> decide

/-- What the clauses of a restore share: record `n` of line 1 is restored with M-tag 0, as the context says. -/
def restores (s : State) (n : Seq) (c : ReplayContext) (others : List (Seq × Line)) : Prop :=
  s.quiet ∧ s.service.coreReset = none ∧ (s.epochs.controller = .replay ∨ s.epochs.controller = .refillWait) ∧
    s.memIf.tags[(0 : Fin 64)] = .outstanding (.restore n 1 (List.replicate 64 0)) 7 ∧ s.replay.context = some c ∧
    c.restores.head? = some (n, 1) ∧ others = c.restores.filter (fun r => decide (r.1 ≠ n)) ∧ s.journal.waiting = [] ∧
    c.replayed.toNat < 2 ^ 32 - 1

/-- The restore of record `n` of line 1 is in flight in the walk of `c` over the given entries. -/
def restoringIn (controller : Controller) (n : Seq) (c : ReplayContext) (map : List Segment) : State :=
  withTag 0 (.restore n 1 (List.replicate 64 0)) (setContext (some c) (setController controller none (setMap map opened)))

/-- `s` with no free segment, and the automatic hold on and told. -/
def exhausted (s : State) : State :=
  ((tellHold true s).setSpace { s.space with auto := true, refreshTimer := some 7 }).setJournal { s.journal with free := [] }

/-- The last restore: the newest entry is consumed and the rollback completes. -/
theorem witness_RestoreCompletes_last :
    ∃ s c v gone, s = restoringIn .replay 1 c [segment .filled 2] ∧ c = { context with next := none, restores := [(1, 1)] } ∧
      restores s 1 c [] ∧ s.tagFreed 0 v ∧ s.journal.map = [] ++ gone ∧
      (∀ e ∈ gone, ({ c with restores := [] } : ReplayContext).consumed e = true) ∧
      (∀ r, c.refill = some r → s.epochs.controller = .refillWait → r.physical ≠ none) ∧ c.failure = none ∧
      s.autoKept (s.journal.free ++ gone.reverse.filterMap (·.physical)).length ∧
      (s.epochs.controller = .replay ∧ c.next = none ∧ c.held = none ∧ c.read = none) := by
  refine ⟨_, _, _, [segment .filled 2], rfl, rfl, ?_, .inl ⟨rfl, rfl⟩, rfl, by decide, fun _ h => (nomatch h), rfl, ?_, by decide⟩ <;>
    simp only [restores, State.quiet, State.holdSettled, State.autoKept] <;> decide

/-- A restore ends while a failure is present, as the last restore and not. -/
theorem witness_RestoreCompletes_failed :
    ∀ others ∈ [[], [((0 : Seq), (2 : Line))]], ∃ s c f, s = restoringIn .replay 1 c [segment .filled 2] ∧
      c = { context with next := none, restores := (1, 1) :: others, failure := some f } ∧
      f = { reason := .checksum, kept := 1, freed := none } ∧ restores s 1 c others ∧ s.journal.map = [segment .filled 2] ++ [] ∧
      ({ c with restores := others } : ReplayContext).consumed (segment .filled 2) = false ∧
      s.autoKept s.journal.free.length ∧ ∃ v w, s.tagFreed 0 v ∧ s.endsBadly 0 7 (.memoryTimeoutExpiry 0) .timeout w := by
  intro others h
  simp only [List.mem_cons, List.not_mem_nil, or_false] at h
  rcases h with rfl | rfl <;>
    refine ⟨_, _, _, rfl, rfl, rfl, ?_, rfl, by decide, ?_, _, _, .inl ⟨rfl, rfl⟩, .inr ⟨rfl, rfl, rfl⟩⟩ <;>
    simp only [restores, State.quiet, State.holdSettled, State.autoKept] <;> decide

/-- A SPILLED entry of records 0 and 1 behind a FILLED one of records 2 and 3. -/
def awaited : List Segment :=
  [{ segment .spilled 2 with physical := none }, { q := 1, state := .filled, physical := some 6, first := 2, count := 2 }]

/-- A refill waits for a segment: the restore frees one, and it frees none. -/
theorem witness_RestoreCompletes_refill :
    (∃ s c v r, s = exhausted (restoringIn .refillWait 2 c awaited) ∧ r = { q := 0, physical := none, refilled := false } ∧
      c = { context with refill := some r, restores := [(2, 1)] } ∧ restores s 2 c [] ∧ s.tagFreed 0 v ∧
      s.journal.map = awaited.take 1 ++ awaited.drop 1 ∧
      (∀ e ∈ awaited.drop 1, ({ c with restores := [] } : ReplayContext).consumed e = true) ∧
      ({ c with restores := [] } : ReplayContext).consumed { segment .spilled 2 with physical := none } = false ∧
      s.journal.free ++ (awaited.drop 1).reverse.filterMap (·.physical) = 6 :: [] ∧ s.autoKept 0) ∧
    ∃ s c v r, s = exhausted (restoringIn .refillWait 3 c awaited) ∧ r = { q := 0, physical := none, refilled := false } ∧
      c = { context with refill := some r, restores := [(3, 1), (2, 2)] } ∧ restores s 3 c [(2, 2)] ∧ s.tagFreed 0 v ∧
      s.journal.map = awaited ++ [] ∧
      (∀ e ∈ awaited.getLast?, ({ c with restores := [(2, 2)] } : ReplayContext).consumed e = false) ∧
      s.journal.free = [] ∧ s.autoKept 0 := by
  refine ⟨⟨_, _, _, _, rfl, rfl, rfl, ?_, .inl ⟨rfl, rfl⟩, rfl, by decide, by decide, rfl, ?_⟩,
    ⟨_, _, _, _, rfl, rfl, rfl, ?_, .inl ⟨rfl, rfl⟩, rfl, by decide, rfl, ?_⟩⟩ <;>
    simp only [restores, State.quiet, State.holdSettled, State.autoKept] <;> decide

/-- A restore ends badly: with a record held that is newer, with one that is older, and with an entry in REFILLING. -/
theorem witness_RestoreCompletes_fails :
    (∀ h ∈ [HeldRecord.mk 1 4 [], ⟨0, 4, []⟩], ∃ s c v, s = restoringIn .replay 0 c [segment .filled 2] ∧
      c = { context with next := none, held := some h, restores := [(0, 1)] } ∧ restores s 0 c [] ∧ c.refill = none ∧
      s.endsBadly 0 7 (.done 0 .fault []) .fault v) ∧
    ∃ s c v, s = restoringIn .refillWait 5 c [segment .refilling 2] ∧
      c = { refillContext [(5, 1)] (some 5) with next := some 1 } ∧ restores s 5 c [] ∧ c.failure = none ∧
      s.segment 0 = some (segment .refilling 2) ∧ s.autoKept (s.journal.free.length + 1) ∧
      s.endsBadly 0 7 (.memoryTimeoutExpiry 0) .timeout v := by
  refine ⟨fun h m => ?_, _, _, _, rfl, rfl, ?_, rfl, rfl, ?_, .inr ⟨rfl, rfl, rfl⟩⟩
  · simp only [List.mem_cons, List.not_mem_nil, or_false] at m
    rcases m with rfl | rfl <;> refine ⟨_, _, _, rfl, rfl, ?_, rfl, .inl ⟨rfl, ⟨_, rfl⟩, .inl ⟨rfl, rfl⟩⟩⟩ <;>
      simp only [restores, State.quiet, State.holdSettled] <;> decide
  all_goals simp only [restores, State.quiet, State.holdSettled, State.autoKept]
  all_goals decide

/-! #### Journal port, walk and segments, with what waits -/

/-- The slot of a record write is freed, and its write goes to issue: with no write waiting for the slot, and with one. -/
theorem witness_RecordWriteCompletes_slot :
    (∀ u : State, u.capture.slotQueue = [] → u.tagReady 0 → ∃ w x, u.slotFreed 0 w ∧ w.issues (writeEntry .captureAppend) x) ∧
      (∃ s : State, s = slotWaited (appending (noTags opened)) ∧ s.quiet ∧
        s.portOp 3 = some (.recordWrite 0 255 818 817 0 (List.replicate 80 0x5A)) ∧ s.capture.slotQueue = [⟨2, 0⟩] ∧
        s.entry ⟨2, 0⟩ = some waiter ∧ s.entry ⟨0, 0⟩ = some (writeEntry .captureAppend) ∧
        ∀ g : Fin 64, s.memIf.tags[g] ≠ .free) ∧
      ∀ u : State, u.capture.slotQueue = [⟨2, 0⟩] → u.entry ⟨2, 0⟩ = some waiter → (∀ g : Fin 64, u.memIf.tags[g] ≠ .free) →
        ∃ w x, u.slotFreed 0 w ∧ w.issues (writeEntry .captureAppend) x := by
  refine ⟨fun u h r => slotFreed_idle h r, ⟨_, rfl, ?_⟩, fun u h e n => slotFreed_waited h e n⟩
  simp only [State.quiet, State.holdSettled]
  decide

/-- The read of record 2 is outstanding in entry 1, the entry before it as given. -/
def crossing (older : Segment) (free : List Phys) (c : ReplayContext) : State :=
  withPort (.recordRead 6 0 2) (setContext (some c) (setController .replay none ((opened.setJournal { opened.journal with
    map := [older, { q := 1, state := .filled, physical := some 6, first := 2, count := 2 }], free := free }))))

/-- The context of that walk. -/
def crossingContext : ReplayContext := { context with next := some 2, current := some 1, read := some 2 }

/-- What is due when that read ends well. -/
def crosses (s : State) (c : ReplayContext) (older : Segment) : Prop :=
  s.quiet ∧ s.service.coreReset = none ∧ s.epochs.controller = .replay ∧ s.portOp 3 = some (.recordRead 6 0 2) ∧
    s.replay.context = some c ∧ c.failure = none ∧ c.held = none ∧ 2 ≠ c.start ∧ s.segmentOf (2 - 1) = some older ∧
    c.current ≠ some older.q

/-- The record before lies in an older entry: one that is FILLED, LENT, SPILLED with a segment free, and SPILLED with none. -/
theorem witness_RecordReadCompletes_older :
    checksumPasses (buildRecord 1 2 1 0 1 (List.replicate 64 7)) = true ∧
      recordSeq (buildRecord 1 2 1 0 1 (List.replicate 64 7)) = 2 ∧
      (∀ older ∈ [segment .filled 2, segment .lent 2], ∃ s w, s = crossing older opened.journal.free crossingContext ∧
        crosses s crossingContext older ∧ s.reaches crossingContext older w) ∧
      (∃ s older w, older = { segment .spilled 2 with physical := none } ∧
        s = crossing older opened.journal.free crossingContext ∧ crosses s crossingContext older ∧
        s.autoKept opened.journal.free.tail.length ∧ s.reaches crossingContext older w) ∧
      ∃ s older w, older = { segment .spilled 2 with physical := none } ∧ s = exhausted (crossing older [] crossingContext) ∧
        crosses s crossingContext older ∧ s.reaches crossingContext older w := by
  refine ⟨by decide, by decide, fun older m => ?_, ⟨_, _, _, rfl, rfl, ?_, ?_, .inr (.inr ⟨_, _, rfl, rfl, fun _ => rfl,
    .inr ⟨0, opened.journal.free.tail, rfl, rfl, rfl⟩⟩)⟩, _, _, _, rfl, rfl, ?_, .inr (.inr ⟨_, _, rfl, rfl, fun _ => rfl,
    .inl ⟨rfl, rfl⟩⟩)⟩
  · simp only [List.mem_cons, List.not_mem_nil, or_false] at m
    rcases m with rfl | rfl
    · refine ⟨_, _, rfl, ?_, .inl ⟨.inr rfl, rfl⟩⟩
      simp only [crosses, State.quiet, State.holdSettled]
      decide
    · refine ⟨_, _, rfl, ?_, .inr (.inl ⟨5, rfl, rfl, rfl⟩)⟩
      simp only [crosses, State.quiet, State.holdSettled]
      decide
  all_goals simp only [crosses, State.quiet, State.holdSettled, State.autoKept]
  all_goals decide

/-- A failed read in a refilled entry, with a restore out, with none, and with none and a block transfer to its segment out. -/
theorem witness_RecordReadCompletes_refilled :
    ∀ out ∈ [[], [((2 : Seq), (2 : Line))]], ∃ (s : State) (c : ReplayContext) (r : Refill), s = reading 1 c ∧
      r = { q := 0, physical := some 5, refilled := true } ∧
      c = { context with read := some 1, refill := some r, restores := out } ∧
      recordReads s 1 c (List.replicate 80 1) ∧ r.refilled = true ∧ c.current = some r.q ∧
      s.segment r.q = some (segment .filled 2) ∧ s.journal.waiting = [] ∧ s.autoKept (s.journal.free.length + 1) := by
  intro out m
  simp only [List.mem_cons, List.not_mem_nil, or_false] at m
  rcases m with rfl | rfl <;> refine ⟨_, _, _, rfl, rfl, rfl, ?_⟩ <;>
    simp only [recordReads, State.quiet, State.holdSettled, State.autoKept] <;> decide

/-- The timer expires with no restore out: a SPILLED entry, and one in REFILLING. -/
theorem witness_RefillTimerExpires_last :
    (∃ s : State, s = exhausted (refilling (refillContext [] none) { segment .spilled 2 with physical := none }) ∧ s.quiet ∧
      s.replay.refillTimer = some 7 ∧ (refillContext [] none).restores = [] ∧ (refillContext [] none).read = none) ∧
    ∃ s : State, s = refilling (refillContext [] (some 5)) (segment .refilling 2) ∧ s.quiet ∧
      s.replay.refillTimer = some 7 ∧ s.blockOutstanding 5 = false ∧ s.autoKept (s.journal.free.length + 1) := by
  refine ⟨⟨_, rfl, ?_⟩, ⟨_, rfl, ?_⟩⟩ <;> simp only [State.quiet, State.holdSettled, State.autoKept] <;> decide

/-- A walk that starts at an entry that is FILLING, LENT, and SPILLED with a segment free; and an epoch without records. -/
theorem witness_WalkStarts_reaches :
    (∀ g ∈ [segment .filling 2, segment .lent 2, { segment .spilled 2 with physical := none }], ∃ s w,
      s = setController .draining (some .rollback) (setMap [g] recorded) ∧ s.drainComplete = true ∧ s.holdSettled ∧
      s.journal.nextSeq ≠ 0 ∧ s.journal.map.getLast? = some g ∧ s.autoKept opened.journal.free.tail.length ∧
      ((s.setEpochs { s.epochs with controller := .replay, command := none }).setCapture
        { s.capture with marks := [] }).reaches { context with current := none } g w) ∧
    (setController .draining (some .rollback) opened).drainComplete = true ∧
    (setController .draining (some .rollback) opened).journal.nextSeq = 0 ∧
    (setController .draining (some .rollback) opened).epochs.stack
      = [{ number := 1, start := 0, broken := none, records := 0 }] := by
  refine ⟨fun g m => ?_, by decide⟩
  simp only [List.mem_cons, List.not_mem_nil, or_false] at m
  rcases m with rfl | rfl | rfl
  · refine ⟨_, _, rfl, by decide, ?_, by decide, rfl, ?_, .inl ⟨.inl rfl, rfl⟩⟩ <;>
      simp only [State.holdSettled, State.autoKept] <;> decide
  · refine ⟨_, _, rfl, by decide, ?_, by decide, rfl, ?_, .inr (.inl ⟨5, rfl, rfl, rfl⟩)⟩ <;>
      simp only [State.holdSettled, State.autoKept] <;> decide
  · refine ⟨_, _, rfl, by decide, ?_, by decide, rfl, ?_, .inr (.inr ⟨_, _, rfl, rfl, fun _ => rfl,
      .inr ⟨0, opened.journal.free.tail, rfl, rfl, rfl⟩⟩)⟩ <;> simp only [State.holdSettled, State.autoKept] <;> decide

/-- Requests wait for the tags that MTAG_RELEASE frees. -/
theorem witness_QuarantineReleased_served :
    (ready (queueForTag (.readLine 0 1) (noTags opened))).takes 0x17 (frame 0x17 1 []) ∧ ∃ v,
      ((ready (queueForTag (.readLine 0 1) (noTags opened))).setMemIf {
        (ready (queueForTag (.readLine 0 1) (noTags opened))).memIf with
          tags := (Vector.replicate 64 .quarantined).map fun x => if x = .quarantined then .free else x }).serves
            [.readLine 0 1] v := by
  refine ⟨takes_ready _ _ _ _ rfl rfl, _, .inl ⟨0, ?_, fun u h => absurd h (Nat.not_lt_zero _), rfl⟩⟩
  change (Vector.map _ _)[0] = _
  simp

/-- The append request of a capture in slot 0. -/
def appendRequest : AppendRequest := { slot := 0, entry := ⟨0, 0⟩, line := 1, data := List.replicate 64 0 }

/-- That request waits, with the given map and free list. -/
def spaceWaited (map : List Segment) (free : List Phys) : State :=
  setSlot 0 (some { entry := ⟨0, 0⟩, line := 1, stage := .space, data := some (List.replicate 64 0) })
    (withTable [writeEntry .spaceWait] (opened.setJournal { opened.journal with
      map := map, free := free, waiting := [appendRequest], nextSeq := 2, nextQ := 1 }))

/-- A request that waits is given the next place of the FILLING entry, and the first of a new segment; and none, with no
segment free. -/
theorem witness_LentSegmentsReturned_served :
    (∃ s t, s = spaceWaited [segment .filling 2] [6] ∧ s.journal.waiting = [appendRequest] ∧
      (s.setJournal { s.journal with waiting := [] }).gives appendRequest
        { number := 1, start := 0, broken := none, records := 0 } [] t) ∧
    (∃ s t, s = spaceWaited [segment .spilled 2] [5] ∧ s.journal.waiting = [appendRequest] ∧
      (s.setJournal { s.journal with waiting := [] }).gives appendRequest
        { number := 1, start := 0, broken := none, records := 0 } [] t) ∧
    (spaceWaited [segment .lent 2] []).fillingHasRoom = false ∧ (spaceWaited [segment .lent 2] []).journal.free = [] := by
  refine ⟨⟨_, _, rfl, rfl, [], segment .filling 2, 5, [6], 1, ⟨rfl, rfl, by decide, fun _ h => (nomatch h)⟩,
      .inl ⟨rfl, fun _ h => (nomatch h), rfl, rfl⟩, rfl, rfl⟩,
    ⟨_, _, rfl, rfl, [segment .spilled 2], { q := 1, state := .filling, physical := some 5, first := 2, count := 0 }, 5, [], 2,
      ⟨rfl, rfl, by decide, by decide⟩, .inr ⟨by decide, by decide, rfl, rfl, rfl, rfl⟩, rfl, rfl⟩, by decide⟩

/-- SPILL_DONE with a request waiting, and with a refill that waits for its segment. -/
theorem witness_LentSegmentsReturned_waiting :
    (∃ s u : State, s = ready (exhausted (spaceWaited [segment .lent 2] [])) ∧ s.holdSettled ∧
      s.segment 0 = some (segment .lent 2) ∧ s.walking .refillWait = none ∧ s.journal.waiting = [appendRequest] ∧
      u = s.setJournal { s.journal with
        free := [5], map := [{ segment .lent 2 with state := .spilled, physical := none }] } ∧
      s.autoKept (serveWaiting u).journal.free.length) ∧
    ∃ s c r g, s = ready (exhausted (setContext (some c) (setController .refillWait none (setMap [g, { segment .lent 2 with
        q := 1, first := 2 }] opened)))) ∧ g = { segment .spilled 2 with physical := none } ∧
      r = { q := 0, physical := none, refilled := false } ∧ c = { context with refill := some r } ∧ s.holdSettled ∧
      s.walking .refillWait = some c ∧ r.physical = none ∧ s.journal.waiting = [] ∧ s.journal.free = [] ∧
      s.segment 0 = some g ∧ s.segment 1 = some { segment .lent 2 with q := 1, first := 2 } := by
  refine ⟨⟨_, _, rfl, ?_, rfl, rfl, rfl, rfl, ?_⟩, _, _, _, _, rfl, rfl, rfl, rfl, ?_⟩ <;>
    simp only [State.holdSettled, State.autoKept] <;> decide

/-- `s` with a detached command at work and a frame held behind it, its exchange open or closed. -/
def holding (code : Byte) (f : Frame) (attached : Bool) (s : State) : State :=
  s.setService { s.service with
    exchange := if attached then .working else .closed
    work := some { exchange := 9, attached := false }
    held := some { code := code, frame := f, attached := attached } }

/-- A held frame of any row behind a block transfer whose exchange is over and whose segment the service processor does not own. -/
theorem witness_FramesCheckedAndHeld_taken :
    ∀ (c : Instr) (code : Byte) (f : Frame) (attached : Bool), frameOf c = some (code, f) →
      ∃ s : State, s = holding code f attached (bothWait (segment .filled 2) .engine) ∧ s.inReset = false ∧ s.holdSettled ∧
        s.portStopped = false ∧ s.journal.outstanding.length < 8 ∧ s.journal.serviceSide = some (.blockRead 5 1) ∧
        (PortOp.blockRead 5 1).blockSegment = some 5 ∧ s.journal.lastGranted = .engine ∧
        s.service.work = some { exchange := 9, attached := false } ∧ s.service.unread = false ∧
        s.service.held = some { code := code, frame := f, attached := attached } ∧
        (attached = true → s.service.exchange = .working) ∧
        ∀ e ∈ s.journal.map, e.physical = some 5 → e.state ≠ .lent ∧ e.state ≠ .refilling := by
  intro c code f attached _
  refine ⟨_, rfl, rfl, ?_, rfl, (by decide : 7 < 8), rfl, rfl, rfl, rfl, rfl, rfl,
    fun h => by rw [h]; rfl, ?_⟩
  · simp only [State.holdSettled]; rfl
  · change ∀ e ∈ [segment .filled 2], _
    decide

/-- A held frame of any row behind a block transfer that completes. -/
theorem witness_FramesCheckedAndHeld_transfer :
    ∀ (c : Instr) (code : Byte) (f : Frame) (attached : Bool), frameOf c = some (code, f) →
      ∀ op ∈ [PortOp.blockRead 5 255, .blockWrite 5 255 [1, 2]], ∃ s u : State,
        s = holding code f attached (withPort op opened) ∧ s.quiet ∧ s.portStopped = false ∧
        s.service.work = some { exchange := 9, attached := false } ∧ s.service.unread = false ∧
        s.service.held = some { code := code, frame := f, attached := attached } ∧
        (attached = true → s.service.exchange = .working) ∧ s.portOp 3 = some op ∧
        u = s.setJournal { s.journal with outstanding := s.journal.outstanding.filter fun o => decide (o.1 ≠ 3) } ∧
        u.drainComplete = false ∧ u.failureCompletes = false := by
  intro c code f attached _ op _
  refine ⟨_, _, rfl, ?_, rfl, rfl, rfl, rfl, fun h => by rw [h]; rfl, rfl, rfl, rfl, rfl⟩
  refine ⟨rfl, ?_, rfl, rfl, rfl, rfl, rfl, rfl, .inr fun h => nomatch h⟩
  simp only [State.holdSettled]; rfl

/-- A held frame of any row behind a CORE_RESET whose exchange is closed, which ends. -/
theorem witness_CoreResetEnds_held :
    ∀ (c : Instr) (code : Byte) (f : Frame) (attached : Bool), frameOf c = some (code, f) → code ≠ 0x13 →
      ∃ s : State, s = holding code f attached (resetting true []) ∧ s.inReset = false ∧ s.holdSettled ∧
        s.service.coreReset = some {
          controller := .replay, command := none, top := some 1, depth := 1, journalDone := true, discarded := some (0, 0) } ∧
        s.replay.context = some context ∧ context.restores = [] ∧
        s.service.work = some { exchange := 9, attached := false } ∧ s.service.unread = false ∧
        s.service.held = some { code := code, frame := f, attached := attached } ∧
        (attached = true → s.service.exchange = .working) ∧
        (∀ code' f', frameOf c = some (code', f') → code' ≠ 0x13) := by
  intro c code f attached row other
  refine ⟨_, rfl, rfl, ?_, rfl, rfl, rfl, rfl, rfl, rfl, fun h => by rw [h]; rfl, fun code' f' row' => ?_⟩
  · simp only [State.holdSettled]; rfl
  · rw [row] at row'
    cases row'
    exact other

/-- The transfer is what a failed rollback still waits for. -/
theorem witness_BlockTransferCompletes_failure :
    ∀ op ∈ [PortOp.blockRead 5 255, .blockWrite 5 255 [1, 2]], ∃ s u : State, s = transferring op false (replaying failing) ∧
      s.quiet ∧ s.portStopped = false ∧ s.service.held = none ∧ s.portOp 3 = some op ∧
      u = s.setJournal { s.journal with outstanding := s.journal.outstanding.filter fun o => decide (o.1 ≠ 3) } ∧
      u.epochs.controller = .replay ∧ u.service.coreReset = none ∧ u.replay.context = some failing ∧
      failing.failure = some { reason := .checksum, kept := 1, freed := some 5 } ∧ failing.read = none ∧
      failing.restores = [] ∧ u.blockOutstanding 5 = false := by
  intro op m
  refine ⟨_, _, rfl, ?_, rfl, rfl, rfl, rfl, rfl, rfl, rfl, rfl, rfl, rfl, ?_⟩
  · simp only [State.quiet, State.holdSettled]
    revert op; decide
  · revert op; decide

/-- A failed rollback waits for a block transfer to the segment it freed, with the automatic hold on, 7 segments free and one
more to be cut off; the transfer's exchange is over and `c` is held behind it. -/
def cutWaits (c : Byte) : State :=
  let s := opened.setJournal { opened.journal with
    map := [{ segment .spilled 2 with physical := none }, { q := 1, state := .filled, physical := some 8, first := 2, count := 1 }]
    nextSeq := 3, nextQ := 2, free := [1, 2, 3, 4, 6, 7, 5], outstanding := [(3, .blockRead 5 0)] }
  ((tellHold true (setContext (some failing) (setController .replay none s))).setSpace { s.space with
    auto := true, refreshTimer := some 7 }).setService { s.service with
      exchange := .working, work := some { exchange := 9, attached := false }
      held := some { code := c, frame := frame c 1 [], attached := true } }

/-- The payload of the answer being sent. -/
def answerPayload (s : State) : List Byte :=
  match s.service.exchange with
  | .answering bytes => bytes.drop 4
  | _ => []

/-- R166, R79, R107: the step cuts the journal, which ends the hold: the held EVENT_POP answers ROLLBACK_FAILED and counts
HOLD_CHANGED, which is left in the queue. -/
theorem test_held_event_pop :
    (match exec (.blockReadCompletion 3 .fault .asStored) (cutWaits 0x13) with
      | .next t => ((answerPayload t).head?, (answerPayload t)[25]?, t.service.events.length)
      | _ => (none, none, 0)) = (some 5, some 1, 1) := by decide

/-- R163, R103: the held STATUS_READ of that step answers the free count 8 with the automatic hold that it leaves, off. -/
theorem test_held_status_read :
    (match exec (.blockReadCompletion 3 .fault .asStored) (cutWaits 0x12) with
      | .next t => ((answerPayload t).drop 12).take 6
      | _ => []) = [8, 0, 1, 0, 0, 0] := by decide

/-- Log 36: an EVENT_POP held behind a CORE_RESET that discarded nothing answers CORE_RESET_DONE in the step of the end; with no
frame held the record stays, and ALERTN is low (R172). -/
theorem test_core_reset_end_pop :
    [some { code := (0x13 : Byte), frame := frame 0x13 1 [], attached := true }, none].map (fun h =>
      match exec .coreResetEnd (opened.setService { opened.service with
          exchange := .working, work := some { exchange := 9, attached := false }, held := h
          coreReset := some {
            controller := .idle, command := none, top := none, depth := 0, journalDone := true, discarded := none } }) with
      | .next t => ((answerPayload t).head?, t.service.events.length, t.alertLow)
      | _ => (none, 7, false)) = [(some 14, 0, false), (none, 1, true)] := by decide

/-- CORE_RESET with nothing outstanding on the journal port. -/
theorem witness_CoreResetBegins_journalStep :
    (ready opened).takes 0x16 (frame 0x16 1 []) ∧ (ready opened).holdSettled ∧ (ready opened).journal.outstanding = [] ∧
      (ready opened).service.held = none := by
  refine ⟨takes_ready _ _ _ _ rfl rfl, ?_⟩
  simp only [State.holdSettled]
  decide

/-- No restore is out, with no frame held and with one; and an entry in SLOT_WAIT, whose place the step frees. -/
theorem witness_JournalStepTaken_last :
    ∀ s ∈ [slotWaited (resetting false []), holding 0x31 (frame 0x31 1 []) true (slotWaited (resetting false []))],
      s.inReset = false ∧ s.holdSettled ∧ s.journal.outstanding = [] ∧ s.service.work ≠ none ∧
      s.replay.context = some context ∧ context.restores = [] ∧
      (s.host.table.map (·.id)).Nodup ∧ s.host.table = [waiter] ∧
      s.service.params.holdOffFree ≤ (s.journal.free ++ s.journal.map.filterMap (·.physical)).length := by
  simp only [State.holdSettled]
  decide

/-! #### The hold, and core reset -/

/-- Seven segments free, the automatic hold on and told, a LENT segment: the next that is freed ends the hold. -/
def almostFree : State :=
  ready ((tellHold true (opened.setJournal { opened.journal with
    free := [1, 2, 3, 4, 6, 7, 8], map := [segment .lent 2], nextSeq := 2, nextQ := 1 })).setSpace { opened.space with
      auto := true, refreshTimer := some 7 })

/-- SPILL_DONE brings the free count to HOLD_OFF_FREE and the hold leaves force; and a step between the thresholds. -/
theorem witness_HoldToldKept :
    (∃ c s t, c = Instr.spillDone (frame 0x52 1 (leBytes 4 0)) ∧ s = almostFree ∧ exec c s = .next t ∧ c ≠ .pinReset ∧
      c ≠ .resetnRelease ∧ (∀ f, frameOf c ≠ some (0x16, f)) ∧ s.service.coreReset = none ∧ s.service.held = none ∧
      s.holdSettled ∧ s.autoKept s.journal.free.length ∧ t.host.holdTold ≠ s.host.holdTold) ∧
    ∃ s t, s = autoHeld ∧ exec .ssnAsserted s = .next t ∧ s.service.coreReset = none ∧ s.service.held = none ∧
      t.service.params.holdOnFree < t.journal.free.length ∧ t.journal.free.length < t.service.params.holdOffFree := by
  refine ⟨⟨_, _, _, rfl, rfl, rfl, nofun, nofun, fun _ => by simp [frameOf], rfl, rfl, rfl, ?_, ?_⟩, _, _, rfl, rfl, ?_⟩
  · simp only [State.autoKept]
    decide
  · decide
  · decide

/-- R91, R103, R107, R106: that SPILL_DONE turns the automatic hold off, asks for HOLD(0) and posts HOLD_CHANGED with free
count 8. -/
theorem test_spill_done_ends_hold :
    (match exec (.spillDone (frame 0x52 1 (leBytes 4 0))) almostFree with
      | .next t => (t.space.auto, t.host.sendQueue, t.service.events.map (·.kind))
      | _ => (true, [], [])) = (false, [.hold 0], [.holdChanged false 8]) := by decide

/-- Each of R67's conditions failing. -/
theorem witness_ReplayReadsAndRestores_noRead :
    (∀ c ∈ [{ context with read := some 1 }, { context with held := some ⟨2, 4, [1]⟩ }, { context with next := none }, failing],
      (replaying c).inReset = false ∧ (replaying c).replay.context = some c ∧
        (c.read ≠ none ∨ c.held ≠ none ∨ c.next = none ∨ c.failure ≠ none)) ∧
    (∃ s, s = setMap [segment .lent 2] (replaying context) ∧ s.inReset = false ∧ s.replay.context = some context ∧
      context.current = some 0 ∧ s.segment 0 = some (segment .lent 2)) ∧
    (∃ s, s = withPort (.blockRead 5 0) (replaying context) ∧ s.inReset = false ∧ s.replay.context = some context ∧
      context.current = some 0 ∧ s.segment 0 = some (segment .filled 2) ∧ (segment .filled 2).physical = some 5 ∧
      ∃ o ∈ s.journal.outstanding, o.2.blockSegment = some 5) ∧
    (∃ s, s = setController .stopped none (replaying context) ∧ s.inReset = false ∧ s.replay.context = some context ∧
      s.epochs.controller ≠ .replay) ∧
    ∃ s, s = resetting false [] ∧ s.inReset = false ∧ s.replay.context = some context ∧ s.service.coreReset ≠ none := by
  refine ⟨by decide, ⟨_, rfl, ?_⟩, ⟨_, rfl, ?_⟩, ⟨_, rfl, ?_⟩, _, rfl, ?_⟩ <;> decide

/-- Each of R69's conditions failing: RESTORE_AHEAD restores out, one with the held record's line out, and no record held. -/
theorem witness_ReplayReadsAndRestores_noRestore :
    ∀ c ∈ [{ restoresOut with restores := [(6, 5), (5, 1), (4, 2), (3, 3)] }, { restoresOut with restores := [(5, 4)] }, context],
      (replaying c).inReset = false ∧ (replaying c).replay.context = some c ∧
        (c.held = none ∨ (replaying c).service.params.restoreAhead ≤ c.restores.length ∨
          (c.held = some ⟨2, 4, [1]⟩ ∧ ∃ r ∈ c.restores, r.2 = 4)) := by decide

/-- A restore ends in a core reset: as one of two, as the last one after the journal step, and before that step. -/
theorem witness_RestoreCompletes_coreReset :
    ∀ s ∈ [resetting true [(5, 1), (4, 2)], resetting true [(5, 1)], withPort (.recordRead 5 0 0) (resetting false [(5, 1)])],
      ∃ t, t = withTag 0 (.restore 5 1 (List.replicate 64 0)) s ∧ t.quiet ∧ (∃ r, t.service.coreReset = some r) ∧
        t.memIf.tags[(0 : Fin 64)] = .outstanding (.restore 5 1 (List.replicate 64 0)) 7 ∧
        (∃ c, t.replay.context = some c ∧ c.restores.head? = some (5, 1)) ∧ (∃ v, t.tagFreed 0 v) ∧
        ∃ v, t.endsBadly 0 7 (.memoryTimeoutExpiry 0) .timeout v := by
  intro s hs
  refine ⟨_, rfl, ?_, ?_, Vector.getElem_set_self _, ?_, ?_, _, .inr ⟨rfl, rfl, rfl⟩⟩
  · simp only [State.quiet, State.holdSettled]
    revert s; decide
  · simp only [List.mem_cons, List.not_mem_nil, or_false] at hs
    rcases hs with rfl | rfl | rfl <;> exact ⟨_, rfl⟩
  · simp only [List.mem_cons, List.not_mem_nil, or_false] at hs
    rcases hs with rfl | rfl | rfl <;> exact ⟨_, rfl, rfl⟩
  · simp only [List.mem_cons, List.not_mem_nil, or_false] at hs
    rcases hs with rfl | rfl | rfl <;> exact ⟨_, .inl ⟨rfl, rfl⟩⟩

/-- The operations given outstanding in a core reset before its journal step, the first with port tag 3. -/
def discarded (op : PortOp) (others : List (Fin 8 × PortOp)) : State :=
  (resetting false []).setJournal { (resetting false []).journal with outstanding := (3, op) :: others }

/-- A record write that completes in a core reset, as the last operation and with another outstanding. -/
theorem witness_RecordWriteCompletes_coreReset :
    ∀ others ∈ [[], [(4, PortOp.recordRead 5 0 0)]], ∃ s r,
      s = discarded (.recordWrite 0 255 818 817 0 (List.replicate 80 0x5A)) others ∧ s.quiet ∧
      s.service.coreReset = some r ∧ r.journalDone = false ∧
      s.portOp 3 = some (.recordWrite 0 255 818 817 0 (List.replicate 80 0x5A)) ∧
      Memory.wf s.journal.memory = true ∧ others = s.journal.outstanding.filter (fun o => decide (o.1 ≠ 3)) := by
  intro others h
  refine ⟨_, _, rfl, ?_, rfl, rfl, rfl, rfl, ?_⟩
  · simp only [State.quiet, State.holdSettled]
    revert others; decide
  · revert others; decide

/-- A record read likewise. -/
theorem witness_RecordReadCompletes_coreReset :
    ∀ others ∈ [[], [(4, PortOp.recordWrite 0 255 818 817 0 [])]], ∃ s r, s = discarded (.recordRead 5 0 0) others ∧ s.quiet ∧
      s.service.coreReset = some r ∧ r.journalDone = false ∧ s.portOp 3 = some (.recordRead 5 0 0) ∧
      (List.replicate 80 (0x5A : Byte)).length = 80 ∧
      others = s.journal.outstanding.filter (fun o => decide (o.1 ≠ 3)) := by
  intro others h
  refine ⟨_, _, rfl, ?_, rfl, rfl, rfl, rfl, ?_⟩
  · simp only [State.quiet, State.holdSettled]
    revert others; decide
  · revert others; decide

/-- R16, step 2: the entry that contains the record before the cut, in each state. -/
theorem test_cut_entry :
    cutSegment 1 (segment .filled 2) = segment .filling 1 ∧ cutSegment 1 (segment .filling 2) = segment .filling 1 ∧
      cutSegment 1 (segment .lent 2) = segment .lent 1 ∧ cutSegment 1 (segment .spilled 2) = segment .spilled 1 ∧
      cutSegment 2 (segment .filled 2) = segment .filling 2 ∧ cutSegment 3 (segment .filled 2) = segment .filled 2 := by decide

/-- A rollback that ends with record 0 of entry 0 kept, for a parent epoch. -/
theorem witness_RollbackSucceeds_cut :
    ∃ (s : State) (c : ReplayContext) (cut : Segment → Segment), c = { context with start := 1, next := none } ∧
      s = setStack ({ number := 2, start := 1, broken := none, records := 1 } :: opened.epochs.stack) (replaying c) ∧
      s.inReset = false ∧ s.holdSettled ∧ s.service.coreReset = none ∧ s.epochs.controller = .replay ∧
      s.replay.context = some c ∧ s.journal.waiting = [] ∧
      (∀ e, cut e = if (c.start - 1 - e.first).toNat < e.count then
          { e with
            count := (c.start - e.first).toNat
            state := if e.state = .filling ∨ e.state = .filled then .filling else e.state }
        else e) ∧
      (s.journal.map.filter fun e => !seqGe e.first c.start).map cut = [segment .filling 1] ∧
      s.autoKept (s.journal.free ++ (s.journal.map.filter fun e => seqGe e.first c.start).filterMap (·.physical)).length := by
  refine ⟨_, _, _, rfl, rfl, rfl, ?_, rfl, rfl, rfl, rfl, fun _ => rfl, ?_, ?_⟩ <;>
    simp only [State.holdSettled, State.autoKept] <;> decide

/-- A rollback that fails with a SPILLED entry cut at the kept point. -/
theorem witness_RollbackFails_cut :
    ∃ (s : State) (cut : Segment → Segment), s = setMap [{ segment .spilled 3 with physical := none }] (replaying failing) ∧
      s.inReset = false ∧ s.holdSettled ∧ s.service.coreReset = none ∧ s.epochs.controller = .replay ∧
      s.replay.context = some failing ∧ s.blockOutstanding 5 = false ∧ s.journal.waiting = [] ∧
      (∀ e, cut e = if ((1 : Seq) - e.first).toNat < e.count then
          { e with
            count := ((1 : Seq) + 1 - e.first).toNat
            state := if e.state = .filling ∨ e.state = .filled then .filling else e.state }
        else e) ∧
      s.journal.map.map cut = [{ segment .spilled 2 with physical := none }] ∧
      s.autoKept (s.journal.free ++ (s.journal.map.filter fun e => seqGe e.first (1 + 1)).filterMap (·.physical)).length := by
  refine ⟨_, _, rfl, rfl, ?_, rfl, rfl, rfl, rfl, rfl, fun _ => rfl, ?_, ?_⟩ <;>
    simp only [State.holdSettled, State.autoKept] <;> decide

end Sys2Proof.Tests
end

section
/-! PROOF. The epoch number of R24 and the effect of a CHECKPOINT (R32). The search for a number stops before its fuel ends by a
pigeonhole: the numbers it steps through are distinct, and the stack holds fewer than 8. -/

namespace Sys2Proof.Machine

/-! ### Epoch numbers (R24) -/

/-- Some epoch on the stack has the number `n`. -/
def holdsNumber (stack : List Epoch) (n : EpochNo) : Prop := ∃ e ∈ stack, e.number = n

theorem holdsNumber_iff_any {stack : List Epoch} {n : EpochNo} :
    holdsNumber stack n ↔ stack.any (fun e => e.number == n) = true := by
  simp [holdsNumber]

theorem epochNo_toNat_pos {m : EpochNo} (h : m ≠ 0) : 0 < m.toNat :=
  Nat.pos_of_ne_zero fun z => h (BitVec.eq_of_toNat_eq z)

theorem followingEpoch_eq (m : EpochNo) : followingEpoch m = if m.toNat = 65535 then 1 else m + 1 := by
  have last : m = 65535#16 ↔ m.toNat = 65535 := BitVec.toNat_inj.symm
  simp only [followingEpoch, last]

/-- The numbers other than 0 are a cycle of 65535. -/
theorem followingEpoch_toNat {m : EpochNo} (h : m ≠ 0) : (followingEpoch m).toNat = m.toNat % 65535 + 1 := by
  have pos := epochNo_toNat_pos h
  have lt := m.isLt
  rw [followingEpoch_eq]
  split
  · next last => rw [last]; rfl
  · rw [BitVec.toNat_add]
    change (m.toNat + 1) % 65536 = _
    omega

theorem followingEpoch_ne_zero {m : EpochNo} (h : m ≠ 0) : followingEpoch m ≠ 0 := fun z => by
  have := followingEpoch_toNat h
  rw [z] at this; cases this

theorem followingEpoch_iterate_toNat (j : Nat) {m : EpochNo} (h : m ≠ 0) :
    (followingEpoch^[j] m).toNat = (m.toNat - 1 + j) % 65535 + 1 := by
  induction j generalizing m with
  | zero =>
    have pos := epochNo_toNat_pos h
    have lt := m.isLt
    change m.toNat = _
    omega
  | succ j ih =>
    rw [Function.iterate_succ_apply, ih (followingEpoch_ne_zero h), followingEpoch_toNat h]
    have pos := epochNo_toNat_pos h
    omega

theorem followingEpoch_iterate_injOn {m : EpochNo} (h : m ≠ 0) {i j : Nat} (hi : i < 65535) (hj : j < 65535)
    (e : followingEpoch^[i] m = followingEpoch^[j] m) : i = j := by
  have := congrArg BitVec.toNat e
  rw [followingEpoch_iterate_toNat i h, followingEpoch_iterate_toNat j h] at this
  omega

/-- Numbers that follow one another are distinct, so no more of them are held than there are epochs. -/
theorem heldRun_le_length {stack : List Epoch} {n : EpochNo} {k : Nat} (h : n ≠ 0) (small : k ≤ 65535)
    (held : ∀ j < k, holdsNumber stack (followingEpoch^[j] n)) : k ≤ stack.length := by
  have distinct : ((List.range k).map fun j => followingEpoch^[j] n).Nodup :=
    List.Nodup.map_on (fun i hi j hj => followingEpoch_iterate_injOn h
      (Nat.lt_of_lt_of_le (List.mem_range.mp hi) small) (Nat.lt_of_lt_of_le (List.mem_range.mp hj) small)) List.nodup_range
  have among : ((List.range k).map fun j => followingEpoch^[j] n) ⊆ stack.map (·.number) := fun x hx => by
    obtain ⟨j, hj, rfl⟩ := List.mem_map.mp hx
    exact List.mem_map.mpr (held j (List.mem_range.mp hj))
  simpa using (distinct.subperm among).length_le

/-- The search passes held numbers alone, and ends at a number not held unless its fuel ends. -/
theorem unheldEpoch_search (stack : List Epoch) (fuel : Nat) (n : EpochNo) :
    ∃ k ≤ fuel, unheldEpoch stack fuel n = followingEpoch^[k] n ∧
      (∀ j < k, holdsNumber stack (followingEpoch^[j] n)) ∧
      (k < fuel → ¬ holdsNumber stack (followingEpoch^[k] n)) := by
  induction fuel generalizing n with
  | zero => exact ⟨0, le_rfl, rfl, fun _ hj => absurd hj (Nat.not_lt_zero _), fun hk => absurd hk (Nat.not_lt_zero _)⟩
  | succ fuel ih =>
    by_cases held : holdsNumber stack n
    · obtain ⟨k, le, found, passed, free⟩ := ih (followingEpoch n)
      refine ⟨k + 1, Nat.succ_le_succ le, ?_, fun j hj => ?_, fun hk => free (Nat.lt_of_succ_lt_succ hk)⟩
      · rw [unheldEpoch, if_pos (holdsNumber_iff_any.mp held), found, Function.iterate_succ_apply]
      · cases j with
        | zero => exact held
        | succ j => exact passed j (Nat.lt_of_succ_lt_succ hj)
    · refine ⟨0, Nat.zero_le _, ?_, fun _ hj => absurd hj (Nat.not_lt_zero _), fun _ => held⟩
      rw [unheldEpoch, if_neg (fun any => held (holdsNumber_iff_any.mpr any))]
      rfl

/-- R24: with room on the stack, the number of the next epoch is the first one from NEXT_EPOCH on that no epoch holds. -/
theorem newEpochNumber_firstUnheld {s : State} (next : s.epochs.nextEpoch ≠ 0)
    (room : s.epochs.stack.length < Config.maxDepth) :
    ∃ k ≤ 8, s.newEpochNumber = followingEpoch^[k] s.epochs.nextEpoch ∧
      ¬ holdsNumber s.epochs.stack s.newEpochNumber ∧
      ∀ j < k, holdsNumber s.epochs.stack (followingEpoch^[j] s.epochs.nextEpoch) := by
  obtain ⟨k, le, found, passed, free⟩ := unheldEpoch_search s.epochs.stack 8 s.epochs.nextEpoch
  have few : k < 8 := Nat.lt_of_le_of_lt (heldRun_le_length next (by omega) passed) room
  have first : s.newEpochNumber = followingEpoch^[k] s.epochs.nextEpoch := found
  exact ⟨k, le, first, first ▸ free few, passed⟩

/-! ### The drain of a CHECKPOINT completes (R29, R32) -/

theorem exec_checkpointDrainComplete (s : State) :
    exec .checkpointDrainComplete s = whenRunning (completeDrain .checkpoint) s := rfl

theorem whenRunning_running {s : State} (h : s.inReset = false) (f : State → State) : whenRunning f s = .next (f s) := by
  rw [whenRunning, h]; rfl

theorem completeDrain_complete {c : PendingCommand} {s : State} (pending : s.epochs.command = some c)
    (done : s.drainComplete = true) : completeDrain c s = drainEffect c s := if_pos ⟨pending, done⟩

theorem exec_checkpointDrainComplete_effect {s : State} (running : s.inReset = false)
    (pending : s.epochs.command = some .checkpoint) (done : s.drainComplete = true) :
    exec .checkpointDrainComplete s = .next (checkpointEffect s) := by
  rw [exec_checkpointDrainComplete, whenRunning_running running, completeDrain_complete pending done, drainEffect]

/-- R32, with the pushed state written out: the depth told is the one after the push. -/
theorem checkpointEffect_eq (s : State) : checkpointEffect s =
    releaseParked (post (some s.newEpochNumber) (.epochOpened (s.epochs.stack.length + 1) s.journal.nextSeq)
      ((s.setEpochs {
        stack := { number := s.newEpochNumber, start := s.journal.nextSeq, broken := none, records := 0 } :: s.epochs.stack
        nextEpoch := followingEpoch s.newEpochNumber
        controller := .idle
        command := none }).setCapture { s.capture with marks := [] })) := rfl

/-- Settles O38: the number comes from `newEpochNumber_firstUnheld`, whose room is what the law of the stack (R23, R24) keeps
for a pending CHECKPOINT. -/
theorem checkpointTakesEffect : Obligations.CheckpointTakesEffect := by
  intro s running pending done ⟨_, room, _, _, next⟩
  obtain ⟨k, le, found, unheld, passed⟩ := newEpochNumber_firstUnheld next (room pending)
  refine ⟨followingEpoch, k, s.newEpochNumber, _, followingEpoch_eq,
    ⟨le, found, fun e he eq => unheld ⟨e, he, eq⟩, passed⟩, rfl, ?_, releaseParked_none _⟩
  rw [exec_checkpointDrainComplete_effect running pending done, checkpointEffect_eq]

end Sys2Proof.Machine
end

section
/-! PROOF. The malformed requests of R119, and the answer they meet as the second check of intake (R117). -/

namespace Sys2Proof.Machine

/-! ### Malformed requests (R119) -/

theorem Request.malformed_iff (r : Request) : r.malformed = true ↔
    r.kindOk = false ∨ r.beats < 1 ∨ 8 < r.beats ∨ r.address.toNat % 8 ≠ 0 ∨
      8 < r.address.toNat % 64 / 8 + r.beats := by
  simp [Request.malformed, or_assoc]

theorem Request.malformed_eq_false_iff (r : Request) : r.malformed = false ↔
    r.kindOk = true ∧ 1 ≤ r.beats ∧ r.beats ≤ 8 ∧ r.address.toNat % 8 = 0 ∧
      r.address.toNat % 64 / 8 + r.beats ≤ 8 := by
  rw [← Bool.not_eq_true, r.malformed_iff]
  simp only [not_or, Bool.not_eq_false, Nat.not_lt, not_not]

theorem readRequest_kindOk_iff (h : Word) : (readRequest h).kindOk = true ↔ (h.extractLsb' 0 4).toNat = 1 :=
  beq_iff_eq.trans BitVec.toNat_inj.symm

theorem writeRequest_kindOk_iff (h enables : Word) (data : List Word) :
    (writeRequest h enables data).kindOk = true ↔ (h.extractLsb' 0 4).toNat = 2 :=
  beq_iff_eq.trans BitVec.toNat_inj.symm

/-! ### A request taken at intake (R116, R117) -/

theorem exec_of_requestOf {c : Instr} {r : Request} (h : requestOf c = some r) (s : State) :
    exec c s = whenRunning (takeRequest r) s := by
  cases c with
  | read | write => cases h; rfl
  | _ => cases h

theorem State.acceptLine_running {s : State} (accept : s.acceptLine = true) : s.inReset = false := by
  simp only [State.acceptLine, Bool.and_eq_true, Bool.not_eq_true'] at accept
  exact accept.2

/-- R117: the duplicate check comes before the check of R119, the hold and the window after it. -/
theorem takeRequest_malformed {r : Request} {s : State} (accept : s.acceptLine = true) (new : s.entry r.id = none)
    (bad : r.malformed = true) : takeRequest r s = answerIntake r .malformed s := by
  simp [takeRequest, accept, new, bad]

theorem answerIntake_eq (r : Request) (status : HostStatus) (s : State) : answerIntake r status s =
    s.setHost { s.host with sendQueue := s.host.sendQueue ++ [.intake r.id r.write.isSome status] } := rfl

theorem exec_malformed {c : Instr} {r : Request} {s : State} (request : requestOf c = some r)
    (accept : s.acceptLine = true) (free : ∀ e ∈ s.host.table, e.id ≠ r.id) (bad : r.malformed = true) :
    exec c s = .next (s.setHost { s.host with
      sendQueue := s.host.sendQueue ++ [.intake r.id r.write.isSome .malformed] }) := by
  rw [exec_of_requestOf request, whenRunning_running (State.acceptLine_running accept),
    takeRequest_malformed accept (entry_none_of free) bad, answerIntake_eq]

/-- Settles O17: `exec_malformed` for the request of each row, with the checks of R119 read off its header. -/
theorem malformedAnswered : Obligations.MalformedAnswered := by
  refine ⟨fun h s _ accept free bad => ?read, fun h enables data s _ accept free bad => ?write, ?wellFormed⟩
  case read =>
    have malformed : (readRequest h).malformed = true := (Request.malformed_iff _).mpr <|
      bad.imp_left fun kind => Bool.eq_false_iff.mpr (mt (readRequest_kindOk_iff h).mp kind)
    exact exec_malformed (r := readRequest h) rfl accept free malformed
  case write =>
    have malformed : (writeRequest h enables data).malformed = true := (Request.malformed_iff _).mpr (.inr bad)
    exact exec_malformed (r := writeRequest h enables data) rfl accept free malformed
  case wellFormed =>
    rintro _ h _ (⟨rfl, kind⟩ | ⟨enables, data, rfl, kind⟩) ⟨⟩ least most aligned inside
    · exact (Request.malformed_eq_false_iff _).mpr
        ⟨(readRequest_kindOk_iff h).mpr kind, least, most, aligned, inside⟩
    · exact (Request.malformed_eq_false_iff _).mpr
        ⟨(writeRequest_kindOk_iff h enables data).mpr kind, least, most, aligned, inside⟩

end Sys2Proof.Machine
end

section
/-! PROOF. WINDOW_WRITE (R138): the twelve bytes of its payload read back as its six fields (R176), and the command by what those
fields are: refused in an epoch, out of range or with a bad window, and otherwise written. -/

namespace Sys2Proof.Machine

/-! ### Byte order: a field is read back -/

theorem leValue_leBytes (n v : Nat) : leValue (leBytes n v) = v % 256 ^ n := by
  induction n generalizing v with
  | zero => rw [Nat.pow_zero, Nat.mod_one]; rfl
  | succ n ih => rw [leBytes, leValue, ih, BitVec.toNat_ofNat, Nat.pow_succ' (m := 256), Nat.mod_mul]

theorem leValue_leBytes_of_lt {n v : Nat} (h : v < 256 ^ n) : leValue (leBytes n v) = v := by
  rw [leValue_leBytes, Nat.mod_eq_of_lt h]

/-! ### The codes of a flag and of an action (R176) -/

theorem flagOfCode_eq_none : ∀ {n : Nat}, 1 < n → flagOfCode n = none
  | 0, h | 1, h => absurd h (by decide)
  | _ + 2, _ => rfl

theorem flagOfCode_eq_some : ∀ {n : Nat}, n ≤ 1 → flagOfCode n = some (decide (n = 1))
  | 0, _ | 1, _ => rfl

theorem actionOfCode_eq_none : ∀ {n : Nat}, n = 0 ∨ 4 < n → actionOfCode n = none
  | 0, _ => rfl
  | 1, h | 2, h | 3, h | 4, h => absurd h (by decide)
  | _ + 5, _ => rfl

theorem actionOfCode_eq_some {n : Nat} {a : Action}
    (h : (n, a) ∈ [(1, Action.pass), (2, .journal), (3, .guard), (4, .deny)]) : actionOfCode n = some a := by
  simp only [List.mem_cons, Prod.mk.injEq, List.not_mem_nil, or_false] at h
  rcases h with ⟨rfl, rfl⟩ | ⟨rfl, rfl⟩ | ⟨rfl, rfl⟩ | ⟨rfl, rfl⟩ <;> rfl

/-! ### The fields of a payload, by their values (R138, R176) -/

section Values
variable {p : List Byte} {index valid base limit masters action : Nat}

/-- The six fields of a WINDOW_WRITE payload, as numbers (R176). -/
structure WindowValues (p : List Byte) (index valid base limit masters action : Nat) : Prop where
  index : leValue (p.take 1) = index
  valid : leValue ((p.drop 1).take 1) = valid
  base : leValue ((p.drop 2).take 4) = base
  limit : leValue ((p.drop 6).take 4) = limit
  masters : leValue ((p.drop 10).take 1) = masters
  action : leValue ((p.drop 11).take 1) = action

theorem windowValues_leBytes (hi : index < 256) (hv : valid < 256) (hb : base < 2 ^ 32) (hl : limit < 2 ^ 32)
    (hm : masters < 256) (ha : action < 256) :
    WindowValues (leBytes 1 index ++ leBytes 1 valid ++ leBytes 4 base ++ leBytes 4 limit ++ leBytes 1 masters ++
      leBytes 1 action) index valid base limit masters action where
  index := leValue_leBytes_of_lt (n := 1) hi
  valid := leValue_leBytes_of_lt (n := 1) hv
  base := leValue_leBytes_of_lt (n := 4) hb
  limit := leValue_leBytes_of_lt (n := 4) hl
  masters := leValue_leBytes_of_lt (n := 1) hm
  action := leValue_leBytes_of_lt (n := 1) ha

/-- The entry that a WINDOW_WRITE of these fields gives: its hit count is 0. -/
def windowGiven (valid base limit masters : Nat) (a : Action) : Window where
  valid := decide (valid = 1)
  base := BitVec.ofNat 30 base
  limit := BitVec.ofNat 30 limit
  masters := BitVec.ofNat 4 masters
  action := a
  hits := 0

/-- R138, step 2: a field outside its form or range. -/
theorem windowFields_eq_none (values : WindowValues p index valid base limit masters action)
    (bad : 15 < index ∨ 1 < valid ∨ 2 ^ 30 ≤ base ∨ 2 ^ 30 ≤ limit ∨ 15 < masters ∨ action = 0 ∨ 4 < action) :
    windowFields p = none := by
  simp only [windowFields, values.index, values.valid, values.base, values.limit, values.masters, values.action]
  split
  case h_1 v a flag act =>
    have flagOk : ¬ 1 < valid := fun h => nomatch (flagOfCode_eq_none h).symm.trans flag
    have actOk : ¬ (action = 0 ∨ 4 < action) := fun h => nomatch (actionOfCode_eq_none h).symm.trans act
    split
    · exact if_neg (by omega)
    · rfl
  case h_2 => rfl

/-- R138, step 2: every field in its form and range. -/
theorem windowFields_eq_some {i : Fin 16} {a : Action} (values : WindowValues p i.val valid base limit masters action)
    (flag : valid ≤ 1) (baseOk : base < 2 ^ 30) (limitOk : limit < 2 ^ 30) (mastersOk : masters ≤ 15)
    (act : (action, a) ∈ [(1, Action.pass), (2, .journal), (3, .guard), (4, .deny)]) :
    windowFields p = some (i, windowGiven valid base limit masters a) := by
  have inRange : base < 2 ^ 30 ∧ limit < 2 ^ 30 ∧ masters < 16 := ⟨baseOk, limitOk, by omega⟩
  simp only [windowFields, values.index, values.valid, values.base, values.limit, values.masters, values.action,
    flagOfCode_eq_some flag, actionOfCode_eq_some act, i.isLt, inRange, and_self, if_true, dite_true]
  rfl

/-- R138, step 3: the two ways a window is bad. -/
theorem windowGiven_bad_iff {a : Action} (baseOk : base < 2 ^ 30) (limitOk : limit < 2 ^ 30) (mastersOk : masters ≤ 15) :
    (windowGiven valid base limit masters a).bad = true ↔ limit < base ∨ masters = 0 := by
  have empty : BitVec.ofNat 4 masters = 0 ↔ masters = 0 := by
    rw [← BitVec.toNat_inj, BitVec.toNat_ofNat, Nat.mod_eq_of_lt (by omega)]; rfl
  simp only [Window.bad, windowGiven, Bool.or_eq_true, decide_eq_true_eq, beq_iff_eq, empty, BitVec.toNat_ofNat,
    Nat.mod_eq_of_lt baseOk, Nat.mod_eq_of_lt limitOk]

end Values

/-! ### The command, by its checks (R138) -/

section Command
variable {p : List Byte} {s : State} {i : Fin 16} {w : Window}

theorem cmdWindowWrite_locked (locked : s.depth ≠ 0) : cmdWindowWrite p s = respond (.refused .locked) s := if_pos locked

theorem cmdWindowWrite_badValue (unlocked : s.depth = 0) (fields : windowFields p = none) :
    cmdWindowWrite p s = respond (.refused .badValue) s := by
  simp only [cmdWindowWrite, unlocked, fields, ne_eq, not_true_eq_false, if_false]

theorem cmdWindowWrite_badWindow (unlocked : s.depth = 0) (fields : windowFields p = some (i, w)) (bad : w.bad = true) :
    cmdWindowWrite p s = respond (.refused .badWindow) s := by
  simp only [cmdWindowWrite, unlocked, fields, bad, ne_eq, not_true_eq_false, if_false, if_true]

theorem cmdWindowWrite_written (unlocked : s.depth = 0) (fields : windowFields p = some (i, w)) (good : ¬ w.bad = true) :
    cmdWindowWrite p s = respond (.done []) (s.setWindows (s.windows.set i w)) := by
  simp only [cmdWindowWrite, unlocked, fields, good, ne_eq, not_true_eq_false, if_false, Bool.false_eq_true]

end Command

/-! ### The row (R138, R158) -/

theorem State.takes_idle {code : Byte} {f : Frame} {s : State} (h : s.takes code f) : s.service.work = none := by
  obtain ⟨-, -, -, idle, -⟩ := h
  exact idle

/-- The command of a taken frame answers in the exchange of that frame. -/
theorem exec_windowWrite_answers {f : Frame} {s t : State} {a : Answer} (taken : s.takes 0x20 f)
    (idle : t.service.work = none)
    (command : ∀ x w, cmdWindowWrite f.payload (s.withExchange x w) = respond a (t.withExchange x w)) :
    exec (.windowWrite f) s = .next (t.answers f a) :=
  calc exec (.windowWrite f) s
    _ = whenRunning (frameComplete 0x20 f cmdWindowWrite) s := rfl
    _ = .next (t.answers f a) := by
      rw [whenRunning_takes taken, command, respond_withExchange, answers_eq idle]

/-- Settles O50: the lock, the values and the window are checked in that order, each on the fields read back from the payload. -/
theorem windowWritten : Obligations.WindowWritten := by
  intro s f index valid base limit masters action taken payload hi hv hb hl hm ha
  have idle := State.takes_idle taken
  have values : WindowValues f.payload index valid base limit masters action :=
    payload ▸ windowValues_leBytes hi hv hb hl hm ha
  refine ⟨fun locked => ?locked, fun unlocked bad => ?badValue,
    fun i a unlocked atIndex flag baseOk limitOk mastersOk act => ⟨fun bad => ?badWindow, fun ordered someMaster => ?written⟩⟩
  case locked => exact exec_windowWrite_answers taken idle fun _ _ => cmdWindowWrite_locked locked
  case badValue =>
    exact exec_windowWrite_answers taken idle fun _ _ =>
      cmdWindowWrite_badValue unlocked (windowFields_eq_none values bad)
  all_goals
    subst atIndex
    have fields := windowFields_eq_some values flag baseOk limitOk mastersOk act
    have bad_iff := windowGiven_bad_iff (valid := valid) (a := a) baseOk limitOk mastersOk
  case badWindow =>
    exact exec_windowWrite_answers taken idle fun _ _ =>
      cmdWindowWrite_badWindow unlocked fields (bad_iff.mpr bad)
  case written =>
    have good := mt bad_iff.mp (not_or.mpr ⟨ordered.not_gt, someMaster⟩)
    exact exec_windowWrite_answers (t := s.setWindows (s.windows.set i (windowGiven valid base limit masters a))) taken idle
      fun _ _ => cmdWindowWrite_written unlocked fields good

end Sys2Proof.Machine
end

section
/-! PROOF. MTAG_RELEASE (R152): the quarantine set is freed, the tag queue is served (R147), and the answer counts the tags that
were QUARANTINED. -/

namespace Sys2Proof.Machine

/-! ### The quarantine set, in the words of the statement (R146, R152) -/

theorem releaseTag_eq (st : TagState) : releaseTag st = if st = .quarantined then .free else st := by
  cases st <;> rfl

theorem TagState.isQuarantined_eq (st : TagState) : st.isQuarantined = decide (st = .quarantined) := by
  cases st <;> rfl

theorem quarantineCount_eq (s : State) :
    s.quarantineCount = (s.memIf.tags.toList.filter fun x => decide (x = .quarantined)).length := by
  rw [State.quarantineCount, funext TagState.isQuarantined_eq]

/-! ### The tag queue served (R147) -/

/-- With nothing waiting, serving the tag queue changes nothing. -/
theorem serveTagQueue_empty {s : State} (queue : s.memIf.tagQueue = []) : serveTagQueue s = s := by
  rw [serveTagQueue, queue, serveRequests, ← queue]
  rfl

theorem releaseQuarantine_eq (s : State) : releaseQuarantine s = serveTagQueue (s.setMemIf { s.memIf with
    tags := s.memIf.tags.map fun x => if x = .quarantined then .free else x }) := by
  rw [releaseQuarantine, funext releaseTag_eq]

theorem releaseQuarantine_empty {s : State} (queue : s.memIf.tagQueue = []) : releaseQuarantine s = s.setMemIf { s.memIf with
    tags := s.memIf.tags.map fun x => if x = .quarantined then .free else x } :=
  (releaseQuarantine_eq s).trans (serveTagQueue_empty queue)

/-! ### The row (R152, R158) -/

/-- Serving the tag queue leaves the exchange alone, so the answer goes out in the exchange of the frame. -/
theorem exec_mtagRelease_answers {f : Frame} {s : State} (taken : s.takes 0x17 f) : exec (.mtagRelease f) s =
    .next ((releaseQuarantine s).answers f (.done (leBytes 1 s.quarantineCount))) := by
  have idle : (releaseQuarantine s).service.work = none := by
    rw [(releaseQuarantine_path s).service, State.takes_idle taken]
  calc exec (.mtagRelease f) s
    _ = whenRunning (frameComplete 0x17 f cmdMtagRelease) s := rfl
    _ = .next ((releaseQuarantine s).answers f (.done (leBytes 1 s.quarantineCount))) := by
      rw [whenRunning_takes taken, cmdMtagRelease, withExchange_quarantineCount, releaseQuarantine_withExchange,
        respond_withExchange, answers_eq idle]

/-- Settles O49: the state answered in is the freed one with its tag queue served, which is what `serves_iff` says of it. -/
theorem quarantineReleased : Obligations.QuarantineReleased := by
  intro s f taken
  have row := exec_mtagRelease_answers taken
  rw [quarantineCount_eq] at row
  refine ⟨_, rfl, fun queue => ?noneWaits, releaseQuarantine s, serves_iff.mpr ?served, row⟩
  case noneWaits => rwa [releaseQuarantine_empty queue] at row
  case served => exact releaseQuarantine_eq s

end Sys2Proof.Machine
end

section
/-! PROOF. ENABLE and DISABLE (R168, R169): each command is an answer, given in the state with the mode set or in the state as it
was, so one lemma about a row whose command answers at once gives the three clauses. -/

namespace Sys2Proof.Machine

/-! ### A row whose command answers at once (R156, R158) -/

/-- A command that does the same in every exchange answers in the exchange of the frame it was taken from. -/
theorem whenRunning_answers {code : Byte} {f : Frame} {run : List Byte → State → State} {s t : State} {a : Answer}
    (taken : s.takes code f) (idle : t.service.work = none)
    (command : ∀ x w, run f.payload (s.withExchange x w) = respond a (t.withExchange x w)) :
    whenRunning (frameComplete code f run) s = .next (t.answers f a) := by
  rw [whenRunning_takes taken, command, respond_withExchange, answers_eq idle]

/-! ### The mode set (R168, R169) -/

/-- R168, R169: the state in mode `m`. -/
def State.inMode (m : Mode) (s : State) : State := s.setService { s.service with mode := m }

/-! ### The two commands, by the checks of R169 -/

section Command
variable {p : List Byte} {s : State}

theorem cmdEnable_eq : cmdEnable p s = respond (.done []) (s.inMode .active) := rfl

/-- R169: the condition under which DISABLE is accepted. -/
theorem disableAccepted_iff : (s.depth = 0 ∧ s.epochs.controller = .idle) ↔
    (s.epochs.stack = [] ∧ s.epochs.controller = .idle) :=
  and_congr_left fun _ => List.length_eq_zero_iff

theorem cmdDisable_accepted (empty : s.epochs.stack = []) (idle : s.epochs.controller = .idle) :
    cmdDisable p s = respond (.done []) (s.inMode .bypass) :=
  if_pos (disableAccepted_iff.mpr ⟨empty, idle⟩)

theorem cmdDisable_refused (busy : s.epochs.stack ≠ [] ∨ s.epochs.controller ≠ .idle) :
    cmdDisable p s = respond (.refused .mode) s :=
  if_neg fun accepted => not_and_or.mpr busy (disableAccepted_iff.mp accepted)

end Command

/-! ### The rows -/

theorem exec_enable (f : Frame) (s : State) : exec (.enable f) s = whenRunning (frameComplete 0x14 f cmdEnable) s := rfl

theorem exec_disable (f : Frame) (s : State) : exec (.disable f) s = whenRunning (frameComplete 0x15 f cmdDisable) s := rfl

/-- Settles O48: the checks of DISABLE read the epochs alone, which the frame being taken leaves as they are. -/
theorem modeSet : Obligations.ModeSet := by
  refine ⟨fun s f taken => ?enable, fun s f taken => ⟨fun empty idle => ?accepted, fun busy => ?refused⟩⟩
  all_goals have free := State.takes_idle taken
  case enable =>
    rw [exec_enable]
    exact whenRunning_answers (t := s.inMode .active) taken free fun _ _ => cmdEnable_eq
  case accepted =>
    rw [exec_disable]
    exact whenRunning_answers (t := s.inMode .bypass) taken free fun _ _ =>
      cmdDisable_accepted empty idle
  case refused =>
    rw [exec_disable]
    exact whenRunning_answers taken free fun _ _ => cmdDisable_refused busy

end Sys2Proof.Machine
end

section
/-! PROOF. The laws of the journal memory, the port and the journal (R6, R19, and the laws of `State.lawful`). The memory and
the port are kept by every kind of move, so by every step (`step_keeps`); the laws of the journal are kept command by command,
each by the lemma about its own operation. -/

namespace Sys2Proof.Machine

/-! ### The journal memory (R6) -/

/-- R6: the journal memory is in canonical form. -/
def State.memoryCanonical (s : State) : Prop := Memory.wf s.journal.memory = true

theorem State.memoryCanonical.same {s t : State} (h : s.memoryCanonical) (memory : t.journal.memory = s.journal.memory) :
    t.memoryCanonical := by
  rw [State.memoryCanonical, memory]; exact h

theorem SameButPaths.memoryCanonical {s t : State} (p : SameButPaths s t) (h : s.memoryCanonical) : t.memoryCanonical :=
  h.same (congrArg (·.memory) p.journal)

theorem completed_path (g : Fin 64) (s : State) : SameButPaths s (serveTagQueue (setTag g .free s)) :=
  (setTag_path g .free s).trans (serveTagQueue_path _)

/-- R53: an insert changes the capture unit alone. -/
theorem insertMark_eq (l : Line) (s : State) : insertMark l s = s.setCapture (insertMark l s).capture := by
  unfold insertMark
  split
  · rfl
  · split <;> rfl

theorem insertMark_journal (l : Line) (s : State) : (insertMark l s).journal = s.journal := by rw [insertMark_eq]; rfl
theorem insertMark_host (l : Line) (s : State) : (insertMark l s).host = s.host := by rw [insertMark_eq]; rfl
theorem insertMark_windows (l : Line) (s : State) : (insertMark l s).windows = s.windows := by rw [insertMark_eq]; rfl
theorem insertMark_epochs (l : Line) (s : State) : (insertMark l s).epochs = s.epochs := by rw [insertMark_eq]; rfl
theorem insertMark_memIf (l : Line) (s : State) : (insertMark l s).memIf = s.memIf := by rw [insertMark_eq]; rfl
theorem insertMark_service (l : Line) (s : State) : (insertMark l s).service = s.service := by rw [insertMark_eq]; rfl

theorem Move.keeps_memoryCanonical {s t : State} (m : Move true true s t) (h : s.memoryCanonical) : t.memoryCanonical := by
  cases m with
  | journal j memory _ => exact h.same memory
  | memory a bytes => exact Memory.writeBytes_wf _ a bytes h
  | mark l => exact h.same (congrArg (·.memory) (insertMark_journal l s))
  | posted n k => exact h.same (congrArg (·.memory) (post_journal n k s))
  | handOver r => exact (handOver_path r s).memoryCanonical h
  | completed g => exact (completed_path g s).memoryCanonical h
  | released => exact (releaseQuarantine_path s).memoryCanonical h
  | _ => exact h

/-! ### The journal port (R19) -/

/-- R19: an operation is granted with a port tag in no use. -/
theorem freePort_unused {s : State} {p : Fin 8} (h : s.freePort = some p) : ∀ o ∈ s.journal.outstanding, o.1 ≠ p := by
  simpa using List.find?_some h

/-- R19: with 8 operations outstanding every port tag is in use. -/
theorem outstanding_lt_of_freePort {s : State} {p : Fin 8} (free : s.freePort = some p)
    (distinct : (s.journal.outstanding.map (·.1)).Nodup) : s.journal.outstanding.length < Config.portOutstanding := by
  have unused : p ∉ s.journal.outstanding.map (·.1) := fun used => by
    obtain ⟨o, there, same⟩ := List.mem_map.mp used
    exact freePort_unused free o there same
  have := (List.nodup_cons.mpr ⟨unused, distinct⟩).length_le_card
  simpa [Config.portOutstanding] using this

theorem grant_portValid {s : State} {p : Fin 8} {op : PortOp} {side : Side} (free : s.freePort = some p)
    (h : s.journal.portValid) : (grant p op side s).journal.portValid := by
  obtain ⟨-, distinct⟩ := h
  refine ⟨?_, ?_⟩
  · have := outstanding_lt_of_freePort free distinct
    simpa [grant] using this
  · have unused := freePort_unused free
    simpa [grant, List.nodup_append, distinct] using fun q op' there => unused (q, op') there

theorem dropPort_portValid {s : State} {p : Fin 8} (h : s.journal.portValid) : (dropPort p s).journal.portValid :=
  ⟨(List.length_filter_le _ _).trans h.1, h.2.sublist (List.filter_sublist.map _)⟩

theorem JournalUnit.portValid.same {j k : JournalUnit} (h : j.portValid) (outstanding : k.outstanding = j.outstanding) :
    k.portValid := by
  rw [JournalUnit.portValid, outstanding]; exact h

theorem SameButPaths.portValid {s t : State} (p : SameButPaths s t) (h : s.journal.portValid) : t.journal.portValid :=
  p.journal ▸ h

theorem Move.keeps_portValid {s t : State} (m : Move true true s t) (h : s.journal.portValid) : t.journal.portValid := by
  cases m with
  | journal j _ outstanding => exact h.same outstanding
  | issued p op side free => exact grant_portValid free h
  | ended p => exact dropPort_portValid h
  | mark l => exact (insertMark_journal l s).symm ▸ h
  | posted n k => exact (post_journal n k s).symm ▸ h
  | handOver r => exact (handOver_path r s).portValid h
  | completed g => exact (completed_path g s).portValid h
  | released => exact (releaseQuarantine_path s).portValid h
  | pins => exact ⟨Nat.zero_le _, List.nodup_nil⟩
  | _ => exact h

/-! ### The laws at reset (R22, R42, R62, R84, R130, R155) -/

theorem reset_nowhere (id : HostId) : State.reset.nowhere id := by
  refine ⟨?_, ?_, ?_, ?_⟩ <;>
    simp [State.inSlotQueue, State.inSlots, State.inLinks, State.reset, CaptureUnit.reset, MemoryIf.reset, HostIf.reset,
      TagState.host]

theorem reset_slots (i : Fin 8) : State.reset.capture.slots[i] = none := by
  simp [State.reset, CaptureUnit.reset]

theorem reset_pathLaw : State.reset.pathLaw where
  names := List.nodup_nil
  path id := (reset_nowhere id).fitsAt
  writes := ⟨nofun, fun i _ held => nomatch (reset_slots i).symm.trans held⟩
  waits := ⟨List.nodup_nil, nofun⟩
  appends := ⟨List.nodup_nil, nofun⟩

theorem reset_mapLaw : State.reset.mapLaw 0 where
  pool := .of_eq (List.append_nil ((List.range 256).map (BitVec.ofNat 8)))
  present := nofun
  entries := Nat.zero_le _
  newest := nofun
  rising := .nil
  ages := nofun

theorem reset_notWalking : ¬ (State.reset.epochs.walks ∨ State.reset.epochs.controller = .stopped) := by
  simp [EpochCtl.walks, State.reset, EpochCtl.reset]

/-- R173: the reset state keeps the laws of the part. -/
theorem reset_lawful : State.reset.lawful 0 where
  path := reset_pathLaw
  map := reset_mapLaw
  spans := fun _ _ none' => nomatch none'
  reads := fun _ => ⟨Nat.zero_le _, nofun⟩
  refills := fun _ => nofun
  gate := fun walks => absurd walks reset_notWalking
  zero := fun _ => ⟨rfl, rfl, rfl, fun i _ held => nomatch (reset_slots i).symm.trans held⟩
  stop := nofun
  bypass := fun _ => ⟨rfl, rfl⟩
  still := fun _ _ _ none' => nomatch none'

theorem pinValues_lawful (s : State) (b : Bool) : ((pinValues s).setInReset b).lawful 0 := reset_lawful.of rfl

/-! ### The rows keep the laws of the part -/

section Rows
variable {k : Nat} {f : State → State} {s t : State}

/-- A row that gives no position to an append request. -/
theorem whenRunning_lawful_same (h : s.lawful k) (keeps : ∀ {u : State}, u.lawful k → (f u).lawful k)
    (e : whenRunning f s = .next t) : t.lawful (k + 17) :=
  (whenRunning_lawful e h le_rfl keeps).mono (by omega)

theorem whenRunningSpaced_lawful_same (h : s.lawful k) (keeps : ∀ {u : State}, u.lawful k → (f u).lawful k)
    (e : whenRunningSpaced f s = .next t) : t.lawful (k + 17) :=
  (settled_lawful e h le_rfl keeps).mono (by omega)

theorem whenRunningHeld_lawful_same (h : s.lawful k) (small : k + 17 < 2 ^ 32)
    (keeps : ∀ {u : State}, u.lawful k → (f u).lawful k) (e : whenRunningHeld f s = .next t) : t.lawful (k + 17) :=
  held_lawful e h small fun law => (keeps law).mono (by omega)

variable {code : Byte} {fr : Frame} {run : List Byte → State → State}

theorem frame_lawful (h : s.lawful k) (keeps : ∀ {bs : List Byte} {u : State}, u.lawful k → (run bs u).lawful k)
    (e : whenRunning (frameComplete code fr run) s = .next t) : t.lawful (k + 17) :=
  whenRunning_lawful_same h (fun law => frameComplete_lawful law le_rfl keeps) e

theorem frameSpaced_lawful (h : s.lawful k) (keeps : ∀ {bs : List Byte} {u : State}, u.lawful k → (run bs u).lawful k)
    (e : whenRunningSpaced (frameComplete code fr run) s = .next t) : t.lawful (k + 17) :=
  whenRunningSpaced_lawful_same h (fun law => frameComplete_lawful law le_rfl keeps) e

/-- A frame whose command may give a position to every waiting append request. -/
theorem frameServing_lawful (h : s.lawful k) (keeps : ∀ {bs : List Byte} {u : State}, u.lawful k → (run bs u).lawful (k + 8))
    (e : whenRunningSpaced (frameComplete code fr run) s = .next t) : t.lawful (k + 17) :=
  (settled_lawful e h (by omega) fun law => frameComplete_lawful law (by omega) keeps).mono (by omega)

/-- A timeout or completion, with what it brings about in its step. -/
theorem afterOutcome_lawful_of (h : s.lawful k) (small : k + 17 < 2 ^ 32)
    (keeps : ∀ {u : State}, u.lawful k → (f u).lawful (k + 1))
    (e : whenRunningHeld (fun u => afterOutcome (f u)) s = .next t) : t.lawful (k + 17) :=
  held_lawful e h small fun law => afterOutcome_lawful (keeps law)

end Rows

theorem execRecordRead_lawful {k : Nat} {s t : State} (e : execRecordRead s = .next t) (h : s.lawful k) : t.lawful k := by
  unfold execRecordRead at e
  split at e
  · cases e; exact h
  · split at e
    · cases e; exact h
    · next found =>
      split at e
      · cases e; exact issueRecordRead_lawful h found
      · cases e

theorem execResetnRelease_lawful {k : Nat} {s t : State} (e : execResetnRelease s = .next t) (h : s.lawful k) : t.lawful k := by
  unfold execResetnRelease at e
  split at e
  · cases e; exact (pinValues_lawful s false).mono (Nat.zero_le _)
  · cases e; exact h

theorem cmdEnable_lawful {k : Nat} {bs : List Byte} {s : State} (h : s.lawful k) : (cmdEnable bs s).lawful k :=
  respond_lawful (setMode_lawful h nofun)

theorem ssnAsserts_parts (s : State) : (ssnAsserts s).parts = s.parts := by
  unfold ssnAsserts
  split <;> rfl

theorem ssnDeasserts_parts (s : State) : (ssnDeasserts s).parts = s.parts := rfl

theorem responseSent_parts (s : State) : (responseSent s).parts = s.parts := by
  unfold responseSent
  split <;> rfl

theorem tick_parts (s : State) : (tick s).parts = s.parts := by
  unfold tick
  split <;> rfl

/-- What every command keeps, said row by row of the table. -/
theorem exec_lawful {k : Nat} {c : Instr} {s t : State} (e : exec c s = .next t) (h : s.lawful k) (small : k + 17 < 2 ^ 32) :
    t.lawful (k + 17) := by
  cases c with
  | read => exact whenRunning_lawful_same h takeRequest_lawful e
  | write => exact whenRunning_lawful_same h takeRequest_lawful e
  | messageSent => exact whenRunningSpaced_lawful_same h (fun law => settleDrain_lawful (sendHead_lawful law)) e
  | done => exact afterOutcome_lawful_of h small (fun law => takeCompletion_lawful law (by omega)) e
  | memoryTimeoutExpiry => exact afterOutcome_lawful_of h small (fun law => takeTimeout_lawful law (by omega)) e
  | arbiterGrant => exact whenRunningHeld_lawful_same h small arbitrate_lawful e
  | recordWriteCompletion =>
    exact whenRunningHeld_lawful_same h small (fun law => settleCoreReset_lawful (recordWriteEnds_lawful law)) e
  | recordRead => exact (execRecordRead_lawful e h).mono (by omega)
  | recordReadCompletion =>
    exact whenRunningHeld_lawful_same h small (fun law => settleCoreReset_lawful (settleRollback_lawful (recordReadEnds_lawful law))) e
  | restoreHandover => exact whenRunning_lawful_same h handOverHeld_lawful e
  | refillRequest => exact whenRunningSpaced_lawful_same h takeRefillSegment_lawful e
  | refillTimerExpiry =>
    exact whenRunningSpaced_lawful_same h (fun law => settleRollback_lawful (refillExpires_lawful law)) e
  | rollbackDone => exact whenRunningSpaced_lawful_same h completeSuccess_lawful e
  | rollbackFailed => exact whenRunningSpaced_lawful_same h completeFailure_lawful e
  | checkpointDrainComplete => exact whenRunning_lawful_same h completeDrain_lawful e
  | commitDrainComplete => exact whenRunningSpaced_lawful_same h completeDrain_lawful e
  | rollbackDrainComplete => exact whenRunningSpaced_lawful_same h completeDrain_lawful e
  | fullWaitExpiry => exact whenRunning_lawful_same h fullWaitExpires_lawful e
  | refreshTimerExpiry => exact whenRunning_lawful_same h refreshExpires_lawful e
  | ssnAsserted => exact whenRunning_lawful_same h (fun law => law.of (ssnAsserts_parts _)) e
  | ssnDeasserted => exact whenRunning_lawful_same h (fun law => law.of (ssnDeasserts_parts _)) e
  | unknown => exact frameServing_lawful h (fun law => runCommand_lawful law (by omega)) e
  | paramRead => exact frame_lawful h cmdParamRead_lawful e
  | paramWriteDefaultAction => exact frameSpaced_lawful h (cmdParamWriteOf_lawful writeDefaultAction_lawful) e
  | paramWriteNseg => exact frameSpaced_lawful h (cmdParamWriteOf_lawful writeNseg_lawful) e
  | paramWriteMemTimeout => exact frameSpaced_lawful h (cmdParamWriteOf_lawful writeMemTimeout_lawful) e
  | paramWriteFullWait => exact frameSpaced_lawful h (cmdParamWriteOf_lawful writeFullWait_lawful) e
  | paramWriteHoldTime => exact frameSpaced_lawful h (cmdParamWriteOf_lawful writeHoldTime_lawful) e
  | paramWriteHoldOnFree => exact frameSpaced_lawful h (cmdParamWriteOf_lawful writeHoldOnFree_lawful) e
  | paramWriteHoldOffFree => exact frameSpaced_lawful h (cmdParamWriteOf_lawful writeHoldOffFree_lawful) e
  | paramWriteRefillWait => exact frameSpaced_lawful h (cmdParamWriteOf_lawful writeRefillWait_lawful) e
  | paramWriteRestoreAhead => exact frameSpaced_lawful h (cmdParamWriteOf_lawful writeRestoreAhead_lawful) e
  | statusRead => exact frame_lawful h respond_lawful e
  | eventPop => exact frame_lawful h cmdEventPop_lawful e
  | enable => exact frame_lawful h cmdEnable_lawful e
  | disable => exact frame_lawful h cmdDisable_lawful e
  | coreReset => exact frameSpaced_lawful h cmdCoreReset_lawful e
  | journalStep =>
    exact whenRunningHeld_lawful_same h small (fun law => settleCoreResetEnd_lawful (settleJournalStep_lawful law)) e
  | coreResetEnd => exact whenRunningHeld_lawful_same h small settleCoreResetEnd_lawful e
  | mtagRelease => exact frame_lawful h (fun law => respond_lawful (releaseQuarantine_lawful law)) e
  | windowWrite => exact frame_lawful h cmdWindowWrite_lawful e
  | windowRead => exact frame_lawful h cmdWindowRead_lawful e
  | checkpoint => exact frame_lawful h cmdCheckpoint_lawful e
  | commit => exact frameSpaced_lawful h cmdCommit_lawful e
  | abandon => exact frame_lawful h cmdAbandon_lawful e
  | rollback => exact frameSpaced_lawful h cmdRollback_lawful e
  | markQuery => exact frame_lawful h cmdMarkQuery_lawful e
  | holdSet => exact frameSpaced_lawful h (fun law => respond_lawful (law.of (parts_setSpace _ _))) e
  | holdClear => exact frameSpaced_lawful h (fun law => respond_lawful (law.of (parts_setSpace _ _))) e
  | lend => exact frame_lawful h cmdLend_lawful e
  | lendCancel => exact frame_lawful h cmdLendCancel_lawful e
  | spillDone => exact frameServing_lawful h (fun law => cmdSpillDone_lawful law (by omega)) e
  | refillDone => exact frame_lawful h cmdRefillDone_lawful e
  | segQuery => exact frame_lawful h cmdSegQuery_lawful e
  | blockRead => exact frame_lawful h placeTransfer_lawful e
  | blockWrite => exact frame_lawful h placeTransfer_lawful e
  | blockReadCompletion =>
    exact whenRunningHeld_lawful_same h small (fun law => afterBlockTransfer_lawful (blockReadEnds_lawful law)) e
  | blockWriteCompletion =>
    exact whenRunningHeld_lawful_same h small (fun law => afterBlockTransfer_lawful (blockWriteEnds_lawful law)) e
  | pinReset => cases e; exact (pinValues_lawful s true).mono (Nat.zero_le _)
  | resetnRelease => exact (execResetnRelease_lawful e h).mono (by omega)
  | lastResponseByteSent => exact whenRunning_lawful_same h (fun law => law.of (responseSent_parts _)) e
  | requestFrameHeld => exact frameServing_lawful h (fun law => runCommand_lawful law (by omega)) e
  | unmatchedJournalCompletion => cases e; exact h.mono (by omega)

/-- A step is a tick, or the command at the front of the queue (log 2, log 31). -/
theorem step_cases {s t : State} (e : step s = .next t) :
    (s.pending = [] ∧ t = tick s) ∨ ∃ c rest, s.pending = c :: rest ∧ exec c (s.setPending rest) = .next t := by
  unfold step at e
  split at e
  · next empty => cases e; exact .inl ⟨empty, rfl⟩
  · next c rest front => exact .inr ⟨c, rest, front, e⟩

theorem step_lawful {k : Nat} {s t : State} (e : step s = .next t) (h : s.lawful k) (small : k + 17 < 2 ^ 32) :
    t.lawful (k + 17) := by
  obtain ⟨-, rfl⟩ | ⟨c, rest, -, taken⟩ := step_cases e
  · exact (h.of (tick_parts s)).mono (by omega)
  · exact exec_lawful taken (h.of rfl) small

/-- Settles O5: the memory and the port by the moves of a step, the laws of the journal by its command. -/
theorem journalMemoryAndPortKept : Obligations.JournalMemoryAndPortKept := by
  intro s t span e
  refine ⟨fun canonical => ?_, fun valid => ?_, fun small law => step_lawful e law small⟩
  · exact step_keeps (P := State.memoryCanonical) (fun _ _ => Move.keeps_memoryCanonical) e canonical
  · exact step_keeps (P := fun u => u.journal.portValid) (fun _ _ => Move.keeps_portValid) e valid

end Sys2Proof.Machine
end

section
/-! PROOF. The limits of the event queue (R165), the transaction table (R118, R121) and the tag queue (R147), the ranges of the
parameters and windows (R104, R133, R161), and the laws of the epoch stack and the mark table (R23, R24, R26, R51): every kind of
move keeps them, so every step does (`step_keeps`). -/

namespace Sys2Proof.Machine

/-! ### The event queue (R165) -/

/-- R165: the event queue holds at most 32 records. -/
def State.eventsWithin (s : State) : Prop := s.service.events.length ≤ 32

theorem State.eventsWithin.same {s t : State} (h : s.eventsWithin) (service : t.service = s.service) : t.eventsWithin := by
  rw [State.eventsWithin, service]; exact h

theorem post_eventsWithin (n : Option EpochNo) (k : EventKind) {s : State} (h : s.eventsWithin) :
    (post n k s).eventsWithin := by
  unfold post
  split
  · next room => simpa [State.eventsWithin, Config.eventQueueSize] using room
  · exact h

theorem Move.keeps_eventsWithin {s t : State} (m : Move true true s t) (h : s.eventsWithin) : t.eventsWithin := by
  cases m with
  | service v _ fewer _ => exact fewer.trans h
  | posted n k => exact post_eventsWithin n k h
  | mark l => exact h.same (insertMark_service l s)
  | handOver r => exact h.same (handOver_path r s).service
  | completed g => exact h.same (completed_path g s).service
  | released => exact h.same (releaseQuarantine_path s).service
  | pins => exact Nat.zero_le _
  | _ => exact h

/-! ### The transaction table (R118, R121) -/

/-- R121: the table holds at most 32 entries. -/
def State.tableWithin (s : State) : Prop := s.host.table.length ≤ 32

theorem Move.keeps_tableWithin {s t : State} (m : Move true true s t) (h : s.tableWithin) : t.tableWithin := by
  cases m with
  | table entries names => exact (by simpa using names.length_le : entries.length ≤ _).trans h
  | enter e room _ => simpa [State.tableWithin, Config.tableSize] using room
  | posted n k => simpa [State.tableWithin] using h
  | mark l => simpa [State.tableWithin, insertMark_host] using h
  | handOver r => exact (handOver_path r s).tableLength.trans_le h
  | completed g => exact (completed_path g s).tableLength.trans_le h
  | released => exact (releaseQuarantine_path s).tableLength.trans_le h
  | pins => exact Nat.zero_le _
  | _ => exact h

/-- R118: no two entries have one master and tag. -/
def State.namesDistinct (s : State) : Prop := (s.host.table.map (·.id)).Nodup

theorem SameButPaths.namesDistinct {s t : State} (p : SameButPaths s t) (h : s.namesDistinct) : t.namesDistinct := by
  rw [State.namesDistinct, p.ids]; exact h

theorem names_of_entry_none {s : State} {id : HostId} (h : s.entry id = none) : id ∉ s.host.table.map (·.id) := by
  simpa [State.entry] using h

theorem Move.keeps_namesDistinct {s t : State} (m : Move true true s t) (h : s.namesDistinct) : t.namesDistinct := by
  cases m with
  | table entries names => exact h.sublist names
  | enter e _ new =>
    have fresh := names_of_entry_none new
    simpa [State.namesDistinct, List.nodup_append, fresh] using ⟨h, by simpa [eq_comm] using fresh⟩
  | posted n k => simpa [State.namesDistinct] using h
  | mark l => simpa [State.namesDistinct, insertMark_host] using h
  | handOver r => exact (handOver_path r s).namesDistinct h
  | completed g => exact (completed_path g s).namesDistinct h
  | released => exact (releaseQuarantine_path s).namesDistinct h
  | pins => exact List.nodup_nil
  | _ => exact h

/-! ### The tag queue (R147) -/

theorem freeTag_eq_none_iff {s : State} : s.freeTag = none ↔ ∀ u : Fin 64, s.memIf.tags[u] ≠ .free := by
  have free : ∀ x : TagState, x.isFree = false ↔ x ≠ .free := fun x => by cases x <;> simp [TagState.isFree]
  simp [State.freeTag, free]

theorem State.tagsServed.same {s t : State} (h : s.tagsServed) (memIf : t.memIf = s.memIf) : t.tagsServed := by
  rw [State.tagsServed, State.freeTag, memIf]; exact h

/-- R147: what a served queue leaves waits for want of a FREE tag. -/
theorem serveRequests_tagsServed (rs : List MemRequest) (s : State) : (serveRequests rs s).tagsServed := by
  induction rs generalizing s with
  | nil => exact .inl rfl
  | cons r rest ih =>
    unfold serveRequests
    split
    · exact ih _
    · next full => exact .inr full

theorem handOver_tagsServed (r : MemRequest) {s : State} (h : s.tagsServed) : (handOver r s).tagsServed := by
  obtain ⟨g, ready⟩ | wait := tagReady_or_wait s
  · rw [handOver_ready ready]
    exact .inl (by rw [issue, markIssued_memIf]; exact ready.1)
  · rw [handOver_wait wait]
    exact .inr (wait.elim h.resolve_left freeTag_none)

theorem quarantine_tagsServed (g : Fin 64) {s : State} (h : s.tagsServed) : (setTag g .quarantined s).tagsServed := by
  refine h.imp id fun full => freeTag_eq_none_iff.mpr fun u => ?_
  change (s.memIf.tags.set g .quarantined)[u] ≠ .free
  rw [Fin.getElem_fin, Vector.getElem_set]
  split
  · simp
  · exact freeTag_eq_none_iff.mp full u

theorem Move.keeps_tagsServed {s t : State} (m : Move true true s t) (h : s.tagsServed) : t.tagsServed := by
  cases m with
  | handOver r => exact handOver_tagsServed r h
  | completed g => exact serveRequests_tagsServed _ _
  | released => exact serveRequests_tagsServed _ _
  | quarantined g => exact quarantine_tagsServed g h
  | posted n k => exact h.same (post_memIf n k s)
  | mark l => exact h.same (insertMark_memIf l s)
  | pins => exact .inl rfl
  | _ => exact h

/-- Settles O6: each limit is kept by every kind of move of a step. -/
theorem queueLimitsKept : Obligations.QueueLimitsKept := fun _ _ e =>
  ⟨step_keeps (P := State.eventsWithin) (fun _ _ => Move.keeps_eventsWithin) e,
    step_keeps (P := State.tableWithin) (fun _ _ => Move.keeps_tableWithin) e,
    step_keeps (P := State.namesDistinct) (fun _ _ => Move.keeps_namesDistinct) e,
    step_keeps (P := State.tagsServed) (fun _ _ => Move.keeps_tagsServed) e⟩

/-! ### Parameters and windows (R104, R133, R161) -/

theorem Params.reset_valid : Params.reset.valid := by
  simp [Params.valid, Params.reset]

theorem Window.reset_valid : Window.reset.valid' := by
  simp [Window.valid', Window.reset]

/-- R161, R104: the parameters are in their ranges. -/
def State.paramsValid (s : State) : Prop := s.service.params.valid

theorem State.paramsValid.same {s t : State} (h : s.paramsValid) (params : t.service.params = s.service.params) :
    t.paramsValid := by
  rw [State.paramsValid, params]; exact h

theorem SameButPaths.params {s t : State} (p : SameButPaths s t) : t.service.params = s.service.params :=
  congrArg (·.params) p.service

theorem Move.keeps_paramsValid {s t : State} (m : Move true true s t) (h : s.paramsValid) : t.paramsValid := by
  cases m with
  | params p valid _ _ => exact valid h
  | service v params _ _ => exact h.same params
  | posted n k => exact h.same (post_params n k s)
  | mark l => exact h.same (congrArg (·.params) (insertMark_service l s))
  | handOver r => exact h.same (handOver_path r s).params
  | completed g => exact h.same (completed_path g s).params
  | released => exact h.same (releaseQuarantine_path s).params
  | pins => exact Params.reset_valid
  | _ => exact h

/-- R133: every window has base at most limit and a master. -/
def State.windowsValid (s : State) : Prop := ∀ i : Fin 16, s.windows[i].valid'

theorem State.windowsValid.same {s t : State} (h : s.windowsValid) (windows : t.windows = s.windows) : t.windowsValid := by
  rw [State.windowsValid, windows]; exact h

theorem windows_set_valid {w : Vector Window 16} (h : ∀ i : Fin 16, w[i].valid') (i : Fin 16) {x : Window} (valid : x.valid') :
    ∀ j : Fin 16, (w.set i x)[j].valid' := fun j => by
  rw [Fin.getElem_fin, Vector.getElem_set]
  split
  · exact valid
  · exact h j

theorem reset_windowsValid : State.reset.windowsValid := fun i => by
  have : State.reset.windows[i] = Window.reset := by simp [State.reset]
  exact this ▸ Window.reset_valid

theorem Move.keeps_windowsValid {s t : State} (m : Move true true s t) (h : s.windowsValid) : t.windowsValid := by
  cases m with
  | hit i => exact windows_set_valid h i (h i)
  | window i w _ _ valid => exact windows_set_valid h i valid
  | posted n k => exact h.same (post_windows n k s)
  | mark l => exact h.same (insertMark_windows l s)
  | handOver r => exact h.same (handOver_path r s).windows
  | completed g => exact h.same (completed_path g s).windows
  | released => exact h.same (releaseQuarantine_path s).windows
  | pins => exact reset_windowsValid
  | _ => exact h

/-- Settles O7: the ranges and the windows are kept by every kind of move of a step. -/
theorem parameterAndWindowRangesKept : Obligations.ParameterAndWindowRangesKept := fun _ _ e =>
  ⟨step_keeps (P := State.paramsValid) (fun _ _ => Move.keeps_paramsValid) e,
    step_keeps (P := State.windowsValid) (fun _ _ => Move.keeps_windowsValid) e⟩

/-! ### The epoch stack (R23, R24, R26) -/

/-- R23, R24: the law of the stack and of NEXT_EPOCH. -/
def State.epochsValid (s : State) : Prop := s.epochs.valid

theorem State.epochsValid.same {s t : State} (h : s.epochsValid) (epochs : t.epochs = s.epochs) : t.epochsValid := by
  rw [State.epochsValid, epochs]; exact h

theorem EpochCtl.reset_valid : EpochCtl.reset.valid := by
  simp [EpochCtl.valid, EpochCtl.reset]

/-- R32: a pushed epoch takes a number that none on the stack holds, and the CHECKPOINT that pushes it has left room. -/
theorem push_epochsValid {s : State} (pending : s.epochs.command = some .checkpoint) (h : s.epochsValid) :
    EpochCtl.valid {
      stack := { number := s.newEpochNumber, start := s.journal.nextSeq, broken := none, records := 0 } :: s.epochs.stack
      nextEpoch := followingEpoch s.newEpochNumber
      controller := .idle
      command := none } := by
  obtain ⟨-, room, distinct, nonzero, next⟩ := h
  obtain ⟨k, -, found, unheld, -⟩ := newEpochNumber_firstUnheld next (room pending)
  have number : s.newEpochNumber ≠ 0 := fun zero => by
    have := congrArg BitVec.toNat (found.symm.trans zero)
    rw [followingEpoch_iterate_toNat k next] at this
    cases this
  refine ⟨room pending, nofun, ?_, ?_, followingEpoch_ne_zero number⟩
  · exact List.nodup_cons.mpr ⟨fun held => unheld (List.mem_map.mp held), distinct⟩
  · exact List.forall_mem_cons.mpr ⟨number, nonzero⟩

/-- A stack whose numbers are among those of before, in their order. -/
theorem shrink_epochsValid {e : EpochCtl} {st : List Epoch} (numbers : (st.map (·.number)).Sublist (e.stack.map (·.number)))
    (h : e.valid) : EpochCtl.valid { e with stack := st } := by
  obtain ⟨bound, room, distinct, nonzero, next⟩ := h
  have fewer : st.length ≤ e.stack.length := by simpa using numbers.length_le
  refine ⟨fewer.trans bound, fun pending => fewer.trans_lt (room pending), distinct.sublist numbers, fun x there => ?_, next⟩
  obtain ⟨y, held, same⟩ := List.mem_map.mp (numbers.subset (List.mem_map_of_mem there))
  exact same ▸ nonzero y held

theorem Move.keeps_epochsValid {s t : State} (m : Move true true s t) (h : s.epochsValid) : t.epochsValid := by
  cases m with
  | push n number pending => exact number ▸ push_epochsValid pending h
  | stack st numbers => exact shrink_epochsValid numbers h
  | control c cmd _ room => exact ⟨h.1, room, h.2.2⟩
  | posted n k => exact h.same (post_epochs n k s)
  | mark l => exact h.same (insertMark_epochs l s)
  | handOver r => exact h.same (handOver_path r s).epochs
  | completed g => exact h.same (completed_path g s).epochs
  | released => exact h.same (releaseQuarantine_path s).epochs
  | pins => exact EpochCtl.reset_valid
  | _ => exact h

/-- R26: a command is pending in DRAINING alone. -/
def State.pendingDrains (s : State) : Prop := s.epochs.pendingInDraining

theorem State.pendingDrains.same {s t : State} (h : s.pendingDrains) (epochs : t.epochs = s.epochs) : t.pendingDrains := by
  rw [State.pendingDrains, epochs]; exact h

theorem Move.keeps_pendingDrains {s t : State} (m : Move true true s t) (h : s.pendingDrains) : t.pendingDrains := by
  cases m with
  | push => exact fun none' => absurd rfl none'
  | control c cmd draining _ => exact draining
  | posted n k => exact h.same (post_epochs n k s)
  | mark l => exact h.same (insertMark_epochs l s)
  | handOver r => exact h.same (handOver_path r s).epochs
  | completed g => exact h.same (completed_path g s).epochs
  | released => exact h.same (releaseQuarantine_path s).epochs
  | pins => exact fun none' => absurd rfl none'
  | _ => exact h

/-! ### The mark table (R51) -/

/-- R51: the law of the mark table. -/
def State.marksKept (s : State) : Prop := marksValid s.capture.marks

theorem State.marksKept.same {s t : State} (h : s.marksKept) (marks : t.capture.marks = s.capture.marks) : t.marksKept := by
  rw [State.marksKept, marks]; exact h

theorem marksValid_nil : marksValid [] := ⟨List.nodup_nil, fun _ => Nat.zero_le _⟩

/-- R51, R53: a line joins a set of fewer than 4 lines. -/
theorem marksValid_append {marks : List Line} {l : Line} (h : marksValid marks) (new : l ∉ marks)
    (room : (marks.filter fun m => setIndex m == setIndex l).length < Config.markWays) : marksValid (marks ++ [l]) := by
  obtain ⟨distinct, ways⟩ := h
  refine ⟨?_, fun k => ?_⟩
  · simpa [List.nodup_append, distinct] using fun m there (same : m = l) => new (same ▸ there)
  · rw [List.filter_append, List.length_append]
    by_cases same : setIndex l = setIndex k
    · have : (marks.filter fun m => setIndex m == setIndex k).length < Config.markWays := same ▸ room
      simpa [same] using this
    · simpa [same] using ways k

theorem insertMark_marksKept (l : Line) {s : State} (h : s.marksKept) : (insertMark l s).marksKept := by
  unfold insertMark
  split
  · exact h
  · next new =>
    split
    · next room => exact marksValid_append h (by simpa [State.marked] using new) room
    · exact h

theorem Move.keeps_marksKept {s t : State} (m : Move true true s t) (h : s.marksKept) : t.marksKept := by
  cases m with
  | mark l => exact insertMark_marksKept l h
  | unmark => exact marksValid_nil
  | posted n k => exact h.same (congrArg (·.marks) (post_capture n k s))
  | handOver r => exact h.same (handOver_path r s).marks
  | completed g => exact h.same (completed_path g s).marks
  | released => exact h.same (releaseQuarantine_path s).marks
  | pins => exact marksValid_nil
  | _ => exact h

/-- Settles O8: the one move that pushes an epoch finds a number not held, with room on the stack. -/
theorem epochStackAndMarksKept : Obligations.EpochStackAndMarksKept := fun _ _ e =>
  ⟨step_keeps (P := State.epochsValid) (fun _ _ => Move.keeps_epochsValid) e,
    step_keeps (P := State.pendingDrains) (fun _ _ => Move.keeps_pendingDrains) e,
    step_keeps (P := State.marksKept) (fun _ _ => Move.keeps_marksKept) e⟩

end Sys2Proof.Machine
end

section
/-! PROOF. What a row of the table does, in seven kinds (`RowCase`), and from it the laws of the hold (R102, R103, R106 to R108)
and the lock of the windows (R137, R141). -/

namespace Sys2Proof.Machine

/-! ### The free list of the rows that end without R102 -/

theorem freeCount_of_journal {s t : State} (same : t.journal = s.journal) : t.freeCount = s.freeCount :=
  congrArg (fun j : JournalUnit => j.free.length) same

theorem countClassified_journal (l : Line) (m : Fin 4) (s : State) : (countClassified l m s).journal = s.journal := by
  unfold countClassified
  split
  · rfl
  · split <;> rfl

theorem createEntry_journal (e : Entry) (s : State) : (createEntry e s).journal = s.journal := by
  unfold createEntry
  simp only
  split
  · rfl
  · rw [(reachGate_path _ _).journal]; rfl

/-- R117: intake leaves the journal as it is. -/
theorem takeRequest_journal (r : Request) (s : State) : (takeRequest r s).journal = s.journal := by
  unfold takeRequest
  split
  · split
    · exact post_journal _ _ _
    · split
      · rfl
      · split
        · rfl
        · unfold classifyRequest
          simp only
          split
          · exact countClassified_journal _ _ _
          · exact (createEntry_journal _ _).trans (countClassified_journal _ _ _)
  · rfl

theorem handOverHeld_journal (s : State) : (handOverHeld s).journal = s.journal := by
  unfold handOverHeld
  split
  · rfl
  · exact (handOver_path _ _).journal

theorem completeDrain_checkpoint_freeCount (s : State) : (completeDrain .checkpoint s).freeCount = s.freeCount := by
  unfold completeDrain
  split
  · exact congrArg List.length (checkpointEffect_free s)
  · rfl

theorem advanceTo_journal (x : Tick) (s : State) : (advanceTo x s).journal = s.journal := by
  unfold advanceTo
  split <;> rfl

theorem fullWaitExpires_freeCount (id : HostId) (s : State) : (fullWaitExpires id s).freeCount = s.freeCount := by
  unfold fullWaitExpires
  split
  · rfl
  · exact (congrArg List.length (breakTop_free _ _)).trans (freeCount_of_journal (advanceTo_journal _ s))

theorem refreshExpires_freeCount (s : State) : (refreshExpires s).freeCount = s.freeCount := by
  unfold refreshExpires
  split
  · rfl
  · split
    · exact freeCount_of_journal (advanceTo_journal _ s)
    · rfl

theorem ssnAsserts_freeCount (s : State) : (ssnAsserts s).freeCount = s.freeCount := by
  unfold ssnAsserts
  split <;> rfl

theorem responseSent_freeCount (s : State) : (responseSent s).freeCount = s.freeCount := by
  unfold responseSent
  split <;> rfl

/-! ### What a row does -/

/-- What row `c` leaves of `s`, in seven kinds. The `Moves false false` of a kind change no hold, no window, no DEFAULT_ACTION. -/
inductive RowCase (c : Instr) (s : State) : State → Prop
  /-- Nothing is taken. -/
  | idle : RowCase c s s
  /-- R173: a row of RESETN. -/
  | pins (b : Bool) (row : c = .pinReset ∨ c = .resetnRelease) : RowCase c s ((pinValues s).setInReset b)
  /-- A row that leaves the free count as it is. -/
  | plain (t : State) (moves : Moves false false s t) (free : t.freeCount = s.freeCount) : RowCase c s t
  /-- R157: SSN is deasserted, which a held frame is told of. -/
  | closes : RowCase c s (ssnDeasserts s)
  /-- R102: a row that may change the free count. -/
  | spaced (u : State) (moves : Moves false false s u) : RowCase c s (settleHold s u)
  /-- R158: a frame whose command leaves the holds and the free count. -/
  | frame (code : Byte) (f : Frame) (row : frameOf c = some (code, f)) (kind : changesSpace code = false) :
      RowCase c s (frameComplete code f (runCommand code) s)
  /-- R158, R102: a frame whose command may change a hold or the free count. -/
  | frameSpaced (code : Byte) (f : Frame) (row : frameOf c = some (code, f)) :
      RowCase c s (settleHold s (frameComplete code f (runCommand code) s))
  /-- R157: a row in which the command at work may end. -/
  | held (u v : State) (moves : Moves false false s u) (reset : v = u ∨ v = settleCoreReset u ∨ v = settleCoreResetEnd u) :
      RowCase c s (takeHeldWhen true (settleHold s (takeHeldWhen false v)))

namespace RowCase
variable {c : Instr} {f : State → State} {s t : State}

theorem of_whenRunning (each : ∀ u, RowCase c u (f u)) (e : whenRunning f s = .next t) : RowCase c s t := by
  unfold whenRunning at e
  split at e
  · cases e; exact .idle
  · cases e; exact each s

theorem of_plain (moves : ∀ u, Moves false false u (f u)) (free : ∀ u, (f u).freeCount = u.freeCount)
    (e : whenRunning f s = .next t) : RowCase c s t :=
  of_whenRunning (fun u => .plain _ (moves u) (free u)) e

theorem of_spaced (moves : ∀ u, Moves false false u (f u)) (e : whenRunningSpaced f s = .next t) : RowCase c s t :=
  of_whenRunning (fun u => .spaced _ (moves u)) e

theorem of_held (moves : ∀ u, Moves false false u (f u)) (e : whenRunningHeld f s = .next t) : RowCase c s t :=
  of_whenRunning (fun u => .held _ _ (moves u) (.inl rfl)) e

theorem of_reset (moves : ∀ u, Moves false false u (f u))
    (e : whenRunningHeld (fun u => settleCoreReset (f u)) s = .next t) : RowCase c s t :=
  of_whenRunning (fun u => .held _ _ (moves u) (.inr (.inl rfl))) e

theorem of_frame {code : Byte} {fr : Frame} (row : frameOf c = some (code, fr)) (kind : changesSpace code = false)
    (e : whenRunning (frameComplete code fr (runCommand code)) s = .next t) : RowCase c s t :=
  of_whenRunning (fun _ => .frame _ _ row kind) e

theorem of_frameSpaced {code : Byte} {fr : Frame} {run : List Byte → State → State} (row : frameOf c = some (code, fr))
    (same : run = runCommand code) (e : whenRunningSpaced (frameComplete code fr run) s = .next t) : RowCase c s t := by
  subst same
  exact of_whenRunning (fun _ => .frameSpaced _ _ row) e

end RowCase

theorem execRecordRead_rowCase {s t : State} (e : execRecordRead s = .next t) : RowCase .recordRead s t := by
  unfold execRecordRead at e
  split at e
  · cases e; exact .idle
  · split at e
    · cases e; exact .idle
    · split at e
      · cases e; exact .plain _ (moves_issueRecordRead _ _ _ s) rfl
      · cases e

theorem execResetnRelease_rowCase {s t : State} (e : execResetnRelease s = .next t) : RowCase .resetnRelease s t := by
  unfold execResetnRelease at e
  split at e
  · cases e; exact .pins false (.inr rfl)
  · cases e; exact .idle

/-- Every row of the table is of one of the seven kinds. -/
theorem exec_rowCase {c : Instr} {s t : State} (e : exec c s = .next t) : RowCase c s t := by
  cases c with
  | read h => exact .of_plain (moves_takeRequest _) (fun u => freeCount_of_journal (takeRequest_journal _ u)) e
  | write h n d => exact .of_plain (moves_takeRequest _) (fun u => freeCount_of_journal (takeRequest_journal _ u)) e
  | messageSent => exact .of_spaced (fun u => (moves_sendHead u).trans (moves_settleDrain _)) e
  | done g st d => exact .of_reset (fun u => (moves_takeCompletion g st d u).trans (moves_settleRollback _)) e
  | memoryTimeoutExpiry g => exact .of_reset (fun u => (moves_takeTimeout g u).trans (moves_settleRollback _)) e
  | arbiterGrant => exact .of_held moves_arbitrate e
  | recordWriteCompletion p st => exact .of_reset (moves_recordWriteEnds p st) e
  | recordRead => exact execRecordRead_rowCase e
  | recordReadCompletion p st d =>
    exact .of_reset (fun u => (moves_recordReadEnds p st d u).trans (moves_settleRollback _)) e
  | restoreHandover =>
    exact .of_plain moves_handOverHeld (fun u => freeCount_of_journal (handOverHeld_journal u)) e
  | refillRequest => exact .of_spaced moves_takeRefillSegment e
  | refillTimerExpiry => exact .of_spaced (fun u => (moves_refillExpires u).trans (moves_settleRollback _)) e
  | rollbackDone => exact .of_spaced moves_completeSuccess e
  | rollbackFailed => exact .of_spaced moves_completeFailure e
  | checkpointDrainComplete => exact .of_plain (moves_completeDrain _) completeDrain_checkpoint_freeCount e
  | commitDrainComplete => exact .of_spaced (moves_completeDrain _) e
  | rollbackDrainComplete => exact .of_spaced (moves_completeDrain _) e
  | fullWaitExpiry id => exact .of_plain (moves_fullWaitExpires id) (fullWaitExpires_freeCount id) e
  | refreshTimerExpiry => exact .of_plain moves_refreshExpires refreshExpires_freeCount e
  | ssnAsserted => exact .of_plain moves_ssnAsserts ssnAsserts_freeCount e
  | ssnDeasserted => exact .of_whenRunning (fun _ => .closes) e
  | unknown code f => exact .of_frameSpaced rfl rfl e
  | paramRead f => exact .of_frame rfl rfl e
  | paramWriteDefaultAction f => exact .of_frameSpaced rfl (cmdParamWriteOf_eq rfl) e
  | paramWriteNseg f => exact .of_frameSpaced rfl (cmdParamWriteOf_eq rfl) e
  | paramWriteMemTimeout f => exact .of_frameSpaced rfl (cmdParamWriteOf_eq rfl) e
  | paramWriteFullWait f => exact .of_frameSpaced rfl (cmdParamWriteOf_eq rfl) e
  | paramWriteHoldTime f => exact .of_frameSpaced rfl (cmdParamWriteOf_eq rfl) e
  | paramWriteHoldOnFree f => exact .of_frameSpaced rfl (cmdParamWriteOf_eq rfl) e
  | paramWriteHoldOffFree f => exact .of_frameSpaced rfl (cmdParamWriteOf_eq rfl) e
  | paramWriteRefillWait f => exact .of_frameSpaced rfl (cmdParamWriteOf_eq rfl) e
  | paramWriteRestoreAhead f => exact .of_frameSpaced rfl (cmdParamWriteOf_eq rfl) e
  | statusRead f => exact .of_frame rfl rfl e
  | eventPop f => exact .of_frame rfl rfl e
  | enable f => exact .of_frame rfl rfl e
  | disable f => exact .of_frame rfl rfl e
  | coreReset f => exact .of_frameSpaced rfl rfl e
  | journalStep => exact .of_whenRunning (fun u => .held u _ (.refl u) (.inr (.inl rfl))) e
  | coreResetEnd => exact .of_whenRunning (fun u => .held u _ (.refl u) (.inr (.inr rfl))) e
  | mtagRelease f => exact .of_frame rfl rfl e
  | windowWrite f => exact .of_frame rfl rfl e
  | windowRead f => exact .of_frame rfl rfl e
  | checkpoint f => exact .of_frame rfl rfl e
  | commit f => exact .of_frameSpaced rfl rfl e
  | abandon f => exact .of_frame rfl rfl e
  | rollback f => exact .of_frameSpaced rfl rfl e
  | markQuery f => exact .of_frame rfl rfl e
  | holdSet f => exact .of_frameSpaced rfl rfl e
  | holdClear f => exact .of_frameSpaced rfl rfl e
  | lend f => exact .of_frame rfl rfl e
  | lendCancel f => exact .of_frame rfl rfl e
  | spillDone f => exact .of_frameSpaced rfl rfl e
  | refillDone f => exact .of_frame rfl rfl e
  | segQuery f => exact .of_frame rfl rfl e
  | blockRead f => exact .of_frame rfl rfl e
  | blockWrite f => exact .of_frame rfl rfl e
  | blockReadCompletion p st d =>
    exact .of_reset (fun u => ((moves_blockReadEnds p st d u).trans (moves_settleDrain _)).trans (moves_settleRollback _)) e
  | blockWriteCompletion p st =>
    exact .of_reset (fun u => ((moves_blockWriteEnds p st u).trans (moves_settleDrain _)).trans (moves_settleRollback _)) e
  | pinReset => cases e; exact .pins true (.inl rfl)
  | resetnRelease => exact execResetnRelease_rowCase e
  | lastResponseByteSent => exact .of_plain moves_responseSent responseSent_freeCount e
  | requestFrameHeld code f => exact .of_frameSpaced rfl rfl e
  | unmatchedJournalCompletion p st => cases e; exact .idle

/-! ### A held frame that is answered last (R163, R166) -/

/-- The service block alone is changed, and its parameters are not. -/
def ServiceOnly (s t : State) : Prop := ∃ v, t = s.setService v ∧ v.params = s.service.params

theorem ServiceOnly.refl (s : State) : ServiceOnly s s := ⟨s.service, rfl, rfl⟩

theorem ServiceOnly.trans {s t u : State} (a : ServiceOnly s t) (b : ServiceOnly t u) : ServiceOnly s u := by
  obtain ⟨v, rfl, sameV⟩ := a
  obtain ⟨w, rfl, sameW⟩ := b
  exact ⟨w, rfl, sameW.trans sameV⟩

theorem respond_serviceOnly (a : Answer) (s : State) : ServiceOnly s (respond a s) := by
  unfold respond
  split
  · exact .refl s
  · exact ⟨_, rfl, rfl⟩

theorem cmdEventPop_serviceOnly (p : List Byte) (s : State) : ServiceOnly s (cmdEventPop p s) := by
  unfold cmdEventPop
  split
  · exact respond_serviceOnly _ s
  · exact .trans ⟨_, rfl, rfl⟩ (respond_serviceOnly _ _)

theorem answersLast_cases {code : Byte} (last : answersLast code = true) : code = 0x12 ∨ code = 0x13 := by
  simpa [answersLast] using last

theorem runCommand_last_serviceOnly {code : Byte} (last : answersLast code = true) (p : List Byte) (s : State) :
    ServiceOnly s (runCommand code p s) := by
  obtain rfl | rfl := answersLast_cases last
  · exact respond_serviceOnly _ s
  · exact cmdEventPop_serviceOnly p s

/-- A held STATUS_READ or EVENT_POP changes the service interface alone. -/
theorem takeHeldWhen_last_serviceOnly (s : State) : ServiceOnly s (takeHeldWhen true s) := by
  unfold takeHeldWhen
  split
  · exact .refl s
  · next x there =>
    split
    · next last =>
      unfold takeHeld
      split
      · next y there' _ =>
        obtain rfl : x = y := Option.some.inj (there.symm.trans there')
        unfold takeFrame
        split
        · exact .trans ⟨_, rfl, rfl⟩ (respond_serviceOnly _ _)
        · exact .trans ⟨_, rfl, rfl⟩ (runCommand_last_serviceOnly last _ _)
      · exact .refl s
    · exact .refl s

/-! ### The hold told (R106) -/

theorem SameHold.holdSettled {s t : State} (same : SameHold s t) (h : s.holdSettled) : t.holdSettled := by
  rw [State.holdSettled, same.told, h, State.holdInForce, State.holdInForce, same.auto, same.manual]

theorem ServiceOnly.holdSettled {s t : State} (same : ServiceOnly s t) (h : s.holdSettled) : t.holdSettled := by
  obtain ⟨v, rfl, -⟩ := same
  exact h

/-- R106: whatever was told before, a step that ends with the hold has told it. -/
theorem announceHold_holdSettled (s : State) : (announceHold s).holdSettled := by
  unfold announceHold
  split
  · next told => exact told.symm
  · split
    · next force => simp_all [State.holdSettled, holdComes, send, tellHold, State.holdInForce]
    · next free => simp_all [State.holdSettled, holdLeaves, send, tellHold, State.holdInForce]

theorem settleHold_holdSettled (s t : State) : (settleHold s t).holdSettled := announceHold_holdSettled _

theorem reset_holdSettled : State.reset.holdSettled := rfl

theorem RowCase.holdSettled {c : Instr} {s t : State} (row : RowCase c s t) (h : s.holdSettled) : t.holdSettled := by
  cases row with
  | idle => exact h
  | pins b _ => exact reset_holdSettled
  | plain _ moves _ => exact moves.sameHold.holdSettled h
  | closes => exact h
  | spaced u _ => exact settleHold_holdSettled s u
  | frame code f _ kind => exact frameComplete_plain kind f h ▸ settleHold_holdSettled s _
  | frameSpaced => exact settleHold_holdSettled s _
  | held => exact (takeHeldWhen_last_serviceOnly _).holdSettled (settleHold_holdSettled s _)

/-! ### The automatic hold follows the free count (R103) -/

theorem reset_autoFollows : State.reset.autoFollows := by
  have count : State.reset.freeCount = 256 := by simp [State.freeCount, State.reset, JournalUnit.reset]
  rw [State.autoFollows, count]
  simp [State.autoKept, State.reset, ServiceIf.reset, Params.reset, SpaceMonitor.reset]

theorem runCommand_plain_sameCount {code : Byte} (kind : changesSpace code = false) (p : List Byte) (s : State) :
    SameCount s (runCommand code p s) := by
  obtain ⟨same, count⟩ := runCommand_plain kind p s
  exact ⟨same.toSameAuto, count⟩

/-- R170 to R172: what is due of a core reset leaves an automatic hold that settles, with the held frame it lets in. -/
theorem RowCase.held_settles {s u v : State} (moves : Moves false false s u)
    (reset : v = u ∨ v = settleCoreReset u ∨ v = settleCoreResetEnd u) : settles s (takeHeldWhen false v) := by
  have same : SameAuto s u := moves.sameHold.toSameAuto
  obtain rfl | rfl | rfl := reset
  · exact same.settles (takeHeldWhen_settles false v)
  · exact settleCoreReset_settles same
  · exact (same.trans (settleCoreResetEnd_sameCount u).toSameAuto).settles (takeHeldWhen_settles false _)

theorem RowCase.autoFollows {c : Instr} {s t : State} (row : RowCase c s t) (h : s.autoFollows) : t.autoFollows := by
  cases row with
  | idle => exact h
  | pins b _ => exact reset_autoFollows
  | plain _ moves free => exact SameCount.follows ⟨moves.sameHold.toSameAuto, free⟩ h
  | closes => exact h
  | spaced u moves => exact settleHold_follows h (.inl moves.sameHold.toSameAuto)
  | frame code f _ kind =>
    exact (frameComplete_countSettles fun u => .inl (runCommand_plain_sameCount kind f.payload u)).follows h
  | frameSpaced code f _ => exact settleHold_follows h (frameComplete_settles fun u => runCommand_settles code f.payload u)
  | held u v moves reset =>
    exact (takeHeldWhen_last_countSettles _).follows (settleHold_follows h (held_settles moves reset))

/-! ### A hold that comes or leaves is announced (R106 to R108) -/

/-- R103, R106: what the host interface has been told is as before or has just been announced, and between the thresholds the
automatic hold is as before. -/
structure Announces (s t : State) : Prop where
  told : t.host.holdTold = s.host.holdTold ∨ t.announced
  band : t.inBand → t.space.auto = s.space.auto

theorem SameHold.announces {s t : State} (same : SameHold s t) : Announces s t := ⟨.inl same.told, fun _ => same.auto⟩

theorem keepsTold.announces {s u : State} (kept : keepsTold s u) : Announces s (settleHold s u) := by
  obtain ⟨told, -, band⟩ := settleHold_announced kept
  exact ⟨told, band⟩

/-- R166: but for a held EVENT_POP, which may take the record again (log 19). -/
theorem Announces.takeHeldWhen_last {s t : State} (h : Announces s t)
    (pop : ∀ x, t.service.held = some x → x.code ≠ 0x13) : Announces s (takeHeldWhen true t) := by
  obtain ⟨shown, same⟩ := takeHeldWhen_announced pop
  obtain ⟨v, eq, -⟩ := takeHeldWhen_last_serviceOnly t
  exact ⟨h.told.imp (fun told => by rw [eq]; exact told) shown, fun band => same.auto.trans (h.band (same.inBand band))⟩

theorem settleCoreReset_none {s : State} (none' : s.service.coreReset = none) :
    settleCoreReset s = s ∧ settleCoreResetEnd s = s := by
  have journal : s.journalStepDue = false := by rw [State.journalStepDue, none']
  have ends : s.coreResetEndDue = false := by rw [State.coreResetEndDue, none']
  exact ⟨settleCoreReset_notDue journal ends, if_neg (by rw [ends]; decide)⟩

/-- R157: a row in which the command at work may end, with no core reset under way. -/
theorem RowCase.held_announces {s u : State} (same : SameHold s u)
    (codes : ∀ x, s.service.held = some x → x.code ≠ 0x13 ∧ x.code ≠ 0x16) :
    Announces s (takeHeldWhen true (settleHold s (takeHeldWhen false u))) := by
  obtain ⟨⟨told, band⟩, left⟩ := takeHeldWhen_keepsTold (s := u) false fun x there => (codes x (same.held ▸ there)).2
  have kept : keepsTold s (takeHeldWhen false u) := ⟨told.trans same.told, fun inside => (band inside).trans same.auto⟩
  refine kept.announces.takeHeldWhen_last fun x there => ?_
  rw [settleHold_service_held] at there
  obtain before | none' := left
  · exact (codes x (by rw [← same.held, ← before]; exact there)).1
  · cases none'.symm.trans there

theorem RowCase.announces {c : Instr} {s t : State} (row : RowCase c s t) (pin : c ≠ .pinReset) (release : c ≠ .resetnRelease)
    (noReset : ∀ f, frameOf c ≠ some (0x16, f)) (none' : s.service.coreReset = none)
    (codes : ∀ x, s.service.held = some x → x.code ≠ 0x13 ∧ x.code ≠ 0x16) : Announces s t := by
  have command : ∀ {code f}, frameOf c = some (code, f) → ∀ u, SameTold u (runCommand code f.payload u) := fun {code f} named u =>
    runCommand_sameTold (fun reset => noReset f (reset ▸ named)) f.payload u
  cases row with
  | idle => exact (SameHold.refl s).announces
  | pins b which => exact (which.elim pin release).elim
  | plain _ moves _ => exact moves.sameHold.announces
  | closes => exact ⟨.inl rfl, fun _ => rfl⟩
  | spaced u moves => exact (moves.sameHold.sameTold.keepsTold).announces
  | frame code f named _ =>
    obtain ⟨told, band⟩ := frameComplete_keepsTold (code := code) (f := f) (s := s) (command named)
    exact ⟨.inl told, band⟩
  | frameSpaced code f named => exact (frameComplete_keepsTold (command named)).announces
  | held u v moves reset =>
    have same := moves.sameHold
    obtain ⟨whole, ends⟩ := settleCoreReset_none (same.coreReset.trans none')
    rw [whole, ends, or_self, or_self] at reset
    subst reset
    exact held_announces same codes

theorem tick_sameCount (s : State) : SameHold s (tick s) ∧ (tick s).freeCount = s.freeCount := by
  unfold tick
  split
  · exact ⟨.refl s, rfl⟩
  · exact ⟨⟨⟨rfl, rfl, rfl⟩, rfl, rfl, rfl, rfl⟩, rfl⟩

/-- Settles O9: every kind of row tells its hold and follows the free count at its end, and a row that is no reset announces the
change. -/
theorem holdToldKept : Obligations.HoldToldKept := by
  refine ⟨fun s t e => ?kept, fun c s t e pin release noReset none' codes => ?announced⟩
  case kept =>
    obtain ⟨-, rfl⟩ | ⟨c, rest, -, taken⟩ := step_cases e
    · obtain ⟨same, count⟩ := tick_sameCount s
      exact ⟨same.holdSettled, SameCount.follows ⟨same.toSameAuto, count⟩⟩
    · have row := exec_rowCase taken
      exact ⟨row.holdSettled, row.autoFollows⟩
  case announced =>
    obtain ⟨told, band⟩ := (exec_rowCase e).announces pin release noReset none' codes
    exact ⟨told.resolve_left, fun low high => band ⟨low, high⟩⟩

end Sys2Proof.Machine
end

section
/-! PROOF. The lock of the windows and of DEFAULT_ACTION while an epoch is open (R137, R141): the commands that write them check the
depth, and leave it as it is. -/

namespace Sys2Proof.Machine

/-! ### What the lock protects -/

/-- R137: DEFAULT_ACTION and every window, but for its hits, are as before. -/
structure SameConfig (s t : State) : Prop where
  action : t.service.params.defaultAction = s.service.params.defaultAction
  windows : ∀ i : Fin 16, t.windows[i].valid = s.windows[i].valid ∧ t.windows[i].base = s.windows[i].base ∧
    t.windows[i].limit = s.windows[i].limit ∧ t.windows[i].masters = s.windows[i].masters ∧
    t.windows[i].action = s.windows[i].action

theorem SameConfig.refl (s : State) : SameConfig s s := ⟨rfl, fun _ => ⟨rfl, rfl, rfl, rfl, rfl⟩⟩

theorem SameConfig.trans {s t u : State} (a : SameConfig s t) (b : SameConfig t u) : SameConfig s u where
  action := b.action.trans a.action
  windows i := by
    obtain ⟨va, ba, la, ma, aa⟩ := a.windows i
    obtain ⟨vb, bb, lb, mb, ab⟩ := b.windows i
    exact ⟨vb.trans va, bb.trans ba, lb.trans la, mb.trans ma, ab.trans aa⟩

theorem sameConfig_of {s t : State} (action : t.service.params.defaultAction = s.service.params.defaultAction)
    (windows : t.windows = s.windows) : SameConfig s t :=
  ⟨action, fun i => by rw [windows]; exact ⟨rfl, rfl, rfl, rfl, rfl⟩⟩

theorem SameButPaths.sameConfig {s t : State} (p : SameButPaths s t) : SameConfig s t :=
  sameConfig_of (congrArg (·.defaultAction) p.params) p.windows

theorem countHit_sameConfig (i : Fin 16) (s : State) : SameConfig s (countHit i s) := by
  refine ⟨rfl, fun j => ?_⟩
  simp only [countHit, State.setWindows_windows, Fin.getElem_fin, Vector.getElem_set]
  split
  · next same => simp [same]
  · exact ⟨rfl, rfl, rfl, rfl, rfl⟩

/-- An operation made of moves that write no window and no DEFAULT_ACTION. -/
theorem Moves.sameConfig {hold : Bool} {s t : State} (m : Moves hold false s t) : SameConfig s t := by
  induction m with
  | refl => exact .refl s
  | tail _ last ih =>
    refine ih.trans ?_
    cases last with
    | hit i => exact countHit_sameConfig i _
    | window i w ok => cases ok
    | params p _ lock => exact sameConfig_of (lock.resolve_right (by simp)) rfl
    | service v params => exact sameConfig_of (congrArg (·.defaultAction) params) rfl
    | posted n k => exact sameConfig_of (congrArg (·.defaultAction) (post_params n k _)) (post_windows n k _)
    | mark l => exact sameConfig_of (congrArg (·.params.defaultAction) (insertMark_service l _)) (insertMark_windows l _)
    | handOver r => exact (handOver_path r _).sameConfig
    | completed g => exact (completed_path g _).sameConfig
    | released => exact (releaseQuarantine_path _).sameConfig
    | pins b _ ok => cases ok
    | _ => exact sameConfig_of rfl rfl

/-! ### The commands -/

/-- R137: a part of a step changes nothing of what the lock protects, or ends at depth 0. -/
def locks (s t : State) : Prop := SameConfig s t ∨ t.depth = 0

theorem SameConfig.locks {s t u : State} (a : SameConfig s t) (b : locks t u) : Machine.locks s u := b.imp_left a.trans

/-- What keeps the lock at the end of a step: nothing that it protects changes, and the depth does not. -/
theorem locks.keeps {s t u : State} (a : locks s t) (same : SameConfig t u) (epochs : u.epochs = t.epochs) : locks s u :=
  a.imp (·.trans same) fun zero => by rw [State.depth, epochs]; exact zero

theorem respond_locks (a : Answer) {s t : State} (h : locks s t) : locks s (respond a t) :=
  h.keeps (moves_respond (hold := true) a t).sameConfig (by unfold respond; split <;> rfl)

theorem writeDefaultAction_locks (v : Nat) (s : State) : locks s (writeDefaultAction v s) := by
  unfold writeDefaultAction
  split
  · exact respond_locks _ (.inl (.refl s))
  · next unlocked =>
    have zero : s.depth = 0 := not_not.mp unlocked
    split
    · exact respond_locks _ (.inl (.refl s))
    · exact respond_locks _ (.inr zero)

theorem writeParam_locks (p : Param) (v : Nat) (s : State) : locks s (writeParam p v s) := by
  cases p with
  | defaultAction => exact writeDefaultAction_locks v s
  | nseg => exact .inl (moves_writeNseg v s).sameConfig
  | memTimeout => exact .inl (moves_writeMemTimeout (hold := true) v s).sameConfig
  | fullWait => exact .inl (moves_writeFullWait (hold := true) v s).sameConfig
  | holdTime => exact .inl (moves_writeHoldTime (hold := true) v s).sameConfig
  | holdOnFree => exact .inl (moves_writeHoldOnFree v s).sameConfig
  | holdOffFree => exact .inl (moves_writeHoldOffFree v s).sameConfig
  | refillWait => exact .inl (moves_writeRefillWait (hold := true) v s).sameConfig
  | restoreAhead => exact .inl (moves_writeRestoreAhead (hold := true) v s).sameConfig

theorem cmdParamWrite_locks (p : List Byte) (s : State) : locks s (cmdParamWrite p s) := by
  unfold cmdParamWrite
  split
  · exact respond_locks _ (.inl (.refl s))
  · exact writeParam_locks _ _ s

theorem cmdWindowWrite_locks (p : List Byte) (s : State) : locks s (cmdWindowWrite p s) := by
  unfold cmdWindowWrite
  split
  · exact respond_locks _ (.inl (.refl s))
  · next unlocked =>
    have zero : s.depth = 0 := not_not.mp unlocked
    split
    · exact respond_locks _ (.inl (.refl s))
    · split
      · exact respond_locks _ (.inl (.refl s))
      · exact respond_locks _ (.inr zero)

/-- PARAM_WRITE and WINDOW_WRITE alone write what the lock protects. -/
theorem runCommand_locks (code : Byte) (p : List Byte) (s : State) : locks s (runCommand code p s) := by
  suffices all : ∀ g, runCommand code = g → locks s (g p s) from all _ rfl
  intro g hg
  unfold runCommand at hg
  split at hg <;> subst hg
  · exact .inl (moves_cmdParamRead (hold := true) p s).sameConfig
  · exact cmdParamWrite_locks p s
  · exact .inl (moves_cmdStatusRead (hold := true) p s).sameConfig
  · exact .inl (moves_cmdEventPop (hold := true) p s).sameConfig
  · exact .inl (moves_cmdEnable (hold := true) p s).sameConfig
  · exact .inl (moves_cmdDisable (hold := true) p s).sameConfig
  · exact .inl (moves_cmdCoreReset p s).sameConfig
  · exact .inl (moves_cmdMtagRelease (hold := true) p s).sameConfig
  · exact cmdWindowWrite_locks p s
  · exact .inl (moves_cmdWindowRead (hold := true) p s).sameConfig
  · exact .inl (moves_cmdCheckpoint (hold := true) p s).sameConfig
  · exact .inl (moves_cmdCommit (hold := true) p s).sameConfig
  · exact .inl (moves_cmdAbandon (hold := true) p s).sameConfig
  · exact .inl (moves_cmdRollback (hold := true) p s).sameConfig
  · exact .inl (moves_cmdMarkQuery (hold := true) p s).sameConfig
  · exact .inl (moves_cmdHoldSet p s).sameConfig
  · exact .inl (moves_cmdHoldClear p s).sameConfig
  · exact .inl (moves_cmdLend (hold := true) p s).sameConfig
  · exact .inl (moves_cmdLendCancel (hold := true) p s).sameConfig
  · exact .inl (moves_cmdSpillDone (hold := true) p s).sameConfig
  · exact .inl (moves_cmdRefillDone (hold := true) p s).sameConfig
  · exact .inl (moves_cmdSegQuery (hold := true) p s).sameConfig
  · exact .inl (moves_placeTransfer (hold := true) _ s).sameConfig
  · exact .inl (moves_placeTransfer (hold := true) _ s).sameConfig
  · exact respond_locks _ (.inl (.refl s))

/-! ### The rows -/

theorem setService_sameConfig {s : State} {v : ServiceIf} (params : v.params = s.service.params) :
    SameConfig s (s.setService v) := sameConfig_of (congrArg (·.defaultAction) params) rfl

theorem takeFrame_locks (code : Byte) (f : Frame) (b : Bool) (s : State) : locks s (takeFrame code f b (runCommand code) s) := by
  unfold takeFrame
  refine SameConfig.locks (setService_sameConfig (v := { s.service with work := some ⟨f.exchange, b⟩ }) rfl) ?_
  split
  · exact respond_locks _ (.inl (.refl _))
  · exact runCommand_locks code f.payload _

theorem frameComplete_locks (code : Byte) (f : Frame) (s : State) : locks s (frameComplete code f (runCommand code) s) := by
  unfold frameComplete
  split
  · refine SameConfig.locks (setService_sameConfig (v := { s.service with exchange := .working }) rfl) ?_
    simp only
    split
    · exact .inl (setService_sameConfig rfl)
    · exact takeFrame_locks code f true _
  · exact .inl (.refl s)

theorem takeHeldWhen_locks (last : Bool) (s : State) : locks s (takeHeldWhen last s) := by
  unfold takeHeldWhen
  split
  · exact .inl (.refl s)
  · split
    · unfold takeHeld
      split
      · exact SameConfig.locks (setService_sameConfig (v := { s.service with held := none }) rfl) (takeFrame_locks _ _ _ _)
      · exact .inl (.refl s)
    · exact .inl (.refl s)

theorem ServiceOnly.sameConfig {s t : State} (h : ServiceOnly s t) : SameConfig s t ∧ t.epochs = s.epochs := by
  obtain ⟨v, rfl, params⟩ := h
  exact ⟨setService_sameConfig params, rfl⟩

theorem announceHold_epochs (s : State) : (announceHold s).epochs = s.epochs := by
  unfold announceHold
  split
  · rfl
  · split <;> exact post_epochs _ _ _

/-- R102, R106: the end of a step leaves what the lock protects, and the epochs. -/
theorem settleHold_locked (s t : State) : SameConfig t (settleHold s t) ∧ (settleHold s t).epochs = t.epochs := by
  have announce : ∀ u, SameConfig u (announceHold u) := fun u => (moves_announceHold u).sameConfig
  unfold settleHold
  split
  · exact ⟨announce t, announceHold_epochs t⟩
  · exact ⟨(moves_evaluateAuto t).sameConfig.trans (announce _), (announceHold_epochs _).trans (evaluateAuto_frame t).2.2.2.1⟩

theorem RowCase.locks {c : Instr} {s t : State} (row : RowCase c s t) : Machine.locks s t := by
  have ends : ∀ {u}, Machine.locks s u → Machine.locks s (settleHold s u) := fun {u} h =>
    h.keeps (settleHold_locked s u).1 (settleHold_locked s u).2
  cases row with
  | idle => exact .inl (.refl s)
  | pins => exact .inr rfl
  | plain _ moves _ => exact .inl moves.sameConfig
  | closes => exact .inl (sameConfig_of rfl rfl)
  | spaced u moves => exact ends (.inl moves.sameConfig)
  | frame code f _ _ => exact frameComplete_locks code f s
  | frameSpaced code f _ => exact ends (frameComplete_locks code f s)
  | held u v moves reset =>
    have before : SameConfig s v := by
      obtain rfl | rfl | rfl := reset
      · exact moves.sameConfig
      · exact moves.sameConfig.trans (moves_settleCoreReset u).sameConfig
      · exact moves.sameConfig.trans (moves_settleCoreResetEnd u).sameConfig
    obtain ⟨same, epochs⟩ := (takeHeldWhen_last_serviceOnly (settleHold s (takeHeldWhen false v))).sameConfig
    exact (ends (before.locks (takeHeldWhen_locks false v))).keeps same epochs

/-- Settles O10: at depth 0 the lock is open, and no command that writes a window or DEFAULT_ACTION there opens an epoch. -/
theorem windowsLockedInEpochs : Obligations.WindowsLockedInEpochs := by
  intro c s t e _ deep
  obtain ⟨action, windows⟩ := (exec_rowCase e).locks.resolve_right deep
  exact ⟨action, windows⟩

end Sys2Proof.Machine
end

section
/-! PROOF. The first command of the queue and the tick (log 2, log 31), pin reset (R173), the reset tables, an event posted (R164,
R165), a line marked (R53), a duplicate discarded (R118), and the exchange (R156, R157). -/

namespace Sys2Proof.Machine

/-! ### The step -/

theorem step_cons {s : State} {c : Instr} {rest : List Instr} (h : s.pending = c :: rest) : step s = exec c (s.setPending rest) := by
  rw [step, h]

theorem step_nil {s : State} (h : s.pending = []) : step s = .next (tick s) := by
  rw [step, h]

/-- Settles O1: the step matches on the queue. -/
theorem stepTakesFrontCommand : Obligations.StepTakesFrontCommand := fun _ _ _ => step_cons

/-- Settles O2: the step matches on the queue, and a tick is what an empty one leaves. -/
theorem emptyQueueTicks : Obligations.EmptyQueueTicks := fun _ => step_nil

/-! ### RESETN (R173) -/

/-- While RESETN is asserted, every row but the two of pin reset leaves the state: each checks the line first, but for the one that
changes nothing at all. -/
theorem exec_inReset {c : Instr} {s : State} (asserted : s.inReset = true) (pin : c ≠ .pinReset) (release : c ≠ .resetnRelease) :
    exec c s = .next s := by
  cases c with
  | pinReset => exact absurd rfl pin
  | resetnRelease => exact absurd rfl release
  | unmatchedJournalCompletion port status => rfl
  | _ => exact if_pos asserted

/-- Settles O4: `pinValues` is the reset state with the memory, the queue and the free values kept. -/
theorem pinResetValues : Obligations.PinResetValues := fun _ =>
  ⟨rfl, fun asserted => if_pos asserted, fun _ asserted pin release => exec_inReset asserted pin release⟩

/-! ### The reset tables -/

theorem reset_windows (i : Fin 16) : State.reset.windows[i] = Window.reset := by simp [State.reset]

theorem reset_tags (t : Fin 64) : State.reset.memIf.tags[t] = .free := by simp [State.reset, MemoryIf.reset]

theorem reset_free : State.reset.journal.free.map BitVec.toNat = List.range 256 := by
  have small : ∀ n ∈ List.range 256, (BitVec.toNat ∘ BitVec.ofNat 8) n = id n := fun n h => by
    rw [Function.comp, BitVec.toNat_ofNat, Nat.mod_eq_of_lt (List.mem_range.mp h), id]
  rw [show State.reset.journal.free = (List.range 256).map (BitVec.ofNat 8) from rfl, List.map_map,
    List.map_congr_left small, List.map_id]

/-- Settles O3: the tables are read off the reset state; the premises of the laws are the reset cases of the proofs that keep
them. -/
theorem resetState : Obligations.ResetState := by
  refine ⟨⟨rfl, rfl, rfl⟩, reset_windows, rfl, ⟨reset_slots, rfl, rfl, rfl⟩, ?journal, rfl, rfl, ⟨reset_tags, rfl⟩,
    ⟨rfl, rfl, rfl, rfl, rfl, rfl, rfl, rfl⟩, rfl, rfl, ?laws⟩
  case journal => exact ⟨rfl, rfl, rfl, reset_free, rfl, rfl, rfl, rfl, rfl⟩
  case laws =>
    exact ⟨rfl, ⟨Nat.zero_le _, List.nodup_nil⟩, Params.reset_valid, reset_windowsValid, marksValid_nil, EpochCtl.reset_valid,
      fun pending => absurd rfl pending, .inl rfl, reset_holdSettled, reset_autoFollows, reset_lawful⟩

/-! ### Events (R164, R165) -/

theorem allOnes_iff (v : BitVec 32) : v = BitVec.allOnes 32 ↔ v.toNat = 2 ^ 32 - 1 := by
  rw [← BitVec.toNat_inj, BitVec.toNat_allOnes]

/-- A counter that stays at 2^32 − 1, in the words of the statements. -/
theorem saturate_eq (v : BitVec 32) : saturate v = if v.toNat = 2 ^ 32 - 1 then v else v + 1 := by
  simp only [saturate, allOnes_iff]

theorem post_room {n : Option EpochNo} {k : EventKind} {s : State} (room : s.service.events.length < 32) : post n k s =
    s.setService { s.service with events := s.service.events ++ [{ kind := k, time := s.timebase, epoch := n }] } :=
  if_pos room

theorem post_full {n : Option EpochNo} {k : EventKind} {s : State} (full : 32 ≤ s.service.events.length) : post n k s =
    s.setService { s.service with dropped := saturate s.service.dropped } :=
  if_neg full.not_gt

/-- Settles O11: the two branches of `post`, the second by whether the count stands at its end. -/
theorem eventPosted : Obligations.EventPosted := by
  refine fun n k s => ⟨post_room, fun full below => ?_, fun full top => ?_⟩
  · rw [post_full full, saturate_eq, if_neg below.ne]
  · rw [post_full full, saturate_eq, if_pos top]
    rfl

/-! ### Marks (R51, R53) -/

theorem marked_iff {l : Line} {s : State} : s.marked l = true ↔ l ∈ s.capture.marks := List.contains_iff_mem

theorem insertMark_held {l : Line} {s : State} (held : l ∈ s.capture.marks) : insertMark l s = s := if_pos (marked_iff.mpr held)

theorem insertMark_new {l : Line} {s : State} (new : l ∉ s.capture.marks) : insertMark l s =
    if (s.capture.marks.filter fun m => setIndex m == setIndex l).length < 4 then
      s.setCapture { s.capture with marks := s.capture.marks ++ [l] }
    else s.setCapture { s.capture with markSpills := saturate s.capture.markSpills } :=
  if_neg (mt marked_iff.mp new)

theorem setIndex_bit (l : Line) (k : Fin 10) :
    (setIndex l)[k] = ((l[k.val]'(by omega)) ^^ (l[k.val + 10]'(by omega)) ^^ (l[k.val + 20]'(by omega))) := by
  have inside : k.val < 10 := k.isLt
  simp only [setIndex, Fin.getElem_fin, BitVec.getElem_xor, BitVec.getElem_extractLsb', Nat.zero_add, Nat.add_comm 10,
    Nat.add_comm 20, BitVec.getLsbD_eq_getElem (show k.val < 30 by omega), BitVec.getLsbD_eq_getElem (show k.val + 10 < 30 by omega),
    BitVec.getLsbD_eq_getElem (show k.val + 20 < 30 by omega)]

/-- Settles O13: the branches of `insertMark`, and each bit of the set index. -/
theorem markInserted : Obligations.MarkInserted := by
  refine fun l s => ⟨insertMark_held, fun new room => ?_, fun new full => ?_, setIndex_bit l⟩
  · rw [insertMark_new new, if_pos room]
  · rw [insertMark_new new, if_neg full.not_gt, saturate_eq]

/-! ### Duplicates (R118) -/

theorem entry_isSome_of_mem {id : HostId} {s : State} (held : ∃ e ∈ s.host.table, e.id = id) : (s.entry id).isSome = true := by
  obtain ⟨e, mem, rfl⟩ := held
  rw [State.entry, List.find?_isSome]
  exact ⟨e, mem, beq_self_eq_true _⟩

/-- R117: the duplicate check is the first one. -/
theorem takeRequest_duplicate {r : Request} {s : State} (accept : s.acceptLine = true) (held : (s.entry r.id).isSome = true) :
    takeRequest r s = post none (.hostProtocol r.id) s := by
  simp [takeRequest, accept, held, discardDuplicate]

/-- A request taken while the accept line is asserted is decided by the checks of intake. -/
theorem exec_request {c : Instr} {r : Request} {s : State} (request : requestOf c = some r) (accept : s.acceptLine = true) :
    exec c s = .next (takeRequest r s) := by
  rw [exec_of_requestOf request, whenRunning_running (State.acceptLine_running accept)]

/-- Settles O16: the first check of intake decides; the bytes are those of the event's kind. -/
theorem duplicateTagDiscarded : Obligations.DuplicateTagDiscarded := by
  intro c r s request accept held
  refine ⟨?_, rfl, rfl⟩
  rw [exec_request request accept, takeRequest_duplicate accept (entry_isSome_of_mem held)]

/-! ### The rows without a frame, each the function it applies -/

section Rows
variable (s : State)

theorem exec_messageSent : exec .messageSent s = whenRunningSpaced (fun s => settleDrain (sendHead s)) s := rfl

theorem exec_done (t : Fin 64) (status : Status) (data : List Word) : exec (.done t status data) s =
    whenRunningHeld (fun s => afterOutcome (takeCompletion t status data s)) s := rfl

theorem exec_memoryTimeoutExpiry (t : Fin 64) : exec (.memoryTimeoutExpiry t) s =
    whenRunningHeld (fun s => afterOutcome (takeTimeout t s)) s := rfl

theorem exec_arbiterGrant : exec .arbiterGrant s = whenRunningHeld arbitrate s := rfl

theorem exec_recordWriteCompletion (port : Fin 8) (status : Status) : exec (.recordWriteCompletion port status) s =
    whenRunningHeld (fun s => settleCoreReset (recordWriteEnds port status s)) s := rfl

theorem exec_recordRead : exec .recordRead s = execRecordRead s := rfl

theorem exec_recordReadCompletion (port : Fin 8) (status : Status) (data : PortData) :
    exec (.recordReadCompletion port status data) s =
      whenRunningHeld (fun s => settleCoreReset (settleRollback (recordReadEnds port status data s))) s := rfl

theorem exec_restoreHandover : exec .restoreHandover s = whenRunning handOverHeld s := rfl

theorem exec_refillRequest : exec .refillRequest s = whenRunningSpaced takeRefillSegment s := rfl

theorem exec_refillTimerExpiry : exec .refillTimerExpiry s = whenRunningSpaced (fun s => settleRollback (refillExpires s)) s := rfl

theorem exec_rollbackDone : exec .rollbackDone s = whenRunningSpaced completeSuccess s := rfl

theorem exec_rollbackFailed : exec .rollbackFailed s = whenRunningSpaced completeFailure s := rfl

theorem exec_commitDrainComplete : exec .commitDrainComplete s = whenRunningSpaced (completeDrain .commit) s := rfl

theorem exec_rollbackDrainComplete : exec .rollbackDrainComplete s = whenRunningSpaced (completeDrain .rollback) s := rfl

theorem exec_fullWaitExpiry (id : HostId) : exec (.fullWaitExpiry id) s = whenRunning (fullWaitExpires id) s := rfl

theorem exec_refreshTimerExpiry : exec .refreshTimerExpiry s = whenRunning refreshExpires s := rfl

theorem exec_journalStep : exec .journalStep s =
    whenRunningHeld (fun s => settleCoreResetEnd (settleJournalStep s)) s := rfl

theorem exec_coreResetEnd : exec .coreResetEnd s = whenRunningHeld settleCoreResetEnd s := rfl

theorem exec_blockReadCompletion (port : Fin 8) (status : Status) (data : PortData) :
    exec (.blockReadCompletion port status data) s =
      whenRunningHeld (fun s => afterBlockTransfer (blockReadEnds port status data s)) s := rfl

theorem exec_blockWriteCompletion (port : Fin 8) (status : Status) : exec (.blockWriteCompletion port status) s =
    whenRunningHeld (fun s => afterBlockTransfer (blockWriteEnds port status s)) s := rfl

end Rows

/-! ### Rows whose event is not due (log 6) -/

/-- A row that leaves a settled state as it is, hold included. -/
theorem whenRunningSpaced_idle {f : State → State} {s : State} (running : s.inReset = false) (settled : s.holdSettled)
    (idle : f s = s) : whenRunningSpaced f s = .next s := by
  rw [whenRunningSpaced, whenRunning_running running, idle, settleHold_of_same settled rfl rfl rfl]

/-- A row that leaves a quiet state as it is: no held frame can be taken either. -/
theorem whenRunningHeld_idle {f : State → State} {s : State} (q : s.quiet) (idle : f s = s) : whenRunningHeld f s = .next s := by
  obtain ⟨running, settled, -, -, -, -, -, -, held⟩ := q
  rw [whenRunningHeld, whenRunning_running running, idle, takeHeldWhen_notDue false held, settleHold_of_same settled rfl rfl rfl,
    takeHeldWhen_notDue true held]

/-- Nothing that the chip does by itself moves a quiet state. -/
theorem afterOutcome_quiet {s : State} (q : s.quiet) : afterOutcome s = s := by
  obtain ⟨rollback, reset⟩ := settled_of_quiet q rfl rfl rfl id rfl
  rw [afterOutcome, rollback, reset]

theorem completeDrain_notDue {s : State} (h : s.drainComplete = false) (c : PendingCommand) : completeDrain c s = s :=
  if_neg fun due => Bool.eq_false_iff.mp h due.2

theorem completeSuccess_notDue {s : State} (h : s.rollbackSucceeds = false) : completeSuccess s = s :=
  if_neg (Bool.eq_false_iff.mp h)

theorem completeFailure_notDue {s : State} (h : s.failureCompletes = false) : completeFailure s = s :=
  if_neg (Bool.eq_false_iff.mp h)

theorem settleJournalStep_notDue {s : State} (h : s.journalStepDue = false) : settleJournalStep s = s :=
  if_neg (Bool.eq_false_iff.mp h)

theorem settleCoreResetEnd_notDue {s : State} (h : s.coreResetEndDue = false) : settleCoreResetEnd s = s :=
  if_neg (Bool.eq_false_iff.mp h)

theorem sendHead_empty {s : State} (h : s.host.sendQueue = []) : sendHead s = s := by rw [sendHead, h]

theorem takeTimeout_idle {t : Fin 64} {s : State} (h : s.memIf.tags[t] = .free ∨ s.memIf.tags[t] = .quarantined) :
    takeTimeout t s = s := by
  rcases h with h | h <;> rw [takeTimeout, h]

theorem arbitrate_idle {s : State} (engine : s.journal.engineQueue = []) (service : s.journal.serviceSide = none) :
    arbitrate s = s := by
  rw [arbitrate]
  split
  · rfl
  · split <;> simp [engine, grantService, service]

theorem walking_of_context_none {s : State} (h : s.replay.context = none) (c : Controller) : s.walking c = none := by
  rw [State.walking, h, Option.filter_none, ite_self]

theorem walking_of_controller_ne {c : Controller} {s : State} (h : s.epochs.controller ≠ c) : s.walking c = none :=
  if_neg fun both => h both.1

theorem nextRead_of_context_none {s : State} (h : s.replay.context = none) : s.nextRead = none := by
  rw [State.nextRead, walking_of_context_none h]

theorem nextRestore_of_context_none {s : State} (h : s.replay.context = none) : s.nextRestore = none := by
  simp only [State.nextRestore, walking_of_context_none h, ite_self]

theorem execRecordRead_none {s : State} (h : s.nextRead = none) : execRecordRead s = .next s := by
  rw [execRecordRead, h, ite_self]

theorem handOverHeld_none {s : State} (h : s.nextRestore = none) : handOverHeld s = s := by rw [handOverHeld, h]

theorem refillExpires_notWaiting {s : State} (h : s.epochs.controller ≠ .refillWait) : refillExpires s = s := by
  rw [refillExpires, walking_of_controller_ne h]

theorem fullWaitExpires_notRunning {id : HostId} {s : State} (h : ∀ w ∈ s.space.fullWaits, w.1 ≠ id) : fullWaitExpires id s = s := by
  have none' : s.fullWaitOf id = none := by
    rw [State.fullWaitOf, Option.map_eq_none_iff, List.find?_eq_none]
    exact fun w mem => by simpa using h w mem
  rw [fullWaitExpires, none']

theorem refreshExpires_notRunning {s : State} (h : s.space.refreshTimer = none) : refreshExpires s = s := by
  rw [refreshExpires, h]

/-- Settles O33: in a quiet state the function of each row leaves the state as it is, and so does the end of the row. -/
theorem rowsWithoutTheirEvent : Obligations.RowsWithoutTheirEvent := by
  refine fun s => ⟨fun _ _ => rfl, fun q => ?_⟩
  obtain ⟨running, settled, refill, failure, success, journal, ends, drain, -⟩ := id q
  have rollback := (settled_of_quiet q rfl rfl rfl id rfl).1
  rw [exec_messageSent, exec_arbiterGrant, exec_restoreHandover, exec_refillRequest, exec_rollbackDone, exec_rollbackFailed,
    exec_checkpointDrainComplete, exec_commitDrainComplete, exec_rollbackDrainComplete, exec_journalStep, exec_coreResetEnd,
    exec_refillTimerExpiry, exec_refreshTimerExpiry]
  simp only [exec_memoryTimeoutExpiry, exec_fullWaitExpiry]
  have spaced {f : State → State} (h : f s = s) : whenRunningSpaced f s = .next s := whenRunningSpaced_idle running settled h
  have plain {f : State → State} (h : f s = s) : whenRunning f s = .next s := by rw [whenRunning_running running, h]
  have held {f : State → State} (h : f s = s) : whenRunningHeld f s = .next s := whenRunningHeld_idle q h
  exact ⟨fun none' => spaced (by rw [sendHead_empty none', settleDrain_notDue drain]),
    fun _ none' => held (by rw [takeTimeout_idle none', afterOutcome_quiet q]),
    fun engine service => held (arbitrate_idle engine service),
    fun none' => ⟨execRecordRead_none (nextRead_of_context_none none'), plain (handOverHeld_none (nextRestore_of_context_none none'))⟩,
    spaced (takeRefillSegment_notDue refill), spaced (completeSuccess_notDue success), spaced (completeFailure_notDue failure),
    plain (completeDrain_notDue drain _), spaced (completeDrain_notDue drain _), spaced (completeDrain_notDue drain _),
    held (by rw [settleJournalStep_notDue journal, settleCoreResetEnd_notDue ends]), held (settleCoreResetEnd_notDue ends),
    fun none' => spaced (by rw [refillExpires_notWaiting none', rollback]),
    fun _ none' => plain (fullWaitExpires_notRunning none'), fun none' => plain (refreshExpires_notRunning none')⟩

/-! ### The exchange (R156, R157) -/

theorem responseSent_other {s : State} (h : ∀ bytes, s.service.exchange ≠ .answering bytes) : responseSent s = s := by
  rw [responseSent]
  split
  · next bytes sending => exact absurd sending (h bytes)
  · rfl

/-- Settles O57: each row of the exchange by the state it meets. -/
theorem exchangeOpensAndCloses : Obligations.ExchangeOpensAndCloses := by
  intro s running
  have plain {f : State → State} {t : State} (h : f s = t) : whenRunning f s = .next t := by rw [whenRunning_running running, h]
  exact ⟨fun closed => plain (if_pos closed), fun other => plain (if_neg other), plain rfl,
    fun bytes sending => plain (by rw [responseSent, sending]), fun other => plain (responseSent_other other)⟩

/-! ### Block transfers placed (R88) -/

theorem frameCheck_length {code : Byte} {f : Frame} {n : Nat} (passes : frameCheck code f = none)
    (required : requestLength code = some n) : f.payload.length = n := by
  simp only [frameCheck, required] at passes
  split at passes
  · by_contra other
    rw [if_neg other] at passes
    cases passes
  · cases passes

theorem exec_blockRead {f : Frame} {s : State} (taken : s.takes 0x55 f) : exec (.blockRead f) s =
    .next (cmdBlockRead f.payload (s.withExchange .working (some { exchange := f.exchange, attached := true }))) :=
  whenRunning_takes taken cmdBlockRead

theorem exec_blockWrite {f : Frame} {s : State} (taken : s.takes 0x56 f) : exec (.blockWrite f) s =
    .next (cmdBlockWrite f.payload (s.withExchange .working (some { exchange := f.exchange, attached := true }))) :=
  whenRunning_takes taken cmdBlockWrite

/-- Settles O55: the fields are the payload's first two bytes and its rest, whose length the frame check has fixed. -/
theorem blockTransferPlaced : Obligations.BlockTransferPlaced := by
  rintro s f seg block data v rfl
  refine ⟨fun taken payload => ?_, fun taken payload => ⟨?_, ?_⟩⟩
  · rw [exec_blockRead taken, payload]
    rfl
  · obtain ⟨-, -, -, -, passes⟩ := taken
    have length := frameCheck_length passes (n := 258) rfl
    rw [payload] at length
    simpa using length
  · rw [exec_blockWrite taken, payload]
    rfl

end Sys2Proof.Machine
end

section
/-! PROOF. Intake (R116 to R121, R134 to R136) and the way of an admitted request to the line gate, the park gate, the memory link
or a capture slot (R43, R46, R123, R124), and the head of the send queue (R126, R127). -/

namespace Sys2Proof.Machine

/-! ### The lowest-numbered one -/

/-- The first index that satisfies a condition. -/
theorem find_finRange {n : Nat} {p : Fin n → Bool} {i : Fin n} (holds : p i = true) (first : ∀ j, j < i → p j = false) :
    (List.finRange n).find? p = some i := by
  rw [List.find?_eq_some_iff_getElem]
  refine ⟨holds, i.val, by simp, by simp, fun j hj => ?_⟩
  simpa using first ⟨j, Nat.lt_trans hj i.isLt⟩ hj

/-! ### Classification (R120, R134, R136) -/

theorem Window.matches_iff {w : Window} {l : Line} {m : Fin 4} : w.matches l m = true ↔
    w.valid = true ∧ w.base.toNat ≤ l.toNat ∧ l.toNat ≤ w.limit.toNat ∧ w.masters.getLsbD m.val = true := by
  simp [Window.matches, and_assoc]

theorem decidingWindow_first {s : State} {l : Line} {m : Fin 4} {i : Fin 16} (matching : s.windows[i].matches l m = true)
    (first : ∀ j : Fin 16, j < i → s.windows[j].matches l m = false) : s.decidingWindow l m = some i :=
  find_finRange matching first

theorem decidingWindow_none {s : State} {l : Line} {m : Fin 4} (none' : ∀ i : Fin 16, ¬ s.windows[i].matches l m = true) :
    s.decidingWindow l m = none :=
  List.find?_eq_none.mpr fun i _ => none' i

theorem classify_bypass {s : State} (mode : s.service.mode = .bypass) (l : Line) (m : Fin 4) :
    s.classify l m = .pass ∧ countClassified l m s = s := by
  rw [State.classify, countClassified, mode]; exact ⟨rfl, rfl⟩

theorem classify_window {s : State} {l : Line} {m : Fin 4} {i : Fin 16} (mode : s.service.mode = .active)
    (decides : s.decidingWindow l m = some i) : s.classify l m = s.windows[i].action ∧ countClassified l m s = countHit i s := by
  rw [State.classify, countClassified, mode, decides]; exact ⟨rfl, rfl⟩

theorem classify_default {s : State} {l : Line} {m : Fin 4} (mode : s.service.mode = .active)
    (none' : s.decidingWindow l m = none) : s.classify l m = s.service.params.defaultAction ∧ countClassified l m s = s := by
  rw [State.classify, countClassified, mode, none']; exact ⟨rfl, rfl⟩

/-- Settles O14: what decides is the first window that matches, and its count saturates. -/
theorem requestsClassified : Obligations.RequestsClassified := by
  refine fun l m s => ⟨fun mode i valid base limit masters first => ?_, fun mode none' => ?_, fun mode => classify_bypass mode l m⟩
  · have decides := decidingWindow_first (Window.matches_iff.mpr ⟨valid, base, limit, masters⟩) first
    have hit := classify_window mode decides
    rwa [countHit, saturate_eq] at hit
  · refine classify_default mode (decidingWindow_none fun i matching => ?_)
    obtain ⟨valid, base, limit, masters⟩ := Window.matches_iff.mp matching
    rcases none' i with h | h | h | h
    · exact nomatch valid.symm.trans h
    · omega
    · omega
    · exact nomatch masters.symm.trans h

/-- Classification changes the windows at most. -/
theorem countClassified_eq (l : Line) (m : Fin 4) (s : State) : ∃ w, countClassified l m s = s.setWindows w := by
  unfold countClassified
  split
  · exact ⟨s.windows, rfl⟩
  · split
    · exact ⟨_, rfl⟩
    · exact ⟨s.windows, rfl⟩

/-! ### The accept line and the checks of intake (R116, R117) -/

theorem acceptLine_iff (s : State) : s.acceptLine = true ↔ s.host.table.length < 32 ∧
    (s.host.sendQueue.filter HostMessage.isIntake).length < 4 ∧ s.service.coreReset = none ∧ s.inReset = false := by
  simp only [State.acceptLine, Bool.and_eq_true, decide_eq_true_eq, Option.isNone_iff_eq_none, Bool.not_eq_true', and_assoc]
  rfl

theorem takeRequest_withdrawn {r : Request} {s : State} (withdrawn : s.acceptLine = false) : takeRequest r s = s :=
  if_neg (Bool.eq_false_iff.mp withdrawn)

section Intake
variable {r : Request} {s : State} (accept : s.acceptLine = true) (new : s.entry r.id = none) (good : r.malformed = false)
include accept new good

theorem takeRequest_retry (write : r.write ≠ none) (hold : s.host.holdTold = true) :
    takeRequest r s = answerIntake r .retry s := by
  simp [takeRequest, accept, new, good, hold, Option.isSome_iff_ne_none.mpr write]

theorem takeRequest_classified (free : r.write = none ∨ s.host.holdTold = false) : takeRequest r s = classifyRequest r s := by
  rcases free with free | free <;> simp [takeRequest, accept, new, good, free]

end Intake

theorem refuses_iff {a : Action} {r : Request} :
    a.refuses r.write.isSome = true ↔ a = .deny ∨ (a = .guard ∧ r.write ≠ none) := by
  cases a <;> simp [Action.refuses, Option.isSome_iff_ne_none]

theorem classifyRequest_refused {r : Request} {s : State}
    (refused : (s.classify (lineOf r.address) r.id.master).refuses r.write.isSome = true) :
    classifyRequest r s = answerIntake r .refused (countClassified (lineOf r.address) r.id.master s) :=
  if_pos refused

/-- Settles O18: the accept line, and the checks of intake in their order. -/
theorem requestRefusedAtIntake : Obligations.RequestRefusedAtIntake := by
  refine ⟨acceptLine_iff, fun c r s request withdrawn => ?withdrawn,
    fun c r s request accept new good => ⟨fun write hold => ?retry, fun free refused => ?refused⟩⟩
  case withdrawn =>
    rw [exec_of_requestOf request, whenRunning, takeRequest_withdrawn withdrawn, ite_self]
  case retry =>
    rw [exec_request request accept, takeRequest_retry accept new good write hold, answerIntake_eq,
      Option.isSome_iff_ne_none.mpr write]
  case refused =>
    rw [exec_request request accept, takeRequest_classified accept new good free,
      classifyRequest_refused (refuses_iff.mpr refused), answerIntake_eq, countClassified_host]

/-! ### An admitted request (R121, R123) -/

/-- The request's entry in state `st`. -/
def Request.placed (r : Request) (a : Action) (st : EntryState) : Entry :=
  { id := r.id, address := r.address, beats := r.beats, write := r.write, action := a, state := st, response := none }

/-- `s` with the admitted request's entry in state `st` at the table's end, and its hit counted. -/
def State.admitted (r : Request) (st : EntryState) (s : State) : State :=
  (countClassified (lineOf r.address) r.id.master s).setHost { s.host with
    table := s.host.table ++ [r.placed (s.classify (lineOf r.address) r.id.master) st] }

theorem admitted_eq (r : Request) (s : State) : ∃ w, ∀ st, s.admitted r st = (s.setWindows w).setHost { s.host with
    table := s.host.table ++ [r.placed (s.classify (lineOf r.address) r.id.master) st] } := by
  obtain ⟨w, h⟩ := countClassified_eq (lineOf r.address) r.id.master s
  exact ⟨w, fun st => by rw [State.admitted, h]⟩

section Admitted
variable {c : Instr} {r : Request} {s : State}

theorem takeRequest_admits (admits : s.admits r) : takeRequest r s =
    createEntry (r.entry (s.classify (lineOf r.address) r.id.master)) (countClassified (lineOf r.address) r.id.master s) := by
  obtain ⟨accept, new, good, hold, admitted⟩ := admits
  have free : r.write = none ∨ s.host.holdTold = false := or_iff_not_imp_left.mpr hold
  rw [takeRequest_classified accept new good free, classifyRequest, admitted]
  rfl

/-- R123: an older entry of the line in the table holds the new one at the line gate. -/
theorem createEntry_blocked {e : Entry} (blocked : ∃ x ∈ s.host.table, lineOf x.address = lineOf e.address) :
    createEntry e s = s.setHost { s.host with table := s.host.table ++ [e] } := by
  obtain ⟨x, mem, same⟩ := blocked
  have any : (s.host.table.any fun x => x.line == e.line) = true := List.any_eq_true.mpr ⟨x, mem, beq_iff_eq.mpr same⟩
  exact if_pos any

theorem createEntry_free {e : Entry} (free : ∀ x ∈ s.host.table, lineOf x.address ≠ lineOf e.address) :
    createEntry e s = reachGate e.id (s.setHost { s.host with table := s.host.table ++ [e] }) :=
  if_neg fun any => by
    obtain ⟨x, mem, same⟩ := List.any_eq_true.mp any
    exact free x mem (beq_iff_eq.mp same)

theorem exec_admits_blocked (request : requestOf c = some r) (admits : s.admits r)
    (blocked : ∃ x ∈ s.host.table, lineOf x.address = lineOf r.address) : exec c s = .next (s.admitted r .lineWait) := by
  rw [exec_request request admits.1, takeRequest_admits admits, createEntry_blocked (by rw [countClassified_host]; exact blocked),
    countClassified_host]
  rfl

/-- With its line free, the new entry reaches the park gate in its step. -/
theorem exec_admits_free (request : requestOf c = some r) (admits : s.admits r)
    (free : ∀ x ∈ s.host.table, lineOf x.address ≠ lineOf r.address) :
    exec c s = .next (reachGate r.id (s.admitted r .lineWait)) := by
  rw [exec_request request admits.1, takeRequest_admits admits, createEntry_free (by rw [countClassified_host]; exact free),
    countClassified_host]
  rfl

theorem admitted_entry (new : s.entry r.id = none) (st : EntryState) :
    (s.admitted r st).entry r.id = some (r.placed (s.classify (lineOf r.address) r.id.master) st) :=
  entry_append (e := r.placed _ st) new rfl

/-- The new entry in another state is the request admitted in that state. -/
theorem admitted_placed (new : s.entry r.id = none) (st st' : EntryState) :
    (s.admitted r st).placed r.id st' = s.admitted r st' :=
  congrArg (fun t => (countClassified (lineOf r.address) r.id.master s).setHost { s.host with table := t })
    (map_append (e := r.placed (s.classify (lineOf r.address) r.id.master) st) new fun x => { x with state := st' })

theorem admitted_gateOpen (st : EntryState) (w : Bool) : (s.admitted r st).gateOpen w = s.gateOpen w := by
  obtain ⟨v, h⟩ := admitted_eq r s
  rw [h]; rfl

end Admitted

/-! ### The park gate (R27, R124) -/

theorem gateOpen_iff {s : State} (quiet : s.service.coreReset = none) (isWrite : Bool) :
    s.gateOpen isWrite = true ↔ s.epochs.controller = .idle ∨ (s.epochs.controller = .draining ∧ isWrite = false ∧
      (s.epochs.command = some .checkpoint ∨ s.epochs.command = some .commit)) := by
  rw [State.gateOpen, quiet, Option.isNone_none, Bool.true_and]
  split
  case h_1 idle => exact iff_of_true rfl (.inl idle)
  case h_2 draining command => simp [draining, command]
  case h_3 draining command => simp [draining, command]
  case h_4 idle checkpoint commit =>
    refine iff_of_false Bool.false_ne_true ?_
    rintro (h | ⟨draining, -, h | h⟩)
    · exact idle h
    · exact checkpoint draining h
    · exact commit draining h

section Gate
variable {id : HostId} {e : Entry} {s t : State}

theorem reachGate_closed (there : s.entry id = some e) (closed : s.gateOpen e.write.isSome = false) :
    reachGate id s = s.placed id .parked := by
  rw [reachGate, there]
  exact if_neg (Bool.eq_false_iff.mp closed)

theorem reachGate_open (there : s.entry id = some e) (isOpen : s.gateOpen e.write.isSome = true) :
    reachGate id s = passGate id s := by
  rw [reachGate, there]
  exact if_pos isOpen

/-- R27, R28: the gate lets the entry pass, in the words of the statements. -/
theorem reachGate_of_passes (there : s.entry id = some e) (isOpen : s.gateOpen e.write.isSome = true) (passes : s.passes e t) :
    reachGate id s = t := by
  have same := entry_some_id there
  subst same
  rw [reachGate_open there isOpen, (passes_iff (keeps_of_entry there)).mp passes]

end Gate

/-- Settles O19: the gate by the controller state, the release by `releaseParked_iff`, and the two ways an admitted request is
held. -/
theorem requestHeld : Obligations.RequestHeld := by
  refine ⟨fun s isWrite quiet => gateOpen_iff quiet isWrite, fun s t names => (releaseParked_iff names).symm,
    fun c r s request admits => ⟨exec_admits_blocked request admits, fun free closed => ?_⟩⟩
  have new := admits.2.1
  have there := admitted_entry new .lineWait
  rw [exec_admits_free request admits free, reachGate_closed there (by rw [admitted_gateOpen]; exact closed),
    admitted_placed new]
  rfl

/-! ### An admitted request that passes the gate (R43, R44, R46, R47) -/

section Passes
variable {c : Instr} {r : Request} {s t : State}

/-- With its line free and the gate open, an admitted request does what an entry that passes the gate does. -/
theorem exec_admits_passes (request : requestOf c = some r) (admits : s.admits r)
    (free : ∀ x ∈ s.host.table, lineOf x.address ≠ lineOf r.address) (isOpen : s.gateOpen r.write.isSome = true)
    (passes : (s.admitted r .lineWait).passes (r.placed (s.classify (lineOf r.address) r.id.master) .lineWait) t) :
    exec c s = .next t := by
  have there := admitted_entry admits.2.1 .lineWait
  rw [exec_admits_free request admits free, reachGate_of_passes there (by rw [admitted_gateOpen]; exact isOpen) passes]

/-- R43: the capture check of the new entry, on the state that the request found. -/
theorem admitted_needsRecord {a : Action} {st : EntryState} (h : (s.admitted r .lineWait).needsRecord (r.placed a st)) :
    r.write ≠ none ∧ a = .journal ∧ s.topOpen = true ∧ lineOf r.address ∉ s.capture.marks := by
  obtain ⟨w, eq⟩ := admitted_eq r s
  rw [eq] at h
  exact h

theorem admitted_tagReady {g : Fin 64} {st : EntryState} (ready : s.tagReady g) : (s.admitted r st).tagReady g := by
  obtain ⟨w, eq⟩ := admitted_eq r s
  rw [eq]; exact ready

theorem admitted_tagWait {st : EntryState} (wait : s.tagWait) : (s.admitted r st).tagWait := by
  obtain ⟨w, eq⟩ := admitted_eq r s
  rw [eq]; exact wait

theorem admitted_memExpiry (st : EntryState) : (s.admitted r st).memExpiry = s.memExpiry := by
  obtain ⟨w, eq⟩ := admitted_eq r s
  rw [eq]; rfl

theorem admitted_memIf (st : EntryState) : (s.admitted r st).memIf = s.memIf := by
  obtain ⟨w, eq⟩ := admitted_eq r s
  rw [eq]; rfl

theorem admitted_capture (st : EntryState) : (s.admitted r st).capture = s.capture := by
  obtain ⟨w, eq⟩ := admitted_eq r s
  rw [eq]; rfl

end Passes

/-- Settles O20: the entry does not need a record, so it passes the gate by `State.issues`. -/
theorem requestGoesToIssue : Obligations.RequestGoesToIssue := by
  intro c r s request admits free isOpen noRecord
  have new := admits.2.1
  have needless : ¬ (s.admitted r .lineWait).needsRecord (r.placed (s.classify (lineOf r.address) r.id.master) .lineWait) := fun h => by
    obtain ⟨write, journal, top, unmarked⟩ := admitted_needsRecord h
    rcases noRecord with h | h | h | h
    · exact write h
    · exact h journal
    · exact nomatch top.symm.trans h
    · exact unmarked h
  refine ⟨(r.placed (s.classify (lineOf r.address) r.id.master) .lineWait).request, rfl, fun t ready => ?issued, fun wait => ?waits⟩
  case issued =>
    refine exec_admits_passes request admits free isOpen (.inl ⟨needless, .inl ⟨t, admitted_tagReady ready, ?_⟩⟩)
    rw [show (r.placed (s.classify (lineOf r.address) r.id.master) .lineWait).id = r.id from rfl, admitted_placed new,
      admitted_memIf, admitted_memExpiry]
    rfl
  case waits =>
    refine exec_admits_passes request admits free isOpen (.inl ⟨needless, .inr ⟨admitted_tagWait wait, ?_⟩⟩)
    rw [show (r.placed (s.classify (lineOf r.address) r.id.master) .lineWait).id = r.id from rfl, admitted_placed new,
      admitted_memIf]
    rfl

/-- Settles O21: the entry needs a record, so it passes the gate by `State.takesSlot` or joins the slot queue. -/
theorem captureBegins : Obligations.CaptureBegins := by
  intro c r s request admits free isOpen write journal top unmarked
  have new := admits.2.1
  obtain ⟨w, eq⟩ := admitted_eq r s
  rw [journal] at eq
  have gate : s.gateOpen r.write.isSome = true := by rw [Option.isSome_iff_ne_none.mpr write]; exact isOpen
  have passing {t : State} := exec_admits_passes (t := t) request admits free gate
  rw [journal] at passing
  have needs : (s.admitted r .lineWait).needsRecord (r.placed .journal .lineWait) := by
    rw [eq]; exact ⟨write, rfl, top, unmarked⟩
  have placed (st : EntryState) : (s.admitted r .lineWait).placed (r.placed .journal .lineWait).id st = s.admitted r st :=
    admitted_placed new .lineWait st
  have written (st : EntryState) : s.admitted r st = (countClassified (lineOf r.address) r.id.master s).setHost { s.host with
      table := s.host.table ++ [r.placed .journal st] } := by rw [State.admitted, journal]
  refine ⟨fun i empty isFree lowest => ⟨_, _, rfl, rfl, fun t ready => ?issued, fun wait => ?waits⟩, fun full => ?queued⟩
  case issued =>
    refine passing (.inr (.inl ⟨needs, by rw [admitted_capture]; exact empty, i, by rw [admitted_capture]; exact isFree,
      by rw [admitted_capture]; exact lowest, .inl ⟨t, ?_, ?_⟩⟩))
    · rw [placed, eq]; exact ready
    · rw [placed, admitted_capture, written]
      obtain ⟨v, counted⟩ := countClassified_eq (lineOf r.address) r.id.master s
      rw [counted]
      rfl
  case waits =>
    refine passing (.inr (.inl ⟨needs, by rw [admitted_capture]; exact empty, i, by rw [admitted_capture]; exact isFree,
      by rw [admitted_capture]; exact lowest, .inr ⟨?_, ?_⟩⟩))
    · rw [placed, eq]; exact wait
    · rw [placed, admitted_capture, written]
      obtain ⟨v, counted⟩ := countClassified_eq (lineOf r.address) r.id.master s
      rw [counted]
      rfl
  case queued =>
    refine passing (.inr (.inr ⟨needs, by rw [admitted_capture]; exact full, ?_⟩))
    rw [placed, admitted_capture, written]
    rfl

/-! ### The head of the send queue (R126, R127) -/

theorem sendHead_response {s : State} {id : HostId} {w : Bool} {st : HostStatus} {d : List Word} {rest : List HostMessage}
    (front : s.host.sendQueue = .response id w st d :: rest) : sendHead s =
      freeEntry id (s.setHost { s.host with sendQueue := rest, lastSent := some (.response id w st d) }) := by
  simp only [sendHead, front]

theorem sendHead_other {s : State} {m : HostMessage} {rest : List HostMessage} (front : s.host.sendQueue = m :: rest)
    (other : ∀ id w st d, m ≠ .response id w st d) :
    sendHead s = s.setHost { s.host with sendQueue := rest, lastSent := some m } := by
  cases m with
  | response id w st d => exact absurd rfl (other id w st d)
  | intake | hold => simp only [sendHead, front]

/-- R123: the line gate, in the words of the statements. -/
theorem lineGate_eq {l : Line} {u v : State} (names : (u.host.table.map (·.id)).Nodup)
    (gate : ((∀ x, u.host.table.find? (fun y => lineOf y.address == l) = some x → x.state ≠ .lineWait) ∧ v = u) ∨
      ∃ x, u.host.table.find? (fun y => lineOf y.address == l) = some x ∧ x.state = .lineWait ∧
        ((u.gateOpen x.write.isSome = false ∧ v = u.placed x.id .parked) ∨ (u.gateOpen x.write.isSome = true ∧ u.passes x v))) :
    lineGate l u = v := by
  rcases gate with ⟨none', rfl⟩ | ⟨x, oldest, waits, gate⟩
  · rw [lineGate]
    split
    · rfl
    · next x oldest => exact if_neg (none' x oldest)
  · have there := entry_of_mem names (List.mem_of_find?_eq_some oldest)
    have reached : lineGate l u = reachGate x.id u := by
      rw [lineGate, show (u.host.table.find? fun y => y.line == l) = some x from oldest]
      exact if_pos waits
    rw [reached]
    rcases gate with ⟨closed, rfl⟩ | ⟨isOpen, passes⟩
    · exact reachGate_closed there closed
    · exact reachGate_of_passes there isOpen passes

/-- R102: the hold follows the free count of the state before, and nothing else of it. -/
theorem settleHold_before {s u v : State} (free : s.freeCount = u.freeCount) : settleHold s v = settleHold u v := by
  rw [settleHold, settleHold, free]

theorem settleDrain_command {c : PendingCommand} {s : State} (pending : s.epochs.command = some c) :
    settleDrain s = completeDrain c s := by
  rw [settleDrain, pending]

/-- R29: a step that leaves `v` with its drain complete ends as the row of the pending command's drain does from there. -/
theorem settleDrain_row {s v : State} (running : v.inReset = false) (same : SameHold s v) (settled : s.holdSettled)
    (free : v.freeCount = s.freeCount) :
    (v.epochs.command = some .checkpoint →
      (.next (settleHold s (settleDrain v)) : Result) = exec .checkpointDrainComplete v) ∧
    (v.epochs.command = some .commit → .next (settleHold s (settleDrain v)) = exec .commitDrainComplete v) ∧
    (v.epochs.command = some .rollback → .next (settleHold s (settleDrain v)) = exec .rollbackDrainComplete v) := by
  refine ⟨fun pending => ?_, fun pending => ?_, fun pending => ?_⟩ <;> rw [settleDrain_command pending]
  · rw [exec_checkpointDrainComplete, whenRunning_running running]
    have moved := same.trans (moves_completeDrain (hold := false) (config := false) .checkpoint v).sameHold
    rw [settleHold_of_same settled ((completeDrain_checkpoint_freeCount v).trans free) moved.told
      (by rw [State.holdInForce, State.holdInForce, moved.auto, moved.manual])]
  · rw [exec_commitDrainComplete, whenRunningSpaced, whenRunning_running running, settleHold_before free.symm]
  · rw [exec_rollbackDrainComplete, whenRunningSpaced, whenRunning_running running, settleHold_before free.symm]

theorem exec_messageSent_running {s : State} (running : s.inReset = false) :
    exec .messageSent s = .next (settleHold s (settleDrain (sendHead s))) := by
  rw [exec_messageSent, whenRunningSpaced, whenRunning_running running]

/-- R126: a response frees its entry. -/
theorem freeEntry_some {id : HostId} {s : State} {e : Entry} (there : s.entry id = some e) : freeEntry id s =
    lineGate (lineOf e.address) (s.setHost { s.host with table := s.host.table.filter fun x => decide (x.id ≠ id) }) := by
  rw [freeEntry, there]
  rfl

/-- Settles O22: the message leaves the queue, a response opens the line gate for the next entry, and the drain ends the step. -/
theorem messageSent : Obligations.MessageSent := by
  intro s m rest running settled front
  rw [exec_messageSent_running running]
  refine ⟨fun other drains => ?plain, fun id w st d e u v response there names hu gate => ?response⟩
  case plain =>
    have idle : settleDrain (s.setHost { s.host with sendQueue := rest, lastSent := some m }) = _ := settleDrain_notDue drains
    rw [sendHead_other front other, idle]
    exact congrArg _ (settleHold_of_same settled rfl rfl rfl)
  case response =>
    subst response hu
    have after : sendHead s = lineGate (lineOf e.address) (s.setHost { s.host with
        sendQueue := rest, lastSent := some (.response id w st d)
        table := s.host.table.filter fun x => decide (x.id ≠ id) }) :=
      (sendHead_response front).trans
        (freeEntry_some (s := s.setHost { s.host with sendQueue := rest, lastSent := some (.response id w st d) }) there)
    have gated := lineGate_eq (names.sublist (List.filter_sublist.map _)) gate
    have path := gated ▸ lineGate_path (lineOf e.address) _
    rw [after, gated]
    have same : SameHold s v := by
      refine .trans ?_ path.sameHold
      exact ⟨⟨rfl, rfl, rfl⟩, rfl, rfl, rfl, rfl⟩
    have free : v.freeCount = s.freeCount := freeCount_of_journal path.journal
    refine ⟨fun drains => ?_, fun _ => settleDrain_row (path.inReset.trans running) same settled free⟩
    rw [settleDrain_notDue drains, settleHold_of_same settled free same.told
      (by rw [State.holdInForce, State.holdInForce, same.auto, same.manual])]

end Sys2Proof.Machine
end

section
/-! PROOF. The service commands that answer at once (R158): the holds (R105 to R108), the parameters (R161, R162), the status and
the tables read back (R55, R98, R140, R163), EVENT_POP (R166) and LEND (R86, R87). -/

namespace Sys2Proof.Machine

/-! ### A row that may change a hold or the free count, and answers at once -/

theorem settleHold_work (s t : State) : (settleHold s t).service.work = t.service.work :=
  (exchange_kept (f := settleHold s) (fun _ _ _ => settleHold_withExchange_right _ _ _ _) t).2

/-- The answer goes out in the exchange of the frame, with the hold as the command leaves it. -/
theorem whenRunningSpaced_answers {code : Byte} {f : Frame} {run : List Byte → State → State} {s t : State} {a : Answer}
    (taken : s.takes code f) (idle : t.service.work = none)
    (command : ∀ x w, run f.payload (s.withExchange x w) = respond a (t.withExchange x w)) :
    whenRunningSpaced (frameComplete code f run) s = .next ((settleHold s t).answers f a) := by
  rw [whenRunningSpaced_takes taken, command, respond_withExchange, settleHold_withExchange_right,
    answers_eq ((settleHold_work s t).trans idle)]

/-- The same, where the command leaves a hold that has been told. -/
theorem whenRunningSpaced_answers_same {code : Byte} {f : Frame} {run : List Byte → State → State} {s t : State} {a : Answer}
    (taken : s.takes code f) (idle : t.service.work = none)
    (command : ∀ x w, run f.payload (s.withExchange x w) = respond a (t.withExchange x w)) (same : settleHold s t = t) :
    whenRunningSpaced (frameComplete code f run) s = .next (t.answers f a) := by
  rw [whenRunningSpaced_answers taken idle command, same]

/-! ### The hold announced (R106 to R108) -/

theorem setParams_settled {p : Params} {s : State} (settled : s.holdSettled) : settleHold s (setParams p s) = setParams p s :=
  settleHold_of_same settled rfl rfl rfl

theorem settleHold_freeCount {s t : State} (free : t.freeCount = s.freeCount) : settleHold s t = announceHold t := by
  rw [settleHold, if_pos free]

theorem announceHold_told {s : State} (told : s.holdInForce = s.host.holdTold) : announceHold s = s := if_pos told

theorem announceHold_comes {s : State} (force : s.holdInForce = true) (told : s.host.holdTold = false) :
    announceHold s = holdComes s := by
  rw [announceHold, force, told]; rfl

theorem announceHold_leaves {s : State} (force : s.holdInForce = false) (told : s.host.holdTold = true) :
    announceHold s = holdLeaves s := by
  rw [announceHold, force, told]; rfl

/-- Where the automatic hold is settled, what the host interface hears of a change depends on what it was told. -/
theorem answers_announced {s t : State} {f : Frame} {a : Answer} (idle : t.service.work = none)
    (settles : settleHold s t = announceHold t) :
    (t.holdInForce = t.host.holdTold → (settleHold s t).answers f a = t.answers f a) ∧
    (t.holdInForce = true → t.host.holdTold = false → (settleHold s t).answers f a = holdComes (t.answers f a)) ∧
    (t.holdInForce = false → t.host.holdTold = true → (settleHold s t).answers f a = holdLeaves (t.answers f a)) := by
  have idle' : (announceHold t).service.work = none := settles ▸ (settleHold_work s t).trans idle
  rw [settles, answers_eq idle', answers_eq idle]
  refine ⟨fun same => ?_, fun force told => ?_, fun force told => ?_⟩
  · rw [announceHold_told same]
  · rw [announceHold_comes force told, holdComes_withExchange]
  · rw [announceHold_leaves force told, holdLeaves_withExchange]

/-! ### The manual hold (R105, R108) -/

theorem exec_holdSet {f : Frame} {s : State} (taken : s.takes 0x40 f) : exec (.holdSet f) s =
    .next ((settleHold s (s.setSpace { s.space with manual := true })).answers f (.done [])) :=
  whenRunningSpaced_answers (run := cmdHoldSet) taken (State.takes_idle taken) fun _ _ => rfl

theorem exec_holdClear {f : Frame} {s : State} (taken : s.takes 0x41 f) : exec (.holdClear f) s =
    .next ((settleHold s (s.setSpace { s.space with manual := false })).answers f (.done [])) :=
  whenRunningSpaced_answers (run := cmdHoldClear) taken (State.takes_idle taken) fun _ _ => rfl

theorem advanceTo_eq (x : Tick) (s : State) : ∃ y, advanceTo x s = s.setTimebase y := by
  unfold advanceTo
  split
  · exact ⟨x, rfl⟩
  · exact ⟨s.timebase, rfl⟩

theorem refreshExpires_running {s : State} {x : Tick} (timer : s.space.refreshTimer = some x) (force : s.holdInForce = true) :
    refreshExpires s = refreshHold (advanceTo x s) := by
  rw [refreshExpires, timer]
  exact if_pos force

/-- Settles O42: each command sets the flag, and `answers_announced` says what is heard of it. -/
theorem manualHold : Obligations.ManualHold := by
  refine ⟨fun s f taken settled => ?set, fun s f taken settled => ?clear, fun s x u running timer force hu => ?refresh⟩
  case set =>
    obtain ⟨same, comes, -⟩ := answers_announced (s := s) (t := s.setSpace { s.space with manual := true }) (f := f) (a := .done [])
      (State.takes_idle taken) (settleHold_freeCount rfl)
    have on : (s.setSpace { s.space with manual := true }).holdInForce = true := Bool.or_true _
    rw [exec_holdSet taken]
    refine ⟨fun force => congrArg _ (same ?_), fun free => congrArg _ ((comes on ?_).trans ?_)⟩
    · exact on.trans (force.symm.trans settled.symm)
    · exact settled.trans free
    · rfl
  case clear =>
    obtain ⟨same, -, leaves⟩ := answers_announced (s := s) (t := s.setSpace { s.space with manual := false }) (f := f)
      (a := .done []) (State.takes_idle taken) (settleHold_freeCount rfl)
    have off : (s.setSpace { s.space with manual := false }).holdInForce = s.space.auto := Bool.or_false _
    rw [exec_holdClear taken]
    refine ⟨fun kept => congrArg _ (same ?_), fun auto manual => congrArg _ ((leaves (off.trans auto) ?_).trans ?_)⟩
    · refine off.trans (Eq.trans ?_ settled.symm)
      rcases kept with kept | kept <;> simp [State.holdInForce, kept]
    · exact settled.trans (by rw [State.holdInForce, manual, Bool.or_true])
    · rfl
  case refresh =>
    obtain ⟨y, clock⟩ := advanceTo_eq x s
    rw [exec_refreshTimerExpiry, whenRunning_running running, refreshExpires_running timer force, hu, clock]
    rfl

/-! ### The automatic hold set from the free count (R103) -/

/-- R103: the automatic hold that the free count and the thresholds ask for. -/
def State.autoAsked (s : State) : Bool :=
  if s.freeCount ≤ s.service.params.holdOnFree then true
  else if s.service.params.holdOffFree ≤ s.freeCount then false
  else s.space.auto

theorem evaluateAuto_eq (s : State) : evaluateAuto s = s.setSpace { s.space with auto := s.autoAsked } := by
  unfold evaluateAuto State.autoAsked
  split
  · rfl
  · split <;> rfl

/-- R103 asked again at the same free count asks for the same. -/
theorem evaluateAuto_idem (s : State) : evaluateAuto (evaluateAuto s) = evaluateAuto s := by
  have asked : (s.setSpace { s.space with auto := s.autoAsked }).autoAsked = s.autoAsked := by
    change (if s.freeCount ≤ s.service.params.holdOnFree then true
      else if s.service.params.holdOffFree ≤ s.freeCount then false else s.autoAsked) = s.autoAsked
    unfold State.autoAsked
    split
    · rfl
    · split <;> rfl
  rw [evaluateAuto_eq s, evaluateAuto_eq, asked]
  rfl

theorem settleHold_evaluateAuto (s t : State) : settleHold s (evaluateAuto t) = announceHold (evaluateAuto t) := by
  rw [settleHold, evaluateAuto_idem, ite_self]

/-! ### PARAM_WRITE (R162) -/

section ParamWrite
variable {f : Frame} {s t : State} {p : Param} {own : Nat → State → State} {a : Answer}

/-- The row of parameter `p`: the identifier names it, and its write is done. -/
theorem paramWrite_answers (taken : s.takes 0x11 f) (named : paramOfCode (leValue (f.payload.take 1)) = some p)
    (idle : t.service.work = none)
    (command : ∀ x w, own (leValue (f.payload.drop 1)) (s.withExchange x w) = respond a (t.withExchange x w)) :
    whenRunningSpaced (frameComplete 0x11 f (cmdParamWriteOf p own)) s = .next ((settleHold s t).answers f a) :=
  whenRunningSpaced_answers taken idle fun x w => (if_pos named).trans (command x w)

theorem paramWrite_refused {r : RefusalReason} (taken : s.takes 0x11 f) (settled : s.holdSettled)
    (named : paramOfCode (leValue (f.payload.take 1)) = some p)
    (command : ∀ x w, own (leValue (f.payload.drop 1)) (s.withExchange x w) = respond (.refused r) (s.withExchange x w)) :
    whenRunningSpaced (frameComplete 0x11 f (cmdParamWriteOf p own)) s = .next (s.answers f (.refused r)) := by
  rw [paramWrite_answers taken named (State.takes_idle taken) command, settleHold_of_same settled rfl rfl rfl]

/-- A write whose only check is its range: `new` stores the value. -/
theorem paramWrite_ranged {bad good : Prop} [Decidable bad] [Decidable good] {new : Params → Params} (taken : s.takes 0x11 f)
    (settled : s.holdSettled) (named : paramOfCode (leValue (f.payload.take 1)) = some p) (range : good ↔ ¬ bad)
    (shape : ∀ u, own (leValue (f.payload.drop 1)) u =
      if bad then respond (.refused .badValue) u else respond (.done []) (setParams (new u.service.params) u)) :
    whenRunningSpaced (frameComplete 0x11 f (cmdParamWriteOf p own)) s =
      .next (if good then (setParams (new s.service.params) s).answers f (.done []) else s.answers f (.refused .badValue)) := by
  by_cases h : bad
  · rw [if_neg (mt range.mp (not_not.mpr h))]
    exact paramWrite_refused taken settled named fun x w => (shape _).trans (if_pos h)
  · rw [if_pos (range.mpr h), paramWrite_answers (t := setParams (new s.service.params) s) taken named (State.takes_idle taken)
      fun x w => (shape _).trans (if_neg h), setParams_settled settled]

/-- An identifier that names no parameter. -/
theorem paramWrite_unnamed (taken : s.takes 0x11 f) (settled : s.holdSettled)
    (unnamed : paramOfCode (leValue (f.payload.take 1)) = none) :
    whenRunningSpaced (frameComplete 0x11 f (cmdParamWriteOf p own)) s = .next (s.answers f (.refused .badValue)) := by
  refine whenRunningSpaced_answers_same taken (State.takes_idle taken) (fun x w => ?_) (settleHold_of_same settled rfl rfl rfl)
  rw [cmdParamWriteOf, cmdParamWrite, unnamed]
  rfl

end ParamWrite

theorem paramOfCode_unnamed : ∀ {n : Nat}, n = 0 ∨ 9 < n → paramOfCode n = none
  | 0, _ => rfl
  | 1, h | 2, h | 3, h | 4, h | 5, h | 6, h | 7, h | 8, h | 9, h => absurd h (by decide)
  | _ + 10, _ => rfl

/-- The identifier byte of a payload names the parameter of its code. -/
theorem paramOfCode_take {payload : List Byte} {b : Byte} (h : payload.take 1 = [b]) :
    paramOfCode (leValue (payload.take 1)) = paramOfCode b.toNat := by
  rw [h, leValue, leValue]; rfl

theorem writeDefaultAction_locked {v : Nat} {s : State} (locked : s.depth ≠ 0) :
    writeDefaultAction v s = respond (.refused .locked) s := if_pos locked

theorem writeDefaultAction_code {v : Nat} {s : State} (unlocked : s.depth = 0) : writeDefaultAction v s =
    match defaultActionOfCode v with
    | none => respond (.refused .badValue) s
    | some a => respond (.done []) (setParams { s.service.params with defaultAction := a } s) :=
  if_neg (not_not.mpr unlocked)

theorem defaultActionOfCode_none : ∀ {n : Nat}, n ≠ 1 → n ≠ 2 → defaultActionOfCode n = none
  | 0, _, _ => rfl
  | 1, h, _ | 2, _, h => absurd rfl h
  | _ + 3, _, _ => rfl

/-- The DEFAULT_ACTION row at depth 0, with the code of an action. -/
theorem paramWriteDefaultAction_done {f : Frame} {s : State} {a : Action} (taken : s.takes 0x11 f) (settled : s.holdSettled)
    (named : paramOfCode (leValue (f.payload.take 1)) = some .defaultAction) (unlocked : s.depth = 0)
    (code : defaultActionOfCode (leValue (f.payload.drop 1)) = some a) : exec (.paramWriteDefaultAction f) s =
      .next ((setParams { s.service.params with defaultAction := a } s).answers f (.done [])) := by
  have row : exec (.paramWriteDefaultAction f) s = _ :=
    paramWrite_answers (own := writeDefaultAction) (t := setParams { s.service.params with defaultAction := a } s) taken named
      (State.takes_idle taken) fun x w => by rw [writeDefaultAction_code (by exact unlocked), code]; rfl
  rw [row, setParams_settled settled]

/-- Settles O44: the rows with a range alone are one lemma; DEFAULT_ACTION adds the lock. -/
theorem parameterWrites : Obligations.ParameterWrites := by
  rintro s f v taken settled rfl
  refine ⟨fun named => ?action, fun named => ?memTimeout, fun named => ?fullWait, fun named => ?holdTime, fun named => ?refillWait,
    fun named => ?restoreAhead, fun unnamed c row => ?unnamed⟩
  case action =>
    have named := paramOfCode_take named
    refine ⟨fun locked => ?_, fun unlocked one => ?_, fun unlocked two => ?_, fun unlocked one two => ?_⟩
    · exact paramWrite_refused (own := writeDefaultAction) taken settled named fun x w =>
        writeDefaultAction_locked (by exact locked)
    · exact paramWriteDefaultAction_done taken settled named unlocked (by rw [one]; rfl)
    · exact paramWriteDefaultAction_done taken settled named unlocked (by rw [two]; rfl)
    · exact paramWrite_refused (own := writeDefaultAction) taken settled named fun x w => by
        rw [writeDefaultAction_code (by exact unlocked), defaultActionOfCode_none one two]
  case memTimeout =>
    exact paramWrite_ranged (own := writeMemTimeout) (new := fun p => { p with memTimeout := leValue (f.payload.drop 1) }) taken
      settled (paramOfCode_take named) (by omega) fun _ => rfl
  case fullWait =>
    exact paramWrite_ranged (own := writeFullWait) (new := fun p => { p with fullWait := leValue (f.payload.drop 1) }) taken
      settled (paramOfCode_take named) (by omega) fun _ => rfl
  case holdTime =>
    exact paramWrite_ranged (own := writeHoldTime) (new := fun p => { p with holdTime := leValue (f.payload.drop 1) }) taken
      settled (paramOfCode_take named) (by omega) fun _ => rfl
  case refillWait =>
    exact paramWrite_ranged (own := writeRefillWait) (new := fun p => { p with refillWait := leValue (f.payload.drop 1) }) taken
      settled (paramOfCode_take named) (by omega) fun _ => rfl
  case restoreAhead =>
    exact paramWrite_ranged (own := writeRestoreAhead) (new := fun p => { p with restoreAhead := leValue (f.payload.drop 1) })
      taken settled (paramOfCode_take named) (by omega) fun _ => rfl
  case unnamed =>
    have refused {p : Param} {own : Nat → State → State} := paramWrite_unnamed (p := p) (own := own) taken settled
      (paramOfCode_unnamed unnamed)
    simp only [List.mem_cons, List.not_mem_nil, or_false] at row
    rcases row with rfl | rfl | rfl | rfl | rfl | rfl | rfl | rfl | rfl <;> exact refused

/-! ### The thresholds and NSEG (R8, R104) -/

section Thresholds
variable {f : Frame} {s : State} {p : Param} {own : Nat → State → State}

/-- An accepted write that leaves `t` with the free count of before, and asks for the automatic hold anew. -/
theorem paramWrite_evaluated {t u : State} {asked : Bool} (taken : s.takes 0x11 f)
    (named : paramOfCode (leValue (f.payload.take 1)) = some p) (idle : t.service.work = none) (free : t.freeCount = s.freeCount)
    (space : t.space = s.space) (host : t.host = s.host)
    (command : ∀ x w, own (leValue (f.payload.drop 1)) (s.withExchange x w) =
      respond (.done []) (evaluateAuto (t.withExchange x w)))
    (ask : t.autoAsked = asked) (hu : u = (t.answers f (.done [])).setSpace { s.space with auto := asked }) :
    (s.host.holdTold = (asked || s.space.manual) →
      whenRunningSpaced (frameComplete 0x11 f (cmdParamWriteOf p own)) s = .next u) ∧
    (s.host.holdTold = false → (asked || s.space.manual) = true →
      whenRunningSpaced (frameComplete 0x11 f (cmdParamWriteOf p own)) s = .next (holdComes u)) ∧
    (s.host.holdTold = true → (asked || s.space.manual) = false →
      whenRunningSpaced (frameComplete 0x11 f (cmdParamWriteOf p own)) s = .next (holdLeaves u)) := by
  rw [paramWrite_answers (t := t.setSpace { s.space with auto := asked }) taken named idle fun x w => by
    rw [command, evaluateAuto_withExchange, evaluateAuto_eq, ask, space]]
  obtain ⟨same, comes, leaves⟩ := answers_announced (s := s) (t := t.setSpace { s.space with auto := asked }) (f := f)
    (a := .done []) idle (settleHold_freeCount free)
  rw [State.setSpace_host, host] at same comes leaves
  subst hu
  exact ⟨fun told => congrArg _ (same told.symm), fun told force => congrArg _ (comes force told),
    fun told force => congrArg _ (leaves force told)⟩

end Thresholds

section Writes
variable {v : Nat} {s : State}

theorem writeHoldOnFree_bad (bad : 255 < v ∨ s.service.params.holdOffFree ≤ v) :
    writeHoldOnFree v s = respond (.refused .badValue) s := if_pos bad

theorem writeHoldOnFree_good (good : ¬ (255 < v ∨ s.service.params.holdOffFree ≤ v)) : writeHoldOnFree v s =
    respond (.done []) (evaluateAuto (setParams { s.service.params with holdOnFree := v } s)) := if_neg good

theorem writeHoldOffFree_bad (bad : v < 1 ∨ 256 < v ∨ v ≤ s.service.params.holdOnFree ∨ s.service.params.nseg < v) :
    writeHoldOffFree v s = respond (.refused .badValue) s := if_pos bad

theorem writeHoldOffFree_good (good : ¬ (v < 1 ∨ 256 < v ∨ v ≤ s.service.params.holdOnFree ∨ s.service.params.nseg < v)) :
    writeHoldOffFree v s = respond (.done []) (evaluateAuto (setParams { s.service.params with holdOffFree := v } s)) :=
  if_neg good

theorem writeNseg_locked (mode : s.service.mode = .active) : writeNseg v s = respond (.refused .locked) s := if_pos mode

theorem writeNseg_bad (mode : s.service.mode = .bypass) (bad : v < 16 ∨ 256 < v ∨ v < s.service.params.holdOffFree) :
    writeNseg v s = respond (.refused .badValue) s := by
  rw [writeNseg, if_neg (by rw [mode]; nofun), if_pos bad]

theorem writeNseg_good (mode : s.service.mode = .bypass) (good : ¬ (v < 16 ∨ 256 < v ∨ v < s.service.params.holdOffFree)) :
    writeNseg v s = respond (.done []) (evaluateAuto (rebuildFree v (setParams { s.service.params with nseg := v } s))) := by
  rw [writeNseg, if_neg (by rw [mode]; nofun), if_neg good]

end Writes

/-- R8: with the thresholds in order, the free list of an accepted NSEG takes the automatic hold off. -/
theorem rebuildFree_evaluated {v : Nat} {s : State} (off : s.service.params.holdOffFree ≤ v)
    (order : s.service.params.holdOnFree < s.service.params.holdOffFree) :
    evaluateAuto (rebuildFree v s) = (rebuildFree v s).setSpace { s.space with auto := false } := by
  have count : (rebuildFree v s).freeCount = v := by simp [rebuildFree, State.freeCount]
  have params : (rebuildFree v s).service.params = s.service.params := rfl
  have asked : (rebuildFree v s).autoAsked = false := by
    rw [State.autoAsked, count, params, if_neg (by omega), if_pos off]
  rw [evaluateAuto_eq, asked]
  rfl

/-- Settles O43: the checks of each write in their order; an accepted one is `paramWrite_evaluated`, and NSEG changes the free
count beside. -/
theorem thresholdAndNsegWrites : Obligations.ThresholdAndNsegWrites := by
  rintro s f v taken settled rfl
  have idle := State.takes_idle taken
  refine ⟨fun named => ?onFree, fun named => ?offFree, fun named => ?nseg⟩
  case onFree =>
    refine ⟨fun bad => ?_, fun small below auto' u asked hu => ?_⟩
    · exact paramWrite_refused (own := writeHoldOnFree) taken settled (paramOfCode_take named) fun x w =>
        writeHoldOnFree_bad (by exact bad)
    · exact paramWrite_evaluated (own := writeHoldOnFree)
        (t := setParams { s.service.params with holdOnFree := leValue (f.payload.drop 1) } s) taken (paramOfCode_take named) idle
        rfl rfl rfl (fun x w => writeHoldOnFree_good (s := s.withExchange x w) (by rw [withExchange_params]; omega)) asked.symm hu
  case offFree =>
    refine ⟨fun bad => ?_, fun least most above within auto' u asked hu => ?_⟩
    · exact paramWrite_refused (own := writeHoldOffFree) taken settled (paramOfCode_take named) fun x w =>
        writeHoldOffFree_bad (by exact bad)
    · exact paramWrite_evaluated (own := writeHoldOffFree)
        (t := setParams { s.service.params with holdOffFree := leValue (f.payload.drop 1) } s) taken (paramOfCode_take named) idle
        rfl rfl rfl (fun x w => writeHoldOffFree_good (s := s.withExchange x w) (by rw [withExchange_params]; omega)) asked.symm hu
  case nseg =>
    refine ⟨fun mode => ?_, fun mode bad => ?_, fun mode least most above order u hu => ?_⟩
    · exact paramWrite_refused (own := writeNseg) taken settled (paramOfCode_take named) fun x w =>
        writeNseg_locked (by exact mode)
    · exact paramWrite_refused (own := writeNseg) taken settled (paramOfCode_take named) fun x w =>
        writeNseg_bad (by exact mode) (by exact bad)
    · have row : exec (.paramWriteNseg f) s = _ := paramWrite_answers (own := writeNseg)
        (t := evaluateAuto (rebuildFree _ (setParams { s.service.params with nseg := leValue (f.payload.drop 1) } s)))
        taken (paramOfCode_take named) (by rw [(evaluateAuto_frame _).2.1]; exact idle) fun x w => by
          rw [writeNseg_good (s := s.withExchange x w) mode (by rw [withExchange_params]; omega), ← evaluateAuto_withExchange]
          rfl
      obtain ⟨same, -, leaves⟩ := answers_announced (s := s) (t := evaluateAuto (rebuildFree (leValue (f.payload.drop 1))
        (setParams { s.service.params with nseg := leValue (f.payload.drop 1) } s))) (f := f) (a := .done [])
        (by rw [(evaluateAuto_frame _).2.1]; exact idle) (settleHold_evaluateAuto s _)
      rw [rebuildFree_evaluated (by exact above) (by exact order)] at row same leaves
      subst hu
      rw [row]
      exact ⟨fun told => congrArg _ (same told.symm), fun told free => congrArg _ (leaves free told)⟩

end Sys2Proof.Machine
end

section
/-! PROOF. The commands that read the part back (R55, R98, R140, R161, R163), EVENT_POP (R166) and LEND (R86, R87). -/

namespace Sys2Proof.Machine

/-! ### PARAM_READ and STATUS_READ (R161, R163) -/

theorem exec_paramRead {f : Frame} {s : State} {p : Param} (taken : s.takes 0x10 f) (named : paramOfCode (leValue f.payload) = some p) :
    exec (.paramRead f) s = .next (s.answers f (.done (leBytes 4 (paramValue s.service.params p)))) :=
  whenRunning_answers (run := cmdParamRead) taken (State.takes_idle taken) fun x w => by rw [cmdParamRead, named]; rfl

theorem exec_paramRead_unnamed {f : Frame} {s : State} (taken : s.takes 0x10 f) (unnamed : paramOfCode (leValue f.payload) = none) :
    exec (.paramRead f) s = .next (s.answers f (.refused .badValue)) :=
  whenRunning_answers (run := cmdParamRead) taken (State.takes_idle taken) fun x w => by rw [cmdParamRead, unnamed]

/-- R161: in range, DEFAULT_ACTION is PASS or DENY. -/
theorem defaultActionCode_eq {a : Action} (range : a = .pass ∨ a = .deny) : defaultActionCode a = if a = .pass then 1 else 2 := by
  rcases range with rfl | rfl <;> rfl

/-- The parameter of each code in the statement's table, with its value. -/
theorem paramOfCode_table {p : Params} {code value : Nat} (valid : p.valid)
    (row : (code, value) ∈ [(1, if p.defaultAction = .pass then 1 else 2), (2, p.nseg), (3, p.memTimeout), (4, p.fullWait),
      (5, p.holdTime), (6, p.holdOnFree), (7, p.holdOffFree), (8, p.refillWait), (9, p.restoreAhead)]) :
    ∃ k, paramOfCode code = some k ∧ paramValue p k = value := by
  simp only [List.mem_cons, Prod.mk.injEq, List.not_mem_nil, or_false] at row
  rcases row with ⟨rfl, rfl⟩ | row
  · exact ⟨.defaultAction, rfl, defaultActionCode_eq valid.1⟩
  · rcases row with ⟨rfl, rfl⟩ | ⟨rfl, rfl⟩ | ⟨rfl, rfl⟩ | ⟨rfl, rfl⟩ | ⟨rfl, rfl⟩ | ⟨rfl, rfl⟩ | ⟨rfl, rfl⟩ | ⟨rfl, rfl⟩ <;>
      exact ⟨_, rfl, rfl⟩

/-- R163: the top epoch in the snapshot, in the words of the statement. -/
theorem topBytes_eq (stack : List Epoch) : topBytes stack.head? = match stack with
    | [] => [0, 0, 0, 0]
    | e :: _ => leBytes 2 e.number.toNat ++ (match e.broken with
        | none => [1, 0]
        | some .full => [2, 1]
        | some .journalFault => [2, 2]
        | some .abandoned => [2, 3]
        | some .inherited => [2, 4]) := by
  cases stack with
  | nil => rfl
  | cons e rest =>
    rw [List.head?_cons, topBytes, List.append_assoc]
    refine congrArg _ ?_
    rcases e.broken with _ | reason
    · rfl
    · cases reason <;> rfl

theorem Mode.code_eq (m : Mode) : m.code = if m = .bypass then 1 else 2 := by cases m <;> rfl

/-- Settles O45: PARAM_READ by the table of codes; the snapshot of STATUS_READ is the statement's byte for byte. -/
theorem statusAndParametersRead : Obligations.StatusAndParametersRead := by
  refine ⟨fun s f taken => ⟨fun code value row named valid => ?named, fun unnamed => ?unnamed⟩, fun s f taken =>
    ⟨_, topBytes_eq s.epochs.stack, ?status⟩⟩
  case named =>
    obtain ⟨p, param, rfl⟩ := paramOfCode_table valid row
    exact exec_paramRead taken (by rw [named, param])
  case unnamed => exact exec_paramRead_unnamed taken (paramOfCode_unnamed unnamed)
  case status =>
    have row : exec (.statusRead f) s = .next (s.answers f (.done s.snapshot)) :=
      whenRunning_answers (run := cmdStatusRead) taken (State.takes_idle taken) fun x w => by rw [cmdStatusRead, withExchange_snapshot]
    rw [row, State.snapshot, Mode.code_eq]
    rfl

/-! ### The tables (R55, R98, R140) -/

theorem exec_markQuery {f : Frame} {s : State} {a : Answer} (taken : s.takes 0x34 f)
    (command : ∀ x w, cmdMarkQuery f.payload (s.withExchange x w) = respond a (s.withExchange x w)) :
    exec (.markQuery f) s = .next (s.answers f a) := whenRunning_answers taken (State.takes_idle taken) command

theorem cmdMarkQuery_big {p : List Byte} {s : State} (big : 2 ^ 30 ≤ leValue p) :
    cmdMarkQuery p s = respond (.refused .badValue) s := if_neg big.not_gt

theorem cmdMarkQuery_line {p : List Byte} {s : State} {l : Line} (h : leValue p = l.toNat) : cmdMarkQuery p s =
    respond (.done (leBytes 1 (if s.marked l then 1 else 2) ++ leBytes 2 (setIndex l).toNat ++ leBytes 1 (s.setCount l))) s := by
  rw [cmdMarkQuery, h, if_pos l.isLt, BitVec.ofNat_toNat, BitVec.setWidth_eq]

theorem exec_windowRead {f : Frame} {s : State} {a : Answer} (taken : s.takes 0x21 f)
    (command : ∀ x w, cmdWindowRead f.payload (s.withExchange x w) = respond a (s.withExchange x w)) :
    exec (.windowRead f) s = .next (s.answers f a) := whenRunning_answers taken (State.takes_idle taken) command

theorem cmdWindowRead_big {p : List Byte} {s : State} (big : 16 ≤ leValue p) : cmdWindowRead p s = respond (.refused .badValue) s :=
  dif_neg big.not_gt

theorem cmdWindowRead_window {p : List Byte} {s : State} {i : Fin 16} (h : leValue p = i.val) :
    cmdWindowRead p s = respond (.done s.windows[i].payload) s := by
  have small : leValue p < 16 := h ▸ i.isLt
  rw [cmdWindowRead, dif_pos small]
  congr 4

theorem exec_segQuery {f : Frame} {s : State} {a : Answer} (taken : s.takes 0x54 f)
    (command : ∀ x w, cmdSegQuery f.payload (s.withExchange x w) = respond a (s.withExchange x w)) :
    exec (.segQuery f) s = .next (s.answers f a) := whenRunning_answers taken (State.takes_idle taken) command

theorem cmdSegQuery_big {p : List Byte} {s : State} (big : 1023 < leValue p) : cmdSegQuery p s = respond (.refused .badValue) s :=
  if_pos big

theorem cmdSegQuery_past {p : List Byte} {s : State} (small : leValue p ≤ 1023) (past : s.journal.map.length ≤ leValue p) :
    cmdSegQuery p s = respond (.done (leBytes 2 s.journal.map.length ++ leBytes 1 0)) s := by
  rw [cmdSegQuery, if_neg small.not_gt, List.getElem?_eq_none past]

theorem cmdSegQuery_entry {p : List Byte} {s : State} {e : Segment} (small : leValue p ≤ 1023)
    (there : s.journal.map[leValue p]? = some e) : cmdSegQuery p s = respond (.done (s.segmentPayload e)) s := by
  rw [cmdSegQuery, if_neg small.not_gt, there]

/-- R98: the flag of a settled entry, in the words of the statement. -/
theorem settledFlag_eq (e : Segment) (s : State) : flagCode (decide (e.state = .filled) && s.settled e) =
    if e.state = .filled ∧ s.settled e = true then 1 else 0 := by
  simp [flagCode]

theorem physicalBytes_eq (p : Phys) : 1 :: leBytes 1 p.toNat = [1, p] := by
  rw [leBytes, BitVec.ofNat_toNat, BitVec.setWidth_eq]; rfl

/-- Settles O46: each query by its range; the bytes are those of the model but for how the codes are spelled. -/
theorem tablesQueried : Obligations.TablesQueried := by
  refine ⟨fun s f l taken => ⟨fun big => ?markBig, fun value => ?mark⟩, fun s f taken => ⟨fun big => ?windowBig, fun i value => ?window⟩,
    fun s f taken => ⟨fun big => ?segBig, fun small past => ?segPast, fun e small there => ?seg⟩⟩
  case markBig => exact exec_markQuery taken fun x w => cmdMarkQuery_big big
  case mark =>
    rw [exec_markQuery taken fun x w => by rw [cmdMarkQuery_line value, withExchange_marked, withExchange_setCount]]
    simp only [marked_iff]
    rfl
  case windowBig => exact exec_windowRead taken fun x w => cmdWindowRead_big big
  case window =>
    rw [exec_windowRead taken fun x w => by rw [cmdWindowRead_window value, withExchange_windows]]
    rfl
  case segBig => exact exec_segQuery taken fun x w => cmdSegQuery_big big
  case segPast =>
    exact exec_segQuery taken fun x w => cmdSegQuery_past (s := s.withExchange x w) small past
  case seg =>
    have row : exec (.segQuery f) s = .next (s.answers f (.done (s.segmentPayload e))) :=
      exec_segQuery taken fun x w => cmdSegQuery_entry (s := s.withExchange x w) small there
    rw [row, State.segmentPayload, settledFlag_eq]
    obtain ⟨q, st, phys, first, count⟩ := e
    cases phys with
    | none => cases st <;> rfl
    | some p => simp only [physicalBytes_eq]; cases st <;> rfl

/-! ### EVENT_POP (R166) -/

theorem exec_eventPop_empty {f : Frame} {s : State} (taken : s.takes 0x13 f) (empty : s.service.events = []) :
    exec (.eventPop f) s = .next (s.answers f (.refused .empty)) :=
  whenRunning_answers (run := cmdEventPop) taken (State.takes_idle taken) fun x w => by
    rw [cmdEventPop, withExchange_events, empty]

theorem exec_eventPop_cons {f : Frame} {s : State} {e : Event} {rest : List Event} (taken : s.takes 0x13 f)
    (front : s.service.events = e :: rest) : exec (.eventPop f) s =
      .next ((s.setService { s.service with events := s.afterPop rest, dropped := 0 }).answers f
        (.done (e.payload (s.afterPop rest).length))) :=
  whenRunning_answers (run := cmdEventPop) (t := s.setService { s.service with events := s.afterPop rest, dropped := 0 }) taken
    (State.takes_idle taken) fun x w => by
      rw [cmdEventPop, withExchange_events, front]; rfl

theorem leBytes_length (n v : Nat) : (leBytes n v).length = n := by
  induction n generalizing v with
  | zero => rfl
  | succ n ih => rw [leBytes, List.length_cons, ih]

theorem argumentSlot_length (a : Option (List Byte)) : (argumentSlot a).length = 9 := by
  cases a with
  | none => rfl
  | some bytes => simp [argumentSlot, leBytes_length]

theorem epochBytes_eq (n : Option EpochNo) : epochBytes n = leBytes 2 ((n.map BitVec.toNat).getD 0) := by cases n <;> rfl

theorem payload_length (e : Event) (left : Nat) : (e.payload left).length = 26 := by
  simp [Event.payload, epochBytes_eq, leBytes_length, argumentSlot_length]

/-- Settles O47: the queue after the pop by the dropped count; the payload by its kind. -/
theorem eventPopped : Obligations.EventPopped := by
  refine ⟨fun s f taken => ⟨exec_eventPop_empty taken, fun e rest front => ⟨fun none' => ?_, fun some' => ?_⟩⟩, fun e left =>
    ⟨e.kind.code, e.kind.first, e.kind.second, argumentSlot, rfl, fun _ => rfl, ?_, payload_length e left, ?_⟩⟩
  · have after : s.afterPop rest = rest := if_pos none'
    rw [exec_eventPop_cons taken front, after, ← none']
  · have after : s.afterPop rest = _ := if_neg some'
    rw [exec_eventPop_cons taken front, after, List.length_append, List.length_singleton]
  · rw [Event.payload, epochBytes_eq]
  · obtain ⟨kind, time, epoch⟩ := e
    cases kind with
    | epochBroken reason depth => cases reason <;> exact ⟨rfl, rfl, rfl⟩
    | rollbackFailed reason kept => cases reason <;> exact ⟨rfl, rfl, rfl⟩
    | holdChanged inForce free => cases inForce <;> exact ⟨rfl, rfl, rfl⟩
    | memFault bad origin line tag => cases bad <;> cases origin <;> exact ⟨rfl, rfl, rfl⟩
    | lateCompletion tag quarantined => cases quarantined <;> exact ⟨rfl, rfl, rfl⟩
    | coreResetDone controller command depth =>
      rcases command with _ | command
      · cases controller <;> exact ⟨rfl, rfl, rfl⟩
      · cases controller <;> cases command <;> exact ⟨rfl, rfl, rfl⟩
    | _ => exact ⟨rfl, rfl, rfl⟩

/-! ### LEND (R86, R87) -/

/-- R86: the choice is the first `n` of the lendable entries. -/
theorem chooseLent_eq (s : State) : ∀ (l : List Segment) (n : Nat), chooseLent s n l = (l.filter fun e => s.lendable e).take n
  | [], n => by cases n <;> rfl
  | e :: rest, 0 => rfl
  | e :: rest, n + 1 => by
    rw [chooseLent, List.filter_cons]
    split
    · rw [List.take_succ_cons, chooseLent_eq s rest n]
    · exact chooseLent_eq s rest (n + 1)

/-- R86, R73: what LEND selects, in the words of the statement. -/
theorem lendable_iff {s : State} {e : Segment} : s.lendable e = true ↔ e.state = .filled ∧ s.settled e = true ∧
    ((s.epochs.controller = .replay ∨ s.epochs.controller = .refillWait) →
      ∃ c q, s.replay.context = some c ∧ c.current = some q ∧ seqOlder e.q q = true) := by
  rw [State.lendable, Bool.and_eq_true, Bool.and_eq_true, decide_eq_true_eq, and_assoc]
  refine and_congr_right fun _ => and_congr_right fun _ => ?_
  split
  · next walks =>
    rw [imp_iff_right walks]
    split
    · next q current =>
      obtain ⟨c, context, current⟩ := Option.bind_eq_some_iff.mp current
      refine ⟨fun older => ⟨c, q, context, current, older⟩, fun ⟨c', q', context', current', older⟩ => ?_⟩
      obtain rfl := Option.some.inj (context.symm.trans context')
      obtain rfl := Option.some.inj (current.symm.trans current')
      exact older
    · next none' =>
      refine iff_of_false Bool.false_ne_true fun ⟨c, q, context, current, _⟩ => ?_
      rw [context, Option.bind_some, current] at none'
      cases none'
  · next still => exact iff_of_true rfl fun walks => absurd walks still

theorem cmdLend_bad {p : List Byte} {s : State} (bad : leValue p < 1 ∨ 16 < leValue p) :
    cmdLend p s = respond (.refused .badValue) s := if_pos bad

theorem cmdLend_good {p : List Byte} {s : State} (good : ¬ (leValue p < 1 ∨ 16 < leValue p)) : cmdLend p s =
    respond (.done (leBytes 1 (chooseLent s (leValue p) s.journal.map).length ++
      (chooseLent s (leValue p) s.journal.map).flatMap lentItem)) (lendAll (chooseLent s (leValue p) s.journal.map) s) :=
  if_neg good

/-- R86: the entries chosen, named by their logical numbers. -/
theorem lendAll_eq (chosen : List Segment) (s : State) : lendAll chosen s = s.setJournal { s.journal with
    map := s.journal.map.map fun e => if e.q ∈ chosen.map (·.q) then { e with state := .lent } else e } := by
  have named (e : Segment) : chosen.any (fun x => x.q == e.q) = true ↔ e.q ∈ chosen.map (·.q) := by simp
  simp only [lendAll, setMap, named]

theorem lendAll_withExchange (x : Exchange) (w : Option Work) (chosen : List Segment) (s : State) :
    lendAll chosen (s.withExchange x w) = (lendAll chosen s).withExchange x w := rfl

/-- Settles O53: the selection is `lendable_iff`, the choice its first `n`. -/
theorem segmentsLent : Obligations.SegmentsLent := by
  rintro s f n taken rfl
  have idle := State.takes_idle taken
  refine ⟨fun bad => ?bad, fun selects chosen least most spec hc => ?good⟩
  case bad => exact whenRunning_answers (run := cmdLend) taken idle fun x w => cmdLend_bad bad
  case good =>
    have same : selects = fun e => s.lendable e := funext fun e => Bool.eq_iff_iff.mpr ((spec e).trans lendable_iff.symm)
    rw [same, ← chooseLent_eq] at hc
    have row : exec (.lend f) s = .next ((lendAll chosen s).answers f (.done (leBytes 1 chosen.length ++ chosen.flatMap lentItem))) :=
      whenRunning_answers (run := cmdLend) (t := lendAll chosen s) taken idle fun x w => by
        rw [cmdLend_good (by omega), withExchange_journal, chooseLent_withExchange, ← hc, lendAll_withExchange]
    rw [row, lendAll_eq]
    rfl

end Sys2Proof.Machine
end

section
/-! PROOF. A break of the top epoch (R36, R58), the full-wait timer (R110, R111), the drain (R29), and the epoch commands CHECKPOINT,
COMMIT, ROLLBACK and ABANDON (R31, R33, R38, R63). -/

namespace Sys2Proof.Machine

/-! ### What going to issue depends on (R44, R147) -/

/-- The two states issue requests alike. -/
structure SameIssue (s t : State) : Prop where
  table : t.host.table = s.host.table
  memIf : t.memIf = s.memIf
  timebase : t.timebase = s.timebase
  params : t.service.params = s.service.params

theorem setEntryState_sameIssue (st : EntryState) (id : HostId) {s t : State} (h : SameIssue s t) :
    SameIssue (setEntryState st id s) (setEntryState st id t) :=
  ⟨congrArg (List.map fun e : Entry => if e.id = id then ({ e with state := st } : Entry) else e) h.table, h.memIf, h.timebase, h.params⟩

theorem setMemIf_sameIssue (m : MemoryIf) {s t : State} (h : SameIssue s t) : SameIssue (s.setMemIf m) (t.setMemIf m) :=
  ⟨h.table, rfl, h.timebase, h.params⟩

theorem issue_sameIssue (g : Fin 64) (r : MemRequest) {s t : State} (h : SameIssue s t) : SameIssue (issue g r s) (issue g r t) := by
  have tagged : SameIssue
      (s.setMemIf { s.memIf with tags := s.memIf.tags.set g (.outstanding r (s.timebase + BitVec.ofNat 32 s.service.params.memTimeout)) })
      (t.setMemIf { t.memIf with tags := t.memIf.tags.set g (.outstanding r (t.timebase + BitVec.ofNat 32 t.service.params.memTimeout)) }) := by
    rw [h.memIf, h.timebase, h.params]
    exact setMemIf_sameIssue _ h
  unfold issue markIssued
  split
  · exact setEntryState_sameIssue _ _ tagged
  · exact setEntryState_sameIssue _ _ tagged
  · exact tagged

theorem handOver_sameIssue (r : MemRequest) {s t : State} (h : SameIssue s t) : SameIssue (handOver r s) (handOver r t) := by
  have queued : SameIssue (queueForTag r s) (queueForTag r t) := by
    rw [queueForTag, queueForTag, h.memIf]
    exact setMemIf_sameIssue _ h
  have tag : t.freeTag = s.freeTag := by rw [State.freeTag, State.freeTag, h.memIf]
  unfold handOver
  rw [h.memIf, tag]
  split
  · split
    · exact issue_sameIssue _ r h
    · exact queued
  · exact queued

theorem goToIssue_sameIssue (id : HostId) {s t : State} (h : SameIssue s t) : SameIssue (goToIssue id s) (goToIssue id t) := by
  have entry : t.entry id = s.entry id := by rw [State.entry, State.entry, h.table]
  unfold goToIssue
  rw [entry]
  split
  · exact h
  · exact handOver_sameIssue _ (setEntryState_sameIssue _ _ h)

theorem issueAll_sameIssue (ids : List HostId) {s t : State} (h : SameIssue s t) : SameIssue (issueAll ids s) (issueAll ids t) := by
  induction ids generalizing s t with
  | nil => exact h
  | cons id rest ih => exact ih (goToIssue_sameIssue id h)

/-- Entries of `s` that go to issue in a state that issues alike, in the words of the statements. -/
theorem issueAll_issuesAll {s t : State} (names : (s.host.table.map (·.id)).Nodup) (h : SameIssue s t) (p : Entry → Bool) :
    ∃ u, s.issuesAll (s.host.table.filter p) u ∧ (issueAll ((s.host.table.filter p).map (·.id)) t).host.table = u.host.table ∧
      (issueAll ((s.host.table.filter p).map (·.id)) t).memIf = u.memIf := by
  have same := issueAll_sameIssue ((s.host.table.filter p).map (·.id)) h
  exact ⟨_, (issuesAll_iff fun e he => keeps_of_mem names (List.mem_of_mem_filter he)).mpr rfl, same.table, same.memIf⟩

/-! ### A break of the top epoch (R36, R58) -/

theorem breakTop_none {s : State} (empty : s.epochs.stack = []) (r : BrokenReason) : breakTop r s = s := by
  rw [breakTop, empty]

theorem breakTop_broken {s : State} {e : Epoch} {rest : List Epoch} (stack : s.epochs.stack = e :: rest) (broken : e.broken ≠ none)
    (r : BrokenReason) : breakTop r s = s := by
  rw [breakTop, stack]
  exact if_neg broken

section Break
variable {s : State} {e : Epoch} {rest : List Epoch} (stack : s.epochs.stack = e :: rest) (opened : e.broken = none) (r : BrokenReason)
include stack opened

/-- What a break leaves beside the paths of entries and the slots. -/
theorem breakTop_path : SameButPaths ((((post (some e.number) (.epochBroken r s.depth) s).setEpochs
    { s.epochs with stack := { e with broken := some r } :: rest }).setJournal { s.journal with waiting := [] }).setSpace
      { s.space with fullWaits := [] }) (breakTop r s) := by
  have path := brokenNotice_path (post (some e.number) (.epochBroken r s.depth) (setStack ({ e with broken := some r } :: rest) s))
  rw [← breakTop_open stack opened r, setStack, post_setEpochs] at path
  simpa using path

theorem breakTop_capture : (breakTop r s).capture = { s.capture with slots := s.capture.slots.map noticeSlot, slotQueue := [] } := by
  rw [breakTop_open stack opened, brokenNotice_capture, post_capture]
  rfl

theorem breakTop_waiters : ∀ x ∈ (breakTop r s).host.table, x.state ≠ .slotWait ∧ x.state ≠ .spaceWait := by
  rw [breakTop_open stack opened]
  exact brokenNotice_waiters _

/-- R58: the entries in SLOT_WAIT and SPACE_WAIT go to issue in arrival order. -/
theorem breakTop_issues (names : (s.host.table.map (·.id)).Nodup) : ∃ u,
    s.issuesAll (s.host.table.filter fun x => decide (x.state = .slotWait ∨ x.state = .spaceWait)) u ∧
      (breakTop r s).host.table = u.host.table ∧ (breakTop r s).memIf = u.memIf := by
  have waiters : (post (some e.number) (.epochBroken r s.depth) (setStack ({ e with broken := some r } :: rest) s)).captureWaiters =
      (s.host.table.filter fun x => decide (x.state = .slotWait ∨ x.state = .spaceWait)).map (·.id) := by
    simp only [State.captureWaiters, post_host, Bool.decide_or]
    rfl
  rw [breakTop_open stack opened, brokenNotice, waiters]
  exact issueAll_issuesAll names ⟨by simp [setStack], by simp [setStack], by simp [setStack], by simp [setStack]⟩ _

end Break

theorem noticeSlot_eq (x : Option Slot) : noticeSlot x = match x with
    | none => none
    | some sl => if sl.stage = .read then some { sl with stage := .discard } else if sl.stage = .space then none else some sl := by
  rcases x with _ | ⟨entry, line, stage, data⟩
  · rfl
  · cases stage <;> rfl

/-- Settles O12: the break of an OPEN top epoch, block by block. -/
theorem breakRequest : Obligations.BreakRequest := by
  refine fun r s => ⟨fun empty => breakTop_none empty r, fun e rest stack =>
    ⟨fun broken => breakTop_broken stack broken r, fun opened => ?_⟩⟩
  have path := breakTop_path stack opened r
  have capture := breakTop_capture stack opened r
  refine ⟨_, rfl, path.epochs, path.service, by rw [capture], by rw [capture], by rw [capture], fun i => ?_, path.journal, path.space,
    breakTop_waiters stack opened r, breakTop_issues stack opened r, ?_, ?_, ?_, ?_, ?_, ?_⟩
  · exact Eq.trans (by rw [capture]; simp) (noticeSlot_eq s.capture.slots[i])
  · simpa using path.entries
  · simpa using path.sendQueue
  · simpa using path.windows
  · simpa using path.replay
  · simpa using path.timebase
  · simpa using path.pending

/-! ### The full-wait timer (R110, R111) -/

theorem fullWaitExpires_running {id : HostId} {x : Tick} {s : State}
    (running : s.space.fullWaits.find? (fun w => decide (w.1 = id)) = some (id, x)) :
    fullWaitExpires id s = breakTop .full (stopFullWait id (advanceTo x s)) := by
  rw [fullWaitExpires, State.fullWaitOf, running]
  rfl

end Sys2Proof.Machine

namespace Sys2Proof
open Machine

/-- Settles O41: the timer's row is a break, whose effect on an OPEN top epoch is that of `breakTop_path`. -/
theorem fullWaitExpires : Obligations.FullWaitExpires := by
  intro s id x running timer
  obtain ⟨y, clock⟩ := advanceTo_eq x s
  have row : exec (.fullWaitExpiry id) s = .next (breakTop .full ((advanceTo x s).setSpace { s.space with
      fullWaits := s.space.fullWaits.filter fun w => decide (w.1 ≠ id) })) := by
    rw [exec_fullWaitExpiry, whenRunning_running running, fullWaitExpires_running timer, clock]
    rfl
  refine ⟨row, fun e rest stack opened => ⟨_, row, ?_⟩⟩
  rw [clock]
  have path := breakTop_path (s := (s.setTimebase y).setSpace { s.space with
    fullWaits := s.space.fullWaits.filter fun w => decide (w.1 ≠ id) }) stack opened .full
  refine ⟨by rw [path.epochs]; rfl, by rw [path.journal]; rfl, by rw [path.space]; rfl,
    fun x hx => (breakTop_waiters (by exact stack) opened .full x hx).2, ?_⟩
  rw [path.service]
  simp [State.depth]

end Sys2Proof
end

section
/-! PROOF. The epoch commands that start a drain (R29 to R33, R63) and ABANDON (R38, R82). -/

namespace Sys2Proof.Machine

/-! ### Any row of the service link whose command answers at once (R158) -/

section Answers
variable {c : Instr} {code : Byte} {f : Frame} {s t : State} {a : Answer}

theorem exec_frame_answers (row : frameOf c = some (code, f)) (taken : s.takes code f) (settled : s.holdSettled)
    (idle : t.service.work = none)
    (command : ∀ x w, runCommand code f.payload (s.withExchange x w) = respond a (t.withExchange x w)) :
    exec c s = .next ((settleHold s t).answers f a) := by
  have running : s.inReset = false := by
    obtain ⟨running, -⟩ := taken
    exact running
  exact (exec_frame row running settled).trans
    ((whenRunning_running running _).symm.trans (whenRunningSpaced_answers taken idle command))

theorem exec_frame_answers_same (row : frameOf c = some (code, f)) (taken : s.takes code f) (settled : s.holdSettled)
    (idle : t.service.work = none)
    (command : ∀ x w, runCommand code f.payload (s.withExchange x w) = respond a (t.withExchange x w))
    (same : settleHold s t = t) : exec c s = .next (t.answers f a) := by
  rw [exec_frame_answers row taken settled idle command, same]

/-- An answer that is all the command does. -/
theorem exec_frame_says (row : frameOf c = some (code, f)) (taken : s.takes code f) (settled : s.holdSettled)
    (command : ∀ x w, runCommand code f.payload (s.withExchange x w) = respond a (s.withExchange x w)) :
    exec c s = .next (s.answers f a) :=
  exec_frame_answers_same row taken settled (State.takes_idle taken) command (settleHold_of_same settled rfl rfl rfl)

end Answers

/-! ### The drain (R29) -/

theorem Entry.counts_eq_false {c : PendingCommand} {e : Entry} :
    e.counts c = false ↔ ((c = .rollback ∨ e.write ≠ none) → e.pastGate = false) := by
  cases c <;> cases past : e.pastGate <;> cases write : e.write <;> simp [Entry.counts, Entry.isWrite, past, write]

theorem drainCount_eq_zero {c : PendingCommand} {s : State} :
    s.drainCount c = 0 ↔ ∀ e ∈ s.host.table, (c = .rollback ∨ e.write ≠ none) → e.pastGate = false := by
  simp only [State.drainCount, List.length_eq_zero_iff, List.filter_eq_nil_iff, Bool.not_eq_true, Entry.counts_eq_false]

theorem blockOutstanding_eq_false {p : Phys} {s : State} :
    s.blockOutstanding p = false ↔ ∀ o ∈ s.journal.outstanding, o.2.blockSegment ≠ some p := by
  simp [State.blockOutstanding]

theorem drainComplete_iff {c : PendingCommand} {s : State} (running : s.service.coreReset = none)
    (draining : s.epochs.controller = .draining) (pending : s.epochs.command = some c) : s.drainComplete = true ↔
      (∀ e ∈ s.host.table, (c = .rollback ∨ e.write ≠ none) → e.pastGate = false) ∧
      (c = .commit → s.depth = 1 → ∀ e ∈ s.journal.map, ∀ p, e.state = .lent → e.physical = some p →
        ∀ o ∈ s.journal.outstanding, o.2.blockSegment ≠ some p) := by
  rw [State.drainComplete, running, pending, ← drainCount_eq_zero]
  simp only [draining, decide_true, Option.isNone_none, Bool.true_and, Bool.and_eq_true, decide_eq_true_eq, Bool.not_eq_true',
    Bool.and_eq_false_iff, decide_eq_false_iff_not, List.any_eq_false, ← blockOutstanding_eq_false]
  refine and_congr_right fun _ => ⟨fun none' isCommit one e he p lent phys => ?_, fun none' => ?_⟩
  · rcases none' with (no | no) | no
    · exact absurd isCommit no
    · exact absurd one no
    · simpa [lent, phys] using no e he
  · by_cases both : c = .commit ∧ s.depth = 1
    · refine .inr fun e he => ?_
      cases phys : e.physical with
      | none => simp
      | some p => simpa using fun lent => none' both.1 both.2 e he p lent phys
    · exact .inl (not_and_or.mp both)

/-! ### A drain started (R29, R30) -/

theorem settleDrain_work (s : State) : (settleDrain s).service.work = s.service.work :=
  (exchange_kept (f := settleDrain) (fun _ _ _ => settleDrain_withExchange _ _ _) s).2

section Start
variable {c : Instr} {code : Byte} {f : Frame} {s u : State} {k : PendingCommand}

/-- A taken command is answered STARTED, in the state that its drain leaves. -/
theorem exec_startDrain (row : frameOf c = some (code, f)) (taken : s.takes code f) (settled : s.holdSettled)
    (hu : u = s.setEpochs { s.epochs with controller := .draining, command := some k })
    (command : ∀ x w, runCommand code f.payload (s.withExchange x w) = startDrain k (s.withExchange x w)) :
    exec c s = .next ((settleHold s (settleDrain u)).answers f .started) := by
  refine exec_frame_answers row taken settled ?_ fun x w => (command x w).trans ?_
  · rw [settleDrain_work, hu]
    exact State.takes_idle taken
  · rw [startDrain, setController_withExchange, settleDrain_withExchange, hu]
    rfl

/-- The row of the drain of a pending command. -/
def PendingCommand.drainRow : PendingCommand → Instr
  | .checkpoint => .checkpointDrainComplete
  | .commit => .commitDrainComplete
  | .rollback => .rollbackDrainComplete

/-- While the drain waits the command answers STARTED alone; at once complete, it answers STARTED in the state that the drain's
own row leaves. -/
theorem exec_startDrain_drains (row : frameOf c = some (code, f)) (taken : s.takes code f) (settled : s.holdSettled)
    (hu : u = s.setEpochs { s.epochs with controller := .draining, command := some k })
    (command : ∀ x w, runCommand code f.payload (s.withExchange x w) = startDrain k (s.withExchange x w)) :
    (u.drainComplete = false → exec c s = .next (u.answers f .started)) ∧
    (u.drainComplete = true → ∃ v, exec k.drainRow u = .next v ∧ exec c s = .next (v.answers f .started)) := by
  have started := exec_startDrain row taken settled hu command
  subst hu
  refine ⟨fun waits => ?_, fun _ => ⟨_, Eq.symm ?_, started⟩⟩
  · rw [started, settleDrain_notDue waits]
    exact congrArg (fun v : State => Host.Outcome.next (v.answers f .started)) (settleHold_of_same settled rfl rfl rfl)
  · have running : s.inReset = false := by
      obtain ⟨running, -⟩ := taken
      exact running
    obtain ⟨checkpoint, commit, rollback⟩ := settleDrain_row (s := s)
      (v := s.setEpochs { s.epochs with controller := .draining, command := some k })
      running ⟨⟨rfl, rfl, rfl⟩, rfl, rfl, rfl, rfl⟩ settled rfl
    cases k with
    | checkpoint => exact checkpoint rfl
    | commit => exact commit rfl
    | rollback => exact rollback rfl

end Start

theorem topOf_cons {s : State} {e : Epoch} {rest : List Epoch} (stack : s.epochs.stack = e :: rest) : s.top = some e := by
  rw [State.top, stack]; rfl

theorem top_eq_none {s : State} (stack : s.epochs.stack = []) : s.top = none := by
  rw [State.top, stack]; rfl

theorem depth_eq_zero {s : State} : s.depth = 0 ↔ s.epochs.stack = [] := List.length_eq_zero_iff

section Commands
variable {p : List Byte} {s : State} {e : Epoch}

theorem cmdCheckpoint_busy (busy : s.epochs.controller ≠ .idle) : cmdCheckpoint p s = respond .busy s := if_pos busy

theorem cmdCheckpoint_mode (idle : s.epochs.controller = .idle) (mode : s.service.mode = .bypass) :
    cmdCheckpoint p s = respond (.refused .mode) s := by
  rw [cmdCheckpoint, if_neg (not_not.mpr idle), if_pos mode]

theorem cmdCheckpoint_idle (idle : s.epochs.controller = .idle) (mode : s.service.mode = .active) : cmdCheckpoint p s =
    if 8 ≤ s.depth then respond (.refused .depth) s else startDrain .checkpoint s := by
  rw [cmdCheckpoint, if_neg (not_not.mpr idle), if_neg (by rw [mode]; decide)]
  rfl

theorem cmdCommit_busy (busy : s.epochs.controller ≠ .idle) : cmdCommit p s = respond .busy s := if_pos busy

theorem cmdCommit_idle (idle : s.epochs.controller = .idle) : cmdCommit p s =
    if s.depth = 0 then respond (.refused .noEpoch) s else startDrain .commit s := if_neg (not_not.mpr idle)

theorem cmdRollback_busy (notIdle : s.epochs.controller ≠ .idle) (notStopped : s.epochs.controller ≠ .stopped) :
    cmdRollback p s = respond .busy s := by
  unfold cmdRollback
  split <;> simp_all

theorem cmdRollback_noEpoch (rests : s.epochs.controller = .idle ∨ s.epochs.controller = .stopped) (none' : s.top = none) :
    cmdRollback p s = respond (.refused .noEpoch) s := by
  rcases rests with idle | stopped
  · simp only [cmdRollback, idle, none']
  · simp only [cmdRollback, stopped, none']

theorem cmdRollback_broken (rests : s.epochs.controller = .idle ∨ s.epochs.controller = .stopped) (top : s.top = some e)
    (broken : e.broken ≠ none) : cmdRollback p s = respond (.refused .unrecoverable) s := by
  rcases rests with idle | stopped
  · simp only [cmdRollback, idle, top, broken, if_false]
  · simp only [cmdRollback, stopped, top, broken, if_false]

theorem cmdRollback_idle (idle : s.epochs.controller = .idle) (top : s.top = some e) (opened : e.broken = none) :
    cmdRollback p s = startDrain .rollback s := by
  simp only [cmdRollback, idle, top, opened, if_true]

theorem cmdRollback_stopped (stopped : s.epochs.controller = .stopped) (top : s.top = some e) (opened : e.broken = none) :
    cmdRollback p s = respond .started (resumeRollback e s) := by
  simp only [cmdRollback, stopped, top, opened, if_true]

end Commands

/-- Settles O51: the checks of each command in their order, and for a taken one the drain of its own row. -/
theorem epochCommandsTaken : Obligations.EpochCommandsTaken := by
  refine ⟨fun s c running draining pending => drainComplete_iff running draining pending, fun s f settled =>
    ⟨fun taken => ?checkpoint, fun taken => ?commit, fun taken => ?rollback⟩⟩
  case checkpoint =>
    have plain {a : Answer} := exec_frame_says (a := a) (c := .checkpoint f) rfl taken settled
    refine ⟨fun busy => plain fun x w => cmdCheckpoint_busy (p := f.payload) (s := s.withExchange x w) busy,
      fun idle mode => plain fun x w => cmdCheckpoint_mode (p := f.payload) (s := s.withExchange x w) idle mode,
      fun idle mode deep => plain fun x w =>
        (cmdCheckpoint_idle (p := f.payload) (s := s.withExchange x w) idle mode).trans (if_pos deep),
      fun u idle mode room hu => exec_startDrain_drains rfl taken settled hu fun x w =>
        (cmdCheckpoint_idle (p := f.payload) (s := s.withExchange x w) idle mode).trans (if_neg (Nat.not_le.mpr room))⟩
  case commit =>
    have plain {a : Answer} := exec_frame_says (a := a) (c := .commit f) rfl taken settled
    refine ⟨fun busy => plain fun x w => cmdCommit_busy (p := f.payload) (s := s.withExchange x w) busy,
      fun idle empty => plain fun x w => (cmdCommit_idle (p := f.payload) (s := s.withExchange x w) idle).trans (if_pos empty),
      fun u idle deep hu => exec_startDrain_drains rfl taken settled hu fun x w =>
        (cmdCommit_idle (p := f.payload) (s := s.withExchange x w) idle).trans (if_neg deep)⟩
  case rollback =>
    have plain {a : Answer} := exec_frame_says (a := a) (c := .rollback f) rfl taken settled
    refine ⟨fun notIdle notStopped => plain fun x w =>
        cmdRollback_busy (p := f.payload) (s := s.withExchange x w) notIdle notStopped,
      fun rests empty => plain fun x w =>
        cmdRollback_noEpoch (p := f.payload) (s := s.withExchange x w) rests (top_eq_none empty),
      fun e rest stack => ⟨fun rests broken => plain fun x w =>
        cmdRollback_broken (p := f.payload) (s := s.withExchange x w) rests (topOf_cons stack) broken, ?_⟩⟩
    exact fun u idle opened hu => exec_startDrain_drains rfl taken settled hu fun x w =>
      cmdRollback_idle (p := f.payload) (s := s.withExchange x w) idle (topOf_cons stack) opened

/-! ### ABANDON (R38, R82) -/

/-- R38: the stack with the top epoch BROKEN for reason `r`, or for the reason it had. -/
theorem breakTop_epochs {s : State} {e : Epoch} {rest : List Epoch} (stack : s.epochs.stack = e :: rest) (r : BrokenReason) :
    (breakTop r s).epochs = { s.epochs with
      stack := { e with broken := if e.broken = none then some r else e.broken } :: rest } := by
  by_cases opened : e.broken = none
  · rw [breakTop_open stack opened, if_pos opened, (brokenNotice_path _).epochs]
    simp [setStack]
  · rw [breakTop_broken stack opened, if_neg opened, ← stack]

theorem breakTop_replay (r : BrokenReason) (s : State) : (breakTop r s).replay = s.replay := by
  cases stack : s.epochs.stack with
  | nil => rw [breakTop_none stack]
  | cons e rest =>
    by_cases opened : e.broken = none
    · rw [breakTop_open stack opened, (brokenNotice_path _).replay]
      simp [setStack]
    · rw [breakTop_broken stack opened]

theorem breakTop_work (r : BrokenReason) (s : State) : (breakTop r s).service.work = s.service.work :=
  (exchange_kept (f := breakTop r) (fun _ _ _ => breakTop_withExchange _ _ _ _) s).2

theorem abandonStopped_withExchange (x : Exchange) (w : Option Work) (s : State) :
    abandonStopped (s.withExchange x w) = (abandonStopped s).withExchange x w := by
  simp [abandonStopped]

theorem exec_abandon {f : Frame} {s t : State} {a : Answer} (taken : s.takes 0x32 f) (idle : t.service.work = none)
    (command : ∀ x w, cmdAbandon f.payload (s.withExchange x w) = respond a (t.withExchange x w)) :
    exec (.abandon f) s = .next (t.answers f a) := whenRunning_answers taken idle command

/-- Settles O52: in STOPPED the break is followed by the end of the rollback and the release of the PARKED entries. -/
theorem epochAbandoned : Obligations.EpochAbandoned := by
  refine fun s f taken => ⟨fun busy => exec_abandon taken (State.takes_idle taken) fun x w => ?busy,
    fun rests empty => exec_abandon taken (State.takes_idle taken) fun x w => ?empty,
    fun e rest stack => ⟨fun idle => ⟨exec_abandon taken ((breakTop_work _ _).trans (State.takes_idle taken)) fun x w => ?idle, ?top⟩,
      fun stopped => ⟨_, rfl, ?stopped, releaseParked_none _⟩⟩⟩
  case busy =>
    rcases busy with state | state | state <;> simp only [cmdAbandon, withExchange_epochs, state]
  case empty =>
    have zero := depth_eq_zero.mpr empty
    rcases rests with state | state <;> simp only [cmdAbandon, withExchange_epochs, withExchange_depth, state, zero, if_true]
  case idle =>
    have deep : s.depth ≠ 0 := by simp [State.depth, stack]
    simp only [cmdAbandon, withExchange_epochs, withExchange_depth, idle, deep, if_false, breakTop_withExchange]
  case top => rw [breakTop_epochs stack]
  case stopped =>
    have deep : s.depth ≠ 0 := by simp [State.depth, stack]
    have left : abandonStopped s = releaseParked (((breakTop .abandoned s).setReplay { s.replay with context := none }).setEpochs
        { s.epochs with
          stack := { e with broken := if e.broken = none then some .abandoned else e.broken } :: rest
          controller := .idle
          command := none }) := by
      rw [abandonStopped, setController, setContext, breakTop_replay, State.setReplay_epochs, breakTop_epochs stack]
    rw [← left]
    refine exec_abandon taken ?_ fun x w => ?_
    · rw [(exchange_kept (f := abandonStopped) (fun _ _ _ => abandonStopped_withExchange _ _ _) s).2]
      exact State.takes_idle taken
    · simp only [cmdAbandon, withExchange_epochs, withExchange_depth, stopped, deep, if_false, abandonStopped_withExchange]

end Sys2Proof.Machine
end

section
/-! PROOF. Positions for the append requests that wait (R12 to R14, R110), the segment a waiting refill takes (R74), and the commands
that give segments back (R75, R91, R92, R94). -/

namespace Sys2Proof.Machine

/-! ### The hold where the thresholds ask for no change (R103) -/

theorem evaluateAuto_of_kept {s : State} (kept : s.autoKept s.freeCount) : evaluateAuto s = s := by
  obtain ⟨on, off⟩ := kept
  have same : s.autoAsked = s.space.auto := by
    unfold State.autoAsked
    split
    case isTrue low => exact (on low).symm
    case isFalse high =>
      split
      case isTrue above => exact (off (Nat.lt_of_not_le high) above).symm
      case isFalse => rfl
  rw [evaluateAuto_eq, same]
  rfl

theorem settleHold_of_sameHold {s t : State} (settled : s.holdSettled) (same : SameHold s t) (kept : s.autoKept t.freeCount) :
    settleHold s t = t := by
  rw [settleHold, evaluateAuto_of_kept ((same.toSameAuto.autoKept _).mpr kept), ite_self]
  exact announceHold_told (same.holdSettled settled).symm

/-! ### One position (R1, R12, R13, R25) -/

/-- R12: the place taken in the newest entry. -/
theorem takePlace_newest {r : AppendRequest} {s : State} {others : List Segment} {e : Segment} {p : Phys} {top : Epoch}
    {rest : List Epoch} (map : s.journal.map = others ++ [e]) (ne : ∀ x ∈ others, x.q ≠ e.q) (phys : e.physical = some p)
    (stack : s.epochs.stack = top :: rest) : takePlace r e s =
      ((((s.setCapture { s.capture with
          slots := s.capture.slots.set r.slot (s.capture.slots[r.slot].map fun sl => { sl with stage := .append })
          }).placed r.entry .captureAppend).setJournal
        { s.journal with
          map := others ++ [{ e with count := e.count + 1 }]
          nextSeq := s.journal.nextSeq + 1
          engineQueue := s.journal.engineQueue ++ [.recordWrite r.slot p e.count s.journal.nextSeq e.q
            (buildRecord r.line s.journal.nextSeq top.number r.entry.master s.depth r.data)] }).setEpochs
        { s.epochs with stack := { top with records := top.records + 1 } :: rest }).setSpace
        { s.space with fullWaits := s.space.fullWaits.filter fun w => decide (w.1 ≠ r.entry) } := by
  have number : s.topNumber.getD 0 = top.number := by simp [State.topNumber, State.top, stack]
  have count : (s.journal.map.map fun x => if x.q = e.q then { x with count := x.count + 1 } else x) =
      others ++ [{ e with count := e.count + 1 }] := by rw [map, map_last _ ne]
  simp only [takePlace, count, phys, number, Option.getD_some]
  simp only [countPosition, stopFullWait, setEntryState, updateEntry, setStage, setSlot, State.setSpace_epochs,
    State.setHost_epochs, State.setCapture_epochs, State.setJournal_epochs, stack]
  rfl

theorem filling_newest {s : State} {others : List Segment} {e : Segment} (map : s.journal.map = others ++ [e])
    (none' : ∀ x ∈ others, x.state ≠ .filling) (filling : e.state = .filling) : s.filling = some e := by
  have before : others.find? (fun x => x.state == .filling) = none := by
    rw [List.find?_eq_none]
    exact fun x hx => by simpa using none' x hx
  rw [State.filling, map, List.find?_append, before]
  simp [filling]

/-- What `State.gives` says is what the request is given. -/
theorem givePosition_of_gives {r : AppendRequest} {s t : State} {top : Epoch} {rest : List Epoch} (g : s.gives r top rest t) :
    s.positionExists = true ∧ givePosition r s = t := by
  obtain ⟨others, e, p, free, nextQ, ⟨phys, filling, small, ne⟩, place, stack, rfl⟩ := g
  rcases place with ⟨map, none', rfl, rfl⟩ | ⟨full, room, hfree, rfl, hothers, he⟩
  case inl =>
    have newest := filling_newest map none' filling
    have hasRoom : s.fillingHasRoom = true := by
      rw [State.fillingHasRoom, newest]
      exact decide_eq_true small
    refine ⟨by rw [State.positionExists, hasRoom, Bool.true_or], ?_⟩
    simp only [givePosition, hasRoom, if_true, newest]
    exact takePlace_newest map ne phys stack
  case inr =>
    have space : s.spaceExists = true := by
      rw [State.spaceExists, hfree]
      exact decide_eq_true room
    refine ⟨by rw [State.positionExists, space, Bool.or_true], ?_⟩
    have alloc : allocate s = s.setJournal { s.journal with map := others ++ [e], nextQ := s.journal.nextQ + 1, free := free } := by
      rw [allocate, hfree, hothers, he]
      rfl
    have closed : ∀ x ∈ others, x.state ≠ .filling := fun x hx => by
      have all : others.find? (fun x => x.state == .filling) = none := hothers ▸ find_map_filling
      simpa using List.find?_eq_none.mp all x hx
    have newest : (allocate s).filling = some e := filling_newest (by rw [alloc]; rfl) closed filling
    simp only [givePosition, full, Bool.false_eq_true, if_false, newest]
    rw [takePlace_newest (by rw [alloc]; rfl) ne phys (by rw [alloc]; exact stack), alloc]
    rfl

/-! ### The waiting queue served (R14) -/

theorem serveAppends_withWaiting : ∀ (rs ws : List AppendRequest) (s : State),
    serveAppends rs (s.withWaiting ws) = serveAppends rs s
  | [], _, _ => rfl
  | r :: rest, ws, s => by
    have same : (s.withWaiting ws).positionExists = s.positionExists := rfl
    rw [serveAppends, serveAppends, same, givePosition_withWaiting, serveAppends_withWaiting rest ws]
    rfl

theorem serveWaiting_none {s : State} (idle : s.journal.waiting = []) : serveWaiting s = s := by
  rw [serveWaiting, idle, serveAppends, ← idle]
  rfl

theorem serveWaiting_full {s : State} (full : s.fillingHasRoom = false)
    (noSpace : s.journal.free = [] ∨ 1024 ≤ s.journal.map.length) : serveWaiting s = s := by
  have noPosition : s.positionExists = false := by
    rw [State.positionExists, full, State.spaceExists]
    rcases noSpace with free | entries
    · simp [free]
    · rw [show decide (s.journal.map.length < Config.mapSize) = false from decide_eq_false (Nat.not_lt.mpr entries), Bool.and_false]
      rfl
  cases waiting : s.journal.waiting with
  | nil => exact serveWaiting_none waiting
  | cons r rest =>
    rw [serveWaiting, waiting, serveAppends, noPosition, ← waiting]
    rfl

theorem serveWaiting_gives {r : AppendRequest} {others : List AppendRequest} {s t : State} {top : Epoch} {rest : List Epoch}
    (waiting : s.journal.waiting = r :: others) (g : (s.setJournal { s.journal with waiting := others }).gives r top rest t) :
    serveWaiting s = serveWaiting t := by
  obtain ⟨positions, given⟩ := givePosition_of_gives g
  change (s.withWaiting others).positionExists = true at positions
  change givePosition r (s.withWaiting others) = t at given
  have left : t.journal.waiting = others := by
    rw [← given, givePosition_waiting]
    rfl
  rw [serveWaiting, waiting, serveAppends, serveWaiting, left, ← given, givePosition_withWaiting, serveAppends_withWaiting]
  exact if_pos positions

/-- What positions given to requests leave as it is of the controller, the replay unit and the service interface. -/
structure SameWalk (s t : State) : Prop where
  controller : t.epochs.controller = s.epochs.controller
  replay : t.replay = s.replay
  service : t.service = s.service

theorem SameWalk.walking {s t : State} (same : SameWalk s t) (c : Controller) : t.walking c = s.walking c := by
  rw [State.walking, State.walking, same.controller, same.replay, same.service]

theorem takePlace_sameWalk (r : AppendRequest) (e : Segment) (s : State) : SameWalk s (takePlace r e s) := by
  unfold takePlace countPosition
  split <;> exact ⟨rfl, rfl, rfl⟩

theorem allocate_sameWalk (s : State) : SameWalk s (allocate s) := by
  unfold allocate
  split <;> exact ⟨rfl, rfl, rfl⟩

theorem SameWalk.trans {s t u : State} (a : SameWalk s t) (b : SameWalk t u) : SameWalk s u :=
  ⟨b.controller.trans a.controller, b.replay.trans a.replay, b.service.trans a.service⟩

theorem givePosition_sameWalk (r : AppendRequest) (s : State) : SameWalk s (givePosition r s) := by
  unfold givePosition
  extract_lets u
  have room : SameWalk s u := by
    unfold u
    split
    · exact ⟨rfl, rfl, rfl⟩
    · exact allocate_sameWalk s
  split
  · exact room
  · exact room.trans (takePlace_sameWalk _ _ _)

theorem serveAppends_sameWalk : ∀ (rs : List AppendRequest) (s : State), SameWalk s (serveAppends rs s)
  | [], _ => ⟨rfl, rfl, rfl⟩
  | r :: rest, s => by
    rw [serveAppends]
    split
    · exact (givePosition_sameWalk r s).trans (serveAppends_sameWalk rest _)
    · exact ⟨rfl, rfl, rfl⟩

/-! ### The segment a refill takes (R74) -/

theorem walking_of {s : State} {c : ReplayContext} {ctl : Controller} (controller : s.epochs.controller = ctl)
    (noReset : s.service.coreReset = none) (context : s.replay.context = some c) (noFailure : c.failure = none) :
    s.walking ctl = some c := by
  rw [State.walking, if_pos ⟨controller, noReset⟩, context, Option.filter_some, noFailure]
  rfl

theorem takeRefillSegment_takes {s : State} {c : ReplayContext} {r : Refill} {g : Segment} {p : Phys} {free : List Phys}
    (walking : s.walking .refillWait = some c) (refill : c.refill = some r) (waits : r.physical = none)
    (head : s.journal.free = p :: free) (entry : s.segment r.q = some g) (spilled : g.state = .spilled) :
    takeRefillSegment s = post (some c.epoch) (.refillRequest g.q g.first p g.count)
      ((s.setJournal { s.journal with
        free := free
        map := s.journal.map.map fun x => if x.q = r.q then { x with state := .refilling, physical := some p } else x
        }).setReplay { s.replay with context := some { c with refill := some { r with physical := some p } } }) := by
  simp only [takeRefillSegment, walking, refill, head, waits, entry, spilled, if_true]
  rfl

theorem refillDue_of_settled {s : State}
    (settled : ∀ c, s.walking .refillWait = some c → ∀ r, c.refill = some r → r.physical ≠ none) : s.refillDue = false := by
  rw [State.refillDue]
  cases walking : s.walking .refillWait with
  | none => rfl
  | some c =>
    cases refill : c.refill with
    | none => simp [refill]
    | some r => simp [refill, Option.isNone_eq_false_iff.mpr (Option.isSome_iff_ne_none.mpr (settled c walking r refill))]

/-! ### The entry that a lending command names (R91, R92, R94) -/

theorem payloadQ_eq {p : List Byte} {q : SegNo} (h : leValue p = q.toNat) : payloadQ p = q := by
  rw [payloadQ, h, BitVec.ofNat_toNat, BitVec.setWidth_eq]

theorem segmentIn_of {s : State} {q : SegNo} {st : SegState} {e : Segment} (entry : s.segment q = some e) (state : e.state = st) :
    s.segmentIn q st = some e := by
  rw [State.segmentIn, entry, Option.filter_some, if_pos (decide_eq_true state)]

theorem segmentIn_none {s : State} {q : SegNo} {st : SegState} (other : ∀ x, s.segment q = some x → x.state ≠ st) :
    s.segmentIn q st = none := by
  rw [State.segmentIn, Option.filter_eq_none_iff]
  exact fun x hx => by simpa using other x hx

section Lending
variable {f : Frame} {q : SegNo} {s : State} {e : Segment}

theorem cmdLendCancel_lent (named : leValue f.payload = q.toNat) (entry : s.segment q = some e) (lent : e.state = .lent) :
    cmdLendCancel f.payload s = respond (.done []) (s.setJournal { s.journal with
      map := s.journal.map.map fun x => if x.q = q then { x with state := .filled } else x }) := by
  have number := (mem_of_segment entry).2
  rw [cmdLendCancel, payloadQ_eq named, segmentIn_of entry lent, ← number]
  rfl

theorem cmdSpillDone_lent (named : leValue f.payload = q.toNat) (entry : s.segment q = some e) (lent : e.state = .lent) {p : Phys}
    (phys : e.physical = some p) : cmdSpillDone f.payload s =
      respond (.done []) (takeRefillSegment (serveWaiting (s.setJournal { s.journal with
        free := s.journal.free ++ [p]
        map := s.journal.map.map fun x => if x.q = q then { x with state := .spilled, physical := none } else x }))) := by
  have number := (mem_of_segment entry).2
  rw [cmdSpillDone, payloadQ_eq named, segmentIn_of entry lent, ← number]
  change respond _ (takeRefillSegment (freeSegments e.physical.toList _)) = _
  rw [phys]
  rfl

/-- SPILL_DONE, answered in the exchange of its frame. -/
theorem exec_spillDone {p : Phys} {u v : State} (taken : s.takes 0x52 f) (settled : s.holdSettled)
    (named : leValue f.payload = q.toNat) (entry : s.segment q = some e) (lent : e.state = .lent) (phys : e.physical = some p)
    (hu : u = s.setJournal { s.journal with
      free := s.journal.free ++ [p]
      map := s.journal.map.map fun x => if x.q = q then { x with state := .spilled, physical := none } else x })
    (hv : takeRefillSegment (serveWaiting u) = v) (idle : v.service.work = none) (same : settleHold s v = v) :
    exec (.spillDone f) s = .next (v.answers f (.done [])) := by
  have served : ∀ x w, takeRefillSegment (serveWaiting (u.withExchange x w)) =
      (takeRefillSegment (serveWaiting u)).withExchange x w := fun x w => by
    rw [serveWaiting, serveAppends_withExchange, takeRefillSegment_withExchange]
    rfl
  refine exec_frame_answers_same (c := .spillDone f) rfl taken settled idle (fun x w => ?_) same
  rw [← hv, ← served, hu]
  exact cmdSpillDone_lent (s := s.withExchange x w) named entry lent phys

theorem cmdRefillDone_refilling (named : leValue f.payload = q.toNat) (entry : s.segment q = some e)
    (refilling : e.state = .refilling) {c : ReplayContext} {r : Refill} (context : s.replay.context = some c)
    (refill : c.refill = some r) : cmdRefillDone f.payload s =
      respond (.done []) (((s.setJournal { s.journal with
        map := s.journal.map.map fun x => if x.q = q then { x with state := .filled } else x }).setReplay {
          context := some { c with refill := some { r with refilled := true } }
          refillTimer := none }).setEpochs { s.epochs with controller := .replay, command := none }) := by
  have number := (mem_of_segment entry).2
  rw [cmdRefillDone, payloadQ_eq named, segmentIn_of entry refilling, ← number]
  change respond _ (finishRefill e s) = _
  rw [finishRefill, context, Option.map_some, refill]
  rfl

end Lending

/-- Settles O54: the queue is served request by request, and each command finds the entry it names. -/
theorem lentSegmentsReturned : Obligations.LentSegmentsReturned := by
  refine ⟨fun s t => ⟨serveWaiting_none, serveWaiting_full, fun r others top rest => serveWaiting_gives⟩,
    fun s f q named settled => ⟨fun taken => ⟨fun other => ?cancelRefused, fun e entry lent => ?cancel⟩,
      fun taken => ⟨fun other => ?spillRefused, fun e p u entry lent phys hu => ⟨fun noRefill kept => ?spill,
        fun c r g walking refill waits idle none' there spilled => ?refill⟩⟩,
      fun taken => ⟨fun other => ?doneRefused, fun e c r entry refilling context refill => ?done⟩⟩⟩
  case cancelRefused =>
    refine exec_frame_says (c := .lendCancel f) rfl taken settled fun x w => ?_
    change cmdLendCancel f.payload (s.withExchange x w) = _
    rw [cmdLendCancel, payloadQ_eq named, withExchange_segmentIn, segmentIn_none other]
  case cancel =>
    exact exec_frame_answers_same (c := .lendCancel f) rfl taken settled (State.takes_idle taken)
      (fun x w => cmdLendCancel_lent (s := s.withExchange x w) named entry lent) (settleHold_of_same settled rfl rfl rfl)
  case spillRefused =>
    refine exec_frame_says (c := .spillDone f) rfl taken settled fun x w => ?_
    change cmdSpillDone f.payload (s.withExchange x w) = _
    rw [cmdSpillDone, payloadQ_eq named, withExchange_segmentIn, segmentIn_none other]
  case spill =>
    have walk : SameWalk s (serveWaiting u) := by
      rw [hu]
      exact ⟨(serveAppends_sameWalk _ _).controller, (serveAppends_sameWalk _ _).replay, (serveAppends_sameWalk _ _).service⟩
    have idleRefill : takeRefillSegment (serveWaiting u) = serveWaiting u :=
      takeRefillSegment_notDue (refillDue_of_settled fun c h => noRefill c ((walk.walking _).symm.trans h))
    have same : SameHold s (serveWaiting u) := by
      refine .trans (t := u) ?_ (moves_serveAppends (config := false) _ _).sameHold
      rw [hu]
      exact ⟨⟨rfl, rfl, rfl⟩, rfl, rfl, rfl, rfl⟩
    exact exec_spillDone taken settled named entry lent phys hu idleRefill
      ((congrArg ServiceIf.work walk.service).trans (State.takes_idle taken)) (settleHold_of_sameHold settled same kept)
  case refill =>
    have served : serveWaiting u = u := serveWaiting_none (by rw [hu]; exact idle)
    have takes := takeRefillSegment_takes (s := u) (g := g) (by rw [hu]; exact walking) refill waits
      (p := p) (free := []) (by rw [hu]; exact congrArg (· ++ [p]) none') there spilled
    have replay : u.replay = s.replay := by rw [hu]; rfl
    rw [replay] at takes
    have free : s.freeCount = 0 := congrArg List.length none'
    refine exec_spillDone taken settled named entry lent phys hu (served.symm ▸ takes) ?_
      (settleHold_of_same settled ?_ ?_ ?_)
    · rw [post_work, hu]
      exact State.takes_idle taken
    · rw [free, State.freeCount, post_journal]
      rfl
    · rw [post_host, hu]
      rfl
    · rw [State.holdInForce, post_space, hu]
      rfl
  case doneRefused =>
    refine exec_frame_says (c := .refillDone f) rfl taken settled fun x w => ?_
    change cmdRefillDone f.payload (s.withExchange x w) = _
    rw [cmdRefillDone, payloadQ_eq named, withExchange_segmentIn, segmentIn_none other]
  case done =>
    exact exec_frame_answers_same (c := .refillDone f) rfl taken settled (State.takes_idle taken)
      (fun x w => cmdRefillDone_refilling (s := s.withExchange x w) named entry refilling context refill)
      (settleHold_of_same settled rfl rfl rfl)

/-- Settles O34: nothing but the refill moves the free count, and the thresholds keep the automatic hold. -/
theorem refillTakesSegment : Obligations.RefillTakesSegment := by
  intro s c r p free e running settled noReset waiting context noFailure refill waits head entry spilled kept
  have walking := walking_of waiting noReset context noFailure
  have same := (moves_takeRefillSegment (hold := false) (config := false) s).sameHold
  have takes := takeRefillSegment_takes walking refill waits head entry spilled
  rw [exec_refillRequest, whenRunningSpaced, whenRunning_running running, settleHold_of_sameHold settled same, takes]
  rw [takes, State.freeCount, post_journal]
  exact kept

end Sys2Proof.Machine
end

section
/-! PROOF. The two ends of a rollback (R16, R77, R79), the effect of a COMMIT (R17, R18, R34, R35) and the start of a walk (R64 to R66,
R72, R74, R81). -/

namespace Sys2Proof.Machine

/-! ### The hold at the end of a step that may move the free count -/

theorem settleHold_of_sameHold_free {s t : State} (settled : s.holdSettled) (same : SameHold s t) (free : t.freeCount = s.freeCount) :
    settleHold s t = t :=
  settleHold_of_same settled free same.told (by rw [State.holdInForce, State.holdInForce, same.auto, same.manual])

theorem setController_post (c : Controller) (k : Option PendingCommand) (n : Option EpochNo) (kind : EventKind) (s : State) :
    setController c k (post n kind s) = post n kind (setController c k s) := by
  simp [setController]

theorem setContext_post (c : Option ReplayContext) (n : Option EpochNo) (kind : EventKind) (s : State) :
    setContext c (post n kind s) = post n kind (setContext c s) := by
  simp [setContext]

theorem clearMarks_post (n : Option EpochNo) (kind : EventKind) (s : State) :
    clearMarks (post n kind s) = post n kind (clearMarks s) := by
  simp [clearMarks]

theorem releaseParked_freeCount (s : State) : (releaseParked s).freeCount = s.freeCount :=
  freeCount_of_journal (releaseParked_path s).journal

theorem post_freeCount (n : Option EpochNo) (kind : EventKind) (s : State) : (post n kind s).freeCount = s.freeCount :=
  freeCount_of_journal (post_journal n kind s)

/-! ### The rows of the replay unit in a running chip -/

section Rows
variable {s : State} (running : s.inReset = false)
include running

theorem exec_refillRequest_running : exec .refillRequest s = .next (settleHold s (takeRefillSegment s)) := by
  rw [exec_refillRequest, whenRunningSpaced, whenRunning_running running]

theorem exec_refillTimerExpiry_running :
    exec .refillTimerExpiry s = .next (settleHold s (settleRollback (refillExpires s))) := by
  rw [exec_refillTimerExpiry, whenRunningSpaced, whenRunning_running running]

theorem exec_rollbackDone_running : exec .rollbackDone s = .next (settleHold s (completeSuccess s)) := by
  rw [exec_rollbackDone, whenRunningSpaced, whenRunning_running running]

theorem exec_rollbackFailed_running : exec .rollbackFailed s = .next (settleHold s (completeFailure s)) := by
  rw [exec_rollbackFailed, whenRunningSpaced, whenRunning_running running]

end Rows

/-! ### Truncation (R16) -/

/-- R16: an entry cut at `c`, where `last` is the record before `c`. -/
theorem cutSegment_eq {c last : Seq} (before : c - 1 = last) (e : Segment) : cutSegment c e =
    if (last - e.first).toNat < e.count then
      { e with
        count := (c - e.first).toNat
        state := if e.state = .filling ∨ e.state = .filled then .filling else e.state }
    else e := by
  have resident : e.resident = decide (e.state = .filling ∨ e.state = .filled) := by cases h : e.state <;> simp [Segment.resident, h]
  rw [cutSegment, before, Segment.holds, resident]
  simp only [decide_eq_true_eq]

/-- R16, R17: with no request waiting, the freed segments stay in the free list. -/
theorem truncate_idle {s : State} (c : Seq) (idle : s.journal.waiting = []) : truncate c s = s.setJournal { s.journal with
    map := (s.journal.map.filter fun e => !seqGe e.first c).map (cutSegment c)
    free := s.journal.free ++ (s.journal.map.filter fun e => seqGe e.first c).filterMap (·.physical)
    nextSeq := c } :=
  freeSegments_idle (s := s.setJournal { s.journal with
    map := (s.journal.map.filter fun e => !seqGe e.first c).map (cutSegment c), nextSeq := c }) idle

/-! ### Success (R77) -/

theorem rollbackSucceeds_of {s : State} {c : ReplayContext} (walking : s.walking .replay = some c) (next : c.next = none)
    (held : c.held = none) (read : c.read = none) (restores : c.restores = []) : s.rollbackSucceeds = true := by
  simp [State.rollbackSucceeds, walking, next, held, read, restores]

theorem completeSuccess_effect {s : State} {c : ReplayContext} (succeeds : s.rollbackSucceeds = true)
    (context : s.replay.context = some c) : completeSuccess s =
      releaseParked (post (some c.epoch) (.rollbackDone c.replayed (truncate c.start s).epochs.stack.tail.length)
        (setController .idle none (setContext none (setStack (truncate c.start s).epochs.stack.tail (truncate c.start s))))) := by
  simp only [completeSuccess, succeeds, if_true, context, setContext_post, setController_post]
  rfl

/-- Settles O36: `truncate_idle` cuts the journal, and the release is the last thing done. -/
theorem rollbackSucceeds : Obligations.RollbackSucceeds := by
  intro s c top rest cut u running settled noReset replay context noFailure next held read restores stack idle hcut hu kept
  refine ⟨?_, releaseParked_none _⟩
  have cuts : cut = cutSegment c.start := funext fun e => (hcut e).trans (cutSegment_eq rfl e).symm
  have effect := completeSuccess_effect
    (rollbackSucceeds_of (walking_of replay noReset context noFailure) next held read restores) context
  have tail : (truncate c.start s).epochs.stack.tail = rest := by rw [truncate_idle _ idle]; exact congrArg List.tail stack
  have state : setController .idle none (setContext none (setStack rest (truncate c.start s))) = u := by
    rw [truncate_idle _ idle, hu, cuts]
    rfl
  rw [tail, state] at effect
  rw [exec_rollbackDone_running running,
    settleHold_of_sameHold settled (moves_completeSuccess (config := false) s).sameHold, effect]
  rw [effect, releaseParked_freeCount, post_freeCount]
  exact kept

/-! ### Failure (R79) -/

theorem failureCompletes_iff {s : State} {c : ReplayContext} {f : Failure} (walks : s.epochs.walks)
    (noReset : s.service.coreReset = none) (context : s.replay.context = some c) (failure : c.failure = some f) :
    s.failureCompletes = true ↔
      c.read = none ∧ c.restores = [] ∧ ∀ p, f.freed = some p → s.blockOutstanding p = false := by
  have inWalk : (decide (s.epochs.controller = .replay) || decide (s.epochs.controller = .refillWait)) = true := by
    simpa [EpochCtl.walks] using walks
  rw [State.failureCompletes, inWalk, noReset, context]
  simp only [failure, Option.isNone_none, Bool.true_and, Bool.and_eq_true, Option.isNone_iff_eq_none, List.isEmpty_iff, and_assoc]
  refine and_congr_right fun _ => and_congr_right fun _ => ?_
  cases segment : f.freed with
  | none => simp
  | some p => simp

theorem completeFailure_effect {s : State} {c : ReplayContext} {f : Failure} (completes : s.failureCompletes = true)
    (context : s.replay.context = some c) (failure : c.failure = some f) : completeFailure s =
      post (some c.epoch) (.rollbackFailed f.reason (some f.kept))
        (setContext (some c.stopped) (setController .stopped none (recountTop (truncate (f.kept + 1) s)))) := by
  simp only [completeFailure, completes, if_true, context, failure]

theorem recountTop_cons {s : State} {top : Epoch} {rest : List Epoch} (stack : s.epochs.stack = top :: rest) : recountTop s =
    setStack ({ top with records := (s.journal.nextSeq - top.start).toNat } :: rest) s := by
  rw [recountTop, stack]

/-- Settles O37: `truncate_idle` cuts the journal after the kept point. -/
theorem rollbackFails : Obligations.RollbackFails := by
  intro s c f top rest cut u running settled noReset walks context failure read restores freed stack idle hcut hu kept
  have cuts : cut = cutSegment (f.kept + 1) :=
    funext fun e => (hcut e).trans (cutSegment_eq (add_sub_cancel_right f.kept 1) e).symm
  have effect := completeFailure_effect
    ((failureCompletes_iff walks noReset context failure).mpr ⟨read, restores, freed⟩) context failure
  have state : setContext (some c.stopped) (setController .stopped none (recountTop (truncate (f.kept + 1) s))) = u := by
    have contextKept : c.stopped =
        { c with next := none, current := none, held := none, refill := none, failure := none } := by
      rw [ReplayContext.stopped, read, restores]
    rw [recountTop_cons (top := top) (rest := rest) (by rw [truncate_idle _ idle]; exact stack), truncate_idle _ idle, hu, cuts,
      contextKept]
    rfl
  rw [state] at effect
  rw [exec_rollbackFailed_running running,
    settleHold_of_sameHold settled (moves_completeFailure (config := false) s).sameHold, effect]
  rw [effect, post_freeCount]
  exact kept

/-! ### COMMIT (R34, R35) -/

theorem exec_commitDrainComplete_effect {s : State} (running : s.inReset = false) (pending : s.epochs.command = some .commit)
    (drained : s.drainComplete = true) : exec .commitDrainComplete s = .next (settleHold s (commitEffect s)) := by
  rw [exec_commitDrainComplete, whenRunningSpaced, whenRunning_running running, completeDrain_complete pending drained]
  rfl

theorem commitEffect_nested {s : State} {child parent : Epoch} {rest : List Epoch}
    (stack : s.epochs.stack = child :: parent :: rest) : commitEffect s = commitNested child parent rest s := by
  rw [commitEffect, stack]

theorem commitEffect_outermost {s : State} {e : Epoch} (stack : s.epochs.stack = [e]) : commitEffect s = commitOutermost e s := by
  rw [commitEffect, stack]

/-- Every effect of a COMMIT ends with the release. -/
theorem commitEffect_releases (s : State) : ∃ u, commitEffect s = releaseParked u := by
  unfold commitEffect
  split
  · exact ⟨_, rfl⟩
  · exact ⟨_, rfl⟩
  · exact ⟨_, rfl⟩

theorem settleHold_table (s t : State) : (settleHold s t).host.table = t.host.table := by
  have told : ∀ v, (announceHold v).host.table = v.host.table := fun v => by
    unfold announceHold
    split
    · rfl
    · split
      · rw [holdComes, post_host]
        rfl
      · rw [holdLeaves, post_host]
        rfl
  rw [settleHold, told]
  split
  · rfl
  · rw [evaluateAuto_eq]
    rfl

/-- Settles O39: the two depths of a COMMIT, and the release that both end with. -/
theorem commitTakesEffect : Obligations.CommitTakesEffect := by
  intro s running pending drained settled
  rw [exec_commitDrainComplete_effect running pending drained]
  have same := (moves_commitEffect (hold := false) (config := false) s).sameHold
  refine ⟨fun child parent rest stack => ⟨_, _, rfl, rfl, ?nested⟩, fun e u stack idle hu kept => ?outermost, ?released⟩
  case nested =>
    have free : (commitEffect s).freeCount = s.freeCount := by
      rw [commitEffect_nested stack, commitNested, releaseParked_freeCount]
      cases child.broken.isSome && parent.broken.isNone with
      | true => exact (post_freeCount _ _ _).trans (post_freeCount _ _ _)
      | false => exact post_freeCount _ _ _
    rw [settleHold_of_sameHold_free settled same free, commitEffect_nested stack]
    simp only [commitNested, mergeChild]
    congr 2
    split
    · simp only [setController_post]
      rfl
    · simp only [setController_post]
      rfl
  case outermost =>
    have effect : commitEffect s = releaseParked (post (some e.number) (.epochCommitted e.records 0)
        (postDiscard (some e.number) s.segmentRange u)) := by
      rw [commitEffect_outermost stack, commitOutermost, discardJournal_idle (s := setStack [] s) idle, hu]
      cases s.segmentRange with
      | none => simp only [postDiscard, setController_post]; rfl
      | some r => simp only [postDiscard, setController_post, clearMarks_post]; rfl
    have discarded : (postDiscard (some e.number) s.segmentRange u).freeCount = u.freeCount := by
      cases s.segmentRange with
      | none => rfl
      | some r => exact post_freeCount _ _ _
    have told : settleHold s (commitEffect s) = commitEffect s := by
      refine settleHold_of_sameHold settled same ?_
      rw [effect, releaseParked_freeCount, post_freeCount, discarded]
      exact kept
    rw [told, effect]
    refine ⟨fun empty => ?_, fun a b head last => ?_⟩
    · rw [State.segmentRange, empty]
      rfl
    · rw [State.segmentRange, head, last]
      rfl
  case released =>
    intro t ht x hx
    obtain ⟨u, release⟩ := commitEffect_releases s
    cases ht
    rw [settleHold_table, release] at hx
    exact releaseParked_none u x hx

/-! ### The walk reaches an entry (R66, R72, R74) -/

section Reach
variable {s w : State} {c : ReplayContext} {e : Segment} {n : Seq}

theorem reach_of_reaches (noReset : s.service.coreReset = none)
    (noFailure : c.failure = none) (h : s.reaches c e w) : reach c e s = w := by
  rcases h with ⟨resident, rfl⟩ | ⟨p, lent, phys, rfl⟩ | ⟨waits, r, spilled, rfl, hr, h⟩
  · rcases resident with state | state <;> rw [reach, state] <;> rfl
  · rw [reach, lent]
    simp only [recallSegment, phys]
    rfl
  · have awaits : awaitRefill { c with current := some e.q, refill := none }
        e (setContext (some { c with current := some e.q, refill := none }) s) = r none := by rw [hr]; rfl
    have reached : reach c e s = takeRefillSegment (r none) := by
      rw [reach, spilled, ← awaits]
    have free : (r none).journal.free = s.journal.free := by rw [hr]; rfl
    rw [reached]
    rcases h with ⟨empty, rfl⟩ | ⟨p, free', head, there, rfl⟩
    · refine takeRefillSegment_notDue ?_
      rw [State.refillDue, free, empty]
      cases (r none).walking .refillWait <;> simp
    · refine (takeRefillSegment_takes (s := r none) (g := e) (p := p) (free := free')
        (c := { c with current := some e.q, refill := some { q := e.q, physical := none, refilled := false } })
        (r := { q := e.q, physical := none, refilled := false }) ?_ rfl rfl (free.trans head) ?_ spilled).trans ?_
      · exact walking_of (by rw [hr]; rfl) (by rw [hr]; exact noReset) (by rw [hr]; rfl) noFailure
      · exact (by rw [hr]; rfl : (r none).segment e.q = s.segment e.q).trans there
      · simp only [hr]
        rfl

theorem refillDue_of_controller (other : w.epochs.controller ≠ .refillWait) : w.refillDue = false := by
  rw [State.refillDue, walking_of_controller_ne other]

theorem refillDue_of_empty (empty : w.journal.free = []) : w.refillDue = false := by
  rw [State.refillDue, empty]
  cases w.walking .refillWait <;> simp

/-- A walk that has not read every record ends in no way by itself. -/
theorem settleRollback_reading (refill : w.refillDue = false) (context : w.replay.context = some c) (noFailure : c.failure = none)
    (next : c.next = some n) : settleRollback w = w := by
  refine settleRollback_notDue refill ?_ ?_
  · rw [State.failureCompletes, context]
    simp [noFailure]
  · rw [State.rollbackSucceeds]
    cases walking : w.walking .replay with
    | none => rfl
    | some c' =>
      obtain ⟨-, -, context', -⟩ := walking_some walking
      cases context.symm.trans context'
      simp [next]

/-- Nothing is due once the walk has reached an entry. -/
theorem settleRollback_of_reaches (replay : s.epochs.controller = .replay) (noFailure : c.failure = none) (next : c.next = some n)
    (h : s.reaches c e w) : settleRollback w = w := by
  rcases h with ⟨-, rfl⟩ | ⟨p, -, -, rfl⟩ | ⟨waits, r, -, rfl, hr, ⟨empty, rfl⟩ | ⟨p, free, -, -, rfl⟩⟩
  · exact settleRollback_reading (c := { c with current := some e.q, refill := none })
      (refillDue_of_controller (by rw [State.setReplay_epochs, replay]; decide)) rfl noFailure next
  · exact settleRollback_reading (c := { c with current := some e.q, refill := none })
      (refillDue_of_controller (by rw [post_epochs, State.setJournal_epochs, State.setReplay_epochs, replay]; decide))
      (by rw [post_replay]; rfl) noFailure next
  · exact settleRollback_reading
      (c := { c with current := some e.q, refill := some { q := e.q, physical := none, refilled := false } })
      (refillDue_of_empty (by rw [hr]; exact empty)) (by rw [hr]; rfl) noFailure next
  · have context : (post (some c.epoch) (.refillRequest e.q e.first p e.count) ((r (some p)).setJournal { s.journal with
        free := free
        map := s.journal.map.map fun x => if x.q = e.q then { x with state := .refilling, physical := some p } else x
        })).replay.context =
        some { c with current := some e.q, refill := some { q := e.q, physical := some p, refilled := false } } := by
      rw [post_replay, hr]
      rfl
    refine settleRollback_reading (refillDue_of_settled fun c' walking r' refill => ?_) context noFailure next
    obtain ⟨-, -, context', -⟩ := walking_some walking
    cases context.symm.trans context'
    cases refill
    exact nofun

/-- A refill alone takes a segment from the free list. -/
theorem reaches_free (h : s.reaches c e w) : w.journal.free = s.journal.free ∨
    ∃ p free, e.state = .spilled ∧ s.journal.free = p :: free ∧ w.journal.free = free := by
  rcases h with ⟨-, rfl⟩ | ⟨p, -, -, rfl⟩ | ⟨waits, r, spilled, rfl, hr, ⟨-, rfl⟩ | ⟨p, free, head, -, rfl⟩⟩
  · exact .inl rfl
  · exact .inl (by rw [post_journal]; rfl)
  · exact .inl (by rw [hr]; rfl)
  · exact .inr ⟨p, free, spilled, head, by rw [post_journal]; rfl⟩

/-- The hold stays as it was told where the walk reaches an entry. -/
theorem settleHold_of_reaches {u : State} (settled : u.holdSettled) (same : SameHold u s) (free : s.journal.free = u.journal.free)
    (noReset : s.service.coreReset = none) (noFailure : c.failure = none)
    (kept : ∀ p free, e.state = .spilled → s.journal.free = p :: free → u.autoKept free.length) (h : s.reaches c e w) :
    settleHold u w = w := by
  have moved : SameHold u w :=
    same.trans (reach_of_reaches noReset noFailure h ▸ (moves_reach (hold := false) (config := false) c e s).sameHold)
  rcases reaches_free h with left | ⟨p, free', spilled, head, left⟩
  · exact settleHold_of_sameHold_free settled moved (congrArg List.length (left.trans free))
  · refine settleHold_of_sameHold settled moved ?_
    rw [State.freeCount, left]
    exact kept p free' spilled head

end Reach

/-! ### The start of a walk (R64, R81) -/

section Start
variable {s : State} {e : Epoch} {rest : List Epoch}

/-- R64: what the walk of epoch `e` begins with. -/
def ReplayContext.fresh (e : Epoch) (next : Option Seq) (replayed : BitVec 32) : ReplayContext :=
  { epoch := e.number, start := e.start, next := next, current := none, read := none, held := none, restores := [],
    refill := none, replayed := replayed, failure := none }

/-- R64: REPLAY, with the mark table clear. -/
def State.replaying (s : State) : State :=
  (s.setEpochs { s.epochs with controller := .replay, command := none }).setCapture { s.capture with marks := [] }

theorem startWalk_newest {g : Segment} (records : s.journal.nextSeq ≠ e.start) (newest : s.journal.map.getLast? = some g)
    (replayed : BitVec 32) : startWalk e replayed s =
      reach (ReplayContext.fresh e (some (s.journal.nextSeq - 1)) replayed) g s.replaying := by
  have some' : decide (s.journal.nextSeq = e.start) = false := decide_eq_false records
  have last : (setContext (some (ReplayContext.fresh e (some (s.journal.nextSeq - 1)) replayed))
    (clearMarks (setController .replay none s))).journal.map.getLast? = some g := newest
  simp only [startWalk, some', Bool.false_eq_true, if_false]
  change (match (setContext (some (ReplayContext.fresh e (some (s.journal.nextSeq - 1)) replayed))
    (clearMarks (setController .replay none s))).journal.map.getLast? with | none => _ | some seg => _) = _
  rw [last]
  rfl

theorem startWalk_empty (none' : s.journal.nextSeq = e.start) (replayed : BitVec 32) : startWalk e replayed s =
    s.replaying.setReplay { s.replay with context := some (ReplayContext.fresh e none replayed) } := by
  have empty : decide (s.journal.nextSeq = e.start) = true := decide_eq_true none'
  simp only [startWalk, empty, if_true]
  rfl

theorem startWalk_reaches {g : Segment} {w : State} {replayed : BitVec 32} (records : s.journal.nextSeq ≠ e.start)
    (newest : s.journal.map.getLast? = some g) (noReset : s.service.coreReset = none)
    (h : s.replaying.reaches (ReplayContext.fresh e (some (s.journal.nextSeq - 1)) replayed) g w) :
    settleRollback (startWalk e replayed s) = w := by
  rw [startWalk_newest records newest, reach_of_reaches (s := s.replaying) noReset rfl h,
    settleRollback_of_reaches (s := s.replaying) rfl rfl rfl h]

theorem exec_rollbackDrainComplete_effect (running : s.inReset = false) (pending : s.epochs.command = some .rollback)
    (drained : s.drainComplete = true) : exec .rollbackDrainComplete s = .next (settleHold s (rollbackEffect s)) := by
  rw [exec_rollbackDrainComplete, whenRunningSpaced, whenRunning_running running, completeDrain_complete pending drained]
  rfl

theorem rollbackEffect_opened (stack : s.epochs.stack = e :: rest) (opened : e.broken = none) :
    rollbackEffect s = settleRollback (startWalk e 0 s) := by
  rw [rollbackEffect, topOf_cons stack]
  exact if_pos opened

theorem rollbackEffect_broken (stack : s.epochs.stack = e :: rest) (broken : e.broken ≠ none) : rollbackEffect s =
    post (some e.number) (.rollbackFailed .unrecoverable none) (releaseParked (setController .idle none s)) := by
  rw [rollbackEffect, topOf_cons stack]
  exact if_neg broken

theorem resumeRollback_withExchange (e : Epoch) (x : Exchange) (w : Option Work) (s : State) :
    resumeRollback e (s.withExchange x w) = (resumeRollback e s).withExchange x w := by
  simp [resumeRollback]

end Start

/-- Settles O40: `startWalk_reaches` for both ways into the walk; without records success is due at once. -/
theorem walkStarts : Obligations.WalkStarts := by
  intro s e rest stack noReset settled
  refine ⟨fun g c base opened records newest kept hc hbase => ⟨fun w running pending drained reached => ?drain,
      fun f c' w taken stopped context reached => ?resume⟩,
    fun opened none' running pending drained => ?empty, fun broken running pending drained => ⟨?broken, releaseParked_none _⟩⟩
  case drain =>
    subst hbase
    rw [hc] at reached
    rw [exec_rollbackDrainComplete_effect running pending drained, rollbackEffect_opened stack opened,
      startWalk_reaches records newest noReset reached]
    exact congrArg _ (settleHold_of_reaches (s := s.replaying) settled ⟨⟨rfl, rfl, rfl⟩, rfl, rfl, rfl, rfl⟩ rfl noReset rfl kept
      reached)
  case resume =>
    subst hbase
    rw [hc] at reached
    have resumed : resumeRollback e s = w := by
      rw [resumeRollback, context]
      exact startWalk_reaches records newest noReset reached
    refine exec_frame_answers_same (c := .rollback f) rfl taken settled ?_ (fun x v => ?_)
      (settleHold_of_reaches (s := s.replaying) settled ⟨⟨rfl, rfl, rfl⟩, rfl, rfl, rfl, rfl⟩ rfl noReset rfl kept reached)
    · rw [← resumed, (exchange_kept (f := resumeRollback e) (fun _ _ _ => resumeRollback_withExchange _ _ _ _) s).2]
      exact State.takes_idle taken
    · rw [← resumed, ← resumeRollback_withExchange]
      exact cmdRollback_stopped (p := f.payload) (s := s.withExchange x v) stopped (topOf_cons stack) opened
  case empty =>
    have idle : settleRollback (startWalk e 0 s) = completeSuccess (startWalk e 0 s) := by
      rw [startWalk_empty none', settleRollback,
        takeRefillSegment_notDue (refillDue_of_controller (show Controller.replay ≠ .refillWait by decide)), completeFailure_notDue]
      rw [State.failureCompletes]
      exact Bool.and_false _
    rw [exec_rollbackDrainComplete_effect running pending drained, rollbackEffect_opened stack opened, idle, startWalk_empty none']
    exact (congrArg _ (settleHold_before rfl)).trans (exec_rollbackDone_running (s := s.replaying.setReplay _) running).symm
  case broken =>
    rw [exec_rollbackDrainComplete_effect running pending drained, rollbackEffect_broken stack broken]
    refine congrArg _ (settleHold_of_sameHold_free settled ?_ ?_)
    · exact (((moves_idle (config := false) s .idle).trans (moves_releaseParked _)).trans (moves_post _ _ _)).sameHold
    · rw [post_freeCount, releaseParked_freeCount]
      rfl

end Sys2Proof.Machine
end

section
/-! PROOF. The failure of a rollback (R78, R79), the end of a step in which one may complete, and the expiry of the refill timer (R76). -/

namespace Sys2Proof.Machine

/-! ### The hold at the end of a step in two parts (R102, R103) -/

/-- From `s` to `w` the free count has not moved, or it has grown, no request waiting, to where the automatic hold stays. -/
def State.growsTo (s w : State) : Prop :=
  w.freeCount = s.freeCount ∨ (s.freeCount ≤ w.freeCount ∧ s.autoKept w.freeCount ∧ w.journal.waiting = [])

/-- A step through `w` to `v` ends as the step that starts at `w`. -/
theorem settleHold_through {s w v : State} (grows : s.growsTo w) (auto : SameAuto s v)
    (more : w.journal.waiting = [] → w.freeCount ≤ v.freeCount) : settleHold s v = settleHold w v := by
  rcases grows with same | ⟨le, kept, idle⟩
  · exact settleHold_before same.symm
  · have more := more idle
    by_cases still : v.freeCount = w.freeCount
    · rw [settleHold, settleHold, if_pos still, evaluateAuto_of_kept ((auto.autoKept _).mpr (still ▸ kept)), ite_self]
    · have grown : v.freeCount ≠ s.freeCount := by omega
      rw [settleHold, settleHold, if_neg still, if_neg grown]

theorem settleHold_of_growsTo {s w : State} (settled : s.holdSettled) (same : SameHold s w) (grows : s.growsTo w) :
    settleHold s w = w := by
  rcases grows with free | ⟨-, kept, -⟩
  · exact settleHold_of_sameHold_free settled same free
  · exact settleHold_of_sameHold settled same kept

theorem truncate_grows {s : State} (c : Seq) (idle : s.journal.waiting = []) : s.freeCount ≤ (truncate c s).freeCount := by
  rw [truncate_idle c idle]
  simp [State.freeCount]

theorem completeSuccess_grows {s : State} (idle : s.journal.waiting = []) : s.freeCount ≤ (completeSuccess s).freeCount := by
  cases succeeds : s.rollbackSucceeds with
  | false => rw [completeSuccess_notDue succeeds]
  | true =>
    cases context : s.replay.context with
    | none => simp [State.rollbackSucceeds, walking_of_context_none context] at succeeds
    | some c =>
      rw [completeSuccess_effect succeeds context, releaseParked_freeCount, post_freeCount]
      exact truncate_grows c.start idle

theorem recountTop_freeCount (s : State) : (recountTop s).freeCount = s.freeCount := by
  unfold recountTop
  split <;> rfl

theorem failureCompletes_context {s : State} (completes : s.failureCompletes = true) :
    ∃ c f, s.replay.context = some c ∧ c.failure = some f := by
  cases context : s.replay.context with
  | none => simp [State.failureCompletes, context] at completes
  | some c =>
    cases failure : c.failure with
    | none => simp [State.failureCompletes, context, failure] at completes
    | some f => exact ⟨c, f, rfl, failure⟩

theorem completeFailure_grows {s : State} (idle : s.journal.waiting = []) : s.freeCount ≤ (completeFailure s).freeCount := by
  cases completes : s.failureCompletes with
  | false => rw [completeFailure_notDue completes]
  | true =>
    obtain ⟨c, f, context, failure⟩ := failureCompletes_context completes
    rw [completeFailure_effect completes context failure, post_freeCount]
    exact (truncate_grows (f.kept + 1) idle).trans (recountTop_freeCount _).ge

/-! ### A failure (R78) -/

/-- R78: what a failure leaves; a segment it frees stays in the free list while no request waits. -/
theorem failRollback_fails {s : State} {c : ReplayContext} {reason : FailReason} {n : Seq} {back : Option Segment}
    (entry : s.refillToSpill c reason = back) (idle : back = none ∨ s.journal.waiting = []) :
    failRollback c reason n s = s.fails c reason (s.keptPoint c reason n) back := by
  cases back with
  | none =>
    have same : (fun x : Segment => if Option.map (fun e : Segment => e.q) none = some x.q then
        { x with state := .spilled, physical := none } else x) = id := by
      funext x
      simp
    simp only [failRollback, entry, State.fails, Option.bind_none, Option.toList_none, List.append_nil, same, List.map_id]
    rfl
  | some e =>
    have waiting : s.journal.waiting = [] := idle.resolve_left nofun
    have named : (fun x : Segment => if Option.map (·.q) (some e) = some x.q then
        { x with state := .spilled, physical := none } else x) =
        fun x : Segment => if x.q = e.q then { x with state := .spilled, physical := none } else x := by
      funext x
      simp only [Option.map_some, Option.some.injEq, eq_comm]
    simp only [failRollback, entry]
    rw [State.fails, named]
    exact freeSegments_idle waiting

theorem refillToSpill_none {s : State} {c : ReplayContext} {reason : FailReason} (good : c.badRefill reason = false)
    (other : ∀ r e, c.refill = some r → s.segment r.q = some e → e.state ≠ .refilling) : s.refillToSpill c reason = none := by
  cases refill : c.refill with
  | none => simp only [State.refillToSpill, refill]
  | some r =>
    simp only [State.refillToSpill, refill, good, Bool.or_false, Option.filter_eq_none_iff]
    exact fun e there => by simpa using other r e refill there

theorem refillToSpill_some {s : State} {c : ReplayContext} {r : Refill} {e : Segment} {reason : FailReason}
    (refill : c.refill = some r) (entry : s.segment r.q = some e) (spills : e.state = .refilling ∨ c.badRefill reason = true) :
    s.refillToSpill c reason = some e := by
  have holds : (decide (e.state = .refilling) || c.badRefill reason) = true := by simpa using spills
  simp only [State.refillToSpill, refill, entry, Option.filter_some, holds, if_true]

theorem keptPoint_named {s : State} {c : ReplayContext} {reason : FailReason} (good : c.badRefill reason = false) (n : Seq) :
    s.keptPoint c reason n = match c.held with
      | none => n
      | some h => if seqNewer h.seq n then h.seq else n := by
  simp only [State.keptPoint, good, Bool.false_eq_true, if_false]
  cases c.held <;> rfl

theorem fails_freeCount {s : State} {c : ReplayContext} {reason : FailReason} {kept : Seq} (back : Option Segment) :
    (s.fails c reason kept back).freeCount = s.freeCount + (back.bind (·.physical)).toList.length :=
  List.length_append

/-! ### The end of a step in which a failure may complete (R79) -/

theorem walking_of_failure {s : State} {c : ReplayContext} {f : Failure} (context : s.replay.context = some c)
    (failure : c.failure = some f) (ctl : Controller) : s.walking ctl = none := by
  rw [State.walking, context]
  split
  · simp [failure]
  · rfl

theorem settleRollback_failed {s : State} {c : ReplayContext} {f : Failure} (context : s.replay.context = some c)
    (failure : c.failure = some f) : settleRollback s = completeFailure s := by
  have refill : takeRefillSegment s = s :=
    takeRefillSegment_notDue (by rw [State.refillDue, walking_of_failure context failure])
  rw [settleRollback, refill]
  refine completeSuccess_notDue ?_
  cases completes : s.failureCompletes with
  | false => rw [completeFailure_notDue completes, State.rollbackSucceeds, walking_of_failure context failure]
  | true =>
    have stopped : (completeFailure s).epochs.controller = .stopped := by
      rw [completeFailure_effect completes context failure, post_epochs]
      rfl
    rw [State.rollbackSucceeds, walking_of_controller_ne (by rw [stopped]; decide)]

/-- A step that leaves `w` with a failure ends as ROLLBACK_FAILED does from `w`, where the failure completes, and in `w` otherwise. -/
theorem settleRollback_failed_row {s w : State} {c : ReplayContext} {f : Failure} (running : w.inReset = false)
    (settled : s.holdSettled) (same : SameHold s w) (grows : s.growsTo w) (context : w.replay.context = some c)
    (failure : c.failure = some f) :
    (.next (settleHold s (settleRollback w)) : Result) =
      if w.failureCompletes = true then exec .rollbackFailed w else .next w := by
  rw [settleRollback_failed context failure]
  split
  case isTrue =>
    rw [exec_rollbackFailed_running running, settleHold_through grows
      (same.trans (moves_completeFailure (config := false) w).sameHold).toSameAuto completeFailure_grows]
  case isFalse waits => rw [completeFailure_notDue (Bool.not_eq_true _ ▸ waits), settleHold_of_growsTo settled same grows]

/-! ### The refill timer (R76) -/

theorem refillExpires_fails {s : State} {c : ReplayContext} {r : Refill} {x : Tick} {e : Segment}
    (walking : s.walking .refillWait = some c) (timer : s.replay.refillTimer = some x) (refill : c.refill = some r)
    (entry : s.segment r.q = some e) :
    refillExpires s = failRollback c .refillTimeout (e.first + BitVec.ofNat 32 e.count - 1) (advanceTo x s) := by
  simp only [refillExpires, walking, timer, refill, Option.bind_some, entry]
  rfl

/-- Settles O35: the failure is that of `failRollback_fails`, and the step ends as `settleRollback_failed_row` says. -/
theorem refillTimerExpires : Obligations.RefillTimerExpires := by
  intro s c r x e kept w quiet noReset waits context noFailure timer refill entry hkept
  obtain ⟨running, settled, -⟩ := quiet
  obtain ⟨y, clock⟩ := advanceTo_eq x s
  have expires := refillExpires_fails (walking_of waits noReset context noFailure) timer refill entry
  have point : (advanceTo x s).keptPoint c .refillTimeout (e.first + BitVec.ofNat 32 e.count - 1) = kept :=
    (keptPoint_named rfl _).trans (by subst hkept; cases c.held <;> rfl)
  have entry' : (advanceTo x s).segment r.q = some e := by rw [clock]; exact entry
  have row : ∀ back, (advanceTo x s).refillToSpill c .refillTimeout = back → (back = none ∨ s.journal.waiting = []) →
      s.growsTo ((advanceTo x s).fails c .refillTimeout kept back) →
      exec .refillTimerExpiry s = if c.restores = [] ∧ c.read = none ∧
          ∀ p, back.bind (·.physical) = some p → s.blockOutstanding p = false then
        exec .rollbackFailed ((advanceTo x s).fails c .refillTimeout kept back)
      else .next ((advanceTo x s).fails c .refillTimeout kept back) := by
    intro back spills idle grows
    rw [exec_refillTimerExpiry_running running, expires, failRollback_fails spills (by rw [clock]; exact idle), point]
    refine (settleRollback_failed_row (by rw [clock]; exact running) settled
      (by rw [clock]; exact ⟨⟨rfl, rfl, rfl⟩, rfl, rfl, rfl, rfl⟩) grows rfl rfl).trans (if_congr ?_ rfl rfl)
    refine (failureCompletes_iff (.inr (by rw [clock]; exact waits)) (by rw [clock]; exact noReset) rfl rfl).trans ?_
    rw [clock]
    exact and_left_comm
  refine ⟨fun spilled hw => ?_, fun p refilling phys idle keeps hw => ?_⟩
  · have back := refillToSpill_none (s := advanceTo x s) (c := c) (reason := .refillTimeout) rfl fun r' e' refill' there => by
      cases refill.symm.trans refill'
      cases entry'.symm.trans there
      rw [spilled]
      decide
    have state : (advanceTo x s).fails c .refillTimeout kept none = w := by
      rw [hw, ← point, ← failRollback_fails back (.inl rfl)]
      simp only [failRollback, back, Option.bind_none]
      rfl
    rw [row none back (.inl rfl) (.inl (by rw [fails_freeCount, clock]; rfl)), state]
    exact if_congr (by simp) rfl rfl
  · have back := refillToSpill_some refill entry' (reason := .refillTimeout) (.inl refilling)
    have state : (advanceTo x s).fails c .refillTimeout kept (some e) = w := by
      rw [hw, State.fails, Option.bind_some, phys, clock]
      simp only [Option.map_some, Option.some.injEq, eq_comm]
      rfl
    have count : ((advanceTo x s).fails c .refillTimeout kept (some e)).freeCount = s.journal.free.length + 1 := by
      rw [fails_freeCount, Option.bind_some, phys, clock]
      rfl
    rw [row (some e) back (.inr idle) (.inr ⟨by rw [count]; exact Nat.le_succ _, by rw [count]; exact keeps,
      by rw [clock]; exact idle⟩), state]
    exact if_congr (by simp [phys]) rfl rfl

end Sys2Proof.Machine
end

section
/-! PROOF. The completions and timeouts of the memory link (R125, R145 to R153): host requests, capture reads that fail or are
discarded, and completions that are late or stray. -/

namespace Sys2Proof.Machine

/-! ### The end of a step in which the command at work may end (R157) -/

/-- R157, R102: `t` after the held frame and the hold of a step that began in `s`. -/
def heldEnd (s t : State) : State := takeHeldWhen true (settleHold s (takeHeldWhen false t))

theorem whenRunningHeld_heldEnd {s : State} (running : s.inReset = false) (f : State → State) :
    whenRunningHeld f s = .next (heldEnd s (f s)) := whenRunning_running running _

theorem settleHold_held (s t : State) : (settleHold s t).service.held = t.service.held := settleHold_service_held s t

/-- With no held frame to take, the hold alone is left to settle. -/
theorem heldEnd_none {s t : State} (idle : t.service.held = none ∨ t.service.work ≠ none) : heldEnd s t = settleHold s t := by
  rw [heldEnd, takeHeldWhen_notDue false idle, takeHeldWhen_notDue true]
  rw [settleHold_held, settleHold_work]
  exact idle

/-- What a step keeps so that nothing it does by itself comes to be due. -/
structure Undisturbed (s t : State) : Prop extends SameHold s t where
  controller : t.epochs.controller = s.epochs.controller
  replay : t.replay = s.replay
  work : t.service.work = s.service.work
  port : t.journal.outstanding = s.journal.outstanding

namespace Undisturbed
variable {s t u : State}

theorem refl (s : State) : Undisturbed s s := ⟨.refl s, rfl, rfl, rfl, rfl⟩

theorem trans (a : Undisturbed s t) (b : Undisturbed t u) : Undisturbed s u :=
  ⟨a.toSameHold.trans b.toSameHold, b.controller.trans a.controller, b.replay.trans a.replay, b.work.trans a.work,
    b.port.trans a.port⟩

theorem ofPath (p : SameButPaths s t) : Undisturbed s t :=
  ⟨p.sameHold, by rw [p.epochs], p.replay, by rw [p.service], by rw [p.journal]⟩

theorem ofPost (n : Option EpochNo) (k : EventKind) (s : State) : Undisturbed s (post n k s) :=
  ⟨post_sameHold n k s, by rw [post_epochs], post_replay n k s, post_work n k s, by rw [post_journal]⟩

theorem walking (a : Undisturbed s t) (c : Controller) : t.walking c = s.walking c := by
  rw [State.walking, State.walking, a.controller, a.replay, a.coreReset]

theorem settled (a : Undisturbed s t) (q : s.quiet) (free : s.journal.free = [] → t.journal.free = []) :
    settleRollback t = t ∧ settleCoreReset t = t := by
  obtain ⟨-, -, refill, failure, success, journal, ends, -, -⟩ := q
  refine ⟨settleRollback_notDue ?_ ?_ ?_, settleCoreReset_notDue ?_ ?_⟩
  · rw [State.refillDue] at refill ⊢
    rw [a.walking]
    cases walking : s.walking .refillWait with
    | none => rfl
    | some c =>
      rw [walking] at refill
      simp only [Bool.and_eq_false_iff, Bool.not_eq_false', List.isEmpty_iff] at refill ⊢
      exact refill.imp_right free
  · rw [← failure, State.failureCompletes, State.failureCompletes, a.controller, a.coreReset, a.replay]
    simp only [State.blockOutstanding, a.port]
  · rw [← success, State.rollbackSucceeds, State.rollbackSucceeds, a.walking]
  · rw [← journal, State.journalStepDue, State.journalStepDue, a.coreReset, a.port]
  · rw [← ends, State.coreResetEndDue, State.coreResetEndDue, a.coreReset, a.replay]

theorem idle (a : Undisturbed s t) (q : s.quiet) : t.service.held = none ∨ t.service.work ≠ none := by
  obtain ⟨-, -, -, -, -, -, -, -, idle⟩ := q
  rw [a.held, a.work]
  exact idle

/-- A step from a quiet state to one it leaves undisturbed ends there. -/
theorem ends (a : Undisturbed s t) (q : s.quiet) (hold : t.freeCount = s.freeCount ∨ s.autoKept t.freeCount) :
    heldEnd s t = t := by
  rw [heldEnd_none (a.idle q)]
  obtain ⟨-, settled, -⟩ := q
  rcases hold with free | kept
  · exact settleHold_of_sameHold_free settled a.toSameHold free
  · exact settleHold_of_sameHold settled a.toSameHold kept

theorem afterOutcome (a : Undisturbed s t) (q : s.quiet) (same : t.journal.free = s.journal.free) :
    heldEnd s (afterOutcome t) = t := by
  obtain ⟨rollback, coreReset⟩ := a.settled q (fun empty => same.trans empty)
  rw [Machine.afterOutcome, rollback, coreReset]
  exact a.ends q (.inl (congrArg List.length same))

end Undisturbed

/-! ### The rows of the memory link -/

theorem exec_done_end {s : State} (running : s.inReset = false) (t : Fin 64) (status : Status) (data : List Word) :
    exec (.done t status data) s = .next (heldEnd s (afterOutcome (takeCompletion t status data s))) := by
  rw [exec_done, whenRunningHeld_heldEnd running]

theorem exec_memoryTimeoutExpiry_end {s : State} (running : s.inReset = false) (t : Fin 64) :
    exec (.memoryTimeoutExpiry t) s = .next (heldEnd s (afterOutcome (takeTimeout t s))) := by
  rw [exec_memoryTimeoutExpiry, whenRunningHeld_heldEnd running]

section Outcome
variable {s v : State} {t : Fin 64} {q : MemRequest} {expiry : Tick} {data : List Word} {cmd : Instr} {kind : MemFaultKind}

/-- R147, R149: the freed tag serves the tag queue, which moves entries along their paths alone. -/
theorem tagFreed_path (freed : s.tagFreed t v) : SameButPaths s v := serveTagQueue_of_freed freed ▸ completed_path t s

theorem tagFreed_capture (freed : s.tagFreed t v) : v.capture = s.capture := by
  rw [← serveTagQueue_of_freed freed]
  exact serveRequests_capture _ _

/-- R149: a completion OK. -/
theorem takeCompletion_ok (tag : s.memIf.tags[t] = .outstanding q expiry) (freed : s.tagFreed t v) :
    takeCompletion t .ok data s = handOutcome q (some data) v := by
  rw [takeCompletion, tag, ← serveTagQueue_of_freed freed]
  rfl

theorem takeCompletion_fault (tag : s.memIf.tags[t] = .outstanding q expiry) (freed : s.tagFreed t v) :
    takeCompletion t .fault data s = postMemFault .fault q t (handOutcome q none v) := by
  rw [takeCompletion, tag, ← serveTagQueue_of_freed freed]
  rfl

theorem takeTimeout_outstanding (tag : s.memIf.tags[t] = .outstanding q expiry) :
    takeTimeout t s = postMemFault .timeout q t (handOutcome q none (setTag t .quarantined (advanceTo expiry s))) := by
  rw [takeTimeout, tag]

/-- R149, R150: the row of a request that ends badly, its tag dealt with. -/
theorem exec_endsBadly (running : s.inReset = false) (tag : s.memIf.tags[t] = .outstanding q expiry)
    (bad : s.endsBadly t expiry cmd kind v) :
    exec cmd s = .next (heldEnd s (afterOutcome (postMemFault kind q t (handOutcome q none v)))) := by
  rcases bad with ⟨rfl, ⟨data, rfl⟩, freed⟩ | ⟨rfl, rfl, rfl⟩
  · rw [exec_done_end running, takeCompletion_fault tag freed]
  · have memIf : (advanceTo expiry s).memIf = s.memIf := by
      obtain ⟨y, clock⟩ := advanceTo_eq expiry s
      rw [clock]
      rfl
    rw [exec_memoryTimeoutExpiry_end running, takeTimeout_outstanding tag, setTag, memIf]

/-- What the end of a request leaves before its requester hears of it. -/
theorem endsBadly_keeps (bad : s.endsBadly t expiry cmd kind v) : Undisturbed s v ∧ v.capture = s.capture ∧
    v.journal = s.journal ∧ v.epochs = s.epochs ∧ v.host.table.map Entry.unplaced = s.host.table.map Entry.unplaced := by
  rcases bad with ⟨-, -, freed⟩ | ⟨-, -, rfl⟩
  · have path := tagFreed_path freed
    exact ⟨.ofPath path, tagFreed_capture freed, path.journal, path.epochs, path.entries⟩
  · obtain ⟨y, clock⟩ := advanceTo_eq expiry s
    rw [clock]
    exact ⟨⟨⟨⟨rfl, rfl, rfl⟩, rfl, rfl, rfl, rfl⟩, rfl, rfl, rfl, rfl⟩, rfl, rfl, rfl, rfl⟩

theorem answer_undisturbed (id : HostId) (w : Bool) (st : HostStatus) (d : List Word) (s : State) :
    Undisturbed s (answer id w st d s) := ⟨⟨⟨rfl, rfl, rfl⟩, rfl, rfl, rfl, rfl⟩, rfl, rfl, rfl, rfl⟩

/-- R153: a request that ends badly posts MEM_FAULT after what its requester does. -/
theorem exec_endsBadly_posts {w : State} (quiet : s.quiet) (tag : s.memIf.tags[t] = .outstanding q expiry)
    (bad : s.endsBadly t expiry cmd kind v) (outcome : handOutcome q none v = w) (after : Undisturbed v w)
    (epochs : w.epochs = v.epochs) (free : w.journal.free = v.journal.free) :
    exec cmd s = .next (post s.topNumber (.memFault kind q.origin q.line t) w) := by
  obtain ⟨before, -, journal, epochs', -⟩ := endsBadly_keeps bad
  have top : w.topNumber = s.topNumber := by rw [State.topNumber, State.top, epochs, epochs']; rfl
  rw [exec_endsBadly quiet.1 tag bad, outcome, postMemFault, top,
    ((before.trans after).trans (.ofPost _ _ _)).afterOutcome quiet (by rw [post_journal, free, journal])]

end Outcome

/-! ### Host requests (R125) -/

/-- The request of an entry that reads, or writes. -/
def hostRequest (id : HostId) (a : Address) (n : Nat) : Option WriteBody → MemRequest
  | none => .read id a n
  | some b => .write id a n b

theorem handOutcome_host (id : HostId) (a : Address) (n : Nat) (w : Option WriteBody) (s : State) :
    handOutcome (hostRequest id a n w) none s = answer id w.isSome .memFault [] s := by
  cases w <;> rfl

theorem hostRequest_says (id : HostId) (a : Address) (n : Nat) (w : Option WriteBody) :
    (hostRequest id a n w).origin = .host ∧ (hostRequest id a n w).line = lineOf a := by
  cases w <;> exact ⟨rfl, rfl⟩

theorem fitWords_exact {n : Nat} {ws : List Word} (length : ws.length = n) (s : State) : fitWords n ws s = ws := by
  rw [fitWords, length, Nat.sub_self, ← length, List.take_length]
  exact List.append_nil ws

theorem useFresh_enough {n m : Nat} (h : n ≤ m) (s : State) : useFresh n m s = s := if_neg (Nat.not_lt.mpr h)

/-- R125: a bad end answers the entry MEMFAULT. -/
theorem exec_hostRequest_fails {s v : State} {t : Fin 64} {expiry : Tick} {cmd : Instr} {kind : MemFaultKind} {id : HostId}
    {a : Address} {n : Nat} {w : Option WriteBody} (quiet : s.quiet)
    (tag : s.memIf.tags[t] = .outstanding (hostRequest id a n w) expiry) (bad : s.endsBadly t expiry cmd kind v) :
    exec cmd s = .next (post s.topNumber (.memFault kind .host (lineOf a) t) (answer id w.isSome .memFault [] v)) := by
  obtain ⟨origin, line⟩ := hostRequest_says id a n w
  rw [exec_endsBadly_posts quiet tag bad (handOutcome_host id a n w v) (answer_undisturbed _ _ _ _ _) rfl rfl, origin, line]

/-- Settles O23: the tag is freed, the entry answered, and nothing else is due. -/
theorem hostRequestCompletes : Obligations.HostRequestCompletes := by
  intro s t q expiry v quiet freed tag
  have path := tagFreed_path freed
  have answered : ∀ id w st d, heldEnd s (afterOutcome (answer id w st d v)) = answer id w st d v := fun id w st d =>
    ((Undisturbed.ofPath path).trans (answer_undisturbed id w st d v)).afterOutcome quiet
      (congrArg JournalUnit.free path.journal)
  refine ⟨fun id a n data hq length => ?read, fun id a n b data hq => ?write, fun id a n w data hq => ?fault⟩
  case read =>
    rw [exec_done_end quiet.1, takeCompletion_ok tag freed, hq, handOutcome, readEnds]
    simp only
    rw [fitWords_exact length, length, useFresh_enough le_rfl, answered]
    rfl
  case write =>
    rw [exec_done_end quiet.1, takeCompletion_ok tag freed, hq, handOutcome, writeEnds, answered]
    rfl
  case fault =>
    have request : q = hostRequest id a n w := hq.trans (by cases w <;> rfl)
    exact exec_hostRequest_fails quiet (request ▸ tag) (.inl ⟨rfl, ⟨data, rfl⟩, freed⟩)

/-! ### Capture reads that fail or are discarded (R56, R59) -/

section Capture
variable {s v : State} {i : Fin 8} {l : Line} {sl : Slot}

theorem captureReadEnds_fails (held : s.capture.slots[i] = some sl) (stage : sl.stage = .read) :
    captureReadEnds i none s = freeSlot i (answer sl.entry true .capFault [] s) := by
  rw [captureReadEnds, held]
  simp only [stage]
  rfl

theorem captureReadEnds_discards (held : s.capture.slots[i] = some sl) (stage : sl.stage = .discard) (d : Option (List Word)) :
    captureReadEnds i d s = if s.portStopped then s else goToIssue sl.entry (freeSlot i s) := by
  rw [captureReadEnds, held]
  simp only [stage]
  rfl

/-- R59: the slot is freed and its write goes to issue. -/
theorem issue_freed {e : Entry} {w x : State} (entries : v.host.table.map Entry.unplaced = s.host.table.map Entry.unplaced)
    (there : s.entry sl.entry = some e) (freed : v.slotFreed i w) (issues : w.issues e x) :
    goToIssue sl.entry (freeSlot i v) = x := by
  have name := entry_some_id there
  obtain ⟨e', found, same⟩ : ∃ e', v.entry e.id = some e' ∧ e'.unplaced = e.unplaced := by
    have found := find_unplaced (id := e.id) entries
    change (v.entry e.id).map Entry.unplaced = (s.entry e.id).map Entry.unplaced at found
    rw [name, there] at found
    rw [name]
    exact Option.map_eq_some_iff.mp found
  have freed' := freeSlot_of_freed freed
  have keeps : w.keeps e := freed' ▸ (freeSlot_path i v).keeps ⟨e', found, same⟩
  rw [freed', ← name]
  exact ((issues_iff keeps).mp issues).symm

end Capture

/-- Settles O25: by the stage of the slot, and for a request of an entry as O23. -/
theorem memoryRequestFails : Obligations.MemoryRequestFails := by
  refine ⟨fun s t q expiry cmd kind v quiet tag bad => ⟨fun i l sl hq held => ?capture, fun id a n w hq => ?host⟩,
    fun s t i l expiry sl e data v quiet tag held discard there freed => ?discarded⟩
  case capture =>
    subst hq
    obtain ⟨before, capture, journal, epochs, entries⟩ := endsBadly_keeps bad
    have held' : v.capture.slots[i] = some sl := by rw [capture]; exact held
    have stopped : v.portStopped = s.portStopped := portStopped_same before.coreReset
    refine ⟨fun w stage freed => ?_, fun e w x stage running there freed issues => ?_, fun stage stops => ?_⟩
    · have answered := freeSlot_of_freed freed
      have path := answered ▸ freeSlot_path i _
      exact exec_endsBadly_posts quiet tag bad ((captureReadEnds_fails held' stage).trans answered)
        ((answer_undisturbed sl.entry true .capFault [] v).trans (.ofPath path)) path.epochs
        (congrArg JournalUnit.free path.journal)
    · have issued := issue_freed entries there freed issues
      have path := issued ▸ (freeSlot_path i v).trans (goToIssue_path sl.entry (freeSlot i v))
      refine exec_endsBadly_posts quiet tag bad ?_ (.ofPath path) path.epochs (congrArg JournalUnit.free path.journal)
      exact (captureReadEnds_discards held' stage none).trans ((if_neg (by rw [stopped, running]; decide)).trans issued)
    · exact exec_endsBadly_posts quiet tag bad
        ((captureReadEnds_discards held' stage none).trans (if_pos (stopped.trans stops))) (.refl v) rfl rfl
  case host =>
    have request : q = hostRequest id a n w := hq.trans (by cases w <;> rfl)
    exact exec_hostRequest_fails quiet (request ▸ tag) bad
  case discarded =>
    have path := tagFreed_path freed
    have held' : v.capture.slots[i] = some sl := by rw [tagFreed_capture freed]; exact held
    have stopped : v.portStopped = s.portStopped := portStopped_service path.service
    have ended : takeCompletion t .ok data s = if v.portStopped then v else goToIssue sl.entry (freeSlot i v) :=
      (takeCompletion_ok tag freed).trans (captureReadEnds_discards held' discard _)
    refine ⟨fun w x running slot issues => ?_, fun stops => ?_⟩
    · have issued := issue_freed path.entries there slot issues
      have path' := issued ▸ path.trans ((freeSlot_path i v).trans (goToIssue_path sl.entry (freeSlot i v)))
      rw [exec_done_end quiet.1, ended, if_neg (by rw [stopped, running]; decide), issued,
        (Undisturbed.ofPath path').afterOutcome quiet (congrArg JournalUnit.free path'.journal)]
    · rw [exec_done_end quiet.1, ended, if_pos (stopped.trans stops),
        (Undisturbed.ofPath path).afterOutcome quiet (congrArg JournalUnit.free path.journal)]

/-! ### Completions that are late or stray (R151) -/

theorem exec_done_late {s v : State} {t : Fin 64} {status : Status} {data : List Word} (quiet : s.quiet)
    (tag : s.memIf.tags[t] = .quarantined) (freed : s.tagFreed t v) :
    exec (.done t status data) s = .next (post none (.lateCompletion t true) v) := by
  have path := tagFreed_path freed
  have late : takeCompletion t status data s = post none (.lateCompletion t true) v := by
    rw [takeCompletion, tag, ← serveTagQueue_of_freed freed]
    rfl
  rw [exec_done_end quiet.1, late,
    ((Undisturbed.ofPath path).trans (.ofPost _ _ _)).afterOutcome quiet (by rw [post_journal, path.journal])]

/-- Settles O27: by the state of the tag. -/
theorem lateAndStrayCompletions : Obligations.LateAndStrayCompletions := by
  intro s t status data quiet
  refine ⟨fun tag queue => exec_done_late quiet tag (.inl ⟨queue, rfl⟩),
    fun r rest tag queue full => exec_done_late quiet tag (.inr ⟨r, rest, queue, full, rfl⟩), fun tag => ?_, rfl, rfl⟩
  have stray : takeCompletion t status data s = post none (.lateCompletion t false) s := by rw [takeCompletion, tag]
  rw [exec_done_end quiet.1, stray, (Undisturbed.ofPost _ _ _).afterOutcome quiet (by rw [post_journal])]

end Sys2Proof.Machine
end

section
/-! PROOF. A capture read that completes OK (R12 to R14, R25, R48, R110, R111). -/

namespace Sys2Proof.Machine

theorem Undisturbed.afterOutcome_kept {s t : State} (a : Undisturbed s t) (q : s.quiet)
    (free : s.journal.free = [] → t.journal.free = []) (hold : t.freeCount = s.freeCount ∨ s.autoKept t.freeCount) :
    heldEnd s (Machine.afterOutcome t) = t := by
  obtain ⟨rollback, coreReset⟩ := a.settled q free
  rw [Machine.afterOutcome, rollback, coreReset]
  exact a.ends q hold

/-- R149: a freed tag changes the table and the memory interface alone. -/
theorem tagFreed_form {s v : State} {t : Fin 64} (freed : s.tagFreed t v) :
    ∃ (table : List Entry) (m : MemoryIf), v = (s.setHost { s.host with table := table }).setMemIf m := by
  rcases freed with ⟨-, rfl⟩ | ⟨r, rest, -, -, rfl⟩
  · exact ⟨s.host.table, _, rfl⟩
  · cases r <;> exact ⟨_, _, rfl⟩

/-! ### The bytes of a line -/

theorem wordsBytes_length (ws : List Word) : (wordsBytes ws).length = 8 * ws.length := by
  induction ws with
  | nil => rfl
  | cons w ws ih =>
    rw [wordsBytes, List.flatMap_cons, List.length_append, wordBytes, leBytes_length, List.length_cons]
    exact (congrArg (8 + ·) ih).trans (by ring)

theorem fitBytes_exact {n : Nat} {bs : List Byte} (length : bs.length = n) (s : State) : fitBytes n bs s = bs := by
  rw [fitBytes, length, Nat.sub_self, ← length, List.take_length]
  exact List.append_nil bs

/-! ### The append request of a capture read (R48) -/

section Append
variable {s v : State} {i : Fin 8} {sl : Slot} {data : List Word}

theorem captureReadEnds_appends (held : s.capture.slots[i] = some sl) (stage : sl.stage = .read) (length : data.length = 8) :
    captureReadEnds i (some data) s = appendRequest { slot := i, entry := sl.entry, line := sl.line, data := wordsBytes data }
      (setSlot i (some { sl with data := some (wordsBytes data) }) s) := by
  have bytes : (wordsBytes data).length = Config.lineBytes := by rw [wordsBytes_length, length]; rfl
  obtain ⟨entry, line, st, old⟩ := sl
  obtain rfl : st = .read := stage
  rw [captureReadEnds, held]
  simp only
  rw [bytes, useFresh_enough le_rfl, fitBytes_exact bytes]
  rfl

theorem slots_restage {slots : Vector (Option Slot) 8} (i : Fin 8) (x : Slot) (f : Slot → Slot) :
    (slots.set i (some x)).set i ((slots.set i (some x))[i].map f) = slots.set i (some (f x)) := by
  simp

theorem appendRequest_gives {r : AppendRequest} {t : State} {top : Epoch} {rest : List Epoch} (idle : s.journal.waiting = [])
    (g : s.gives r top rest t) : appendRequest r s = t := by
  obtain ⟨positions, given⟩ := givePosition_of_gives g
  rw [appendRequest, idle, positions, given]
  rfl

/-- R14, R110: the state in which a request waits. -/
def State.waitsForSpace (r : AppendRequest) (s : State) : State :=
  setEntryState .spaceWait r.entry (setStage r.slot .space
    ((s.setJournal { s.journal with waiting := s.journal.waiting ++ [r] }).setSpace
      { s.space with fullWaits := s.space.fullWaits ++
          [(r.entry, s.timebase + BitVec.ofNat 32 s.service.params.fullWait)] }))

theorem appendRequest_waits {r : AppendRequest} (noPlace : s.journal.waiting ≠ [] ∨
    (s.fillingHasRoom = false ∧ (s.journal.free = [] ∨ 1024 ≤ s.journal.map.length))) : appendRequest r s =
      if s.service.params.fullWait = 0 then breakTop .full (s.waitsForSpace r) else s.waitsForSpace r := by
  have waits : (s.journal.waiting.isEmpty && s.positionExists) = false := by
    rcases noPlace with waiting | ⟨full, free | entries⟩
    · rw [List.isEmpty_eq_false_iff.mpr waiting, Bool.false_and]
    · simp [State.positionExists, full, State.spaceExists, free]
    · simp [State.positionExists, full, State.spaceExists, Nat.not_lt.mpr entries, Config.mapSize]
  rw [appendRequest, waits]
  rfl

theorem breakTop_undisturbed (r : BrokenReason) (s : State) : Undisturbed s (breakTop r s) where
  toSameHold := (moves_breakTop (config := false) r s).sameHold
  controller := breakTop_epochs_stack.1
  replay := breakTop_replay r s
  work := breakTop_work r s
  port := by rcases breakTop_journal r s with same | same <;> rw [same]

end Append

/-- Settles O24: the request takes the newest entry's next place, a new entry's first one, or waits for space. -/
theorem captureReadCompletes : Obligations.CaptureReadCompletes := by
  intro s t i l expiry sl data top rest v quiet freed tag held stage length stack
  have completed : exec (.done t .ok data) s = .next (heldEnd s (afterOutcome (appendRequest
      { slot := i, entry := sl.entry, line := sl.line, data := wordsBytes data }
      (setSlot i (some { sl with data := some (wordsBytes data) }) v)))) := by
    rw [exec_done_end quiet.1, takeCompletion_ok tag freed, handOutcome,
      captureReadEnds_appends (by rw [tagFreed_capture freed]; exact held) stage length]
  obtain ⟨table, m, rfl⟩ := tagFreed_form freed
  refine ⟨fun e p others idle map ne filling phys small => ?place, fun p free idle head entries full new kept => ?segment,
    fun u noPlace hu => ?waits⟩
  case place =>
    have given := appendRequest_gives (s := setSlot i (some { sl with data := some (wordsBytes data) })
        ((s.setHost { s.host with table := table }).setMemIf m))
      (r := { slot := i, entry := sl.entry, line := sl.line, data := wordsBytes data }) idle
      ⟨others, e, p, _, _, ⟨phys, filling, small, fun x hx => (ne x hx).2⟩,
        .inl ⟨map, fun x hx => (ne x hx).1, rfl, rfl⟩, stack, rfl⟩
    simp only [setSlot, State.setCapture_capture, slots_restage] at given
    rw [completed, setSlot, given]
    exact congrArg _ (Undisturbed.afterOutcome ⟨⟨⟨rfl, rfl, rfl⟩, rfl, rfl, rfl, rfl⟩, rfl, rfl, rfl, rfl⟩ quiet rfl)
  case segment =>
    have given := appendRequest_gives (s := setSlot i (some { sl with data := some (wordsBytes data) })
        ((s.setHost { s.host with table := table }).setMemIf m))
      (r := { slot := i, entry := sl.entry, line := sl.line, data := wordsBytes data }) idle
      ⟨_, _, p, free, _, ⟨rfl, rfl, show 0 < 819 by decide, fun x hx => by
        obtain ⟨y, hy, rfl⟩ := List.mem_map.mp hx
        refine fun same => new y hy (Eq.trans ?_ same)
        split <;> rfl⟩, .inr ⟨full, entries, head, rfl, rfl, rfl⟩, stack, rfl⟩
    simp only [setSlot, State.setCapture_capture, slots_restage] at given
    rw [completed, setSlot, given]
    exact congrArg _ (Undisturbed.afterOutcome_kept ⟨⟨⟨rfl, rfl, rfl⟩, rfl, rfl, rfl, rfl⟩, rfl, rfl, rfl, rfl⟩ quiet
      (fun empty => by rw [head] at empty; cases empty) (.inr kept))
  case waits =>
    have state : State.waitsForSpace { slot := i, entry := sl.entry, line := sl.line, data := wordsBytes data }
        (setSlot i (some { sl with data := some (wordsBytes data) }) ((s.setHost { s.host with table := table }).setMemIf m)) =
        u := by
      rw [hu, State.waitsForSpace, setStage]
      simp only [setSlot, State.setSpace_capture, State.setJournal_capture, State.setCapture_capture, slots_restage]
      rfl
    have waiting : Undisturbed s u := by rw [hu]; exact ⟨⟨⟨rfl, rfl, rfl⟩, rfl, rfl, rfl, rfl⟩, rfl, rfl, rfl, rfl⟩
    have free : u.journal.free = s.journal.free := by rw [hu]; rfl
    have asked := appendRequest_waits (s := setSlot i (some { sl with data := some (wordsBytes data) })
        ((s.setHost { s.host with table := table }).setMemIf m))
      (r := { slot := i, entry := sl.entry, line := sl.line, data := wordsBytes data }) noPlace
    rw [completed, asked, state]
    refine ⟨fun runs => ?_, fun zero => ?_⟩
    · rw [if_neg (by exact runs), waiting.afterOutcome quiet free]
    · rw [if_pos (by exact zero), (waiting.trans (breakTop_undisturbed .full u)).afterOutcome quiet ((breakTop_free _ _).trans free)]

end Sys2Proof.Machine
end

section
/-! PROOF. The end of a restore (R70, R71, R77 to R79, R170, R172). -/

namespace Sys2Proof.Machine

/-! ### The end of a step of a walk -/

theorem heldEnd_idle {s t : State} (q : s.quiet) (held : t.service.held = s.service.held) (work : t.service.work = s.service.work) :
    heldEnd s t = settleHold s t := by
  obtain ⟨-, -, -, -, -, -, -, -, idle⟩ := q
  refine heldEnd_none ?_
  rw [held, work]
  exact idle

theorem heldEnd_before {s u v : State} (free : s.freeCount = u.freeCount) : heldEnd s v = heldEnd u v := by
  rw [heldEnd, heldEnd, settleHold_before free]

theorem settleRollback_work (s : State) : (settleRollback s).service.work = s.service.work :=
  (exchange_kept (f := settleRollback) (fun _ _ _ => settleRollback_withExchange _ _ _) s).2

theorem settleRollback_sameHold (s : State) : SameHold s (settleRollback s) :=
  (moves_settleRollback (hold := false) (config := false) s).sameHold

/-- Outside a core reset the rollback alone settles after an outcome. -/
theorem heldEnd_walk {s w : State} (q : s.quiet) (noReset : s.service.coreReset = none) (same : SameHold s w)
    (work : w.service.work = s.service.work) :
    heldEnd s (settleCoreReset (settleRollback w)) = settleHold s (settleRollback w) := by
  have rolled := same.trans (settleRollback_sameHold w)
  rw [(settleCoreReset_none (rolled.coreReset.trans noReset)).1,
    heldEnd_idle q rolled.held ((settleRollback_work w).trans work)]

theorem settleRollback_reset {s : State} (reset : s.service.coreReset ≠ none) : settleRollback s = s := by
  have noWalk : ∀ c, s.walking c = none := fun c => if_neg fun both => reset both.2
  refine settleRollback_notDue (by rw [State.refillDue, noWalk]) ?_ (by rw [State.rollbackSucceeds, noWalk])
  rw [State.failureCompletes, Option.isNone_eq_false_iff.mpr (Option.isSome_iff_ne_none.mpr reset), Bool.and_false, Bool.false_and]

/-! ### Consumed entries (R71, R17) -/

theorem removeConsumed_append {c : ReplayContext} (older : List Segment) : ∀ {gone : List Segment},
    (∀ e ∈ gone, c.consumed e = true) → removeConsumed c (gone ++ older) =
      ((removeConsumed c older).1, gone.filterMap (·.physical) ++ (removeConsumed c older).2)
  | [], _ => rfl
  | e :: rest, all => by
    have first := all e List.mem_cons_self
    have others := removeConsumed_append older (gone := rest) fun x hx => all x (List.mem_cons_of_mem _ hx)
    rw [List.cons_append, removeConsumed, if_pos first, others, List.filterMap_cons]
    cases e.physical <;> rfl

theorem removeConsumed_stops {c : ReplayContext} {l : List Segment} (stops : ∀ e, l.head? = some e → c.consumed e = false) :
    removeConsumed c l = (l, []) := by
  cases l with
  | nil => rfl
  | cons e rest => rw [removeConsumed, if_neg (by rw [stops e rfl]; decide)]

theorem dropConsumed_split {s : State} {c : ReplayContext} {older gone : List Segment} (idle : s.journal.waiting = [])
    (map : s.journal.map = older ++ gone) (all : ∀ e ∈ gone, c.consumed e = true)
    (stops : ∀ e, older.getLast? = some e → c.consumed e = false) : dropConsumed c s = s.setJournal { s.journal with
      map := older, free := s.journal.free ++ gone.reverse.filterMap (·.physical) } := by
  have removed : removeConsumed c s.journal.map.reverse = (older.reverse, gone.reverse.filterMap (·.physical)) := by
    rw [map, List.reverse_append, removeConsumed_append _ (fun e he => all e (List.mem_reverse.mp he)),
      removeConsumed_stops (fun e he => stops e (by rwa [List.head?_reverse] at he)), List.append_nil]
  rw [dropConsumed, removed, List.reverse_reverse]
  exact freeSegments_idle (s := setMap older s) idle

/-! ### What the end of a restore does (R70, R78) -/

section Restore
variable {s : State} {c : ReplayContext} {n : Seq} {l : Line}

/-- R70: the context with the pair of a restore that has ended taken away. -/
def ReplayContext.without (n : Seq) (c : ReplayContext) : ReplayContext :=
  { c with restores := c.restores.filter fun r => decide (r.1 ≠ n) }

theorem listed_all (listed : (n, l) ∈ c.restores) : c.restores.all (fun r => decide (r.1 ≠ n)) = false := by
  rw [List.all_eq_false]
  exact ⟨(n, l), listed, by simp⟩

theorem restoreEnds_listed (context : s.replay.context = some c) (listed : (n, l) ∈ c.restores)
    (noReset : s.service.coreReset = none) (ok : Bool) : restoreEnds n ok s =
      match ok, c.failure with
      | true, none => dropConsumed (c.without n)
          (setContext (some { c.without n with replayed := countReplayed c.replayed }) s)
      | true, some _ => dropConsumed (c.without n) (setContext (some (c.without n)) s)
      | false, none => failRollback (c.without n) .restoreFault n (setContext (some (c.without n)) s)
      | false, some f =>
        setContext (some { c.without n with failure := some { f with kept := seqMax f.kept n } }) s := by
  simp only [restoreEnds, context, listed_all listed, noReset, Option.isSome_none, Bool.false_eq_true, if_false]
  rfl

theorem restoreEnds_reset (context : s.replay.context = some c) (listed : (n, l) ∈ c.restores)
    (reset : s.service.coreReset ≠ none) (ok : Bool) : restoreEnds n ok s = setContext (some (c.without n)) s := by
  simp only [restoreEnds, context, listed_all listed, Option.isSome_iff_ne_none.mpr reset, Bool.false_eq_true, if_false, if_true]
  rfl

theorem countReplayed_below {v : BitVec 32} (below : v.toNat < 2 ^ 32 - 1) : countReplayed v = v + 1 :=
  if_neg fun all => absurd ((allOnes_iff v).mp all) (Nat.ne_of_lt below)

/-- R70, R71: a restore OK, with the entries it leaves consumed. -/
theorem restoreEnds_ok {older gone : List Segment} (context : s.replay.context = some c) (listed : (n, l) ∈ c.restores)
    (noReset : s.service.coreReset = none) (idle : s.journal.waiting = []) (map : s.journal.map = older ++ gone)
    (all : ∀ e ∈ gone, (c.without n).consumed e = true)
    (stops : ∀ e, older.getLast? = some e → (c.without n).consumed e = false) (below : c.replayed.toNat < 2 ^ 32 - 1) :
    restoreEnds n true s = (s.setJournal { s.journal with
      map := older, free := s.journal.free ++ gone.reverse.filterMap (·.physical) }).setReplay { s.replay with
        context := some { c.without n with replayed := if c.failure = none then c.replayed + 1 else c.replayed } } := by
  have dropped := fun context' : ReplayContext =>
    dropConsumed_split (s := setContext (some context') s) (c := c.without n) idle map all stops
  rw [restoreEnds_listed context listed noReset]
  cases failure : c.failure with
  | none =>
    simp only [if_true]
    rw [dropped, countReplayed_below below, ReplayContext.without, failure]
    rfl
  | some f =>
    simp only [reduceCtorEq, if_false]
    rw [dropped, ReplayContext.without, failure]
    rfl

end Restore

/-- R79: the last restore that a failure waits for, where `freed` is the segment it freed. -/
theorem lastOfFailure_iff {s : State} {c : ReplayContext} {others : List (Seq × Line)} {freed : Option Phys} :
    (others.isEmpty && c.read.isNone && !(freed.any fun p => s.blockOutstanding p)) = true ↔
      c.read = none ∧ others = [] ∧ ∀ p, freed = some p → s.blockOutstanding p = false := by
  cases freed with
  | none => simp [and_comm]
  | some p => simp [and_assoc, and_left_comm]

/-! ### A restore that ends OK in a walk (R70, R71, R74, R77, R79) -/

section Succeeds
variable {s u : State} {c : ReplayContext}

/-- R77: success in the step that leaves `u`, or not. -/
theorem settleRollback_success_row (running : u.inReset = false) (settled : s.holdSettled) (same : SameHold s u)
    (grows : s.growsTo u) (context : u.replay.context = some c) (noFailure : c.failure = none)
    (refill : u.refillDue = false) :
    (.next (settleHold s (settleRollback u)) : Result) =
      if u.epochs.controller = .replay ∧ c.restores = [] ∧ c.next = none ∧ c.held = none ∧ c.read = none then
        exec .rollbackDone u
      else .next u := by
  have noFail : u.failureCompletes = false := by
    rw [State.failureCompletes, context]
    simp [noFailure]
  rw [settleRollback, takeRefillSegment_notDue refill, completeFailure_notDue noFail]
  split
  case isTrue done =>
    rw [exec_rollbackDone_running running, settleHold_through grows
      (same.trans (moves_completeSuccess (config := false) u).sameHold).toSameAuto completeSuccess_grows]
  case isFalse waits =>
    have notDue : u.rollbackSucceeds = false := by
      rw [State.rollbackSucceeds]
      cases walking : u.walking .replay with
      | none => rfl
      | some c' =>
        obtain ⟨replay, -, context', -⟩ := walking_some walking
        cases context.symm.trans context'
        rw [← Bool.not_eq_true]
        intro succeeds
        simp only [Bool.and_eq_true, Option.isNone_iff_eq_none, List.isEmpty_iff] at succeeds
        obtain ⟨⟨⟨next, held⟩, read⟩, restores⟩ := succeeds
        exact waits ⟨replay, restores, next, held, read⟩
    rw [completeSuccess_notDue notDue, settleHold_of_growsTo settled same grows]

/-- R74: the refill that waits takes the segment in the step that leaves `u`. -/
theorem settleRollback_refill_row {r : Refill} {e : Segment} {p : Phys} {free : List Phys} (running : u.inReset = false)
    (settled : s.holdSettled) (same : SameHold s u) (walking : u.walking .refillWait = some c) (refill : c.refill = some r)
    (waits : r.physical = none) (head : u.journal.free = p :: free) (entry : u.segment r.q = some e) (spilled : e.state = .spilled)
    (kept : s.autoKept free.length) :
    (.next (settleHold s (settleRollback u)) : Result) = exec .refillRequest u := by
  obtain ⟨wait, -, -, noFailure⟩ := walking_some walking
  have takes := takeRefillSegment_takes walking refill waits head entry spilled
  have controller : (takeRefillSegment u).epochs.controller = .refillWait := by
    rw [takes, post_epochs]
    exact wait
  have noFail : (takeRefillSegment u).failureCompletes = false := by
    rw [State.failureCompletes, takes, post_replay]
    simp [noFailure]
  have noSuccess : (takeRefillSegment u).rollbackSucceeds = false := by
    rw [State.rollbackSucceeds, walking_of_controller_ne (by rw [controller]; decide)]
  have count : (takeRefillSegment u).freeCount = free.length := by
    rw [takes, post_freeCount]
    rfl
  have moved : SameHold u (takeRefillSegment u) := (moves_takeRefillSegment (hold := false) (config := false) u).sameHold
  rw [settleRollback, completeFailure_notDue noFail, completeSuccess_notDue noSuccess, exec_refillRequest_running running,
    settleHold_of_sameHold settled (same.trans moved) (count.symm ▸ kept),
    settleHold_of_sameHold (same.holdSettled settled) moved ((same.toSameAuto.autoKept _).mpr (count.symm ▸ kept))]

end Succeeds

/-! ### The rows of a restore -/

section Rows
variable {s v : State} {t : Fin 64} {n : Seq} {l : Line} {old : List Byte} {expiry : Tick} {c : ReplayContext}

/-- In a walk the step of an outcome settles the rollback alone. -/
theorem outcome_walk {w : State} (quiet : s.quiet) (noReset : s.service.coreReset = none) (same : SameHold s w)
    (work : w.service.work = s.service.work) :
    (.next (heldEnd s (afterOutcome w)) : Result) = .next (settleHold s (settleRollback w)) :=
  congrArg _ (heldEnd_walk quiet noReset same work)

theorem exec_restore_ok {data : List Word} {u : State} {older gone : List Segment} (quiet : s.quiet)
    (noReset : s.service.coreReset = none) (tag : s.memIf.tags[t] = .outstanding (.restore n l old) expiry)
    (context : s.replay.context = some c) (listed : (n, l) ∈ c.restores) (idle : s.journal.waiting = [])
    (freed : s.tagFreed t v) (map : s.journal.map = older ++ gone) (all : ∀ e ∈ gone, (c.without n).consumed e = true)
    (stops : ∀ e, older.getLast? = some e → (c.without n).consumed e = false) (below : c.replayed.toNat < 2 ^ 32 - 1)
    (hu : u = (v.setJournal { s.journal with
      map := older, free := s.journal.free ++ gone.reverse.filterMap (·.physical) }).setReplay { s.replay with
        context := some { c.without n with replayed := if c.failure = none then c.replayed + 1 else c.replayed } }) :
    SameHold s u ∧ exec (.done t .ok data) s = .next (settleHold s (settleRollback u)) := by
  have path := tagFreed_path freed
  have ended : restoreEnds n true v = u := by
    rw [restoreEnds_ok (path.replay ▸ context) listed (path.service ▸ noReset) (path.journal ▸ idle) (path.journal ▸ map) all stops
      below, path.journal, path.replay, hu]
  have same : SameHold s u := ended ▸ path.sameHold.trans (moves_restoreEnds (config := false) n true v).sameHold
  refine ⟨same, ?_⟩
  rw [exec_done_end quiet.1, takeCompletion_ok tag freed, handOutcome, Option.isSome_some, ended]
  refine outcome_walk quiet noReset same ?_
  rw [hu]
  exact congrArg ServiceIf.work path.service

/-- The restore of a walk that ends badly: `z` is what the rollback makes of it. -/
theorem exec_restore_bad {cmd : Instr} {kind : MemFaultKind} {z : State} (quiet : s.quiet) (noReset : s.service.coreReset = none)
    (tag : s.memIf.tags[t] = .outstanding (.restore n l old) expiry) (bad : s.endsBadly t expiry cmd kind v)
    (ended : restoreEnds n false v = z) (epochs : z.epochs = v.epochs) (work : z.service.work = v.service.work) :
    SameHold s (post s.topNumber (.memFault kind .restore l t) z) ∧
    exec cmd s = .next (settleHold s (settleRollback (post s.topNumber (.memFault kind .restore l t) z))) := by
  obtain ⟨before, -, -, epochs', -⟩ := endsBadly_keeps bad
  have top : z.topNumber = s.topNumber := by rw [State.topNumber, State.top, epochs, epochs']; rfl
  have same : SameHold s (post s.topNumber (.memFault kind .restore l t) z) :=
    (before.toSameHold.trans (ended ▸ (moves_restoreEnds (config := false) n false v).sameHold)).trans (post_sameHold _ _ _)
  refine ⟨same, ?_⟩
  rw [exec_endsBadly quiet.1 tag bad, handOutcome, Option.isSome_none, ended, postMemFault, top]
  exact outcome_walk quiet noReset same ((post_work _ _ _).trans (work.trans before.work))

theorem endsBadly_inReset {cmd : Instr} {kind : MemFaultKind} (bad : s.endsBadly t expiry cmd kind v) : v.inReset = s.inReset := by
  rcases bad with ⟨-, -, freed⟩ | ⟨-, -, rfl⟩
  · exact (tagFreed_path freed).inReset
  · obtain ⟨y, clock⟩ := advanceTo_eq expiry s
    rw [clock]
    rfl

/-- A restore that ends badly while a failure is present, or makes one: the failure completes in the step, or waits (R79). -/
theorem exec_restore_failure {cmd : Instr} {kind : MemFaultKind} {z : State} {c' : ReplayContext} {f : Failure} (quiet : s.quiet)
    (noReset : s.service.coreReset = none) (walks : s.epochs.walks)
    (tag : s.memIf.tags[t] = .outstanding (.restore n l old) expiry) (bad : s.endsBadly t expiry cmd kind v)
    (ended : restoreEnds n false v = z) (epochs : z.epochs = v.epochs) (work : z.service.work = v.service.work)
    (pin : z.inReset = v.inReset) (port : z.journal.outstanding = v.journal.outstanding) 
    (context : z.replay.context = some c') (failure : c'.failure = some f)
    (grows : s.growsTo z) :
    exec cmd s = if c'.read = none ∧ c'.restores = [] ∧ ∀ p, f.freed = some p → s.blockOutstanding p = false then
        exec .rollbackFailed (post s.topNumber (.memFault kind .restore l t) z)
      else .next (post s.topNumber (.memFault kind .restore l t) z) := by
  obtain ⟨same, row⟩ := exec_restore_bad quiet noReset tag bad ended epochs work
  obtain ⟨running, settled, -⟩ := quiet
  obtain ⟨-, -, journal, epochs', -⟩ := endsBadly_keeps bad
  have running' : (post s.topNumber (.memFault kind .restore l t) z).inReset = false := by
    rw [post_inReset, pin, endsBadly_inReset bad]
    exact running
  have controller : (post s.topNumber (.memFault kind .restore l t) z).epochs.walks := by
    rw [post_epochs, epochs, epochs']
    exact walks
  rw [row, settleRollback_failed_row running' settled same (by simpa only [State.growsTo, post_freeCount, post_journal] using grows)
    (by rw [post_replay]; exact context) failure]
  refine if_congr ((failureCompletes_iff controller (same.coreReset.trans noReset) (by rw [post_replay]; exact context)
    failure).trans ?_) rfl rfl
  simp only [State.blockOutstanding, post_journal, port, journal]

/-- R170: during a core reset the pair leaves the list; the last one brings the end of the core reset (R172). -/
theorem restore_reset {r : CoreReset} {w : State} (quiet : s.quiet) (reset : s.service.coreReset = some r) (same : SameHold s w)
    (work : w.service.work = s.service.work) (running : w.inReset = false) (free : w.freeCount = s.freeCount)
    (port : w.journal.outstanding = s.journal.outstanding) (context : w.replay.context = some (c.without n)) :
    (.next (heldEnd s (afterOutcome w)) : Result) =
      if r.journalDone = true ∧ (c.without n).restores = [] then exec .coreResetEnd w else .next w := by
  have reset' : w.service.coreReset = some r := same.coreReset.trans reset
  have noStep : w.journalStepDue = false := by
    obtain ⟨-, -, -, -, -, notDue, -⟩ := quiet
    rw [State.journalStepDue, same.coreReset, port]
    exact notDue
  have due : w.coreResetEndDue = true ↔ r.journalDone = true ∧ (c.without n).restores = [] := by
    rw [State.coreResetEndDue, reset', context]
    simp
  rw [afterOutcome, settleRollback_reset (by rw [reset']; nofun), settleCoreReset, settleJournalStep_notDue noStep,
    exec_coreResetEnd, whenRunningHeld_heldEnd running, heldEnd_before free.symm]
  split
  case isTrue => rfl
  case isFalse waits =>
    have notDue : w.coreResetEndDue = false := Bool.eq_false_iff.mpr (mt due.mp waits)
    have settled : s.holdSettled := by
      obtain ⟨-, settled, -⟩ := quiet
      exact settled
    rw [settleCoreResetEnd_notDue notDue, ← heldEnd_before free.symm, heldEnd_idle quiet same.held work,
      settleHold_of_sameHold_free settled same free]

end Rows

/-- Settles O26: a restore OK drops the consumed entries, a bad one fails the rollback, and the rows of the rollback end the step. -/
theorem restoreCompletes : Obligations.RestoreCompletes := by
  refine ⟨?walk, ?reset⟩
  case walk =>
    intro s t n l old expiry c others lastOfFailure quiet noReset walks tag context listed hothers idle hlast
    have settled : s.holdSettled := by
      obtain ⟨-, settled, -⟩ := quiet
      exact settled
    subst hothers
    refine ⟨fun data v u older gone freed map all stops below hu => ?ok, fun cmd kind v bad => ⟨?fails, ?raises⟩⟩
    case ok =>
      have path := tagFreed_path freed
      obtain ⟨same, row⟩ :=
        exec_restore_ok (data := data) quiet noReset tag context listed idle freed map all stops below hu
      have running : u.inReset = false := by rw [hu]; exact path.inReset.trans quiet.1
      have context' : u.replay.context = some { c.without n with
        replayed := if c.failure = none then c.replayed + 1 else c.replayed } := by rw [hu]; rfl
      have controller : u.epochs.controller = s.epochs.controller := by rw [hu]; exact congrArg EpochCtl.controller path.epochs
      have grows : s.autoKept u.journal.free.length → s.growsTo u := fun kept =>
        .inr ⟨by rw [hu]; simp [State.freeCount], kept, by rw [hu]; exact idle⟩
      have walking : c.failure = none → s.epochs.controller = .refillWait → u.walking .refillWait = some { c.without n with
          replayed := if c.failure = none then c.replayed + 1 else c.replayed } := fun noFailure wait =>
        walking_of (controller.trans wait) (same.coreReset.trans noReset) context' noFailure
      refine ⟨fun noFailure settledRefill kept => ?_, fun r e noFailure wait refill waits entry spilled => ⟨?_, ?_⟩,
        fun failed kept => ?_⟩
      · have notDue : u.refillDue = false := refillDue_of_settled fun c' walks' r refill => by
          obtain ⟨wait, -, context'', -⟩ := walking_some walks'
          cases context'.symm.trans context''
          exact settledRefill r refill (controller.symm.trans wait)
        rw [row, settleRollback_success_row running settled same (grows kept) context' noFailure notDue, controller]
        rfl
      · intro empty kept
        have notDone : ¬ (u.epochs.controller = .replay ∧ (c.without n).restores = [] ∧ c.next = none ∧ c.held = none ∧
            c.read = none) := fun done => by
          have replay := controller.symm.trans done.1
          rw [wait] at replay
          cases replay
        have count : u.freeCount = 0 := congrArg List.length empty
        rw [row, settleRollback_success_row running settled same (grows (by rw [empty]; exact kept)) context' noFailure
          (refillDue_of_empty empty)]
        exact if_neg notDone
      · intro p free head kept
        rw [row, settleRollback_refill_row running settled same (walking noFailure wait) refill waits head entry spilled kept]
      · obtain ⟨f, failure⟩ := Option.ne_none_iff_exists'.mp failed
        rw [row, settleRollback_failed_row running settled same (grows kept) context' failure]
        refine if_congr ((failureCompletes_iff (by rw [EpochCtl.walks, controller]; exact walks)
          (same.coreReset.trans noReset) context' failure).trans ?_) rfl rfl
        rw [hlast, failure, Option.bind_some, lastOfFailure_iff]
        rw [hu]
        rfl
    case fails =>
      intro kept w noFailure hkept
      obtain ⟨before, -, journal, epochs, -⟩ := endsBadly_keeps bad
      have replay : v.replay = s.replay := before.replay
      have ended : restoreEnds n false v =
          failRollback (c.without n) .restoreFault n (setContext (some (c.without n)) v) := by
        rw [restoreEnds_listed (replay ▸ context) listed (before.coreReset.trans noReset)]
        simp only [noFailure]
      have point : (setContext (some (c.without n)) v).keptPoint (c.without n) .restoreFault n = kept :=
        (keptPoint_named rfl n).trans (by subst hkept; rfl)
      have entryOf : ∀ q, (setContext (some (c.without n)) v).segment q = s.segment q := fun q => by
        simp only [State.segment]
        rw [← journal]
        rfl
      have row : ∀ back, (setContext (some (c.without n)) v).refillToSpill (c.without n) .restoreFault = back →
          (back = none ∨ s.journal.waiting = []) → s.growsTo (v.fails (c.without n) .restoreFault kept back) →
          w = post s.topNumber (.memFault kind .restore l t) (v.fails (c.without n) .restoreFault kept back) →
          exec cmd s = if c.read = none ∧ (c.without n).restores = [] ∧
              ∀ p, back.bind (·.physical) = some p → s.blockOutstanding p = false then
            exec .rollbackFailed w
          else .next w := by
        intro back spills waiting grows hw
        have failed : restoreEnds n false v = v.fails (c.without n) .restoreFault kept back := by
          rw [ended, failRollback_fails spills (waiting.imp_right fun h => by rw [← h, ← journal]; rfl), point]
          rfl
        rw [hw]
        exact exec_restore_failure quiet noReset walks tag bad failed rfl rfl rfl rfl rfl rfl grows
      refine ⟨fun other hw => ?_, fun r e p refill entry refilling phys keeps hw => ?_⟩
      · rw [row none (refillToSpill_none rfl fun r e refill there => other r e refill (entryOf r.q ▸ there)) (.inl rfl)
          (.inl (by rw [fails_freeCount, State.freeCount, journal]; rfl)) hw, hlast, noFailure]
        exact if_congr (by simp [ReplayContext.without, and_comm]) rfl rfl
      · have count : (v.fails (c.without n) .restoreFault kept (some e)).freeCount = s.journal.free.length + 1 := by
          rw [fails_freeCount, Option.bind_some, phys, State.freeCount, journal]
          rfl
        rw [row (some e) (refillToSpill_some refill ((entryOf r.q).trans entry) (.inl refilling)) (.inr idle)
          (.inr ⟨by rw [count]; exact Nat.le_succ _, by rw [count]; exact keeps, by rw [← idle, ← journal]; rfl⟩) hw, hlast, noFailure]
        exact if_congr (by simp [ReplayContext.without, phys, and_assoc, and_left_comm]) rfl rfl
    case raises =>
      intro f w failure hw
      obtain ⟨before, -, journal, -, -⟩ := endsBadly_keeps bad
      have replay : v.replay = s.replay := before.replay
      have ended := restoreEnds_listed (replay ▸ context) listed (before.coreReset.trans noReset) false
      simp only [failure] at ended
      have state : w = post s.topNumber (.memFault kind .restore l t)
          (setContext (some { c.without n with failure := some { f with kept := seqMax f.kept n } }) v) := by
        rw [hw, setContext, replay]
        rfl
      rw [exec_restore_failure quiet noReset walks tag bad ended rfl rfl rfl rfl rfl rfl
        (.inl (congrArg (fun j : JournalUnit => j.free.length) journal)), ← state, hlast, failure, Option.bind_some]
      exact if_congr lastOfFailure_iff.symm rfl rfl
  case reset =>
    intro s r t n l old expiry c others quiet reset tag context listed hothers
    subst hothers
    refine ⟨fun data v w freed hw => ?_, fun cmd kind v w bad hw => ?_⟩
    · have path := tagFreed_path freed
      have ended : restoreEnds n true v = w := by
        rw [restoreEnds_reset (path.replay ▸ context) listed (by rw [path.service, reset]; nofun), hw, setContext, path.replay]
        rfl
      rw [exec_done_end quiet.1, takeCompletion_ok tag freed, handOutcome, Option.isSome_some, ended]
      exact restore_reset quiet reset (ended ▸ path.sameHold.trans (moves_restoreEnds (config := false) n true v).sameHold)
        (by rw [hw]; exact congrArg ServiceIf.work path.service) (by rw [hw]; exact path.inReset.trans quiet.1)
        (by rw [hw]; exact congrArg (fun j : JournalUnit => j.free.length) path.journal)
        (by rw [hw]; exact congrArg JournalUnit.outstanding path.journal) (by rw [hw]; rfl)
    · obtain ⟨before, -, journal, epochs, -⟩ := endsBadly_keeps bad
      have replay : v.replay = s.replay := before.replay
      have ended : restoreEnds n false v = v.setReplay { s.replay with context := some (c.without n) } := by
        rw [restoreEnds_reset (replay ▸ context) listed (by rw [before.coreReset, reset]; nofun), setContext, replay]
      have top : (v.setReplay { s.replay with context := some (c.without n) }).topNumber = s.topNumber := by
        rw [State.topNumber, State.top, State.setReplay_epochs, epochs]
        rfl
      have same : SameHold s w := by
        rw [hw]
        exact (before.toSameHold.trans (ended ▸ (moves_restoreEnds (config := false) n false v).sameHold)).trans (post_sameHold _ _ _)
      rw [exec_endsBadly quiet.1 tag bad, handOutcome, Option.isSome_none, ended, postMemFault, top]
      refine Eq.trans (b := .next (heldEnd s (afterOutcome w))) (by rw [hw]; rfl) ?_
      exact restore_reset quiet reset same (by rw [hw, post_work]; exact before.work)
        (by rw [hw, post_inReset]; exact (endsBadly_inReset bad).trans quiet.1)
        (by rw [hw, post_freeCount]; exact congrArg (fun j : JournalUnit => j.free.length) journal)
        (by rw [hw, post_journal]; exact congrArg JournalUnit.outstanding journal) (by rw [hw, post_replay]; rfl)

end Sys2Proof.Machine
end

section
/-! PROOF. The completion of a record read (R67, R68, R72, R74, R78), and what a core reset does with a port completion (R22, R171). -/

namespace Sys2Proof.Machine

/-! ### A completion of the journal port -/

section Port
variable {s w : State}

/-- R171: a step of a core reset that leaves `w` takes the journal step where nothing is outstanding on the port any more. -/
theorem port_reset {r : CoreReset} (quiet : s.quiet) (reset : s.service.coreReset = some r) (waits : r.journalDone = false)
    (same : SameHold s w) (work : w.service.work = s.service.work) (running : w.inReset = false)
    (free : w.freeCount = s.freeCount) :
    (.next (heldEnd s (settleCoreReset w)) : Result) =
      if w.journal.outstanding = [] then exec .journalStep w else .next w := by
  have reset' : w.service.coreReset = some r := same.coreReset.trans reset
  have due : w.journalStepDue = true ↔ w.journal.outstanding = [] := by
    simp [State.journalStepDue, reset', waits]
  split
  case isTrue => rw [exec_journalStep, whenRunningHeld_heldEnd running, heldEnd_before free.symm]; rfl
  case isFalse out =>
    have settled : s.holdSettled := by
      obtain ⟨-, settled, -⟩ := quiet
      exact settled
    rw [settleCoreReset_notDue (Bool.eq_false_iff.mpr (mt due.mp out))
      (by simp [State.coreResetEndDue, reset', waits]), heldEnd_idle quiet same.held work,
      settleHold_of_sameHold_free settled same free]

theorem portStopped_reset {r : CoreReset} (reset : s.service.coreReset = some r) (waits : r.journalDone = false) :
    s.portStopped = true := by
  simp [State.portStopped, reset, waits]

/-- The bytes of a completed read, where the completion brings as many as were asked for (R67, R89). -/
theorem portBytes_exact {data : PortData} {n : Nat} (a : Nat) (exact : ∀ bytes, data = .returned bytes → bytes.length = n)
    (s v : State) : usePortFresh n data v = v ∧ portBytes a n data s =
      match data with
      | .asStored => Memory.readBytes s.journal.memory a n
      | .returned bytes => bytes := by
  cases data with
  | asStored => exact ⟨rfl, rfl⟩
  | returned bytes =>
    have length := exact bytes rfl
    exact ⟨if_neg (by omega), fitBytes_exact length s⟩

end Port

/-! ### The row of a record read (R67) -/

section Read
variable {s : State} {port : Fin 8} {seg : Phys} {place : Nat} {n : Seq} {data : PortData} {status : Status} {record : List Byte}
  {c : ReplayContext}

theorem recordReadEnds_discards (op : s.portOp port = some (.recordRead seg place n)) (stopped : s.portStopped = true)
    (exact : ∀ bytes, data = .returned bytes → bytes.length = 80) : recordReadEnds port status data s = dropPort port s := by
  simp only [recordReadEnds, op, stopped, if_true]
  exact (portBytes_exact 0 exact s _).1

theorem recordReadEnds_replay (op : s.portOp port = some (.recordRead seg place n)) (running : s.portStopped = false)
    (exact : ∀ bytes, data = .returned bytes → bytes.length = 80) : recordReadEnds port status data s =
      replayRead n status (portBytes (recordAddress seg place) 80 data s) (dropPort port s) := by
  simp only [recordReadEnds, op, running, Bool.false_eq_true, if_false]
  exact congrArg _ (portBytes_exact 0 exact s _).1

theorem exec_recordRead_walk {w : State} (quiet : s.quiet) (noReset : s.service.coreReset = none)
    (ended : recordReadEnds port status data s = w) (work : w.service.work = s.service.work) :
    SameHold s w ∧ exec (.recordReadCompletion port status data) s = .next (settleHold s (settleRollback w)) := by
  have same : SameHold s w := ended ▸ (moves_recordReadEnds (hold := false) (config := false) port status data s).sameHold
  refine ⟨same, ?_⟩
  rw [exec_recordReadCompletion, whenRunningHeld_heldEnd quiet.1, ended, heldEnd_walk quiet noReset same work]

theorem replayRead_walk (context : s.replay.context = some c) (noFailure : c.failure = none) :
    replayRead n .fault record s =
        failRollback { c with read := none } .journalReadFault n (setContext (some { c with read := none }) s) ∧
      replayRead n .ok record s = checkRecord { c with read := none } n record (setContext (some { c with read := none }) s) := by
  have goes : ¬ c.failure.isSome = true := by simp [noFailure]
  constructor <;> (rw [replayRead, context]; exact if_neg goes)

theorem replayRead_failing {f : Failure} (context : s.replay.context = some c) (failure : c.failure = some f) :
    replayRead n status record s = setContext (some { c with read := none }) s := by
  simp only [replayRead, context, failure, Option.isSome_some, if_true]

/-- R68: each way in which a record read is bad fails the rollback at the record. -/
theorem replayRead_bad {reason : FailReason} (context : s.replay.context = some c) (noFailure : c.failure = none)
    (bad : (status = .fault ∧ reason = .journalReadFault) ∨ (status = .ok ∧ checksumPasses record = false ∧ reason = .checksum) ∨
      (status = .ok ∧ checksumPasses record = true ∧ recordSeq record ≠ n ∧ reason = .sequence)) :
    replayRead n status record s =
      failRollback { c with read := none } reason n (setContext (some { c with read := none }) s) := by
  obtain ⟨faulted, checked⟩ := replayRead_walk (n := n) (record := record) context noFailure
  rcases bad with ⟨rfl, rfl⟩ | ⟨rfl, checksum, rfl⟩ | ⟨rfl, checksum, other, rfl⟩
  · exact faulted
  · rw [checked, checkRecord, if_neg (by rw [checksum]; decide)]
  · rw [checked, checkRecord, if_pos checksum, if_neg other]

theorem checkRecord_good (checksum : checksumPasses record = true) (number : recordSeq record = n) :
    checkRecord c n record s = holdRecord c n record s := by
  rw [checkRecord, if_pos checksum, if_pos number]

/-- R68: the context in which the record read is held and the walk goes on to the record before. -/
def ReplayContext.holding (n : Seq) (record : List Byte) (c : ReplayContext) : ReplayContext :=
  { c with read := none, next := some (n - 1), held := some ⟨n, recordLine record, recordData record⟩ }

theorem badRefill_of_none {reason : FailReason} (refill : c.refill = none) : c.badRefill reason = false := by
  simp [ReplayContext.badRefill, refill]

theorem badRefill_of_refilled {reason : FailReason} {r : Refill}
    (reads : reason = .journalReadFault ∨ reason = .checksum ∨ reason = .sequence) (refill : c.refill = some r)
    (refilled : r.refilled = true) (current : c.current = some r.q) : c.badRefill reason = true := by
  rcases reads with rfl | rfl | rfl <;> simp [ReplayContext.badRefill, refill, refilled, current]

/-- R78: a bad record in a refilled entry fails the rollback at the entry's last record. -/
theorem keptPoint_refilled {reason : FailReason} {e : Segment} (bad : c.badRefill reason = true)
    (spills : s.refillToSpill c reason = some e) (held : c.held = none) : s.keptPoint c reason n = e.last := by
  simp only [State.keptPoint, bad, spills, if_true, Option.map_some, Option.getD_some]
  rw [held]

theorem fails_nothing {reason : FailReason} (kept : Seq) : s.fails c reason kept none = s.setReplay {
    context := some { c with
      held := none, refill := c.refill.filter (·.refilled), failure := some { reason := reason, kept := kept, freed := none } }
    refillTimer := none } := by
  have same : (fun x : Segment => if Option.map (fun e : Segment => e.q) none = some x.q then
      { x with state := .spilled, physical := none } else x) = id := by
    funext x
    simp
  simp only [State.fails, Option.bind_none, Option.toList_none, List.append_nil, same, List.map_id]
  rfl

/-- R72: a walk with a held record ends in no way by itself. -/
theorem settleRollback_holding {w : State} {h : HeldRecord} (replay : w.epochs.controller = .replay)
    (context : w.replay.context = some c) (noFailure : c.failure = none) (held : c.held = some h) : settleRollback w = w := by
  refine settleRollback_notDue (refillDue_of_controller (by rw [replay]; decide)) ?_ ?_
  · rw [State.failureCompletes, context]
    simp [noFailure]
  · rw [State.rollbackSucceeds]
    cases walking : w.walking .replay with
    | none => rfl
    | some c' =>
      obtain ⟨-, -, context', -⟩ := walking_some walking
      cases context.symm.trans context'
      simp [held]

end Read

/-- Settles O31: a good record is held and the walk moves on; a bad one fails the rollback; a core reset or a failure discards it. -/
theorem recordReadCompletes : Obligations.RecordReadCompletes := by
  refine ⟨?walk, ?reset, ?failing⟩
  case walk =>
    intro s port seg place n data record c u quiet noReset replay op context noFailure noHeld hrecord length hu
    have settled : s.holdSettled := by
      obtain ⟨-, settled, -⟩ := quiet
      exact settled
    have exact : ∀ bytes, data = .returned bytes → bytes.length = 80 := fun bytes returned => by
      subst returned
      rw [← length, hrecord]
    have bytes : portBytes (recordAddress seg place) 80 data s = record := by
      rw [(portBytes_exact _ exact s s).2]
      subst hrecord
      cases data <;> rfl
    have drop : dropPort port s = u := by rw [hu]; rfl
    have contextU : u.replay.context = some c := by rw [hu]; exact context
    have ends : ∀ status, recordReadEnds port status data s = replayRead n status record u := fun status => by
      rw [recordReadEnds_replay op (coreReset_none_running noReset) exact, bytes, drop]
    have good : checksumPasses record = true → recordSeq record = n → recordReadEnds port .ok data s =
        holdRecord { c with read := none } n record (setContext (some { c with read := none }) u) := fun checksum number => by
      rw [ends, (replayRead_walk contextU noFailure).2]
      exact checkRecord_good checksum number
    have free : u.freeCount = s.freeCount := by rw [hu]; rfl
    have segU : ∀ v m, (setContext v u).segmentOf m = s.segmentOf m := fun v m => by rw [hu]; rfl
    have holds : ∀ (c' : ReplayContext) (h : HeldRecord),
        recordReadEnds port .ok data s = u.setReplay { s.replay with context := some c' } → c'.failure = none →
        c'.held = some h →
        exec (.recordReadCompletion port .ok data) s = .next (u.setReplay { s.replay with context := some c' }) := by
      intro c' h ended noFailure held
      obtain ⟨same, row⟩ := exec_recordRead_walk quiet noReset ended (by rw [hu]; rfl)
      rw [row, settleRollback_holding (by rw [hu]; exact replay) rfl noFailure held]
      exact congrArg _ (settleHold_of_sameHold_free settled same free)
    refine ⟨fun checksum number start => ?_, fun e checksum number notStart entry current => ?_,
      fun e w checksum number notStart entry current kept reaches => ?_, fun status reason bad => ?_⟩
    · refine holds _ _ ?_ noFailure rfl
      rw [good checksum number, holdRecord, if_pos start, hu]
      rfl
    · refine holds _ _ ?_ noFailure rfl
      rw [good checksum number, holdRecord, if_neg notStart]
      simp only [segU, entry, current, if_true]
      rw [hu]
      rfl
    · have reached : recordReadEnds port .ok data s = w := by
        rw [good checksum number, holdRecord, if_neg notStart]
        simp only [segU, entry, current, if_false]
        exact reach_of_reaches (c := c.holding n record) (s := u) (by rw [hu]; exact noReset) noFailure reaches
      have work : w.service.work = u.service.work := by
        rw [← reach_of_reaches (c := c.holding n record) (s := u) (by rw [hu]; exact noReset) noFailure reaches]
        exact (exchange_kept (f := reach (c.holding n record) e) (fun _ _ _ => reach_withExchange _ _ (c.holding n record) e _) u).2
      have same : SameHold s u := by rw [hu]; exact ⟨⟨rfl, rfl, rfl⟩, rfl, rfl, rfl, rfl⟩
      rw [(exec_recordRead_walk quiet noReset reached (work.trans (by rw [hu]; rfl))).2,
        settleRollback_of_reaches (c := c.holding n record) (s := u) (by rw [hu]; exact replay) noFailure rfl reaches]
      exact congrArg _ (settleHold_of_reaches (c := c.holding n record) settled same (by rw [hu]; rfl)
        (by rw [hu]; exact noReset) noFailure (fun p free spilled head => kept p free spilled (by rw [← head, hu]; rfl)) reaches)
    · have ended : recordReadEnds port status data s = failRollback { c with read := none } reason n
          (setContext (some { c with read := none }) u) := (ends status).trans (replayRead_bad contextU noFailure bad)
      have reads : reason = .journalReadFault ∨ reason = .checksum ∨ reason = .sequence := by
        rcases bad with ⟨-, rfl⟩ | ⟨-, -, rfl⟩ | ⟨-, -, -, rfl⟩ <;> simp
      have row : ∀ back kept w, (setContext (some { c with read := none }) u).refillToSpill { c with read := none } reason = back →
          (setContext (some { c with read := none }) u).keptPoint { c with read := none } reason n = kept →
          (back = none ∨ s.journal.waiting = []) → s.growsTo w → u.fails { c with read := none } reason kept back = w →
          exec (.recordReadCompletion port status data) s = if c.restores = [] ∧
              ∀ p, back.bind (·.physical) = some p → u.blockOutstanding p = false then
            exec .rollbackFailed w
          else .next w := by
        intro back kept w spills point idle grows state
        have failed : recordReadEnds port status data s = w := by
          rw [ended, failRollback_fails spills (idle.imp_right fun h => by rw [← h, hu]; rfl), point, ← state]
          rfl
        obtain ⟨same, row⟩ := exec_recordRead_walk quiet noReset failed (by rw [← state, hu]; rfl)
        rw [row, settleRollback_failed_row (by rw [← state, hu]; exact quiet.1) settled same grows (by rw [← state]; rfl) rfl]
        refine if_congr ((failureCompletes_iff (.inl (by rw [← state, hu]; exact replay)) (same.coreReset.trans noReset)
          (by rw [← state]; rfl) rfl).trans ?_) rfl rfl
        rw [← state]
        exact and_iff_right rfl
      refine ⟨fun w noRefill hw => ?_, fun r e p w refill refilled current entry phys idle keeps hw => ?_⟩
      · have good := badRefill_of_none (c := { c with read := none }) (reason := reason) noRefill
        have spills := refillToSpill_none (s := setContext (some { c with read := none }) u) good
          fun r e refill => nomatch noRefill.symm.trans refill
        rw [row none n w spills ((keptPoint_named good n).trans (by simp only [noHeld])) (.inl rfl)
          (.inl (by rw [hw]; exact free)) ?_]
        · exact if_congr (by simp) rfl rfl
        · rw [hw, fails_nothing, noRefill, noHeld]
          rfl
      · have bad := badRefill_of_refilled (c := { c with read := none }) reads refill refilled current
        have spills := refillToSpill_some (s := setContext (some { c with read := none }) u) (c := { c with read := none })
          refill (by rw [hu]; exact entry) (.inr bad)
        have point : (setContext (some { c with read := none }) u).keptPoint { c with read := none } reason n = e.last :=
          keptPoint_refilled bad spills noHeld
        have count : w.freeCount = s.journal.free.length + 1 := by
          rw [hw, fails_freeCount, Option.bind_some, phys, free]
          rfl
        rw [row (some e) e.last w spills point (.inr idle)
          (.inr ⟨by rw [count]; exact Nat.le_succ _, by rw [count]; exact keeps, by rw [hw, ← idle, hu]; rfl⟩) hw.symm]
        exact if_congr (by simp [phys]) rfl rfl
  case reset =>
    intro s r port seg place n status data u quiet reset waits op exact hu
    have ended : recordReadEnds port status data s = u := by
      rw [recordReadEnds_discards op (portStopped_reset reset waits) exact, hu]
      rfl
    rw [exec_recordReadCompletion, whenRunningHeld_heldEnd quiet.1, ended,
      settleRollback_reset (by rw [hu, State.setJournal_service, reset]; nofun)]
    exact port_reset quiet reset waits (by rw [hu]; exact ⟨⟨rfl, rfl, rfl⟩, rfl, rfl, rfl, rfl⟩) (by rw [hu]; rfl)
      (by rw [hu]; exact quiet.1) (by rw [hu]; rfl)
  case failing =>
    intro s port seg place n status data c f u quiet noReset walks op exact context failure hu
    have settled : s.holdSettled := by
      obtain ⟨-, settled, -⟩ := quiet
      exact settled
    have ended : recordReadEnds port status data s = u := by
      rw [recordReadEnds_replay op (coreReset_none_running noReset) exact, replayRead_failing (s := dropPort port s) context failure, hu]
      rfl
    have context' : u.replay.context = some { c with read := none } := by rw [hu]; rfl
    obtain ⟨same, row⟩ := exec_recordRead_walk quiet noReset ended (by rw [hu]; rfl)
    have completes := failureCompletes_iff (s := u) (by rw [hu]; exact walks) (same.coreReset.trans noReset) context' failure
    rw [row, settleRollback_failed_row (by rw [hu]; exact quiet.1) settled same (.inl (by rw [hu]; rfl)) context' failure]
    refine ⟨fun done freed => if_pos (completes.mpr ⟨rfl, done, freed⟩), fun waits => if_neg fun all => ?_⟩
    obtain ⟨-, done, freed⟩ := completes.mp all
    rcases waits with out | ⟨p, segment, out⟩
    · exact out done
    · rw [freed p segment] at out
      cases out

end Sys2Proof.Machine
end

section
/-! PROOF. The arbiter of the journal port (R20, R21, R88) and the replay unit's reads and restores (R67, R69, R72). -/

namespace Sys2Proof.Machine

/-! ### The arbiter -/

section Arbiter
variable {s : State}

theorem freePort_room (room : s.journal.outstanding.length < 8) : ∃ p, s.freePort = some p := by
  rw [← Option.ne_none_iff_exists', State.freePort]
  intro full
  have used : ∀ p : Fin 8, p ∈ s.journal.outstanding.map (·.1) := fun p => by
    have taken := List.find?_eq_none.mp full p (List.mem_finRange p)
    rw [List.all_eq_true] at taken
    push Not at taken
    obtain ⟨o, there, same⟩ := taken
    exact List.mem_map.mpr ⟨o, there, by simpa using same⟩
  have covers : Finset.univ ⊆ (s.journal.outstanding.map (·.1)).toFinset := fun p _ => List.mem_toFinset.mpr (used p)
  have count := (Finset.card_le_card covers).trans (List.toFinset_card_le _)
  rw [Finset.card_fin, List.length_map] at count
  omega

theorem arbitrate_engine {p : Fin 8} (running : s.portStopped = false) (free : s.freePort = some p) {op : PortOp} {rest : List PortOp}
    (queue : s.journal.engineQueue = op :: rest) (turn : s.journal.serviceSide = none ∨ s.journal.lastGranted = .service) :
    arbitrate s = grant p op .engine (s.setJournal { s.journal with engineQueue := rest }) := by
  have granted : grantEngine p s = grant p op .engine (s.setJournal { s.journal with engineQueue := rest }) := by
    simp only [grantEngine, queue]
  rw [← granted, arbitrate, if_neg (by rw [running]; decide), free, queue]
  cases side : s.journal.serviceSide with
  | none => rfl
  | some op' =>
    have service : s.journal.lastGranted = .service := turn.resolve_left (by rw [side]; nofun)
    simp [service]

theorem arbitrate_service {p : Fin 8} (running : s.portStopped = false) (free : s.freePort = some p) {op : PortOp}
    (side : s.journal.serviceSide = some op) (turn : s.journal.engineQueue = [] ∨ s.journal.lastGranted = .engine) :
    arbitrate s = grantService p s := by
  rw [arbitrate, if_neg (by rw [running]; decide), free, side]
  cases queue : s.journal.engineQueue with
  | nil => rfl
  | cons first rest =>
    have engine : s.journal.lastGranted = .engine := turn.resolve_left (by rw [queue]; nofun)
    simp [engine]

/-- R21, R85: the service processor owns the segments of LENT and REFILLING entries. -/
theorem owner_service {x : SegState} : x.owner = some .service ↔ x = .lent ∨ x = .refilling := by
  cases x <;> simp [SegState.owner]

theorem serviceOwns_iff {p : Phys} : s.serviceOwns p = true ↔
    ∃ e ∈ s.journal.map, e.physical = some p ∧ (e.state = .lent ∨ e.state = .refilling) := by
  simp [State.serviceOwns, List.any_eq_true, owner_service]

/-- R21, R88: a transfer to a segment that the service processor does not own ends its command NOT_OWNER. -/
theorem arbitrate_refuses {op : PortOp} {seg : Phys} {w : Work} (running : s.portStopped = false)
    (room : s.journal.outstanding.length < 8) (side : s.journal.serviceSide = some op) (block : op.blockSegment = some seg)
    (turn : s.journal.engineQueue = [] ∨ s.journal.lastGranted = .engine)
    (others : ∀ e ∈ s.journal.map, e.physical = some seg → e.state ≠ .lent ∧ e.state ≠ .refilling)
    (work : s.service.work = some w) :
    arbitrate s = (s.setJournal { s.journal with serviceSide := none }).ends w (.refused .notOwner) := by
  obtain ⟨p, free⟩ := freePort_room room
  have notOwned : s.serviceOwns seg = false := Bool.eq_false_iff.mpr fun owned => by
    obtain ⟨e, there, phys, lent | refilling⟩ := serviceOwns_iff.mp owned
    · exact (others e there phys).1 lent
    · exact (others e there phys).2 refilling
  rw [arbitrate_service running free side turn]
  simp only [grantService, side, block, Option.any_some, notOwned, Bool.false_eq_true, if_false, respond, State.setJournal_service, work]
  rfl

theorem exec_arbiterGrant_end {t : State} (running : s.inReset = false) (settled : s.holdSettled)
    (idle : s.service.held = none ∨ s.service.work ≠ none) (ends : arbitrate s = t) (free : t.freeCount = s.freeCount)
    (held : t.service.held = s.service.held)
    (work : s.service.held = none ∨ t.service.work = s.service.work) : exec .arbiterGrant s = .next t := by
  have same : SameHold s t := ends ▸ (moves_arbitrate (hold := false) (config := false) s).sameHold
  rw [exec_arbiterGrant, whenRunningHeld_heldEnd running, ends, heldEnd_none, settleHold_of_sameHold_free settled same free]
  rcases work with none' | kept
  · exact .inl (held.trans none')
  · rwa [held, kept]

end Arbiter

/-- Settles O28: each side is granted in its turn (`arbitrate_engine`, `arbitrate_service`); a segment not owned is refused. -/
theorem portGranted : Obligations.PortGranted := by
  intro s running settled stopped room idle
  obtain ⟨p, free⟩ := freePort_room room
  have unused := freePort_unused free
  refine ⟨fun op rest queue turn => ⟨p, unused, ?_⟩, fun op seg side block turn => ⟨fun owned => ⟨p, unused, ?_⟩, ?_⟩⟩
  · exact exec_arbiterGrant_end running settled idle (arbitrate_engine stopped free queue turn) rfl rfl (.inr rfl)
  · have ends := arbitrate_service stopped free side turn
    simp only [grantService, side, block, Option.any_some, serviceOwns_iff.mpr owned, if_true] at ends
    exact exec_arbiterGrant_end running settled idle ends rfl rfl (.inr rfl)
  · intro others w work noHeld
    have ends := arbitrate_refuses stopped room side block turn others work
    exact exec_arbiterGrant_end running settled idle ends rfl rfl (.inl noHeld)

/-! ### The reads and restores of a walk (R67, R69, R72) -/

section Walk
variable {s : State} {c : ReplayContext} {e : Segment} {n : Seq} {h : HeldRecord}

/-- R67: the conditions of a read. -/
theorem nextRead_eq_some : s.nextRead = some (c, e, n) ↔ s.walking .replay = some c ∧ c.next = some n ∧
    (∃ k, c.current = some k ∧ s.segment k = some e) ∧ c.read = none ∧ c.held = none ∧ (e.state = .filling ∨ e.state = .filled) ∧
    ∃ p, e.physical = some p ∧ s.blockOutstanding p = false := by
  have resident : e.resident = true ↔ e.state = .filling ∨ e.state = .filled := by
    rw [Segment.resident]
    cases e.state <;> simp
  constructor
  · intro due
    unfold State.nextRead at due
    split at due
    · cases due
    · rename_i c' walking
      split at due
      · rename_i n' e' next current
        obtain ⟨all, same⟩ := Option.ite_none_right_eq_some.mp due
        cases same
        simp only [Bool.and_eq_true, Option.isNone_iff_eq_none, resident] at all
        obtain ⟨⟨⟨read, held⟩, stands⟩, port⟩ := all
        refine ⟨walking, next, Option.bind_eq_some_iff.mp current, read, held, stands, ?_⟩
        cases phys : e.physical with
        | none => simp [phys] at port
        | some p => exact ⟨p, rfl, by simpa [phys] using port⟩
      · cases due
  · rintro ⟨walking, next, ⟨k, current, entry⟩, read, held, stands, p, phys, free⟩
    simp only [State.nextRead, walking, next, current, Option.bind_some, entry, read, held, resident.mpr stands, phys, free]
    rfl

/-- R69: the conditions of a hand-over. -/
theorem nextRestore_eq_some : s.nextRestore = some (c, h) ↔ (s.epochs.controller = .replay ∨ s.epochs.controller = .refillWait) ∧
    s.walking s.epochs.controller = some c ∧ c.held = some h ∧ c.restores.length < s.service.params.restoreAhead ∧
    ∀ r ∈ c.restores, r.2 ≠ h.line := by
  constructor
  · intro due
    unfold State.nextRestore at due
    split at due
    case isFalse => cases due
    case isTrue walks =>
      split at due
      · cases due
      · rename_i c' walking
        split at due
        · cases due
        · rename_i h' held
          split at due
          · rename_i both
            cases due
            exact ⟨walks, walking, held, both.1, by simpa using both.2⟩
          · cases due
  · rintro ⟨walks, walking, held, ahead, lines⟩
    have all : c.restores.all (fun r => decide (r.2 ≠ h.line)) = true := by simpa using lines
    simp only [State.nextRestore, if_pos walks, walking, held, ahead, all, and_self, if_true]

theorem tagReady_setContext {t : Fin 64} (ready : s.tagReady t) (x : Option ReplayContext) : (setContext x s).tagReady t := ready

theorem tagWait_setContext (waits : s.tagWait) (x : Option ReplayContext) : (setContext x s).tagWait := waits

end Walk

/-- Settles O30: the conditions are `nextRead_eq_some` and `nextRestore_eq_some`; where one fails, nothing is due. -/
theorem replayReadsAndRestores : Obligations.ReplayReadsAndRestores := by
  intro s c running context
  refine ⟨fun noReset noFailure => ⟨?reads, ?restores⟩, ?noRead, ?noRestore⟩
  case reads =>
    intro n k e p replay next current entry resident phys noRead noHeld free
    have due := nextRead_eq_some.mpr
      ⟨walking_of replay noReset context noFailure, next, ⟨k, current, entry⟩, noRead, noHeld, resident, p, phys, free⟩
    have row : exec .recordRead s = if e.slotOf n < Config.recordsPerSegment then .next (issueRecordRead c e n s)
        else .fault .noRecordSlot := by
      rw [exec_recordRead, execRecordRead, if_neg (by rw [running]; decide), due]
    refine ⟨fun small => ?_, fun large => row.trans (if_neg (Nat.not_lt.mpr large))⟩
    refine (row.trans (if_pos small)).trans ?_
    rw [issueRecordRead, phys]
    rfl
  case restores =>
    intro h walks held ahead lines
    have due := nextRestore_eq_some.mpr ⟨walks, walking_of rfl noReset context noFailure, held, ahead, lines⟩
    have row : exec .restoreHandover s = .next (handOverRestore c h s) := by
      rw [exec_restoreHandover, whenRunning, if_neg (by rw [running]; decide), handOverHeld, due]
    refine ⟨_, rfl, fun t ready => ?_, fun waits => ?_⟩
    · rw [row, handOverRestore, handOver_ready (tagReady_setContext ready _)]
      rfl
    · rw [row, handOverRestore, handOver_wait (tagWait_setContext waits _)]
      rfl
  case noRead =>
    intro fails
    rw [exec_recordRead]
    refine execRecordRead_none (Option.eq_none_iff_forall_ne_some.mpr fun ⟨c', e, n⟩ due => ?_)
    obtain ⟨walking, next, ⟨k, current, entry⟩, read, held, resident, p, phys, free⟩ := nextRead_eq_some.mp due
    obtain ⟨replay, noReset, context', noFailure⟩ := walking_some walking
    cases context.symm.trans context'
    rcases fails with h | h | h | h | h | h | h | ⟨k', e', p', current', entry', phys', o, there, block⟩
    · exact h noReset
    · exact h replay
    · exact h noFailure
    · cases next.symm.trans h
    · exact h read
    · exact h held
    · exact resident.elim (h k e current entry).1 (h k e current entry).2
    · cases current.symm.trans current'
      cases entry.symm.trans entry'
      cases phys.symm.trans phys'
      exact absurd (List.any_eq_true.mpr ⟨o, there, by rw [block]; simp⟩) (Bool.eq_false_iff.mp free)
  case noRestore =>
    intro fails
    have none' : s.nextRestore = none := Option.eq_none_iff_forall_ne_some.mpr fun ⟨c', h⟩ due => by
      obtain ⟨walks, walking, held, ahead, lines⟩ := nextRestore_eq_some.mp due
      obtain ⟨-, noReset, context', noFailure⟩ := walking_some walking
      cases context.symm.trans context'
      rcases fails with h | h | h | h | h | ⟨h', held', r, there, line⟩
      · exact h noReset
      · exact walks.elim h.1 h.2
      · exact h noFailure
      · cases held.symm.trans h
      · exact Nat.not_lt.mpr h ahead
      · cases held.symm.trans held'
        exact lines r there line
    rw [exec_restoreHandover, whenRunning, if_neg (by rw [running]; decide), handOverHeld_none none']

end Sys2Proof.Machine
end

section
/-! PROOF. The completion of a record write (R15, R22, R50, R57), and what a write of the port leaves in the journal memory. -/

namespace Sys2Proof.Machine

/-! ### Bytes written (R6) -/

/-- A write changes the bytes it covers alone. -/
theorem writeBytes_outside {m : Memory} (wf : Memory.wf m = true) {base a : Nat} {bytes : List Byte}
    (outside : a < base ∨ base + bytes.length ≤ a) : Memory.read (Memory.writeBytes m base bytes) a = Memory.read m a := by
  rw [Memory.read_writeBytes m base bytes a wf, if_neg (by omega)]

theorem writeBytes_inside {m : Memory} (wf : Memory.wf m = true) (base : Nat) {bytes : List Byte} (k : Fin bytes.length) :
    Memory.read (Memory.writeBytes m base bytes) (base + k.val) = bytes[k] := by
  rw [Memory.read_writeBytes m base bytes _ wf, if_pos (by omega), Nat.add_sub_cancel_left]
  exact List.getD_eq_getElem bytes 0 k.isLt

/-- What a faulted write leaves in the place of `bytes` (free values, log 10). -/
def faultedBytes (bytes : List Byte) (s : State) : List Byte := (List.range bytes.length).map (Config.faultedByte s.fresh)

theorem faultedBytes_length (bytes : List Byte) (s : State) : (faultedBytes bytes s).length = bytes.length := by
  rw [faultedBytes, List.length_map, List.length_range]

/-! ### The row of a record write (R15) -/

section Write
variable {s : State} {port i : Fin 8} {seg : Phys} {place : Nat} {n : Seq} {q : SegNo} {record : List Byte} {status : Status}
  {sl : Slot}

theorem recordWriteEnds_discards (op : s.portOp port = some (.recordWrite i seg place n q record)) (stopped : s.portStopped = true) :
    recordWriteEnds port status s = landWrite (recordAddress seg place) record status (dropPort port s) := by
  simp only [recordWriteEnds, op, stopped, if_true]

theorem recordWriteEnds_ok (op : s.portOp port = some (.recordWrite i seg place n q record)) (running : s.portStopped = false)
    (held : s.capture.slots[i] = some sl) : recordWriteEnds port .ok s =
      goToIssue sl.entry (freeSlot i (insertMark sl.line (landWrite (recordAddress seg place) record .ok (dropPort port s)))) := by
  have held' : (landWrite (recordAddress seg place) record .ok (dropPort port s)).capture.slots[i] = some sl := held
  simp only [recordWriteEnds, op, running, Bool.false_eq_true, if_false, appendOk, held']

theorem recordWriteEnds_fault (op : s.portOp port = some (.recordWrite i seg place n q record)) (running : s.portStopped = false)
    (held : s.capture.slots[i] = some sl) {v : State}
    (landed : landWrite (recordAddress seg place) record .fault (dropPort port s) = v) : recordWriteEnds port .fault s =
      goToIssue sl.entry (freeSlot i (breakTop .journalFault (post s.topNumber (.journalFault n seg) v))) := by
  have held' : v.capture.slots[i] = some sl := landed ▸ held
  have top : v.topNumber = s.topNumber := by rw [← landed]; rfl
  simp only [recordWriteEnds, op, running, Bool.false_eq_true, if_false, landed, appendFault, held', top]

/-- Outside a core reset a record write ends the step by itself. -/
theorem exec_recordWrite_end {t : State} (quiet : s.quiet) (noReset : s.service.coreReset = none)
    (ended : recordWriteEnds port status s = t) (work : t.service.work = s.service.work) (free : t.freeCount = s.freeCount) :
    exec (.recordWriteCompletion port status) s = .next t := by
  have same : SameHold s t := ended ▸ (moves_recordWriteEnds (hold := false) (config := false) port status s).sameHold
  have settled : s.holdSettled := by
    obtain ⟨-, settled, -⟩ := quiet
    exact settled
  rw [exec_recordWriteCompletion, whenRunningHeld_heldEnd quiet.1, ended, (settleCoreReset_none (same.coreReset.trans noReset)).1,
    heldEnd_idle quiet same.held work, settleHold_of_sameHold_free settled same free]

/-- R22, R171: between CORE_RESET and the journal step a record write is discarded. -/
theorem exec_recordWrite_reset {r : CoreReset} {t : State} (quiet : s.quiet) (reset : s.service.coreReset = some r)
    (waits : r.journalDone = false) (op : s.portOp port = some (.recordWrite i seg place n q record))
    (landed : landWrite (recordAddress seg place) record status (dropPort port s) = t) (work : t.service.work = s.service.work)
    (running : t.inReset = s.inReset) (free : t.freeCount = s.freeCount) :
    exec (.recordWriteCompletion port status) s =
      if t.journal.outstanding = [] then exec .journalStep t else .next t := by
  have ended := (recordWriteEnds_discards (status := status) op (portStopped_reset reset waits)).trans landed
  have same : SameHold s t := ended ▸ (moves_recordWriteEnds (hold := false) (config := false) port status s).sameHold
  rw [exec_recordWriteCompletion, whenRunningHeld_heldEnd quiet.1, ended]
  exact port_reset quiet reset waits same work (running.trans quiet.1) free

theorem breakTop_unplaced (r : BrokenReason) (s : State) :
    (breakTop r s).host.table.map Entry.unplaced = s.host.table.map Entry.unplaced := by
  cases stack : s.epochs.stack with
  | nil => rw [breakTop_none stack]
  | cons e rest =>
    by_cases opened : e.broken = none
    · exact (breakTop_path stack opened r).entries.trans (by simp)
    · rw [breakTop_broken stack opened]

theorem breakTop_post_unplaced (r : BrokenReason) (m : Option EpochNo) (k : EventKind) (s : State) :
    (breakTop r (post m k s)).host.table.map Entry.unplaced = s.host.table.map Entry.unplaced := by
  rw [breakTop_unplaced, post_host]

end Write

/-- Settles O29: OK and FAULT by `issue_freed`, and the discard of a core reset; the bytes by `writeBytes_outside` and `_inside`. -/
theorem recordWriteCompletes : Obligations.RecordWriteCompletes := by
  refine ⟨?running, ?reset⟩
  case running =>
    intro s port i seg place n q record sl e quiet noReset op held there wf
    have running := coreReset_none_running noReset
    refine ⟨⟨_, rfl, ?_, ?_, ?_⟩, ?fault⟩
    · intro w x freed issues
      have issued := issue_freed (s := s) (by rw [insertMark_eq]; rfl) there freed issues
      have path := issued ▸ (freeSlot_path i _).trans (goToIssue_path sl.entry (freeSlot i _))
      refine exec_recordWrite_end quiet noReset ((recordWriteEnds_ok op running held).trans issued) ?_ ?_
      · rw [path.service, insertMark_eq]
        rfl
      · rw [State.freeCount, path.journal, insertMark_journal]
        rfl
    · intro a outside
      rw [insertMark_journal]
      exact writeBytes_outside wf outside
    · intro k
      rw [insertMark_journal]
      exact writeBytes_inside wf _ k
    case fault =>
      refine ⟨_, faultedBytes record s, faultedBytes_length record s, rfl, ?_, fun a outside =>
        writeBytes_outside wf (by rwa [faultedBytes_length])⟩
      intro w x freed issues
      have issued := issue_freed (s := s) (by rw [breakTop_post_unplaced]; rfl) there freed issues
      have path := issued ▸ (freeSlot_path i _).trans (goToIssue_path sl.entry (freeSlot i _))
      refine exec_recordWrite_end quiet noReset ((recordWriteEnds_fault op running held rfl).trans issued) ?_ ?_
      · rw [path.service, breakTop_work, post_work]
        rfl
      · rw [State.freeCount, path.journal, breakTop_free, post_journal]
        rfl
  case reset =>
    intro s r port i seg place n q record others quiet reset waits op wf hothers
    subst hothers
    refine ⟨⟨_, rfl, ?_, fun a outside => writeBytes_outside wf outside, fun k => writeBytes_inside wf _ k⟩,
      _, faultedBytes record s, faultedBytes_length record s, rfl, ?_, fun a outside =>
        writeBytes_outside wf (by rwa [faultedBytes_length])⟩
    · exact exec_recordWrite_reset quiet reset waits op rfl rfl rfl rfl
    · exact exec_recordWrite_reset quiet reset waits op rfl rfl rfl rfl

end Sys2Proof.Machine
end

section
/-! PROOF. The completion of a block transfer (R89), and what waited for it (R29, R79). -/

namespace Sys2Proof.Machine

/-! ### What a transfer leaves -/

section Ends
variable {s t u : State} {w : Work} {a : Answer}

/-- Outside a walk no rollback settles. -/
theorem settleRollback_outside (out : ¬ s.epochs.walks) : settleRollback s = s := by
  have none' : ∀ c, c = .replay ∨ c = .refillWait → s.walking c = none := fun c walk =>
    walking_of_controller_ne fun same => out (by rw [EpochCtl.walks, same]; exact walk)
  refine settleRollback_notDue ?_ ?_ ?_
  · rw [State.refillDue, none' _ (.inr rfl)]
  · rw [State.failureCompletes]
    simp only [EpochCtl.walks, not_or] at out
    rw [decide_eq_false out.1, decide_eq_false out.2]
    rfl
  · rw [State.rollbackSucceeds, none' _ (.inl rfl)]

theorem commitEffect_idle (s : State) : (commitEffect s).epochs.controller = .idle := by
  have idle : ∀ u, (releaseParked (setController .idle none u)).epochs.controller = .idle := fun u => by
    rw [(releaseParked_path _).epochs]
    rfl
  unfold commitEffect
  split
  · exact idle _
  · exact idle _
  · exact idle _

/-- What a transfer that completes changes before it is answered: its operation is outstanding no more, bytes may be written. -/
def State.landed (s u : State) : Prop :=
  ∃ out memory fresh, u = (s.setJournal { s.journal with outstanding := out, memory := memory }).setFresh fresh

theorem drainComplete_landed (landed : s.landed u) (other : s.epochs.command ≠ some .commit) :
    u.drainComplete = s.drainComplete := by
  obtain ⟨out, memory, fresh, rfl⟩ := landed
  cases pending : s.epochs.command with
  | none => simp [State.drainComplete, pending]
  | some c =>
    have notCommit : c ≠ .commit := fun same => other (same ▸ pending)
    simp only [State.drainComplete, State.setFresh_epochs, State.setJournal_epochs, pending, notCommit, decide_false, Bool.false_and]
    rfl

theorem drainComplete_noReset (drained : s.drainComplete = true) : s.service.coreReset = none := by
  rw [State.drainComplete, Bool.and_eq_true, Bool.and_eq_true, Option.isNone_iff_eq_none] at drained
  exact drained.1.2

/-- What a step that leaves `u` with the command at work ended settles by itself, where no drain and no failure completes. -/
theorem afterBlockTransfer_plain (quiet : s.quiet) (running : s.portStopped = false) (landed : s.landed u)
    (drains : u.drainComplete = false) (fails : u.failureCompletes = false) : afterBlockTransfer (u.ends w a) = u.ends w a := by
  obtain ⟨-, -, refill, -, success, -, ends, -⟩ := quiet
  have drain : settleDrain (u.ends w a) = u.ends w a := settleDrain_notDue (s := u.ends w a) drains
  have rollback : settleRollback (u.ends w a) = u.ends w a := by
    obtain ⟨out, memory, fresh, rfl⟩ := landed
    exact settleRollback_notDue refill fails success
  have coreReset : settleCoreReset (u.ends w a) = u.ends w a := by
    obtain ⟨out, memory, fresh, rfl⟩ := landed
    refine settleCoreReset_notDue ?_ ends
    rw [State.journalStepDue]
    cases reset : s.service.coreReset with
    | none => simp [State.ends, reset]
    | some r => simp_all [State.ends, State.portStopped]
  rw [afterBlockTransfer, drain, rollback, coreReset]

/-- The completion of a transfer with no core reset to settle, no frame held: the drain and the failure that it brings about. -/
theorem transferEnds_of {i : Instr} (quiet : s.quiet) (running : s.portStopped = false) (noHeld : s.service.held = none)
    (landed : s.landed u) (row : exec i s = .next (heldEnd s (afterBlockTransfer (u.ends w a)))) : s.transferEnds i w a u := by
  have plain := afterBlockTransfer_plain (w := w) (a := a) quiet running landed
  obtain ⟨inReset, settled, -, -, -, -, -, drain, -⟩ := quiet
  have hold : SameHold s (u.ends w a) := by
    obtain ⟨out, memory, fresh, rfl⟩ := landed
    exact ⟨⟨rfl, rfl, rfl⟩, rfl, rfl, rfl, rfl⟩
  have free : (u.ends w a).freeCount = s.freeCount := by
    obtain ⟨out, memory, fresh, rfl⟩ := landed
    rfl
  have running' : (u.ends w a).inReset = false := by
    obtain ⟨out, memory, fresh, rfl⟩ := landed
    exact inReset
  have coreReset : ∀ v, SameHold (u.ends w a) v → s.service.coreReset = none → settleCoreReset v = v := fun v same none' =>
    (settleCoreReset_none (same.coreReset.trans (hold.coreReset.trans none'))).1
  have keptHeld : ∀ v, SameHold s v → heldEnd s v = settleHold s v := fun v same => heldEnd_none (.inl (same.held.trans noHeld))
  refine ⟨fun drains fails => ?plain, fun drains => ?commit, fun c f p walks noReset context failure read restores freed out => ?failure⟩
  case plain =>
    rw [row, plain drains fails, keptHeld _ hold, settleHold_of_sameHold_free settled hold free]
  case commit =>
    have pending : (u.ends w a).epochs.command = some .commit := by
      have same : u.epochs = s.epochs := by
        obtain ⟨out, memory, fresh, rfl⟩ := landed
        rfl
      by_contra other
      have still := drainComplete_landed landed (same ▸ other)
      rw [drain, drains] at still
      cases still
    have noReset : s.service.coreReset = none := hold.coreReset.symm.trans (drainComplete_noReset drains)
    have drained : (u.ends w a).drainComplete = true := drains
    have effect : settleDrain (u.ends w a) = commitEffect (u.ends w a) := by
      rw [settleDrain_command pending, completeDrain_complete pending drained]
      rfl
    have moved := (moves_commitEffect (hold := false) (config := false) (u.ends w a)).sameHold
    have rollback : settleRollback (commitEffect (u.ends w a)) = commitEffect (u.ends w a) :=
      settleRollback_outside (by rw [EpochCtl.walks, commitEffect_idle]; decide)
    rw [row, afterBlockTransfer, effect, rollback, coreReset _ moved noReset, keptHeld _ (hold.trans moved), ← effect,
      (settleDrain_row running' hold settled free).2.1 pending]
  case failure =>
    have noDrain : (u.ends w a).drainComplete = false := by
      have out : (u.ends w a).epochs.controller ≠ .draining := by
        rcases walks with walk | walk <;> (change u.epochs.controller ≠ .draining; rw [walk]; decide)
      rw [State.drainComplete, decide_eq_false out]
      rfl
    have completes : (u.ends w a).failureCompletes = true :=
      (failureCompletes_iff (s := u.ends w a) walks noReset context failure).mpr ⟨read, restores, fun p' freed' => by
        cases freed.symm.trans freed'
        exact out⟩
    have noReset' : s.service.coreReset = none := hold.coreReset.symm.trans noReset
    have rolled := settleRollback_sameHold (u.ends w a)
    have failed := settleRollback_failed_row running' settled hold (.inl free) (c := c) context failure
    rw [row, afterBlockTransfer, settleDrain_notDue noDrain, coreReset _ rolled noReset', keptHeld _ (hold.trans rolled), failed,
      if_pos completes]

end Ends

/-! ### The rows of a block transfer (R89, R96) -/

section Transfer
variable {s : State} {port : Fin 8} {seg block : Byte} {w : Work} {status : Status}

theorem respond_ends {a : Answer} (work : s.service.work = some w) : respond a s = s.ends w a := by
  rw [respond, work]
  rfl

theorem usePortFresh_fresh (n : Nat) (data : PortData) (s : State) : ∃ fresh, usePortFresh n data s = s.setFresh fresh := by
  unfold usePortFresh
  split
  · exact ⟨s.fresh, rfl⟩
  · split
    · exact ⟨s.fresh + 1, rfl⟩
    · exact ⟨s.fresh, rfl⟩

theorem blockReadEnds_answers {data : PortData} (op : s.portOp port = some (.blockRead seg block)) (running : s.portStopped = false)
    (work : s.service.work = some w) : blockReadEnds port status data s = (usePortFresh 256 data (dropPort port s)).ends w
      (.done (blockReadPayload status (portBytes (blockAddress seg block) 256 data s))) := by
  simp only [blockReadEnds, op, running, Bool.false_eq_true, if_false]
  refine respond_ends (s := usePortFresh 256 data (dropPort port s)) ?_
  obtain ⟨fresh, used⟩ := usePortFresh_fresh 256 data (dropPort port s)
  rw [used]
  exact work

theorem blockWriteEnds_answers {data : List Byte} (op : s.portOp port = some (.blockWrite seg block data))
    (running : s.portStopped = false) (work : s.service.work = some w) {v : State}
    (landed : landWrite (blockAddress seg block) data status (dropPort port s) = v) (keeps : v.service = s.service) :
    blockWriteEnds port status s = v.ends w (.done (leBytes 1 (transferCode status))) := by
  simp only [blockWriteEnds, op, running, Bool.false_eq_true, if_false, landed]
  exact respond_ends (by rw [keeps]; exact work)

end Transfer

/-- Settles O32: the rows answer (`blockReadEnds_answers`, `blockWriteEnds_answers`) and end as `transferEnds_of` says. -/
theorem blockTransferCompletes : Obligations.BlockTransferCompletes := by
  intro s port seg block w u quiet running noHeld work wf hu
  refine ⟨fun data bytes op hbytes length => ?_, fun data op => ⟨⟨_, rfl, ?_, ?_, ?_⟩,
    _, faultedBytes data s, faultedBytes_length data s, rfl, ?_, ?_⟩⟩
  · have exact : ∀ bytes, data = .returned bytes → bytes.length = 256 := fun bytes returned => by
      subst returned
      rw [← length, hbytes]
    have brings : portBytes (blockAddress seg block) 256 data s = bytes := by
      rw [(portBytes_exact _ exact s s).2]
      subst hbytes
      cases data <;> rfl
    have drop : dropPort port s = u := by rw [hu]; rfl
    have ends : ∀ status, s.transferEnds (.blockReadCompletion port status data) w (.done (blockReadPayload status bytes)) u :=
      fun status => by
        refine transferEnds_of quiet running noHeld
          ⟨s.journal.outstanding.filter fun o => decide (o.1 ≠ port), s.journal.memory, s.fresh, hu⟩ ?_
        rw [exec_blockReadCompletion, whenRunningHeld_heldEnd quiet.1, blockReadEnds_answers op running work, brings, drop,
          (portBytes_exact 0 exact s u).1]
    exact ⟨ends .ok, ends .fault⟩
  all_goals subst hu
  · refine transferEnds_of quiet running noHeld ⟨_, Memory.writeBytes s.journal.memory _ data, s.fresh, rfl⟩ ?_
    rw [exec_blockWriteCompletion, whenRunningHeld_heldEnd quiet.1, blockWriteEnds_answers op running work rfl rfl]
    rfl
  · exact fun a outside => writeBytes_outside wf outside
  · exact fun k => writeBytes_inside wf _ k
  · refine transferEnds_of quiet running noHeld ⟨_, Memory.writeBytes s.journal.memory _ (faultedBytes data s), s.fresh + 1, rfl⟩ ?_
    rw [exec_blockWriteCompletion, whenRunningHeld_heldEnd quiet.1, blockWriteEnds_answers op running work rfl rfl]
    rfl
  · exact fun a outside => writeBytes_outside wf (by rwa [faultedBytes_length])

end Sys2Proof.Machine
end

section
/-! PROOF. The undo record as built (R2, R3, R174). -/

namespace Sys2Proof.Machine

/-! ### Sums of 16-bit words (R2) -/

/-- R2, step 4, as a function: the equation that a fold satisfies. -/
def Folds (fold : Nat → Nat) : Prop := ∀ n, fold n = if n < 65536 then n else fold (n % 65536 + n / 65536)

/-- A folded sum has 16 bits, is the sum modulo 65535, and is zero for zero alone. -/
theorem Folds.spec {fold : Nat → Nat} (h : Folds fold) (v : Nat) :
    fold v < 65536 ∧ fold v % 65535 = v % 65535 ∧ (fold v = 0 → v = 0) := by
  induction v using Nat.strong_induction_on with
  | _ v ih =>
    rw [h v]
    split
    · omega
    · have next := ih (v % 65536 + v / 65536) (by omega)
      omega

theorem foldSum_fits {v : Nat} (fits : v < 65536) : ∀ n, foldSum n v = v
  | 0 => rfl
  | _ + 1 => if_pos fits

/-- Two folds are enough for a sum of 32 bits. -/
theorem Folds.foldSum {fold : Nat → Nat} (h : Folds fold) {v : Nat} (small : v < 2 ^ 32) (n : Nat) :
    foldSum (n + 2) v = fold v := by
  rw [h v, Machine.foldSum]
  split
  · rfl
  · rw [h, Machine.foldSum]
    split
    · rfl
    · have fits : (v % 65536 + v / 65536) % 65536 + (v % 65536 + v / 65536) / 65536 < 65536 := by omega
      rw [foldSum_fits fits, h, if_pos fits]

theorem halfWordSum_append {a : List Byte} (even : 2 ∣ a.length) (b : List Byte) :
    halfWordSum (a ++ b) = halfWordSum a + halfWordSum b := by
  induction a using halfWordSum.induct with
  | case1 x y rest ih =>
    rw [List.cons_append, List.cons_append, halfWordSum, halfWordSum, ih (by simpa [Nat.dvd_add_self_right] using even)]
    omega
  | case2 a short =>
    match a, short with
    | [], _ => simp [halfWordSum]
    | [x], _ => simp at even
    | x :: y :: rest, short => exact absurd rfl (short x y rest)

theorem halfWordSum_le (a : List Byte) : halfWordSum a ≤ 65536 * a.length := by
  induction a using halfWordSum.induct with
  | case1 x y rest ih =>
    rw [halfWordSum, List.length_cons, List.length_cons]
    have := x.isLt
    have := y.isLt
    omega
  | case2 a short => rw [halfWordSum]; exact Nat.zero_le _; exact short

/-- The 16-bit word `k` of a list of bytes, low byte first. -/
def halfWord (r : List Byte) (k : Nat) : Nat := (r.getD (2 * k) 0).toNat + 256 * (r.getD (2 * k + 1) 0).toNat

theorem halfWord_eq (r : List Byte) (k : Nat) : halfWord r k = leValue ((r.drop (2 * k)).take 2) := by
  have low : r.getD (2 * k) 0 = (r.drop (2 * k)).getD 0 0 := by simp [List.getD_eq_getElem?_getD]
  have high : r.getD (2 * k + 1) 0 = (r.drop (2 * k)).getD 1 0 := by simp [List.getD_eq_getElem?_getD]
  rw [halfWord, low, high]
  match r.drop (2 * k) with
  | [] => rfl
  | [_] => rfl
  | _ :: _ :: _ => rfl

theorem halfWordSum_words {n : Nat} : ∀ {r : List Byte}, r.length = 2 * n →
    halfWordSum r = ((List.range n).map (halfWord r)).sum := by
  induction n with
  | zero =>
    intro r length
    rw [List.length_eq_zero_iff.mp length]
    rfl
  | succ n ih =>
    intro r length
    match r, length with
    | x :: y :: rest, length =>
      rw [halfWordSum, List.range_succ_eq_map, List.map_cons, List.sum_cons, List.map_map,
        ih (r := rest) (by simp only [List.length_cons] at length; omega)]
      rfl

/-! ### The bytes of a record (R174) -/

section Record
variable (line : Line) (seq : Seq) (epoch : EpochNo) (master : Fin 4) (depth sum : Nat) (data : List Byte)

/-- The 12 bytes before the checksum. -/
def recordHead : List Byte :=
  leBytes 4 line.toNat ++ leBytes 4 seq.toNat ++ leBytes 2 epoch.toNat ++ leBytes 1 master.val ++ leBytes 1 depth

theorem recordHead_length : (recordHead line seq epoch master depth).length = 12 := by
  simp [recordHead, leBytes_length]

theorem recordLayout_eq : recordLayout line seq epoch master depth sum data =
    recordHead line seq epoch master depth ++ (leBytes 2 sum ++ ([0, 0] ++ data)) := by
  simp only [recordLayout, recordHead, List.append_assoc]

theorem recordLayout_head : (recordLayout line seq epoch master depth sum data).take 12 = recordHead line seq epoch master depth := by
  rw [recordLayout_eq, List.take_left' (recordHead_length line seq epoch master depth)]

theorem recordLayout_sum : ((recordLayout line seq epoch master depth sum data).drop 12).take 2 = leBytes 2 sum := by
  rw [recordLayout_eq, List.drop_left' (recordHead_length line seq epoch master depth), List.take_left' (leBytes_length 2 sum)]

theorem clearChecksum_layout : clearChecksum (recordLayout line seq epoch master depth sum data) =
    recordLayout line seq epoch master depth 0 data := by
  have tail : (recordLayout line seq epoch master depth sum data).drop 14 = [0, 0] ++ data := by
    rw [recordLayout_eq, ← List.append_assoc]
    exact List.drop_left' (by rw [List.length_append, recordHead_length, leBytes_length])
  rw [clearChecksum, recordLayout_head, tail, recordLayout_eq, List.append_assoc]
  rfl

theorem checksum_lt (r : List Byte) : checksum r < 256 ^ 2 := by
  rw [checksum]
  split <;> omega

theorem halfWordSum_layout : halfWordSum (recordLayout line seq epoch master depth sum data) =
    halfWordSum (recordHead line seq epoch master depth) + leValue (leBytes 2 sum) + halfWordSum data := by
  rw [recordLayout_eq, halfWordSum_append (by rw [recordHead_length]; decide), halfWordSum_append (by rw [leBytes_length]),
    halfWordSum_append (by decide)]
  simp [halfWordSum, leBytes, leValue, Nat.add_assoc]

end Record

section ReadBack
variable (line : Line) (seq : Seq) (epoch : EpochNo) (master : Fin 4) (depth sum : Nat) {data : List Byte}

theorem recordLayout_length (length : data.length = 64) : (recordLayout line seq epoch master depth sum data).length = 80 := by
  simp [recordLayout_eq, recordHead_length, leBytes_length, length]

theorem recordLine_layout : recordLine (recordLayout line seq epoch master depth sum data) = line := by
  have four : (recordLayout line seq epoch master depth sum data).take 4 = leBytes 4 line.toNat := by
    simp only [recordLayout, List.append_assoc]
    exact List.take_left' (leBytes_length 4 _)
  have small : line.toNat < 256 ^ 4 := line.isLt.trans (by decide)
  rw [recordLine, four, leValue_leBytes_of_lt small, BitVec.ofNat_toNat, BitVec.setWidth_eq]

theorem recordSeq_layout : recordSeq (recordLayout line seq epoch master depth sum data) = seq := by
  have four : ((recordLayout line seq epoch master depth sum data).drop 4).take 4 = leBytes 4 seq.toNat := by
    simp only [recordLayout, List.append_assoc]
    rw [List.drop_left' (leBytes_length 4 _)]
    exact List.take_left' (leBytes_length 4 _)
  rw [recordSeq, four, leValue_leBytes_of_lt seq.isLt, BitVec.ofNat_toNat, BitVec.setWidth_eq]

theorem recordData_layout (length : data.length = 64) : recordData (recordLayout line seq epoch master depth sum data) = data := by
  have last : (recordLayout line seq epoch master depth sum data).drop 16 = data :=
    List.drop_left' (by rw [List.length_append, ← recordHead, List.length_append, recordHead_length, leBytes_length]; rfl)
  rw [recordData, last, ← length, List.take_length]

end ReadBack

/-- R2: the checksum closes the folded sum of all words to 0xFFFF. -/
theorem Folds.closes {fold : Nat → Nat} (h : Folds fold) (v : Nat) :
    fold (v + if 65535 - fold v = 0 then 65535 else 65535 - fold v) = 65535 := by
  have rest := h.spec v
  split
  · have total := h.spec (v + 65535)
    omega
  · have total := h.spec (v + (65535 - fold v))
    omega

/-- Settles O15: the layout field by field, and the arithmetic of the folded sum (`Folds.spec`). -/
theorem builtRecordReadsBack : Obligations.BuiltRecordReadsBack := by
  intro line seq epoch master depth data length
  have stored : leValue (leBytes 2 (checksum (recordLayout line seq epoch master depth 0 data))) =
      checksum (recordLayout line seq epoch master depth 0 data) := leValue_leBytes_of_lt (checksum_lt _)
  have again : checksum (buildRecord line seq epoch master depth data) = checksum (recordLayout line seq epoch master depth 0 data) := by
    rw [checksum, checksum, buildRecord, clearChecksum_layout, clearChecksum_layout]
  refine ⟨⟨recordLayout_length _ _ _ _ _ _ length, ?_, recordSeq_layout _ _ _ _ _ _, recordLine_layout _ _ _ _ _ _,
    recordData_layout _ _ _ _ _ _ length⟩, fun record fold word built folds words => ?_⟩
  · rw [checksumPasses, again, buildRecord, recordLayout_sum, stored, decide_eq_true_eq]
  · have same : word = halfWord record := funext words
    subst same
    have field : halfWord record 6 = checksum (recordLayout line seq epoch master depth 0 data) := by
      rw [halfWord_eq, built, buildRecord, recordLayout_sum, stored]
    have total : ((List.range 40).map (halfWord record)).sum = halfWordSum record :=
      (halfWordSum_words (by rw [built]; exact recordLayout_length _ _ _ _ _ _ length)).symm
    have split : halfWord record 6 + (((List.range 40).filter fun k => decide (k ≠ 6)).map (halfWord record)).sum =
        halfWordSum record := by
      rw [← total, ← List.sum_map_erase (halfWord record) (List.mem_range.mpr (by decide : 6 < 40)),
        List.nodup_range.erase_eq_filter]
      simp only [bne, beq_eq_decide, decide_not, ne_eq]
    have whole : halfWordSum record = halfWordSum (recordHead line seq epoch master depth) +
        checksum (recordLayout line seq epoch master depth 0 data) + halfWordSum data := by
      rw [built, buildRecord, halfWordSum_layout, stored]
    have cleared : halfWordSum (recordLayout line seq epoch master depth 0 data) =
        halfWordSum (recordHead line seq epoch master depth) + 0 + halfWordSum data := halfWordSum_layout _ _ _ _ _ _ _
    have others : (((List.range 40).filter fun k => decide (k ≠ 6)).map (halfWord record)).sum =
        halfWordSum (recordLayout line seq epoch master depth 0 data) := by
      rw [cleared]
      rw [field, whole] at split
      omega
    have small : halfWordSum (recordLayout line seq epoch master depth 0 data) < 2 ^ 32 := by
      have bound := halfWordSum_le (recordLayout line seq epoch master depth 0 data)
      rw [recordLayout_length _ _ _ _ _ _ length] at bound
      omega
    have sum : checksum (recordLayout line seq epoch master depth 0 data) =
        if 65535 - fold (halfWordSum (recordLayout line seq epoch master depth 0 data)) = 0 then 65535
        else 65535 - fold (halfWordSum (recordLayout line seq epoch master depth 0 data)) := by
      rw [checksum, clearChecksum_layout, ← Folds.foldSum folds small 38]
    refine ⟨⟨_, _, rfl, ?_, field, by rw [built]; rfl⟩, ?_⟩
    · rw [others]
      exact sum
    · rw [total, ← split, others, field, sum, Nat.add_comm]
      exact Folds.closes folds _

end Sys2Proof.Machine
end

section
/-! PROOF. The checks of a frame, a frame held behind a command at work, and its taking (R157, R158, R160). -/

namespace Sys2Proof.Machine

/-! ### A frame completed (R157, R158) -/

section Frame
variable {s : State} {c : Instr} {code : Byte} {f : Frame}

theorem frameCheck_badCrc (wrong : f.crc ≠ crc (code :: f.exchange :: (leBytes 2 f.payload.length ++ f.payload))) :
    frameCheck code f = some .badFrame := by
  rw [frameCheck, crcPasses, if_neg (by simpa [frameBody] using wrong)]

theorem frameCheck_goodCrc (right : f.crc = crc (code :: f.exchange :: (leBytes 2 f.payload.length ++ f.payload))) :
    (requestLength code = none → frameCheck code f = some .unknown) ∧ ∀ n, requestLength code = some n →
      frameCheck code f = if f.payload.length = n then none else some .badFrame := by
  have passes : crcPasses code f = true := by simpa [crcPasses, frameBody] using right
  refine ⟨fun unknown => ?_, fun n known => ?_⟩
  · rw [frameCheck, if_pos passes, unknown]
  · rw [frameCheck, if_pos passes, known]

theorem frameComplete_fails {a : Answer} (receiving : s.service.exchange = .receiving) (read : s.service.unread = false)
    (idle : s.service.work = none) (fails : frameCheck code f = some a) (run : List Byte → State → State) :
    frameComplete code f run s = s.answers f a := by
  simp only [frameComplete, receiving, read, and_self, if_true, State.setService_service, idle, takeFrame, fails]
  rw [State.answers, respond]
  simp only [State.setService_service, if_true]
  rw [read, ← idle]
  rfl

theorem frameComplete_holds (receiving : s.service.exchange = .receiving) (read : s.service.unread = false)
    (busy : s.service.work ≠ none) (run : List Byte → State → State) :
    frameComplete code f run s = s.setService { s.service with
      exchange := .working, held := some { code := code, frame := f, attached := true } } := by
  obtain ⟨w, work⟩ := Option.ne_none_iff_exists'.mp busy
  simp only [frameComplete, receiving, read, and_self, if_true, State.setService_service, work]
  rfl

theorem frameComplete_outside (outside : s.service.exchange ≠ .receiving ∨ s.service.unread = true)
    (run : List Byte → State → State) : frameComplete code f run s = s :=
  if_neg fun both => outside.elim (fun other => other both.1) fun unread => by rw [both.2] at unread; cases unread

end Frame

/-! ### A step whose command at work ends, with a frame held -/

section Held
variable {s u : State} {i c : Instr} {w : Work}

/-- `s` with another held frame. -/
def State.holding (h : Option HeldFrame) (s : State) : State := s.setService { s.service with held := h }

theorem quiet_holding (quiet : s.quiet) : (s.holding none).quiet := by
  obtain ⟨running, settled, refill, failure, success, step, ends, drain, -⟩ := quiet
  exact ⟨running, settled, refill, failure, success, step, ends, drain, .inl rfl⟩

/-- Row `i` completes the block transfer of port tag `port`. -/
def State.transfersAt (i : Instr) (port : Fin 8) (seg block : Byte) (s : State) : Prop :=
  (s.portOp port = some (.blockRead seg block) ∧ ∃ status data, i = .blockReadCompletion port status data) ∨
    ∃ data status, s.portOp port = some (.blockWrite seg block data) ∧ i = .blockWriteCompletion port status

theorem usePortFresh_holding (n : Nat) (data : PortData) (h : Option HeldFrame) (s : State) :
    usePortFresh n data (s.holding h) = (usePortFresh n data s).holding h := by
  unfold usePortFresh
  split
  · rfl
  · split <;> rfl

/-- A transfer of port tag `port` has landed: `m` is the memory it leaves, and `n` the number of the next free value. -/
def State.landing (port : Fin 8) (m : Memory) (n : Nat) (s : State) : State :=
  (s.setJournal { s.journal with
    outstanding := s.journal.outstanding.filter fun o => decide (o.1 ≠ port), memory := m }).setFresh n

theorem landing_plain {port : Fin 8} {m : Memory} {n : Nat} {a : Answer} {h : Option HeldFrame} (quiet : (s.holding h).quiet)
    (stopped : s.portStopped = false) (drains : (dropPort port s).drainComplete = false)
    (fails : (dropPort port s).failureCompletes = false) :
    afterBlockTransfer (((s.landing port m n).holding h).ends w a) = ((s.landing port m n).holding h).ends w a :=
  afterBlockTransfer_plain (s := s.holding h) quiet stopped ⟨_, m, n, rfl⟩ drains fails

/-- R89: what the row does, whatever frame is held. -/
theorem transfer_row {port : Fin 8} {seg block : Byte} (running : s.inReset = false) (stopped : s.portStopped = false)
    (work : s.service.work = some w) (row : s.transfersAt i port seg block) : ∃ (m : Memory) (n : Nat) (a : Answer), ∀ h,
      exec i (s.holding h) = .next (heldEnd (s.holding h) (afterBlockTransfer (((s.landing port m n).holding h).ends w a))) := by
  rcases row with ⟨op, status, data, rfl⟩ | ⟨data, status, op, rfl⟩
  · obtain ⟨n, used⟩ := usePortFresh_fresh 256 data (dropPort port s)
    refine ⟨s.journal.memory, n, .done (blockReadPayload status (portBytes (blockAddress seg block) 256 data s)), fun h => ?_⟩
    rw [exec_blockReadCompletion, whenRunningHeld_heldEnd (s := s.holding h) running,
      blockReadEnds_answers (s := s.holding h) op stopped work]
    refine congrArg _ (congrArg _ (congrArg afterBlockTransfer (congrArg (State.ends w _) ?_)))
    exact (usePortFresh_holding 256 data h (dropPort port s)).trans (congrArg (State.holding h) used)
  · cases status with
    | ok =>
      refine ⟨Memory.writeBytes s.journal.memory (blockAddress seg block) data, s.fresh,
        .done (leBytes 1 (transferCode .ok)), fun h => ?_⟩
      rw [exec_blockWriteCompletion, whenRunningHeld_heldEnd (s := s.holding h) running,
        blockWriteEnds_answers (s := s.holding h) op stopped work rfl rfl]
      rfl
    | fault =>
      refine ⟨Memory.writeBytes s.journal.memory (blockAddress seg block) (faultedBytes data s), s.fresh + 1,
        .done (leBytes 1 (transferCode .fault)), fun h => ?_⟩
      rw [exec_blockWriteCompletion, whenRunningHeld_heldEnd (s := s.holding h) running,
        blockWriteEnds_answers (s := s.holding h) op stopped work rfl rfl]
      rfl

end Held

/-- Settles O56: the checks, the three cases of `frameComplete`, and `takesHeld_of` for the two rows that end a block transfer. -/
theorem framesCheckedAndHeld : Obligations.FramesCheckedAndHeld := by
  refine ⟨fun code f => ⟨frameCheck_badCrc, fun right => (frameCheck_goodCrc right).1, fun n right => (frameCheck_goodCrc right).2 n⟩,
    fun c code f s row running settled => ⟨fun a receiving read idle fails => ?fails, fun receiving read busy => ?holds,
      fun outside => ?outside⟩, ?grant, ?transfer⟩
  case fails =>
    rw [exec_frame row running settled, frameComplete_fails receiving read idle fails]
    exact congrArg _ (settleHold_of_same settled rfl rfl rfl)
  case holds =>
    rw [exec_frame row running settled, frameComplete_holds receiving read busy]
    exact congrArg _ (settleHold_of_same settled rfl rfl rfl)
  case outside =>
    rw [exec_frame row running settled, frameComplete_outside outside]
    exact congrArg _ (settleHold_of_same settled rfl rfl rfl)
  case grant =>
    intro c s w op seg running settled stopped room side block turn others work detached
    have ends := arbitrate_refuses stopped room side block turn others work
    refine takesHeld_of (u := (s.setJournal { s.journal with serviceSide := none }).ends w (.refused .notOwner))
      ?_ settled running rfl rfl ?_ rfl rfl rfl rfl rfl
    · rw [exec_arbiterGrant, whenRunningHeld_heldEnd running, ends, heldEnd]
    · simp [State.ends, detached]
  case transfer =>
    intro i c s w port seg block u quiet stopped work detached row hu drains fails
    subst hu
    obtain ⟨m, n, a, rows⟩ := transfer_row quiet.1 stopped work row
    have settled : s.holdSettled := by
      obtain ⟨-, settled, -⟩ := quiet
      exact settled
    have unheld := rows none
    rw [landing_plain (quiet_holding quiet) stopped drains fails, heldEnd_none (.inl rfl),
      settleHold_of_sameHold_free (s := s.holding none) (t := ((s.landing port m n).holding none).ends w a) settled
        ⟨⟨rfl, rfl, rfl⟩, rfl, rfl, rfl, rfl⟩ rfl] at unheld
    have held := rows s.service.held
    rw [landing_plain (h := s.service.held) quiet stopped drains fails] at held
    refine ⟨_, unheld, takesHeld_of held settled quiet.1 rfl rfl ?_ rfl rfl rfl rfl rfl⟩
    simp [State.ends, State.holding, State.landing, detached]

end Sys2Proof.Machine
end

section
/-! PROOF. The beginning and the end of a core reset (R170, R172). -/

namespace Sys2Proof.Machine

/-! ### CORE_RESET is taken (R170) -/

theorem coreResetSlot_eq (x : Option Slot) :
    coreResetSlot x = x.map fun sl => if sl.stage = .read then { sl with stage := .discard } else sl := by
  cases x with
  | none => rfl
  | some sl => exact (apply_ite some _ _ _).symm

/-- Settles O58: the effect is `beginCoreReset`, and the journal step is due where the port is empty. -/
theorem coreResetBegins : Obligations.CoreResetBegins := by
  intro s f v u taken settled hv hu
  have running : s.inReset = false := by
    obtain ⟨running, -⟩ := taken
    exact running
  have begins : beginCoreReset (s.withExchange .working (some { exchange := f.exchange, attached := true })) = u := by
    rw [hu, hv, beginCoreReset, show coreResetSlot = _ from funext coreResetSlot_eq]
    rfl
  have row : exec (.coreReset f) s = .next (settleHold s (settleCoreReset u)) := by
    rw [exec_frame (code := 0x16) rfl running settled, frameComplete_takes taken, ← begins]
    rfl
  have coreReset : u.service.coreReset = some {
      controller := s.epochs.controller, command := s.epochs.command, top := s.epochs.stack.head?.map (·.number),
      depth := s.epochs.stack.length, journalDone := false, discarded := none } := by rw [hu, hv]; rfl
  have free : u.freeCount = s.freeCount := by rw [hu]; rfl
  have port : u.journal.outstanding = s.journal.outstanding := by rw [hu]; rfl
  refine ⟨fun out => ?_, fun empty noHeld => ?_, ?_, fun w => ?_, ?_⟩
  · have still : settleCoreReset u = u := by
      refine settleCoreReset_notDue ?_ ?_
      · simp [State.journalStepDue, coreReset, port, out]
      · simp [State.coreResetEndDue, coreReset]
    rw [row, still]
    exact congrArg _ (settleHold_of_same settled free (by rw [hu]; rfl) (by rw [hu]; rfl))
  · have held : (settleCoreReset u).service.held = none := by
      have kept := runCommand_held 0x16 f.payload (s.withExchange .working (some { exchange := f.exchange, attached := true }))
      rw [← begins]
      exact kept.trans noHeld
    rw [row, exec_journalStep, whenRunningHeld_heldEnd (by rw [hu]; exact running), settleHold_before free.symm]
    exact congrArg _ (heldEnd_none (s := u) (t := settleCoreReset u) (.inl held)).symm
  · simp [State.acceptLine, coreReset]
  · simp [State.gateOpen, coreReset]
  · simp [State.portStopped, coreReset]

/-! ### The end of a core reset (R172) -/

section End
variable {s u v : State} {r : CoreReset} {w : Work}

/-- R172: the event queue of a core reset that has ended. -/
theorem coreResetEmptied_eq (hu : u = releaseParked ((s.setReplay { s.replay with context := none }).setService
    { s.service with coreReset := none })) : coreResetEmptied r s = u.setService { s.service with
      coreReset := none
      dropped := 0
      events := (match r.discarded with
        | none => []
        | some d => [{ kind := .segmentsDiscarded d.1 d.2, time := s.timebase, epoch := none }]) ++
        [{ kind := .coreResetDone r.controller r.command r.depth, time := s.timebase, epoch := r.top }] } := by
  have path := hu ▸ releaseParked_path ((s.setReplay { s.replay with context := none }).setService { s.service with coreReset := none })
  have time : u.timebase = s.timebase := path.timebase
  have released : releaseParked (setContext none (s.setService { s.service with coreReset := none })) = u := hu.symm
  rw [coreResetEmptied, released]
  cases r.discarded with
  | none => rw [postDiscard, post_room (by simp), ← time, path.service]; rfl
  | some d => rw [postDiscard, post_room (n := none) (by simp), post_room (by simp), ← time, path.service]; rfl

/-- What the end of a core reset leaves, told and with the free count as before. -/
theorem settleCoreResetEnd_ends (reset : s.service.coreReset = some r) (done : r.journalDone = true)
    (restores : ∀ c, s.replay.context = some c → c.restores = []) (work : (coreResetEmptied r s).service.work = some w) :
    settleCoreResetEnd s = (coreResetEmptied r s).ends w (.done []) := by
  have due : s.coreResetEndDue = true := by
    rw [State.coreResetEndDue, reset]
    cases context : s.replay.context with
    | none => simp [done]
    | some c => simp [done, restores c context]
  rw [settleCoreResetEnd, if_pos due, reset]
  exact respond_ends work

end End

/-- Settles O60: the effect is `coreResetEmptied_eq`, and a held frame is taken by `takesHeld_of`. -/
theorem coreResetEnds : Obligations.CoreResetEnds := by
  intro s r w u v running settled reset done restores work hu hv
  have path := hu ▸ releaseParked_path ((s.setReplay { s.replay with context := none }).setService { s.service with coreReset := none })
  have emptied := coreResetEmptied_eq (r := r) hu
  have ends : settleCoreResetEnd s = v := by
    refine (settleCoreResetEnd_ends reset done restores (by rw [emptied]; exact work)).trans
      ((congrArg (State.ends w (.done [])) emptied).trans ?_)
    subst hv
    cases r.discarded <;> rfl
  have row : exec .coreResetEnd s = .next (heldEnd s v) := by
    rw [exec_coreResetEnd, whenRunningHeld_heldEnd running, ends]
  have free : v.freeCount = s.freeCount := by
    rw [hv]
    exact congrArg (fun j : JournalUnit => j.free.length) path.journal
  have told : v.host.holdTold = s.host.holdTold := by rw [hv]; exact path.holdTold
  have force : v.holdInForce = s.holdInForce := by
    rw [hv]
    exact congrArg (fun x : SpaceMonitor => x.auto || x.manual) path.space
  have held : v.service.held = s.service.held := by rw [hv]; rfl
  refine ⟨fun noHeld => ?_, fun c detached _ => ?_, by rw [hu]; exact releaseParked_none _⟩
  · rw [row, heldEnd_none (.inl (held.trans noHeld)), settleHold_of_same settled free told force]
  · refine takesHeld_of row settled (by rw [hv]; exact path.inReset.trans running) held (by rw [hv]; rfl) ?_ (by rw [hv]; rfl)
      free told force rfl
    rw [hv, State.ends, detached]
    rfl

end Sys2Proof.Machine
end

section
/-! PROOF. The journal step of a core reset (R60, R112, R171). -/

namespace Sys2Proof.Machine

/-! ### A hold that leaves force (R106 to R108) -/

/-- What a state with no hold in force shows once its step has ended. -/
def leaveHold (s : State) : State :=
  ((s.setHost { s.host with
    holdTold := false, sendQueue := s.host.sendQueue ++ if s.host.holdTold then [.hold 0] else [] }).setSpace
      { s.space with refreshTimer := if s.host.holdTold then none else s.space.refreshTimer }).setService
        (if s.host.holdTold then (post s.topNumber (.holdChanged false s.freeCount) s).service else s.service)

theorem post_eq_setService (n : Option EpochNo) (k : EventKind) (s : State) : post n k s = s.setService (post n k s).service := by
  unfold post
  split <;> rfl

theorem post_service_congr {n : Option EpochNo} {k : EventKind} {s t : State} (service : t.service = s.service)
    (time : t.timebase = s.timebase) : (post n k t).service = (post n k s).service := by
  unfold post
  rw [service, time]
  split <;> rfl

theorem post_service (n : Option EpochNo) (k : EventKind) (s : State) :
    ∃ events dropped, (post n k s).service = { s.service with events := events, dropped := dropped } := by
  unfold post
  split
  · exact ⟨_, s.service.dropped, rfl⟩
  · exact ⟨s.service.events, _, rfl⟩

theorem leaveHold_service (s : State) :
    ∃ events dropped, (leaveHold s).service = { s.service with events := events, dropped := dropped } := by
  rw [leaveHold, State.setService_service]
  split
  · exact post_service _ _ _
  · exact ⟨s.service.events, s.service.dropped, rfl⟩

theorem announceHold_free {s : State} (free : s.holdInForce = false) : announceHold s = leaveHold s := by
  cases told : s.host.holdTold with
  | false =>
    rw [announceHold_told (free.trans told.symm), leaveHold]
    simp only [told, Bool.false_eq_true, if_false, List.append_nil]
    rw [← told]
    rfl
  | true =>
    rw [announceHold_leaves free told, leaveHold, holdLeaves]
    simp only [told, if_true]
    rw [post_eq_setService,
      post_service_congr (s := s) (t := (send (.hold 0) (tellHold false s)).setSpace { s.space with refreshTimer := none }) rfl rfl]
    rfl

/-- R112, R103: the holds clear where the free count asks for no automatic hold. -/
theorem clearHolds_free {s : State} (order : s.service.params.holdOnFree < s.service.params.holdOffFree)
    (above : s.service.params.holdOffFree ≤ s.freeCount) :
    clearHolds s = leaveHold (s.setSpace { s.space with auto := false, manual := false }) := by
  have asked : (s.setSpace { s.space with manual := false }).autoAsked = false :=
    (if_neg (Nat.not_le.mpr (order.trans_le above))).trans (if_pos above)
  rw [clearHolds, evaluateAuto_eq, asked]
  exact announceHold_free rfl

theorem settleHold_of_follows {s t : State} (follows : t.autoFollows) : settleHold s t = announceHold t := by
  rw [settleHold, evaluateAuto_of_kept follows, ite_self]

/-- A step that ends in a hold that follows the free count ends so wherever it began. -/
theorem heldEnd_of_follows {s t u : State} (follows : (takeHeldWhen false u).autoFollows) : heldEnd s u = heldEnd t u := by
  rw [heldEnd, heldEnd, settleHold_of_follows follows, settleHold_of_follows follows]

/-! ### The parts of the journal step (R171) -/

/-- R171: the journal and the epochs of a core reset are empty. -/
def State.emptied (s : State) : State :=
  (s.setJournal { s.journal with
    map := [], free := s.journal.free ++ s.journal.map.filterMap (·.physical), lastGranted := .service }).setEpochs
      { s.epochs with stack := [], controller := .idle, command := none }

/-- R60: the capture unit of the journal step, before the freed entries go to issue. -/
def State.settling (s : State) : State := s.emptied.setCapture
  { slots := Vector.ofFn s.slotAfterJournalStep, slotQueue := [], marks := [], markSpills := 0 }

section Step
variable {s : State} {r : CoreReset}

theorem journalStep_eq (idle : s.journal.waiting = []) (reset : s.service.coreReset = some r)
    (order : s.service.params.holdOnFree < s.service.params.holdOffFree)
    (above : s.service.params.holdOffFree ≤ s.emptied.freeCount) {w h : State}
    (hw : w = issueAll s.journalStepIssues s.settling)
    (hh : h = leaveHold (w.setSpace { w.space with auto := false, manual := false })) :
    journalStep s = h.setService { h.service with
      mode := .bypass, coreReset := some { r with journalDone := true, discarded := s.segmentRange } } := by
  have path := hw ▸ issueAll_path s.journalStepIssues s.settling
  have captures : settleCaptures (setStack [] (setController .idle none ((discardJournal s).setJournal
      { (discardJournal s).journal with lastGranted := .service }))) = w := by
    rw [discardJournal_idle idle, hw]
    rfl
  have free : w.freeCount = s.emptied.freeCount := by rw [State.freeCount, path.journal]; rfl
  have params : w.service.params = s.service.params := congrArg ServiceIf.params path.service
  have holds : clearHolds w = h := by
    rw [clearHolds_free (params ▸ order) (by rw [params, free]; exact above), hh]
  have kept : h.service.coreReset = some r := by
    obtain ⟨events, dropped, service⟩ := leaveHold_service (w.setSpace { w.space with auto := false, manual := false })
    rw [hh, service]
    exact (congrArg ServiceIf.coreReset path.service).trans reset
  rw [journalStep]
  simp only [captures, holds, kept]
  rfl

/-- R60: the entries that the journal step sends to issue. -/
theorem journalStepIssues_eq {freed : Entry → Bool} (which : ∀ e, freed e = true ↔ e.state = .slotWait ∨
      ∃ (i : Fin 8) (sl : Slot), s.capture.slots[i] = some sl ∧ sl.entry = e.id ∧
        ¬ (sl.stage = .discard ∧ s.readPending i = true)) :
    s.journalStepIssues = (s.host.table.filter freed).map (·.id) := by
  have kept : ∀ i sl, s.capture.slots[i] = some sl →
      ((s.slotAfterJournalStep i).isNone = true ↔ ¬ (sl.stage = .discard ∧ s.readPending i = true)) := fun i sl slot => by
    rw [State.slotAfterJournalStep, slot]
    simp only
    split <;> simp_all
  have same : ∀ e : Entry, (decide (e.state = .slotWait) || (List.finRange 8).any fun i =>
      (s.capture.slots[i].any fun sl => sl.entry == e.id) && (s.slotAfterJournalStep i).isNone) = freed e := fun e => by
    rw [Bool.eq_iff_iff, which]
    simp only [Bool.or_eq_true, decide_eq_true_eq, List.any_eq_true, List.mem_finRange, true_and, Bool.and_eq_true, Option.any_eq_true,
      beq_iff_eq]
    refine or_congr_right ⟨?_, ?_⟩
    · rintro ⟨i, ⟨sl, slot, name⟩, none'⟩
      exact ⟨i, sl, slot, name, (kept i sl slot).mp none'⟩
    · rintro ⟨i, sl, slot, name, out⟩
      exact ⟨i, ⟨sl, slot, name⟩, (kept i sl slot).mpr out⟩
  rw [State.journalStepIssues, funext same]

end Step

/-- Settles O59: the state is `journalStep_eq`; the end of the core reset and the held frame are those of CORE_RESET_END's row. -/
theorem journalStepTaken : Obligations.JournalStepTaken := by
  intro s r running settled reset waits port idle busy order above
  have due : s.journalStepDue = true := by simp [State.journalStepDue, reset, waits, port]
  generalize hw : issueAll s.journalStepIssues s.settling = w
  generalize hh : leaveHold (w.setSpace { w.space with auto := false, manual := false }) = h
  have stepped := journalStep_eq idle reset order above hw.symm hh.symm
  have path := hw ▸ issueAll_path s.journalStepIssues s.settling
  have capture : w.capture = s.settling.capture := hw ▸ issueAll_capture _ _
  obtain ⟨events, dropped, service⟩ := hh ▸ leaveHold_service (w.setSpace { w.space with auto := false, manual := false })
  have row : exec .journalStep s = .next (heldEnd s (settleCoreResetEnd (journalStep s))) := by
    rw [exec_journalStep, whenRunningHeld_heldEnd running, settleJournalStep, if_pos due]
  have told : w.host.holdTold = s.holdInForce := path.holdTold.trans settled
  have running' : (journalStep s).inReset = false := by
    rw [stepped, ← hh]
    exact path.inReset.trans running
  have ends : heldEnd s (settleCoreResetEnd (journalStep s)) = heldEnd (journalStep s) (settleCoreResetEnd (journalStep s)) :=
    heldEnd_of_follows (takeHeldWhen_cleared false (settleCoreResetEnd_cleared (journalStep_cleared s)) |>.follows
      ((settleCoreResetEnd_sameCount _).follows (journalStep_follows s)))
  refine ⟨journalStep s, fun c context out => ?stays, fun _ => ?ends, ?_⟩
  case stays =>
    have notDue : (journalStep s).coreResetEndDue = false := by
      have same : (journalStep s).replay = s.replay := by
        rw [stepped, ← hh]
        exact path.replay
      rw [State.coreResetEndDue, same, context, stepped]
      simp [out]
    have busy' : (journalStep s).service.work ≠ none := by
      rw [stepped, State.setService_service, service, State.setSpace_service, path.service]
      exact busy
    rw [row, settleCoreResetEnd_notDue notDue, heldEnd_none (.inr busy'), settleHold_of_follows (journalStep_follows s),
      announceHold_told]
    rw [stepped, ← hh]
    rfl
  case ends => rw [row, exec_coreResetEnd, whenRunningHeld_heldEnd running', ends]
  rw [stepped]
  subst hh
  refine ⟨path.journal, path.epochs, congrArg CaptureUnit.slotQueue capture, congrArg CaptureUnit.marks capture,
    congrArg CaptureUnit.markSpills capture, fun i => ?slots, ?waiters, fun freed names which => ?issues, ?space, rfl, ?queue, ?events,
    rfl, ?params, ?exchange, rfl, path.replay, path.windows, path.timebase, path.entries⟩
  case slots =>
    refine Eq.trans (b := s.slotAfterJournalStep i) ?_ rfl
    refine (congrArg (fun c : CaptureUnit => c.slots[i]) capture).trans ?_
    exact Vector.getElem_ofFn _
  case waiters =>
    intro e there slotWait
    rw [← hw] at there
    rcases issueAll_issues _ _ e there with state | state | ⟨before, out⟩
    · rw [state] at slotWait
      cases slotWait
    · rw [state] at slotWait
      cases slotWait
    · refine out (List.mem_map_of_mem (List.mem_filter.mpr ⟨before, ?_⟩))
      rw [slotWait]
      rfl
  case issues =>
    rw [journalStepIssues_eq which] at hw
    subst hw
    exact issueAll_issuesAll (t := s.settling) names ⟨rfl, rfl, rfl, rfl⟩ freed
  case space =>
    refine Eq.trans (b := { w.space with
      auto := false, manual := false, refreshTimer := if w.host.holdTold then none else w.space.refreshTimer }) rfl ?_
    rw [told, path.space]
    rfl
  case queue =>
    refine Eq.trans (b := w.host.sendQueue ++ if w.host.holdTold then [.hold 0] else []) rfl ?_
    rw [told, path.sendQueue]
    rfl
  case events =>
    have none' : w.topNumber = none := by rw [State.topNumber, State.top, path.epochs]; rfl
    have posted : (post w.topNumber (.holdChanged false w.freeCount) (w.setSpace { w.space with auto := false, manual := false })).service
        = (post none (.holdChanged false w.freeCount) s).service := by
      rw [none']
      exact post_service_congr path.service path.timebase
    refine Eq.trans (b := (if w.host.holdTold then (post w.topNumber (.holdChanged false w.freeCount)
      (w.setSpace { w.space with auto := false, manual := false })).service else w.service).events) rfl ?_
    rw [told, posted, path.service]
    split <;> rfl
  case params =>
    have kept : w.service.params = s.service.params := congrArg ServiceIf.params path.service
    exact (congrArg ServiceIf.params service).trans kept
  case exchange =>
    have kept : w.service.exchange = s.service.exchange := congrArg ServiceIf.exchange path.service
    exact (congrArg ServiceIf.exchange service).trans kept

end Sys2Proof.Machine
end
